-- ==== Sys2Proof/Word.lean ====
section
/-! DEFINITION. The word types of the engine: a symbol or artifact byte (R7), a 16-bit artifact or configuration
field (R83, R87, R42) and a 32-bit register (R33). -/

namespace Sys2Proof

/-- One symbol or one byte of IN or OUT (R7, R60). -/
abbrev Byte := BitVec 8

/-- A 16-bit field: an LZ77 offset or length (R83), a Huffman character or count (R87), half of LZ_CFG (R42). -/
abbrev Half := BitVec 16

/-- A 32-bit register (R33). -/
abbrev Word := BitVec 32

end Sys2Proof
end

