-- ==== Sys2Proof/Syntax.lean ====
section
/-! DEFINITION. The instructions: every row of spec/opcode_table.json is one constructor. The rows are of two kinds
(30_encoding.md): the command words the host writes to CMD (R90 to R92), and the artifact elements a decompressor
reads from IN and a compressor writes to OUT (R81 to R88). -/

namespace Sys2Proof

/-- One row of the opcode table each, in the table's order. -/
inductive Instr where
  /-- `SEL_COMPRESS`, word 1 (R91, R103) -/
  | selCompress
  /-- `SEL_DECOMPRESS`, word 2 (R91, R105) -/
  | selDecompress
  /-- `RLE_COMPRESS`, word 3 (R91, R210) -/
  | rleCompress
  /-- `RLE_DECOMPRESS`, word 4 (R91, R213) -/
  | rleDecompress
  /-- `LZ77_COMPRESS`, word 5 (R91, R120) -/
  | lz77Compress
  /-- `LZ77_DECOMPRESS`, word 6 (R91, R124) -/
  | lz77Decompress
  /-- `HUF_COMPRESS`, word 7 (R91, R170) -/
  | hufCompress
  /-- `HUF_DECOMPRESS`, word 8 (R91, R180) -/
  | hufDecompress
  /-- reserved OP 0x0 (R92) -/
  | reservedOp0
  /-- reserved OP 0x9 (R92) -/
  | reservedOp9
  /-- reserved OP 0xA (R92) -/
  | reservedOpA
  /-- reserved OP 0xB (R92) -/
  | reservedOpB
  /-- reserved OP 0xC (R92) -/
  | reservedOpC
  /-- reserved OP 0xD (R92) -/
  | reservedOpD
  /-- reserved OP 0xE (R92) -/
  | reservedOpE
  /-- reserved OP 0xF (R92) -/
  | reservedOpF
  /-- any command word with a nonzero bit in 31:4 (R92) -/
  | reservedHigh (w : Word)
  /-- `lz77.literal`: flag 0x00 and the symbol (R82) -/
  | lz77Literal (c : Byte)
  /-- `lz77.match`: flag 0x01, offset and length (R83) -/
  | lz77Match (offset length : Half)
  /-- `lz77.reserved_flag`: a flag byte 0x02 to 0xFF (R84) -/
  | lz77ReservedFlag (f : Byte)
  /-- `rle.pair`: count and symbol (R85) -/
  | rlePair (count c : Byte)
  /-- `huffman.single`: flag 0x01, the 16-bit character `h ++ c` and its count (R87) -/
  | huffmanSingle (h c : Byte) (count : Half)
  /-- `huffman.tree_flag`: flag 0x00 (R86) -/
  | huffmanTreeFlag
  /-- `huffman.reserved_flag`: a flag byte 0x02 to 0xFF (R86) -/
  | huffmanReservedFlag (f : Byte)
  /-- `huffman.tree_leaf`: bit 1 and the 16-bit character (R88) -/
  | huffmanTreeLeaf (x : Half)
  /-- `huffman.tree_internal`: bit 0 (R88) -/
  | huffmanTreeInternal
  /-- `huffman.trailing`: the number of significant bits of the final body byte (R88) -/
  | huffmanTrailing (s : Byte)
  deriving DecidableEq, Repr

/-- An instruction in encoded form, with the place it is read from: the same bits mean different things in a CMD
write, an LZ77 token stream, an RLE pair stream and the four parts of a Huffman artifact (R81, R85, R86, R88, R90). -/
inductive Code where
  /-- a word written to CMD (R90) -/
  | command (w : Word)
  /-- one token of an LZ77 token stream (R81) -/
  | lz77 (bs : List Byte)
  /-- one pair of an RLE artifact (R85) -/
  | rle (bs : List Byte)
  /-- the head of a Huffman artifact: its flag byte, and the header that follows a true flag (R86, R87) -/
  | hufHeader (bs : List Byte)
  /-- one node of the tree section, in stream order (R88 item 2) -/
  | hufNode (bits : List Bool)
  /-- the last byte of a tree-and-body artifact (R88 item 4) -/
  | hufTrailing (bs : List Byte)
  deriving DecidableEq, Repr

/-- Why an encoded form is no instruction. -/
inductive DecodeError where
  /-- bytes or bits of the element are missing -/
  | truncated
  /-- bytes or bits follow the element -/
  | overlong
  deriving DecidableEq, Repr

end Sys2Proof
end

