-- ==== Sys2Proof/WellFormed.lean ====
section
/-! DEFINITION. Which instruction terms stand for words the spec gives: a "reserved" row stands only for the words
that no other row of its place takes (R84, R86, R92). -/

namespace Sys2Proof

/-- A flag byte that R84 and R86 reserve: 0x02 to 0xFF. -/
def reservedFlag (f : Byte) : Bool := decide (2 ≤ f.toNat)

/-- The check of each instruction's fields; an instruction without one has every field value. -/
def Instr.wellFormed : Instr → Bool
  | .reservedHigh w => decide (w.toNat / 16 ≠ 0)
  | .lz77ReservedFlag f => reservedFlag f
  | .huffmanReservedFlag f => reservedFlag f
  | .selCompress | .selDecompress | .rleCompress | .rleDecompress => true
  | .lz77Compress | .lz77Decompress | .hufCompress | .hufDecompress => true
  | .reservedOp0 | .reservedOp9 | .reservedOpA | .reservedOpB => true
  | .reservedOpC | .reservedOpD | .reservedOpE | .reservedOpF => true
  | .lz77Literal _ | .lz77Match _ _ | .rlePair _ _ => true
  | .huffmanSingle _ _ _ | .huffmanTreeFlag | .huffmanTreeLeaf _ => true
  | .huffmanTreeInternal | .huffmanTrailing _ => true

/-- A well-formed instruction. -/
abbrev WellFormed (i : Instr) : Prop := i.wellFormed = true

end Sys2Proof
end

