-- ==== Sys2Proof/Decode.lean ====
section
/-! DEFINITION. The decoder, total on every command word and on every string of bytes or bits, and the encoder,
both written from 30_encoding.md. Multi-byte fields are most significant byte first (R66, R93). -/

namespace Sys2Proof

/-- Bits 15:8 of a 16-bit field, the byte that comes first in an artifact (R66). -/
def hiByte (v : Half) : Byte := BitVec.ofNat 8 (v.toNat / 256)

/-- Bits 7:0 of a 16-bit field, the byte that comes second (R66). -/
def loByte (v : Half) : Byte := BitVec.ofNat 8 (v.toNat % 256)

/-- `256 × hi + lo` (R93). -/
def halfOf (hi lo : Byte) : Half := BitVec.ofNat 16 (256 * hi.toNat + lo.toNat)

/-- The `n` low bits of `v`, most significant first (R153). -/
def bitsMsb : Nat → Nat → List Bool
  | 0, _ => []
  | n + 1, v => v.testBit n :: bitsMsb n v

/-- The unsigned value of a group of bits, the first the most significant (R155). -/
def bitsValue (bits : List Bool) : Nat := bits.foldl (fun v b => 2 * v + b.toNat) 0

/-- The bytes of an LZ77 token after its flag (R81 to R84). -/
def lz77Rest (flag : Byte) : Nat :=
  if flag = 0#8 then 1 else if flag = 1#8 then 4 else 0

/-- The bytes of a Huffman header after its flag (R86, R87). -/
def hufHeaderRest (flag : Byte) : Nat := if flag = 1#8 then 4 else 0

/-- The bits of a tree node after its first bit (R88 item 2). -/
def hufNodeRest (tag : Bool) : Nat := if tag then 16 else 0

/-- OP, bits 3:0 of a command word (R90). -/
def opField (w : Word) : BitVec 4 := w.extractLsb' 0 4

/-- The opcode assignment of R91 and R92; a word with a nonzero bit in 31:4 is illegal whatever its OP. -/
def decodeCommand (w : Word) : Instr :=
  if w.toNat / 16 ≠ 0 then .reservedHigh w
  else match (opField w).toNat with
    | 0x0 => .reservedOp0
    | 0x1 => .selCompress
    | 0x2 => .selDecompress
    | 0x3 => .rleCompress
    | 0x4 => .rleDecompress
    | 0x5 => .lz77Compress
    | 0x6 => .lz77Decompress
    | 0x7 => .hufCompress
    | 0x8 => .hufDecompress
    | 0x9 => .reservedOp9
    | 0xA => .reservedOpA
    | 0xB => .reservedOpB
    | 0xC => .reservedOpC
    | 0xD => .reservedOpD
    | 0xE => .reservedOpE
    | _ => .reservedOpF

/-- One LZ77 token (R81 to R84). -/
def decodeLz77 : List Byte → Except DecodeError Instr
  | [] => .error .truncated
  | flag :: rest =>
    if rest.length < lz77Rest flag then .error .truncated
    else if lz77Rest flag < rest.length then .error .overlong
    else match rest with
      | [c] => .ok (.lz77Literal c)
      | [o1, o0, l1, l0] => .ok (.lz77Match (halfOf o1 o0) (halfOf l1 l0))
      | _ => .ok (.lz77ReservedFlag flag)

/-- One RLE pair (R85): every byte pair is a valid pair. -/
def decodeRle : List Byte → Except DecodeError Instr
  | [n, c] => .ok (.rlePair n c)
  | [] | [_] => .error .truncated
  | _ => .error .overlong

/-- The head of a Huffman artifact (R86, R87). -/
def decodeHufHeader : List Byte → Except DecodeError Instr
  | [] => .error .truncated
  | flag :: rest =>
    if rest.length < hufHeaderRest flag then .error .truncated
    else if hufHeaderRest flag < rest.length then .error .overlong
    else match rest with
      | [h, c, n1, n0] => .ok (.huffmanSingle h c (halfOf n1 n0))
      | _ => if flag = 0#8 then .ok .huffmanTreeFlag else .ok (.huffmanReservedFlag flag)

/-- One tree node (R88 item 2, R93). -/
def decodeHufNode : List Bool → Except DecodeError Instr
  | [] => .error .truncated
  | tag :: rest =>
    if rest.length < hufNodeRest tag then .error .truncated
    else if hufNodeRest tag < rest.length then .error .overlong
    else if tag then .ok (.huffmanTreeLeaf (BitVec.ofNat 16 (bitsValue rest)))
    else .ok .huffmanTreeInternal

/-- The trailing byte (R88 item 4). -/
def decodeHufTrailing : List Byte → Except DecodeError Instr
  | [s] => .ok (.huffmanTrailing s)
  | [] => .error .truncated
  | _ => .error .overlong

/-- The instruction an encoded form stands for. -/
def decode : Code → Except DecodeError Instr
  | .command w => .ok (decodeCommand w)
  | .lz77 bs => decodeLz77 bs
  | .rle bs => decodeRle bs
  | .hufHeader bs => decodeHufHeader bs
  | .hufNode bits => decodeHufNode bits
  | .hufTrailing bs => decodeHufTrailing bs

/-- The encoded form of an instruction (R82 to R88, R91). -/
def encode : Instr → Code
  | .selCompress => .command 0x1#32
  | .selDecompress => .command 0x2#32
  | .rleCompress => .command 0x3#32
  | .rleDecompress => .command 0x4#32
  | .lz77Compress => .command 0x5#32
  | .lz77Decompress => .command 0x6#32
  | .hufCompress => .command 0x7#32
  | .hufDecompress => .command 0x8#32
  | .reservedOp0 => .command 0x0#32
  | .reservedOp9 => .command 0x9#32
  | .reservedOpA => .command 0xA#32
  | .reservedOpB => .command 0xB#32
  | .reservedOpC => .command 0xC#32
  | .reservedOpD => .command 0xD#32
  | .reservedOpE => .command 0xE#32
  | .reservedOpF => .command 0xF#32
  | .reservedHigh w => .command w
  | .lz77Literal c => .lz77 [0x00#8, c]
  | .lz77Match o l => .lz77 [0x01#8, hiByte o, loByte o, hiByte l, loByte l]
  | .lz77ReservedFlag f => .lz77 [f]
  | .rlePair n c => .rle [n, c]
  | .huffmanSingle h c n => .hufHeader [0x01#8, h, c, hiByte n, loByte n]
  | .huffmanTreeFlag => .hufHeader [0x00#8]
  | .huffmanReservedFlag f => .hufHeader [f]
  | .huffmanTreeLeaf x => .hufNode (true :: bitsMsb 16 x.toNat)
  | .huffmanTreeInternal => .hufNode [false]
  | .huffmanTrailing s => .hufTrailing [s]

/-- Byte `k` (0 the lowest) of a number. -/
def byteOf (w k : Nat) : Byte := BitVec.ofNat 8 (w / 256 ^ k)

/-- The `n` bytes of a table pattern, which the table writes as one number, in stream order: the most significant
byte comes first (the table: "bits listed in stream order, MSB first"). -/
def tableBytes : Nat → Nat → List Byte
  | 0, _ => []
  | n + 1, w => byteOf w n :: tableBytes n w

/-- The place a table row of `nbits` bits and value `w` is read from. A 32-bit row is a command word; the artifact
rows say nothing of their place, so where two places take the same bits the table's first row is chosen
(notes/assumptions/15.md). -/
def tableCode (nbits w : Nat) : Option Code :=
  match nbits with
  | 32 => some (.command (BitVec.ofNat 32 w))
  | 16 => some (if byteOf w 1 = 0#8 then .lz77 (tableBytes 2 w) else .rle (tableBytes 2 w))
  | 40 => some (.lz77 (tableBytes 5 w))
  | 24 => some (.hufNode (bitsMsb 17 w))
  | 17 => some (.hufNode (bitsMsb 17 w))
  | 8 =>
    some (if byteOf w 0 = 0#8 then .hufHeader (tableBytes 1 w)
      else if (byteOf w 0).toNat ≤ 8 then .hufTrailing (tableBytes 1 w)
      else .lz77 (tableBytes 1 w))
  | 1 => some (.hufNode (bitsMsb 1 w))
  | _ => none

/-- The instruction the decoder reads from a row of the opcode table whose bits are `w`. -/
def decodeTableWord (nbits w : Nat) : Option Instr :=
  match tableCode nbits w with
  | none => none
  | some c =>
    match decode c with
    | .ok i => some i
    | .error _ => none

end Sys2Proof
end

