-- ==== Sys2Proof/Config.lean ====
section
/-! DEFINITION. What an implementation fixes (the parameters of R8, R9 and R69) and the values the spec leaves
open. A constant without a body is a free value: nothing in Lean can evaluate it, so a claim that is proved holds
whatever it is. -/

namespace Sys2Proof

/-- One window and lookahead pair `(W, L)` of R8; sixteen bits each by R10. -/
structure LzPair where
  window : Half
  lookahead : Half
  deriving DecidableEq, Repr

/-- The implementation parameters (R8, R9, R69). The spec says that a model takes this record as an argument; it
travels in the state, and no step changes it. -/
structure Params where
  /-- `IN_SIZE` (R9) -/
  inSize : Nat
  /-- `OUT_SIZE` (R9) -/
  outSize : Nat
  /-- `RLE_MAX` (R8) -/
  rleMax : Nat
  /-- `T1_MAX` (R8) -/
  t1Max : Nat
  /-- `T2_MAX` (R8) -/
  t2Max : Nat
  /-- `T3_MAX` (R8) -/
  t3Max : Nat
  /-- `(T1_W, T1_L)` (R8) -/
  tier1 : LzPair
  /-- `(T2_W, T2_L)` (R8) -/
  tier2 : LzPair
  /-- `(T3_W, T3_L)` (R8) -/
  tier3 : LzPair
  /-- `(T4_W, T4_L)` (R8) -/
  tier4 : LzPair
  /-- `BASE_REG` (R69) -/
  baseReg : Nat
  /-- `BASE_IN` (R69) -/
  baseIn : Nat
  /-- `BASE_OUT` (R69) -/
  baseOut : Nat
  deriving DecidableEq, Repr

/-- The legal parameters (R9, R10): the sizes are in `1 .. 2^32 - 1` and every tier's lookahead is at least 1. -/
def Params.wf (p : Params) : Prop :=
  1 ≤ p.inSize ∧ p.inSize < 2 ^ 32 ∧ 1 ≤ p.outSize ∧ p.outSize < 2 ^ 32
    ∧ p.tier1.lookahead ≠ 0#16 ∧ p.tier2.lookahead ≠ 0#16 ∧ p.tier3.lookahead ≠ 0#16 ∧ p.tier4.lookahead ≠ 0#16

/-- The alphabet of R11. -/
def alphabet : Nat := 256

/-- `NODE_MAX`, the most nodes of a Huffman tree (R11). -/
def nodeMax : Nat := 511

/-- `COUNT_MAX`, the largest single-symbol count (R11). -/
def countMax : Nat := 65535

/-- The number from which `IN_SIZE` is made; the spec leaves it open (R9). -/
opaque Config.inSizeSeed : Nat

/-- The number from which `OUT_SIZE` is made; the spec leaves it open (R9). -/
opaque Config.outSizeSeed : Nat

/-- `BASE_REG`, left to the platform (R69). -/
opaque Config.baseReg : Nat

/-- `BASE_IN`, left to the platform (R69). -/
opaque Config.baseIn : Nat

/-- `BASE_OUT`, left to the platform (R69). -/
opaque Config.baseOut : Nat

/-- What a byte of IN holds that the host has never written: any value (R55), the same at each read (R68). -/
opaque Config.unwrittenIn : Nat → Byte

/-- What a byte of OUT holds that nothing has written since OUT last became "any value" (R55, R76, R261): the
first argument counts those events, the second is the offset. -/
opaque Config.unwrittenOut : Nat → Nat → Byte

/-- The value of one access that the spec lets return any value (R71 item 4, R263); the argument numbers the access. -/
opaque Config.anyByte : Nat → Byte

/-- The code of a symbol that has none (R48: "Undefined"); the argument numbers the use. -/
opaque Config.undefinedCode : Nat → List Bool

/-- `env_read_error` (R65): draw number, offset. -/
opaque Config.envReadError : Nat → Nat → Bool

/-- `env_write_error` (R65): draw number, offset. -/
opaque Config.envWriteError : Nat → Nat → Bool

/-- A size in the range `1 .. 2^32 - 1` of R9, every one of which is some seed's. -/
def Config.sizeOf (seed : Nat) : Nat := seed % (2 ^ 32 - 1) + 1

/-- The source's tier defaults (R8) with the given sizes and bases. -/
def Params.defaults (inSize outSize baseReg baseIn baseOut : Nat) : Params :=
  { inSize := inSize
    outSize := outSize
    rleMax := 100
    t1Max := 1024
    t2Max := 10240
    t3Max := 1048576
    tier1 := { window := 512#16, lookahead := 16#16 }
    tier2 := { window := 1024#16, lookahead := 64#16 }
    tier3 := { window := 8192#16, lookahead := 128#16 }
    tier4 := { window := 32768#16, lookahead := 256#16 }
    baseReg := baseReg
    baseIn := baseIn
    baseOut := baseOut }

/-- This hardware's parameters: the defaults of R8 and open sizes and bases. -/
def Config.params : Params :=
  Params.defaults (Config.sizeOf Config.inSizeSeed) (Config.sizeOf Config.outSizeSeed)
    Config.baseReg Config.baseIn Config.baseOut

end Sys2Proof
end

