-- ==== Sys2Proof/Machine/State.lean ====
section
/-! DEFINITION. Everything the spec gives the machine, as plain data: the control registers (10_state.md section 2),
the spaces IN and OUT (R60), the internal state of a running command (10_state.md section 3), the parameters (R8,
R9), the inputs still to come from the host and the platform, and the model's own counters of free values. -/

namespace Sys2Proof.Machine

open Sys2Proof

/-- The outcome of a command (R230). `success` is the table's "(none)". -/
inductive ErrCode where
  | success
  | invalidFormat
  | ioFailure
  | corruptStream
  | unsupported
  | illegalCommand
  deriving DecidableEq, Repr

/-- The codec ids of STATUS.CODEC (R89); `unset` is id 0. -/
inductive CodecId where
  | unset
  | rle
  | lz77
  | huffman
  deriving DecidableEq, Repr

/-- The fields of STATUS (R35); its other bits are hardwired to zero and have no storage. -/
structure Status where
  /-- BUSY (R36) -/
  busy : Bool
  /-- DONE (R37) -/
  done : Bool
  /-- ERR (R38) -/
  err : ErrCode
  /-- CODEC (R39) -/
  codec : CodecId
  deriving DecidableEq, Repr

/-- The command latch (R52). -/
structure Latch where
  /-- `cmd_op` -/
  op : BitVec 4
  /-- `N` -/
  n : Word
  /-- `W` -/
  w : Half
  /-- `L` -/
  l : Half
  /-- `tag` -/
  tag : Byte
  deriving DecidableEq, Repr

/-- The search window (R45): a ring of `cap` slots, its head and its length. Slots are made when first stored to. -/
structure Ring where
  cap : Nat
  head : Nat
  len : Nat
  slots : List Byte
  deriving DecidableEq, Repr

/-- A Huffman tree node in the arena (R47); children are arena indices. -/
inductive Node where
  | leaf (sym : Byte) (freq seq : Nat)
  | internal (freq left right seq : Nat)
  deriving DecidableEq, Repr

/-- An entry of the explicit stack of `ParseNode` (R182): an internal node that waits for its left child, or one
whose left child is at `left` and that waits for its right child. -/
inductive Frame where
  | wantLeft
  | wantRight (left : Nat)
  deriving DecidableEq, Repr

/-- The internal state of the LZ77 compressor (R45, R111, R112). -/
structure LzWork where
  /-- the search window -/
  win : Ring
  /-- the lookahead size `L` of the running compressor -/
  lookahead : Nat
  /-- the current chunk -/
  chunk : List Byte
  /-- the position `p` in the chunk -/
  pos : Nat
  deriving DecidableEq, Repr

/-- The internal state of the Huffman codec (R46 to R49, R182 to R184). -/
structure HufWork where
  /-- the frequency table, 256 counters (R46) -/
  freq : List Nat
  /-- the node arena (R47) -/
  arena : List Node
  /-- the code table, 256 entries (R48); `none` where the spec says "undefined" -/
  codes : List (Option (List Bool))
  /-- the priority queue, a set of arena indices (R49) -/
  queue : List Nat
  /-- `next_seq` (R174) -/
  nextSeq : Nat
  /-- the root of the tree -/
  root : Nat
  /-- the nodes of `GenCodes` still to visit, each with its prefix (R176) -/
  codeTodo : List (Nat × List Bool)
  /-- the nodes of `SerializeTree` still to visit (R177) -/
  treeTodo : List Nat
  /-- `nodes`, the tree nodes parsed so far (R180, R182) -/
  nodes : Nat
  /-- the explicit stack of `ParseNode` (R182) -/
  frames : List Frame
  /-- `cur`, the node the body walk stands at (R184) -/
  cur : Nat
  /-- the body bits still to read: `total - j` (R184) -/
  bitsLeft : Nat
  deriving DecidableEq, Repr

/-- The bit writer (R50). -/
structure BitWriter where
  wacc : Byte
  wcount : Nat
  deriving DecidableEq, Repr

/-- The bit reader (R51). -/
structure BitReader where
  rbyte : Nat
  rbit : Nat
  rcur : Byte
  deriving DecidableEq, Repr

/-- Where a running command stands in its pseudocode. One engine step (R267) runs one element, token, node, byte or
bit of it, as the step's own definition says. -/
inductive Phase where
  /-- no command runs -/
  | idle
  /-- the head of the loop of `RleCompress` (R210) -/
  | rleEncode
  /-- the head of the loop of `RleDecompress` (R213) -/
  | rleDecode
  /-- the head of the outer loop of `LZ77Compress` (R120) -/
  | lzChunk
  /-- the head of the inner loop of `LZ77Compress` (R120) -/
  | lzEncode
  /-- the head of the loop of `LZ77Decompress` (R124) -/
  | lzDecode
  /-- the loop of `CountFrequencies` (R171) and the choice after it (R170) -/
  | hufCount
  /-- the loop of `BuildTree` (R175) -/
  | hufBuild
  /-- `GenCodes` (R176) -/
  | hufCodes
  /-- `SerializeTree` (R177) -/
  | hufTree
  /-- pass 2 of `HufCompress` (R170, R178) -/
  | hufBody
  /-- the start of `HufDecompress` (R180) -/
  | hufHeader
  /-- `ParseNode` (R182) -/
  | hufParse
  /-- the body extent (R183) -/
  | hufExtent
  /-- the loop of `DecodeBody` (R184) -/
  | hufWalk
  deriving DecidableEq, Repr

/-- A width a host may try a REG access with; only 32 bits has a meaning (R67). -/
inductive Width where
  | w8
  | w16
  | w32
  deriving DecidableEq, Repr

/-- One access of the host (R67, R96). -/
inductive HostOp where
  /-- `wr`: write a register -/
  | regWrite (width : Width) (offset : Nat) (v : Word)
  /-- `rd`: read a register -/
  | regRead (width : Width) (offset : Nat)
  /-- `inb`: write a byte of IN -/
  | inWrite (k : Nat) (b : Byte)
  /-- `outb`: read a byte of OUT -/
  | outRead (k : Nat)
  deriving DecidableEq, Repr

/-- One thing that happens next: the host or the platform acts, or the engine takes a step (R3, R267). -/
inductive Event where
  /-- one host access -/
  | host (op : HostOp)
  /-- one engine step -/
  | engine
  /-- the pseudo-instruction `wait` (R97) -/
  | wait
  /-- the pseudo-instruction `fetch` (R97) -/
  | fetch
  /-- the platform asserts reset (R260) -/
  | reset
  deriving DecidableEq, Repr

/-- The environment's access-error draws (R65). Each access takes the next listed draw; when none is listed, no
access fails if `quiet` holds, and otherwise the draw is a free value. -/
structure Env where
  reads : List Bool
  writes : List Bool
  quiet : Bool
  /-- how many draws came from the free value -/
  count : Nat
  deriving DecidableEq, Repr

/-- The machine. -/
structure State where
  /-- the parameters (R8, R9, R69) -/
  params : Params
  /-- STATUS (R35) -/
  status : Status
  /-- SRC_LEN (R40) -/
  srcLen : Word
  /-- OUT_LEN (R41) -/
  outLen : Word
  /-- LZ_CFG (R42) -/
  lzCfg : Word
  /-- USED_CFG (R43) -/
  usedCfg : Word
  /-- DEC_CODEC.TAG (R44); bits 31:8 are hardwired to zero and have no storage -/
  decTag : Byte
  /-- IN (R60): the bytes the host has written, in rising order of offset -/
  inMem : List Host.Cell
  /-- OUT (R60): the bytes written since OUT last became "any value", in rising order of offset -/
  outMem : List Host.Cell
  /-- the model's own: how many times OUT has become "any value" -/
  outEpoch : Nat
  /-- the command latch (R52) -/
  latch : Latch
  /-- `in_pos` (R31) -/
  inPos : Nat
  /-- `out_pos` (R31) -/
  outPos : Nat
  /-- where the running command stands -/
  phase : Phase
  /-- the LZ77 compressor's state -/
  lz : LzWork
  /-- the Huffman codec's state -/
  huf : HufWork
  /-- the bit writer (R50) -/
  writer : BitWriter
  /-- the bit reader (R51) -/
  reader : BitReader
  /-- the offsets of IN the host has written during the running command (R71 item 4, R263) -/
  hazards : List Nat
  /-- the environment (R65) -/
  env : Env
  /-- the model's own: how many free bytes and codes have been taken -/
  freeCount : Nat
  /-- the inputs still to come, the next first -/
  inputs : List Event
  /-- the values the host's reads returned, the last first -/
  readLog : List Word
  deriving DecidableEq, Repr

/-- Why a step stops with a fault. No run from reset reaches one: each names an internal state that no rule of the
spec leads to. -/
inductive Fault where
  /-- raised by an engine step when BUSY is set and no command body is running; safe: no rule sets BUSY without a body -/
  | busyWithoutBody
  /-- raised by a Huffman engine step that follows an arena index, or takes from the queue, where there is no node;
  safe: every index the codec keeps is one it got from the arena -/
  | danglingNode
  deriving DecidableEq, Repr

/-- Why a step is refused. -/
inductive Refusal where
  /-- an instruction whose meaning has not been written; no arm of exec answers it; safe -/
  | notModelled (mnemonic : String)
  /-- raised by the fetch when its bytes are no instruction; the fetch reads exactly one element, so none is; safe -/
  | undecodable (e : DecodeError)
  /-- raised by a host access to REG that is 8 or 16 bits wide: R67 gives it no meaning and has the model refuse it; safe -/
  | regWidth
  /-- raised by a host access to REG at an offset that is no multiple of 4: R67 has the model refuse it; safe -/
  | regMisaligned
  /-- raised by a host access to REG at offset 0x20 or above: R67 says it addresses nothing and is refused; safe -/
  | regOutOfRange
  /-- raised by a host access to IN at `IN_SIZE` or above: R67 says it addresses nothing and is refused; safe -/
  | inOutOfRange
  /-- raised by a host access to OUT at `OUT_SIZE` or above: R67 says it addresses nothing and is refused; safe -/
  | outOutOfRange
  deriving DecidableEq, Repr

/-- An empty window of capacity `cap` (R116, R262). -/
def Ring.empty (cap : Nat) : Ring := { cap := cap, head := 0, len := 0, slots := [] }

/-- The LZ77 compressor's state when no command has started it (R262). -/
def LzWork.init : LzWork := { win := Ring.empty 0, lookahead := 0, chunk := [], pos := 0 }

/-- The Huffman codec's state at the start of a command (R262). -/
def HufWork.init : HufWork :=
  { freq := List.replicate 256 0
    arena := []
    codes := List.replicate 256 none
    queue := []
    nextSeq := 0
    root := 0
    codeTodo := []
    treeTodo := []
    nodes := 0
    frames := []
    cur := 0
    bitsLeft := 0 }

/-- The bit writer at its start (R50). -/
def BitWriter.init : BitWriter := { wacc := 0#8, wcount := 0 }

/-- The bit reader at the first bit of the byte after the Huffman flag (R51). -/
def BitReader.init : BitReader := { rbyte := 1, rbit := 0, rcur := 0#8 }

/-- STATUS after reset (R55). -/
def Status.reset : Status := { busy := false, done := false, err := .success, codec := .unset }

/-- The command latch after reset: the spec says "unspecified" (R55); the model says zero (notes/assumptions/3.md). -/
def Latch.reset : Latch := { op := 0#4, n := 0#32, w := 0#16, l := 0#16, tag := 0#8 }

/-- The machine right after power-on reset (R55, R260): every register 0, the engine idle, IN and OUT any value (no
byte listed), nothing pending, and the environment free. -/
def State.reset : State :=
  { params := Config.params
    status := Status.reset
    srcLen := 0#32
    outLen := 0#32
    lzCfg := 0#32
    usedCfg := 0#32
    decTag := 0#8
    inMem := []
    outMem := []
    outEpoch := 0
    latch := Latch.reset
    inPos := 0
    outPos := 0
    phase := .idle
    lz := LzWork.init
    huf := HufWork.init
    writer := BitWriter.init
    reader := BitReader.init
    hazards := []
    env := { reads := [], writes := [], quiet := false, count := 0 }
    freeCount := 0
    inputs := []
    readLog := [] }

end Sys2Proof.Machine
end

