-- ==== Sys2Proof/Machine/Flags.lean ====
section
/-! DEFINITION. The engine's flags are the fields of STATUS (R32): their codes and the word a host reads (R35). -/

namespace Sys2Proof.Machine

open Sys2Proof

/-- The number of an error in STATUS.ERR (R230). -/
def ErrCode.code : ErrCode → BitVec 4
  | .success => 0#4
  | .invalidFormat => 1#4
  | .ioFailure => 2#4
  | .corruptStream => 3#4
  | .unsupported => 4#4
  | .illegalCommand => 5#4

/-- The number of a codec in STATUS.CODEC (R89). -/
def CodecId.code : CodecId → BitVec 4
  | .unset => 0#4
  | .rle => 1#4
  | .lz77 => 2#4
  | .huffman => 3#4

/-- STATUS as one word (R35): bit 0 BUSY, bit 1 DONE, bits 3:2 zero, bits 7:4 ERR, bits 11:8 CODEC, bits 31:12 zero. -/
def Status.word (st : Status) : Word :=
  0#20 ++ st.codec.code ++ st.err.code ++ 0#2 ++ BitVec.ofBool st.done ++ BitVec.ofBool st.busy

/-- STATUS right after a command is issued, before its codec is known (R100). -/
def Status.issued : Status := { busy := false, done := false, err := .success, codec := .unset }

end Sys2Proof.Machine
end

