-- ==== Sys2Proof/Machine/Memory.lean ====
section
/-! DEFINITION. The byte spaces IN and OUT as lists of (offset, byte) in one canonical form: offsets strictly rising.
What an unlisted offset reads as is `Memory.unlisted`, which is no byte: what the machine answers there is a free
value (R55, 93_implementation_defined.md section 2), taken in Machine/Ops.lean. -/

namespace Sys2Proof.Machine

open Sys2Proof

/-- What an offset that no cell lists reads as: nothing has written it. -/
def Memory.unlisted : Option Byte := none

/-- The byte at an offset, if a cell lists it. -/
def Memory.read : List Host.Cell → Nat → Option Byte
  | [], _ => Memory.unlisted
  | (a, b) :: rest, k => if a = k then some b else Memory.read rest k

/-- Write one byte, keeping the offsets in rising order. -/
def Memory.write : List Host.Cell → Nat → Byte → List Host.Cell
  | [], k, v => [(k, v)]
  | (a, b) :: rest, k, v =>
    if k < a then (k, v) :: (a, b) :: rest
    else if k = a then (k, v) :: rest
    else (a, b) :: Memory.write rest k v

/-- Every offset is above `k`, and they rise strictly. -/
def Memory.risesFrom : Nat → List Host.Cell → Bool
  | _, [] => true
  | k, (a, _) :: rest => decide (k < a) && Memory.risesFrom a rest

/-- The canonical form: offsets strictly rising. (No cell can equal what an unlisted offset reads as.) -/
def Memory.wf : List Host.Cell → Bool
  | [] => true
  | (a, _) :: rest => Memory.risesFrom a rest

/-- Every listed offset is below `size`. -/
def Memory.below (size : Nat) (m : List Host.Cell) : Bool := m.all fun c => decide (c.1 < size)

/-- Write bytes at consecutive offsets from `k`. -/
def Memory.writeAll : List Host.Cell → Nat → List Byte → List Host.Cell
  | m, _, [] => m
  | m, k, b :: bs => Memory.writeAll (Memory.write m k b) (k + 1) bs

end Sys2Proof.Machine
end

