-- ==== Sys2Proof/Machine/Operands.lean ====
section
/-! DEFINITION. The operands of a command: the fields of the registers it latches (R42, R44, R52, R93) and the tier
pair the selector picks (R104). A command word holds no operand field (R90). -/

namespace Sys2Proof.Machine

open Sys2Proof

/-- `W = LZ_CFG[15:0]` (R42, R93). -/
def windowField (cfg : Word) : Half := cfg.extractLsb' 0 16

/-- `L = LZ_CFG[31:16]` (R42, R93). -/
def lookaheadField (cfg : Word) : Half := cfg.extractLsb' 16 16

/-- `tag = v[7:0]` of a word written to DEC_CODEC (R44, R93). -/
def tagField (v : Word) : Byte := v.extractLsb' 0 8

/-- `(L << 16) | W`, the layout of LZ_CFG and USED_CFG (R42, R43). -/
def pairWord (w l : Half) : Word := l ++ w

/-- `N`, the latched SRC_LEN, as a number (R52). -/
def State.srcCount (s : State) : Nat := s.latch.n.toNat

/-- `Tier(N)` (R104); every comparison is inclusive. -/
def tier (p : Params) (n : Nat) : LzPair :=
  if n ≤ p.t1Max then p.tier1
  else if n ≤ p.t2Max then p.tier2
  else if n ≤ p.t3Max then p.tier3
  else p.tier4

/-- The codec a tag names (R89); `none` for every other value. -/
def codecOfTag (tag : Byte) : Option CodecId :=
  if tag = 1#8 then some .rle
  else if tag = 2#8 then some .lz77
  else if tag = 3#8 then some .huffman
  else none

/-- The eight words of REG (R33). -/
inductive Reg where
  | cmd
  | status
  | srcLen
  | outLen
  | lzCfg
  | usedCfg
  | decCodec
  | reserved
  deriving DecidableEq, Repr

/-- The register at an offset of the map of R33, if there is one. -/
def regAt (offset : Nat) : Option Reg :=
  if offset = 0x00 then some .cmd
  else if offset = 0x04 then some .status
  else if offset = 0x08 then some .srcLen
  else if offset = 0x0C then some .outLen
  else if offset = 0x10 then some .lzCfg
  else if offset = 0x14 then some .usedCfg
  else if offset = 0x18 then some .decCodec
  else if offset = 0x1C then some .reserved
  else none

/-- The offset of a register (R33). -/
def Reg.offset : Reg → Nat
  | .cmd => 0x00
  | .status => 0x04
  | .srcLen => 0x08
  | .outLen => 0x0C
  | .lzCfg => 0x10
  | .usedCfg => 0x14
  | .decCodec => 0x18
  | .reserved => 0x1C

/-- The three address spaces (R60). -/
inductive Space where
  | reg
  | inp
  | out
  deriving DecidableEq, Repr

/-- Where an offset of a space stands in the host's physical address map (R69). -/
def physical (p : Params) (space : Space) (offset : Nat) : Nat :=
  match space with
  | .reg => p.baseReg + offset
  | .inp => p.baseIn + offset
  | .out => p.baseOut + offset

end Sys2Proof.Machine
end

