-- ==== Sys2Proof/Machine/Ops.lean ====
section
/-! DEFINITION. The operations every command shares: the engine's accesses to IN and OUT with their error draws
(R62 to R65), issue (R100), completion (R101), which is what an error does (R238), and the warm reset (R260, R261). -/

namespace Sys2Proof.Machine

open Sys2Proof

/-- What a piece of a command's body does: it goes on with a value, or it raises an error (R15), after which nothing
of the body runs. -/
inductive Body (α : Type) where
  | done (a : α) (s : State)
  | raised (e : ErrCode) (s : State)
  deriving DecidableEq, Repr

/-- Run one piece of a body after another; an error ends both (R15). -/
def Body.bind {α β : Type} (x : Body α) (f : α → State → Body β) : Body β :=
  match x with
  | .done a s => f a s
  | .raised e s => .raised e s

/-- What IN holds at an offset (R55, R60). -/
def State.inByteAt (s : State) (k : Nat) : Byte := (Memory.read s.inMem k).getD (Config.unwrittenIn k)

/-- What OUT holds at an offset (R55, R60, R76). -/
def State.outByteAt (s : State) (k : Nat) : Byte :=
  (Memory.read s.outMem k).getD (Config.unwrittenOut s.outEpoch k)

/-- The draw `env_read_error(k)` (R65). -/
def drawRead (k : Nat) (s : State) : Bool × State :=
  match s.env.reads with
  | d :: ds => (d, { s with env := { s.env with reads := ds } })
  | [] =>
    if s.env.quiet then (false, s)
    else (Config.envReadError s.env.count k, { s with env := { s.env with count := s.env.count + 1 } })

/-- The draw `env_write_error(k)` (R65). -/
def drawWrite (k : Nat) (s : State) : Bool × State :=
  match s.env.writes with
  | d :: ds => (d, { s with env := { s.env with writes := ds } })
  | [] =>
    if s.env.quiet then (false, s)
    else (Config.envWriteError s.env.count k, { s with env := { s.env with count := s.env.count + 1 } })

/-- One value of the kind "any value" (R71 item 4, R263), a fresh one each time. -/
def takeAnyByte (s : State) : Byte × State :=
  (Config.anyByte s.freeCount, { s with freeCount := s.freeCount + 1 })

/-- The byte a read of IN that does not fail returns: any value where the host has written during the command
(R263), what IN holds otherwise. -/
def fetchIn (k : Nat) (s : State) : Byte × State :=
  if s.hazards.contains k then takeAnyByte s else (s.inByteAt k, s)

/-- `InByte(k)` (R62): truncation is tested before the draw (R237). -/
def inByte (k : Nat) (s : State) : Body Byte :=
  if s.srcCount ≤ k then .raised .ioFailure s
  else match drawRead k s with
    | (true, s1) => .raised .ioFailure s1
    | (false, s1) => .done (fetchIn k s1).1 (fetchIn k s1).2

/-- `MemWrite(OUT, out_pos, 1, b)` and the cursor's advance (R63). -/
def putOut (b : Byte) (s : State) : State :=
  { s with outMem := Memory.write s.outMem s.outPos b, outPos := s.outPos + 1 }

/-- `Emit(b)` (R63): exhaustion is tested before the draw (R237). -/
def emit (b : Byte) (s : State) : Body Unit :=
  if s.params.outSize ≤ s.outPos then .raised .ioFailure s
  else match drawWrite s.outPos s with
    | (true, s1) => .raised .ioFailure s1
    | (false, s1) => .done () (putOut b s1)

/-- `OutByte(j)` (R64): it cannot fail and takes no draw. -/
def outByte (j : Nat) (s : State) : Byte := s.outByteAt j

/-- Emit the bytes in order. -/
def emitAll : List Byte → State → Body Unit
  | [], s => .done () s
  | b :: bs, s => (emit b s).bind fun _ s1 => emitAll bs s1

/-- `for j in 0 .. n - 1: Emit(c)`. -/
def emitRepeat (c : Byte) : Nat → State → Body Unit
  | 0, s => .done () s
  | n + 1, s => (emit c s).bind fun _ s1 => emitRepeat c n s1

/-- `InByte(in_pos)`, and the cursor moves past the byte (R31). -/
def nextByte (s : State) : Body Byte :=
  (inByte s.inPos s).bind fun b s1 => .done b { s1 with inPos := s1.inPos + 1 }

/-- The next `n` bytes of IN. -/
def nextBytes : Nat → State → Body (List Byte)
  | 0, s => .done [] s
  | n + 1, s => (nextByte s).bind fun b s1 => (nextBytes n s1).bind fun bs s2 => .done (b :: bs) s2

/-- OUT's contents become any value (R76, R261). -/
def scrambleOut (s : State) : State := { s with outMem := [], outEpoch := s.outEpoch + 1 }

/-- The engine holds no state of a command (R53, R101). -/
def clearWork (s : State) : State :=
  { s with
    phase := .idle
    lz := LzWork.init
    huf := HufWork.init
    writer := BitWriter.init
    reader := BitReader.init
    hazards := [] }

/-- The registers at completion (R101). -/
def reportCompletion (e : ErrCode) (s : State) : State :=
  { s with
    outLen := if e = .success then BitVec.ofNat 32 s.outPos else 0#32
    status := { s.status with busy := false, done := true, err := e } }

/-- OUT after a completion with outcome `e` (R76): any value when an error is raised once the body has started
(BUSY is set), as it stands otherwise. -/
def settleOut (e : ErrCode) (s : State) : State :=
  if e ≠ .success ∧ s.status.busy = true then scrambleOut s else s

/-- `Complete(e)` (R101). With an error it is what taking an error means on this engine (R238): ERR is written,
OUT_LEN is 0, BUSY is 0, DONE is 1, CODEC and USED_CFG are kept, and nothing else is saved. There is no return
operation: the next issue clears ERR and DONE (R239). -/
def complete (e : ErrCode) (s : State) : State := clearWork (reportCompletion e (settleOut e s))

/-- The state after a piece of a body: an error completes the command (R100). -/
def settle : Body Unit → State
  | .done _ s => s
  | .raised e s => complete e s

/-- The first lines of issue (R100): the status fields, OUT_LEN and USED_CFG cleared, the operands latched (R52), the
cursors at 0 (R31). -/
def accept (op : BitVec 4) (s : State) : State :=
  { s with
    status := Status.issued
    outLen := 0#32
    usedCfg := 0#32
    latch :=
      { op := op
        n := s.srcLen
        w := windowField s.lzCfg
        l := lookaheadField s.lzCfg
        tag := s.decTag }
    inPos := 0
    outPos := 0 }

/-- The internal state a body starts with (R262): everything a command uses at its start value. -/
def startWork (w : LzPair) (s : State) : State :=
  { s with
    lz := { LzWork.init with win := Ring.empty w.window.toNat, lookahead := w.lookahead.toNat }
    huf := HufWork.init
    writer := BitWriter.init
    reader := BitReader.init
    hazards := [] }

/-- CODEC and USED_CFG as issue writes them (R39, R43, R100). -/
def nameCodec (c : CodecId) (w : LzPair) (s : State) : State :=
  { s with status := { s.status with codec := c }, usedCfg := pairWord w.window w.lookahead }

/-- BUSY is set and the body stands at its start (R36, R100). -/
def startBody (ph : Phase) (w : LzPair) (s : State) : State :=
  startWork w { s with status := { s.status with busy := true }, phase := ph }

/-- No LZ77 compressor runs: USED_CFG is written with 0 (R43). -/
def noPair : LzPair := { window := 0#16, lookahead := 0#16 }

/-- The last lines of issue (R100): CODEC and USED_CFG, the check of SRC_LEN against `IN_SIZE` (R232 item 1), and the
start of the body. -/
def launch (c : CodecId) (w : LzPair) (ph : Phase) (s : State) : State :=
  let s1 := nameCodec c w s
  if s1.params.inSize < s1.srcCount then complete .ioFailure s1 else startBody ph w s1

/-- A command is issued only while BUSY = 0; while BUSY = 1 a CMD write is ignored (R34, R102). -/
def whenIdle (issue : State → State) (s : State) : State := if s.status.busy then s else issue s

/-- A command that fails its first check completes at issue (R235, R236). -/
def rejectIllegal (op : BitVec 4) (s : State) : State := complete .illegalCommand (accept op s)

/-- The platform asserts reset (R260, R261): every register takes its value of R55, a running command is abandoned
without completion, OUT is any value, IN is not changed. -/
def warmReset (s : State) : State :=
  let s1 := clearWork (scrambleOut s)
  { s1 with
    status := Status.reset
    srcLen := 0#32
    outLen := 0#32
    lzCfg := 0#32
    usedCfg := 0#32
    decTag := 0#8
    latch := Latch.reset
    inPos := 0
    outPos := 0 }

end Sys2Proof.Machine
end

