-- ==== Sys2Proof/Machine/HostBus.lean ====
section
/-! DEFINITION. The host's accesses (R33, R67, R68, R96) and the pseudo-instructions `wait` and `fetch` (R97). -/

namespace Sys2Proof.Machine

open Sys2Proof

/-- The register a REG access reaches: 32 bits wide, aligned, below 0x20, and refused otherwise (R67). -/
def checkReg (width : Width) (offset : Nat) : Except Refusal Reg :=
  if width ≠ .w32 then .error .regWidth
  else if offset % 4 ≠ 0 then .error .regMisaligned
  else match regAt offset with
    | some r => .ok r
    | none => .error .regOutOfRange

/-- What a host reads from a register (R33, R34, R35, R44, R54); a read has no side effect (R68). After the completing step
OUT_LEN and USED_CFG read as the command left them even before a STATUS read with DONE = 1: DESIGN CHOICE, unsafe
(notes/assumptions/30.md). -/
def readReg (r : Reg) (s : State) : Word :=
  match r with
  | .cmd => 0#32
  | .status => s.status.word
  | .srcLen => s.srcLen
  | .outLen => s.outLen
  | .lzCfg => s.lzCfg
  | .usedCfg => s.usedCfg
  | .decCodec => s.decTag.setWidth 32
  | .reserved => 0#32

/-- A value comes back to the host. -/
def logRead (v : Word) (s : State) : State := { s with readLog := v :: s.readLog }

/-- A host write to a register other than CMD (R33, R40, R42, R44, R54): ignored by a read-only or reserved register,
and by every register while BUSY = 1 (R102). -/
def writeReg (r : Reg) (v : Word) (s : State) : State :=
  if s.status.busy then s
  else match r with
    | .srcLen => { s with srcLen := v }
    | .lzCfg => { s with lzCfg := v }
    | .decCodec => { s with decTag := tagField v }
    | .cmd => s
    | .status => s
    | .outLen => s
    | .usedCfg => s
    | .reserved => s

/-- A write to CMD (R34): the word is decoded and the instruction runs; its meaning ignores it while BUSY = 1. -/
def writeCmd (run : Instr → State → Host.Outcome State Fault Refusal) (v : Word) (s : State) :
    Host.Outcome State Fault Refusal :=
  match decode (.command v) with
  | .ok i => run i s
  | .error e => .refused (.undecodable e)

/-- The offset joins those the host has written during the running command (R263). -/
def noteHazard (k : Nat) (s : State) : State :=
  if s.status.busy ∧ k < s.srcCount then { s with hazards := k :: s.hazards } else s

/-- A host write of one byte of IN (R60, R67); during a command it is a hazard (R263). -/
def hostWriteIn (k : Nat) (b : Byte) (s : State) : Host.Outcome State Fault Refusal :=
  if k < s.params.inSize then .next (noteHazard k { s with inMem := Memory.write s.inMem k b })
  else .refused .inOutOfRange

/-- What a host read of OUT returns: any value while BUSY = 1 (R263), the byte OUT holds otherwise. DESIGN CHOICE
(notes/assumptions/30.md), unsafe: after the completing step that is the command's output even when the host has made no
STATUS read with DONE = 1, an ordering R72 does not promise. -/
def hostFetchOut (k : Nat) (s : State) : Byte × State :=
  if s.status.busy then takeAnyByte s else (s.outByteAt k, s)

/-- A host read of one byte of OUT (R60, R67). -/
def hostReadOut (k : Nat) (s : State) : Host.Outcome State Fault Refusal :=
  if k < s.params.outSize then .next (logRead ((hostFetchOut k s).1.setWidth 32) (hostFetchOut k s).2)
  else .refused .outOutOfRange

/-- One host access (R96). -/
def hostAccess (run : Instr → State → Host.Outcome State Fault Refusal) (op : HostOp) (s : State) :
    Host.Outcome State Fault Refusal :=
  match op with
  | .regWrite width offset v =>
    match checkReg width offset with
    | .error r => .refused r
    | .ok .cmd => writeCmd run v s
    | .ok r => .next (writeReg r v s)
  | .regRead width offset =>
    match checkReg width offset with
    | .error r => .refused r
    | .ok r => .next (logRead (readReg r s) s)
  | .inWrite k b => hostWriteIn k b s
  | .outRead k => hostReadOut k s

/-- The reads `fetch` makes after `rd OUT_LEN` (R97): `outb 0` to `outb OUT_LEN - 1`. -/
def fetchReads (n : Nat) : List Event := (List.range n).map fun k => .host (.outRead k)

/-- The pseudo-instruction `fetch` (R97). -/
def hostFetch (s : State) : State :=
  logRead s.outLen { s with inputs := fetchReads s.outLen.toNat ++ s.inputs }

end Sys2Proof.Machine
end

