-- ==== Sys2Proof/Machine/HostProgram.lean ====
section
/-! DEFINITION. The host programs of 30_encoding.md section 4 (R96, R97) as inputs of the machine, and what the host
does with file names (R108, R109). These bind the host; no rule of the engine depends on them. -/

namespace Sys2Proof.Machine

open Sys2Proof

/-- `wr REG, v` (R96). -/
def hostWr (r : Reg) (v : Word) : Event := .host (.regWrite .w32 r.offset v)

/-- `rd REG` (R96). -/
def hostRd (r : Reg) : Event := .host (.regRead .w32 r.offset)

/-- `cmd MNEMONIC`: the word of R91 to CMD (R96); an instruction that is no command has no such word. -/
def hostCmd (i : Instr) : List Event :=
  match encode i with
  | .command w => [hostWr .cmd w]
  | _ => []

/-- `inb k, b` (R96). -/
def hostInb (k : Nat) (b : Byte) : Event := .host (.inWrite k b)

/-- `outb k` (R96). -/
def hostOutb (k : Nat) : Event := .host (.outRead k)

/-- The byte writes of `load` from an offset on. -/
def hostInbAll : Nat → List Byte → List Event
  | _, [] => []
  | k, b :: bs => hostInb k b :: hostInbAll (k + 1) bs

/-- `load [b0, b1, ...]` (R97). -/
def hostLoad (bs : List Byte) : List Event := hostInbAll 0 bs ++ [hostWr .srcLen (BitVec.ofNat 32 bs.length)]

/-- `lzcfg W, L` (R97). -/
def hostLzcfg (w l : Half) : List Event := [hostWr .lzCfg (pairWord w l)]

/-- `codec T` (R97). -/
def hostCodec (t : Byte) : List Event := [hostWr .decCodec (t.setWidth 32)]

/-- The extension of a codec's artifacts, without its dot (R89, R108). -/
def extension : CodecId → List Char
  | .unset => []
  | .rle => ['r', 'l', 'e']
  | .lz77 => ['l', 'z', '7', '7']
  | .huffman => ['h', 'u', 'f', 'f', 'm', 'a', 'n']

/-- The name the host gives an artifact: the input path with the codec's extension appended (R108). -/
def artifactName (path : List Char) (c : CodecId) : List Char :=
  match c with
  | .unset => path
  | _ => path ++ '.' :: extension c

/-- The text after the last `.` of a name and the text before it, if it has one. -/
def splitName (name : List Char) : Option (List Char × List Char) :=
  match name with
  | [] => none
  | c :: cs =>
    match splitName cs with
    | some (stem, ext) => some (c :: stem, ext)
    | none => if c = '.' then some ([], cs) else none

/-- The tag the host writes to DEC_CODEC for an artifact name (R108): the match is exact and case-sensitive. -/
def tagOfName (name : List Char) : Byte :=
  match splitName name with
  | none => 0#8
  | some (_, ext) =>
    if ext = extension .rle then 1#8
    else if ext = extension .lz77 then 2#8
    else if ext = extension .huffman then 3#8
    else 0#8

/-- The destination of a decompress: the name without its trailing extension (R109). -/
def destinationName (name : List Char) : List Char :=
  match splitName name with
  | none => name
  | some (stem, _) => stem

end Sys2Proof.Machine
end

