-- ==== Sys2Proof/Machine/Bits.lean ====
section
/-! DEFINITION. The BitStream Writer and Reader (42_bitstream.md). -/

namespace Sys2Proof.Machine

open Sys2Proof

/-- `wacc | (b << (7 - wcount))` (R151). -/
def addBit (b : Bool) (w : BitWriter) : Byte :=
  if b then w.wacc ||| (1#8 <<< (7 - w.wcount)) else w.wacc

/-- `PutBit(b)` (R151). -/
def putBit (b : Bool) (s : State) : Body Unit :=
  let w : BitWriter := { wacc := addBit b s.writer, wcount := s.writer.wcount + 1 }
  if w.wcount = 8 then
    (emit w.wacc { s with writer := w }).bind fun _ s1 => .done () { s1 with writer := BitWriter.init }
  else .done () { s with writer := w }

/-- The bits of a string, first bit first (R153, R176). -/
def putBits : List Bool → State → Body Unit
  | [], s => .done () s
  | b :: bs, s => (putBit b s).bind fun _ s1 => putBits bs s1

/-- `FlushBits()` (R152): the answer is the number of significant bits of the last byte. -/
def flushBits (s : State) : Body Nat :=
  if 0 < s.writer.wcount then
    (emit s.writer.wacc s).bind fun _ s1 => .done s.writer.wcount { s1 with writer := BitWriter.init }
  else .done 8 { s with writer := BitWriter.init }

/-- The byte latch `rcur` for the next bit (R154): `InByte(rbyte)` when the bit is the byte's first. The cursor
`in_pos` counts the bytes parsed so far (R31). -/
def latchByte (s : State) : Body Unit :=
  if s.reader.rbit = 0 then
    (inByte s.reader.rbyte s).bind fun b s1 =>
      .done () { s1 with reader := { s1.reader with rcur := b }, inPos := s1.reader.rbyte + 1 }
  else .done () s

/-- The bit reader past one bit (R154). -/
def BitReader.advance (r : BitReader) : BitReader :=
  if r.rbit + 1 = 8 then { r with rbyte := r.rbyte + 1, rbit := 0 } else { r with rbit := r.rbit + 1 }

/-- `ReadBit()` (R154). -/
def readBit (s : State) : Body Bool :=
  (latchByte s).bind fun _ s1 =>
    .done (s1.reader.rcur.getLsbD (7 - s1.reader.rbit)) { s1 with reader := s1.reader.advance }

/-- The next `n` bits in stream order; `ReadBits(n)` is their value (R155). -/
def readBits : Nat → State → Body (List Bool)
  | 0, s => .done [] s
  | n + 1, s => (readBit s).bind fun b s1 => (readBits n s1).bind fun bs s2 => .done (b :: bs) s2

/-- `AlignRead()` (R156): the skipped bits are not checked. -/
def alignRead (s : State) : State :=
  if 0 < s.reader.rbit then
    { s with reader := { s.reader with rbyte := s.reader.rbyte + 1, rbit := 0 } }
  else s

/-- Write an artifact element in its encoded form: bytes with `Emit`, a tree node with `PutBit` and `PutBits`
(R82, R83, R85, R87, R88). A command word is no element of an artifact. -/
def emitCode : Code → State → Body Unit
  | .command _, s => .done () s
  | .lz77 bs, s => emitAll bs s
  | .rle bs, s => emitAll bs s
  | .hufHeader bs, s => emitAll bs s
  | .hufNode bits, s => putBits bits s
  | .hufTrailing bs, s => emitAll bs s

/-- Write one artifact element. -/
def emitElement (i : Instr) (s : State) : Body Unit := emitCode (encode i) s

end Sys2Proof.Machine
end

