-- ==== Sys2Proof/Machine/Huffman.lean ====
section
/-! DEFINITION. The Huffman Codec (43_huffman.md). -/

namespace Sys2Proof.Machine

open Sys2Proof

/-- `freq[c] <- freq[c] + 1` (R171). -/
def countSymbol (freq : List Nat) (c : Byte) : List Nat :=
  freq.set c.toNat (freq.getD c.toNat 0 + 1)

/-- The symbols with `freq[c] > 0` in ascending order (R46, R174); their number is `D`. -/
def presentSymbols (freq : List Nat) : List Byte :=
  ((List.range alphabet).filter fun c => decide (0 < freq.getD c 0)).map fun c => BitVec.ofNat 8 c

/-- `SingleSymbol()` (R173) for the one symbol `c` with count `n`. -/
def singleSymbol (c : Byte) (n : Nat) (s : State) : Body Unit :=
  if countMax < n then .raised .unsupported s
  else emitElement (.huffmanSingle 0#8 c (BitVec.ofNat 16 n)) s

/-- Insert one leaf per symbol, in the order given, numbering them (R174). -/
def insertLeaves : List Byte → HufWork → HufWork
  | [], h => h
  | c :: cs, h =>
    insertLeaves cs
      { h with
        arena := h.arena ++ [.leaf c (h.freq.getD c.toNat 0) h.nextSeq]
        queue := h.queue ++ [h.arena.length]
        nextSeq := h.nextSeq + 1 }

/-- The queue key `(freq, seq)` of a node (R49). -/
def Node.key : Node → Nat × Nat
  | .leaf _ f q => (f, q)
  | .internal f _ _ q => (f, q)

/-- Lexicographic order of keys (R49). -/
def keyLess (a b : Nat × Nat) : Bool := decide (a.1 < b.1) || (decide (a.1 = b.1) && decide (a.2 < b.2))

/-- `ExtractMin(Q)` (R49, R175): the index with the least key and the queue without it; `none` when the queue is
empty or holds an index that is no node's. -/
def extractMin (arena : List Node) : List Nat → Option (Nat × List Nat)
  | [] => none
  | i :: rest =>
    match arena[i]? with
    | none => none
    | some n =>
      match rest with
      | [] => some (i, [])
      | _ :: _ =>
        match extractMin arena rest with
        | none => none
        | some (j, rest') =>
          match arena[j]? with
          | none => none
          | some m => if keyLess m.key n.key then some (j, i :: rest') else some (i, rest)

/-- The new internal node of `BuildTree` (R175): the first extracted is the left child. -/
def mergeNodes (a b : Nat) (queue : List Nat) (na nb : Node) (h : HufWork) : HufWork :=
  { h with
    arena := h.arena ++ [.internal (na.key.1 + nb.key.1) a b h.nextSeq]
    queue := queue ++ [h.arena.length]
    nextSeq := h.nextSeq + 1 }

/-- One turn of the loop of `BuildTree` (R175), or, when one node is left, the root and the start of `GenCodes`. -/
def hufBuildStep (s : State) : Host.Outcome State Fault Refusal :=
  match extractMin s.huf.arena s.huf.queue with
  | none => .fault .danglingNode
  | some (a, []) => .next { s with huf := { s.huf with root := a, codeTodo := [(a, [])] }, phase := .hufCodes }
  | some (a, q) =>
    match extractMin s.huf.arena q with
    | none => .fault .danglingNode
    | some (b, q') =>
      match s.huf.arena[a]?, s.huf.arena[b]? with
      | some na, some nb => .next { s with huf := mergeNodes a b q' na nb s.huf }
      | _, _ => .fault .danglingNode

/-- The head of pass 1 (R171) and the choice after it (R170): one byte counted, or the empty artifact (R172), the
single-symbol header (R173), or the leaves of the tree (R174). -/
def hufCountStep (s : State) : Body Unit :=
  if s.inPos < s.srcCount then
    (inByte s.inPos s).bind fun c s1 =>
      .done () { s1 with huf := { s1.huf with freq := countSymbol s1.huf.freq c }, inPos := s1.inPos + 1 }
  else
    match presentSymbols s.huf.freq with
    | [] => .done () (complete .success s)
    | [c] =>
      (singleSymbol c (s.huf.freq.getD c.toNat 0) s).bind fun _ s1 => .done () (complete .success s1)
    | c :: cs => .done () { s with huf := insertLeaves (c :: cs) s.huf, phase := .hufBuild }

/-- The flag "false" and the start of `SerializeTree` (R170, R177). -/
def startTree (s : State) : Body Unit :=
  (emitElement .huffmanTreeFlag s).bind fun _ s1 =>
    .done ()
      { s1 with
        writer := BitWriter.init
        huf := { s1.huf with treeTodo := [s1.huf.root] }
        phase := .hufTree }

/-- One node of `GenCodes` (R176): a leaf records its code, an internal node goes on left, then right. -/
def hufCodesStep (s : State) : Host.Outcome State Fault Refusal :=
  match s.huf.codeTodo with
  | [] => .next (settle (startTree s))
  | (i, code) :: todo =>
    match s.huf.arena[i]? with
    | none => .fault .danglingNode
    | some (.leaf c _ _) =>
      .next { s with huf := { s.huf with codes := s.huf.codes.set c.toNat (some code), codeTodo := todo } }
    | some (.internal _ l r _) =>
      .next { s with huf := { s.huf with codeTodo := (l, code ++ [false]) :: (r, code ++ [true]) :: todo } }

/-- One node of `SerializeTree` (R177), or, when no node is left, `FlushBits` and the start of pass 2 (R170). -/
def hufTreeStep (s : State) : Host.Outcome State Fault Refusal :=
  match s.huf.treeTodo with
  | [] => .next (settle ((flushBits s).bind fun _ s1 => .done () { s1 with inPos := 0, phase := .hufBody }))
  | i :: todo =>
    match s.huf.arena[i]? with
    | none => .fault .danglingNode
    | some (.leaf c _ _) =>
      .next (settle (emitElement (.huffmanTreeLeaf (c.setWidth 16)) { s with huf := { s.huf with treeTodo := todo } }))
    | some (.internal _ l r _) =>
      .next (settle (emitElement .huffmanTreeInternal { s with huf := { s.huf with treeTodo := l :: r :: todo } }))

/-- `code[c]` (R48), and a free bit string of at most 255 bits for a symbol without a code, which pass 2 meets only
when the host writes IN during the command (R263). -/
def codeOf (c : Byte) (s : State) : List Bool × State :=
  match s.huf.codes.getD c.toNat none with
  | some code => (code, s)
  | none => ((Config.undefinedCode s.freeCount).take 255, { s with freeCount := s.freeCount + 1 })

/-- One byte of pass 2 (R170, R178), or the last byte's padding and the trailing byte. -/
def hufBodyStep (s : State) : Body Unit :=
  if s.inPos < s.srcCount then
    (inByte s.inPos s).bind fun c s1 =>
      (putBits (codeOf c s1).1 (codeOf c s1).2).bind fun _ s2 => .done () { s2 with inPos := s2.inPos + 1 }
  else
    (flushBits s).bind fun sig s1 =>
      (emitElement (.huffmanTrailing (BitVec.ofNat 8 sig)) s1).bind fun _ s2 => .done () (complete .success s2)

/-- `HUF_COMPRESS` (R170): issue. The body runs in engine steps (R267). -/
def execHufCompress (s : State) : Host.Outcome State Fault Refusal :=
  .next (whenIdle (fun s0 => launch .huffman noPair .hufCount (accept 7#4 s0)) s)

/-- `HUF_DECOMPRESS` (R180): issue. -/
def execHufDecompress (s : State) : Host.Outcome State Fault Refusal :=
  .next (whenIdle (fun s0 => launch .huffman noPair .hufHeader (accept 8#4 s0)) s)

/-- `SingleSymbolDecode()` after its reads (R181). -/
def repeatSymbol (h c : Byte) (count : Nat) (s : State) : Body Unit :=
  if 5 < s.srcCount then .raised .corruptStream s
  else if h ≠ 0#8 then .raised .corruptStream s
  else (emitRepeat c count s).bind fun _ s1 => .done () (complete .success s1)

/-- The decompressor's effect of a single-symbol header (R181): the command ends with it. -/
def execHuffmanSingle (h c : Byte) (count : Half) (s : State) : Host.Outcome State Fault Refusal :=
  .next (settle (repeatSymbol h c count.toNat s))

/-- The decompressor's effect of the flag "false" (R180): the tree parse starts at byte 1 with no node. -/
def execHuffmanTreeFlag (s : State) : Host.Outcome State Fault Refusal :=
  .next
    { s with
      reader := { s.reader with rbyte := 1, rbit := 0 }
      huf := { s.huf with nodes := 0, arena := [], frames := [] }
      phase := .hufParse }

/-- The decompressor's effect of a reserved flag (R86, R180): `CorruptStream`. -/
def execHuffmanReservedFlag (_f : Byte) (s : State) : Host.Outcome State Fault Refusal :=
  .next (complete .corruptStream s)

/-- A complete subtree at arena index `i` returns to its parent on the explicit stack (R182): a waiting left child is
kept, a waiting right child makes the internal node, and with no parent the subtree is the root. -/
def returnNode : List Frame → Nat → HufWork → HufWork × Bool
  | [], i, h => ({ h with frames := [], root := i }, true)
  | .wantLeft :: fs, i, h => ({ h with frames := .wantRight i :: fs }, false)
  | .wantRight l :: fs, i, h =>
    returnNode fs h.arena.length { h with arena := h.arena ++ [.internal 0 l i 0] }

/-- The parse after a node is complete: `AlignRead` and the body's extent when the tree is (R180, R182). -/
def afterNode (r : HufWork × Bool) (s : State) : State :=
  if r.2 then { alignRead { s with huf := r.1 } with phase := .hufExtent } else { s with huf := r.1 }

/-- The decompressor's effect of a leaf (R182): a character above 0xFF is `CorruptStream`. -/
def execHuffmanTreeLeaf (x : Half) (s : State) : Host.Outcome State Fault Refusal :=
  .next
    (if 0xFF < x.toNat then complete .corruptStream s
      else
        afterNode
          (returnNode s.huf.frames s.huf.arena.length
            { s.huf with arena := s.huf.arena ++ [.leaf (x.setWidth 8) 0 0] }) s)

/-- The decompressor's effect of an internal node (R182): its left child is parsed next. -/
def execHuffmanTreeInternal (s : State) : Host.Outcome State Fault Refusal :=
  .next { s with huf := { s.huf with frames := .wantLeft :: s.huf.frames } }

/-- `B`, the number of body bytes (R183): `rbyte` is the first byte after the tree. -/
def bodyBytes (s : State) : Nat := s.srcCount - s.reader.rbyte - 1

/-- The decompressor's effect of the trailing byte (R183): the body's extent, and the walk starts at the root. -/
def execHuffmanTrailing (sig : Byte) (s : State) : Host.Outcome State Fault Refusal :=
  .next
    (if sig.toNat < 1 ∨ 8 < sig.toNat then complete .corruptStream s
      else if bodyBytes s = 0 then complete .corruptStream s
      else
        { s with
          huf := { s.huf with bitsLeft := 8 * (bodyBytes s - 1) + sig.toNat, cur := s.huf.root }
          phase := .hufWalk })

/-- The walk stands at node `i` after a bit (R184): a leaf emits its symbol and the walk is back at the root. -/
def arriveAt (i : Nat) (s : State) : Host.Outcome State Fault Refusal :=
  match s.huf.arena[i]? with
  | none => .fault .danglingNode
  | some (.leaf c _ _) =>
    .next (settle ((emit c s).bind fun _ s1 => .done () { s1 with huf := { s1.huf with cur := s1.huf.root } }))
  | some (.internal _ _ _ _) => .next { s with huf := { s.huf with cur := i } }

/-- The walk takes bit `b` (R184, R185): 0 left, 1 right; a leaf has no child. -/
def takeBit (b : Bool) (s : State) : Host.Outcome State Fault Refusal :=
  match s.huf.arena[s.huf.cur]? with
  | none => .fault .danglingNode
  | some (.leaf _ _ _) => .next (complete .corruptStream s)
  | some (.internal _ l r _) => arriveAt (if b then r else l) s

/-- One body bit (R184), or the end of the body: inside a code it is `CorruptStream`. -/
def hufWalkStep (s : State) : Host.Outcome State Fault Refusal :=
  if s.huf.bitsLeft = 0 then
    .next (complete (if s.huf.cur = s.huf.root then .success else .corruptStream) s)
  else
    match readBit s with
    | .raised e s1 => .next (complete e s1)
    | .done b s1 => takeBit b { s1 with huf := { s1.huf with bitsLeft := s1.huf.bitsLeft - 1 } }

end Sys2Proof.Machine
end

