-- ==== Sys2Proof/Machine/Window.lean ====
section
/-! DEFINITION. The search window (R45) and the match finder (R113, R114). -/

namespace Sys2Proof.Machine

open Sys2Proof

/-- Store a symbol at a physical slot; slots below it that were never stored to are made. -/
def storeSlot (slots : List Byte) (i : Nat) (c : Byte) : List Byte :=
  if i < slots.length then slots.set i c else slots ++ List.replicate (i - slots.length) 0#8 ++ [c]

/-- `win[i]`, the `i`-th oldest held symbol, at slot `(win_head + i) mod W` (R45). -/
def Ring.get (r : Ring) (i : Nat) : Byte := r.slots.getD ((r.head + i) % r.cap) 0#8

/-- The logical window `win[0 .. win_len)`, oldest first (R45). -/
def Ring.view (r : Ring) : List Byte := (List.range r.len).map r.get

/-- The ring-buffer append (R45): below capacity at the tail; at capacity over the oldest; nothing when `W = 0`. -/
def Ring.append (r : Ring) (c : Byte) : Ring :=
  if r.len < r.cap then
    { r with slots := storeSlot r.slots ((r.head + r.len) % r.cap) c, len := r.len + 1 }
  else if r.cap = 0 then r
  else { r with slots := storeSlot r.slots r.head c, head := (r.head + 1) % r.cap }

/-- Append the symbols in order (R116). -/
def Ring.appendAll (r : Ring) (cs : List Byte) : Ring := cs.foldl Ring.append r

/-- The result of a search (R113). -/
structure Match where
  offset : Nat
  length : Nat
  deriving DecidableEq, Repr

/-- The length of the common prefix of the window from a position on and the remaining lookahead (R113): it ends at
the window's end and at the lookahead's end. -/
def commonPrefix : List Byte → List Byte → Nat
  | w :: ws, c :: cs => if w = c then commonPrefix ws cs + 1 else 0
  | _, _ => 0

/-- The scan of `FindMatch` from the oldest symbol to the newest (R113): the candidate at `i` is the rest of the
window from `i` on, and its length is the distance `win_len - i` back. The best is replaced only by a strictly longer
one (R114). -/
def scanWindow : List Byte → List Byte → Match → Match
  | [], _, best => best
  | w :: ws, look, best =>
    let k := commonPrefix (w :: ws) look
    scanWindow ws look (if best.length < k then { offset := (w :: ws).length, length := k } else best)

/-- `FindMatch` over a window and a lookahead (R113); nothing of it is kept (R117). -/
def findMatch (win look : List Byte) : Match := scanWindow win look { offset := 0, length := 0 }

end Sys2Proof.Machine
end

