-- ==== Sys2Proof/Machine/Lz77.lean ====
section
/-! DEFINITION. The LZ77 Codec (41_lz77.md). -/

namespace Sys2Proof.Machine

open Sys2Proof

/-- `for j in 0 .. n - 1: chunk[j] <- InByte(k + j)` (R111, R120). -/
def readChunk : Nat → Nat → State → Body (List Byte)
  | _, 0, s => .done [] s
  | k, n + 1, s =>
    (inByte k s).bind fun b s1 => (readChunk (k + 1) n s1).bind fun bs s2 => .done (b :: bs) s2

/-- The head of the outer loop of `LZ77Compress` (R120): the next chunk is read whole, or the command is complete. -/
def lzChunkStep (s : State) : Body Unit :=
  if s.inPos < s.srcCount then
    (readChunk s.inPos (min s.lz.lookahead (s.srcCount - s.inPos)) s).bind fun chunk s1 =>
      .done () { s1 with lz := { s1.lz with chunk := chunk, pos := 0 }, phase := .lzEncode }
  else .done () (complete .success s)

/-- The lookahead `chunk[p .. clen)` (R112). -/
def LzWork.look (z : LzWork) : List Byte := z.chunk.drop z.pos

/-- The token `FindMatch` and R115 choose: a match of two symbols or more, a literal otherwise. -/
def chooseToken (m : Match) (c : Byte) : Instr :=
  if 1 < m.length then .lz77Match (BitVec.ofNat 16 m.offset) (BitVec.ofNat 16 m.length) else .lz77Literal c

/-- How many symbols the token consumes (R115). -/
def tokenLength (m : Match) : Nat := if 1 < m.length then m.length else 1

/-- The chunk position and the window past the consumed symbols (R116). -/
def LzWork.consume (z : LzWork) (n : Nat) : LzWork :=
  { z with win := z.win.appendAll (z.look.take n), pos := z.pos + n }

/-- One turn of the inner loop of `LZ77Compress` (R120): one token; at the chunk's end the outer loop goes on. -/
def lzEncodeStep (s : State) : Body Unit :=
  match s.lz.look with
  | [] => .done () { s with phase := .lzChunk }
  | c :: cs =>
    let m := findMatch s.lz.win.view (c :: cs)
    (emitElement (chooseToken m c) s).bind fun _ s1 =>
      .done () { s1 with lz := s1.lz.consume (tokenLength m), inPos := s1.inPos + tokenLength m }

/-- `LZ77_COMPRESS` once accepted (R100, R120): LOOKAHEAD = 0 is `IllegalCommand`. -/
def startLz77 (s : State) : State :=
  if s.latch.l = 0#16 then complete .illegalCommand s
  else launch .lz77 { window := s.latch.w, lookahead := s.latch.l } .lzChunk s

/-- `LZ77_COMPRESS` (R120): issue. The body runs in engine steps (R267). -/
def execLz77Compress (s : State) : Host.Outcome State Fault Refusal :=
  .next (whenIdle (fun s0 => startLz77 (accept 5#4 s0)) s)

/-- `LZ77_DECOMPRESS` (R124): issue. -/
def execLz77Decompress (s : State) : Host.Outcome State Fault Refusal :=
  .next (whenIdle (fun s0 => launch .lz77 noPair .lzDecode (accept 6#4 s0)) s)

/-- The match copy (R124, R125), one symbol at a time: `n` symbols from offset `from` of OUT on. -/
def copyOut : Nat → Nat → State → Body Unit
  | _, 0, s => .done () s
  | j, n + 1, s => (emit (outByte j s) s).bind fun _ s1 => copyOut (j + 1) n s1

/-- The match arm of `LZ77Decompress` (R124). -/
def copyMatch (offset length : Nat) (s : State) : Body Unit :=
  if offset = 0 then .raised .corruptStream s
  else if s.outPos < offset then .raised .corruptStream s
  else copyOut (s.outPos - offset) length s

/-- The decompressor's effect of a literal token (R124). -/
def execLz77Literal (c : Byte) (s : State) : Host.Outcome State Fault Refusal := .next (settle (emit c s))

/-- The decompressor's effect of a match token (R124, R125). -/
def execLz77Match (offset length : Half) (s : State) : Host.Outcome State Fault Refusal :=
  .next (settle (copyMatch offset.toNat length.toNat s))

/-- The decompressor's effect of a reserved flag (R84, R124): `CorruptStream`. -/
def execLz77ReservedFlag (_f : Byte) (s : State) : Host.Outcome State Fault Refusal :=
  .next (complete .corruptStream s)

end Sys2Proof.Machine
end

