-- ==== Sys2Proof/Machine/Reserved.lean ====
section
/-! DEFINITION. The reserved command words (R92): each completes at issue with `IllegalCommand` (R235). -/

namespace Sys2Proof.Machine

open Sys2Proof

/-- OP 0x0 (R92). -/
def execReservedOp0 (s : State) : Host.Outcome State Fault Refusal := .next (whenIdle (rejectIllegal 0x0#4) s)

/-- OP 0x9 (R92). -/
def execReservedOp9 (s : State) : Host.Outcome State Fault Refusal := .next (whenIdle (rejectIllegal 0x9#4) s)

/-- OP 0xA (R92). -/
def execReservedOpA (s : State) : Host.Outcome State Fault Refusal := .next (whenIdle (rejectIllegal 0xA#4) s)

/-- OP 0xB (R92). -/
def execReservedOpB (s : State) : Host.Outcome State Fault Refusal := .next (whenIdle (rejectIllegal 0xB#4) s)

/-- OP 0xC (R92). -/
def execReservedOpC (s : State) : Host.Outcome State Fault Refusal := .next (whenIdle (rejectIllegal 0xC#4) s)

/-- OP 0xD (R92). -/
def execReservedOpD (s : State) : Host.Outcome State Fault Refusal := .next (whenIdle (rejectIllegal 0xD#4) s)

/-- OP 0xE (R92). -/
def execReservedOpE (s : State) : Host.Outcome State Fault Refusal := .next (whenIdle (rejectIllegal 0xE#4) s)

/-- OP 0xF (R92). -/
def execReservedOpF (s : State) : Host.Outcome State Fault Refusal := .next (whenIdle (rejectIllegal 0xF#4) s)

/-- A word with a nonzero bit in 31:4, whatever its OP (R34, R92). -/
def execReservedHigh (w : Word) (s : State) : Host.Outcome State Fault Refusal :=
  .next (whenIdle (rejectIllegal (opField w)) s)

end Sys2Proof.Machine
end

