-- ==== Sys2Proof/Machine/Rle.lean ====
section
/-! DEFINITION. The RLE Codec (44_rle.md). -/

namespace Sys2Proof.Machine

open Sys2Proof

/-- The inner loop of `RleCompress` (R210) with `run` symbols found and at most `more` to find (`run + more = 255`,
R211): the byte that ends the run is read and read again as the next run's first. -/
def countRun (c : Byte) (k : Nat) : Nat → Nat → State → Body Nat
  | 0, run, s => .done run s
  | more + 1, run, s =>
    if k + run < s.srcCount then
      (inByte (k + run) s).bind fun b s1 =>
        if b = c then countRun c k more (run + 1) s1 else .done run s1
    else .done run s

/-- One turn of the loop of `RleCompress` (R210): one pair. -/
def rleEncodeStep (s : State) : Body Unit :=
  if s.inPos < s.srcCount then
    (inByte s.inPos s).bind fun c s1 =>
      (countRun c s.inPos 254 1 s1).bind fun run s2 =>
        (emitElement (.rlePair (BitVec.ofNat 8 run) c) s2).bind fun _ s3 =>
          .done () { s3 with inPos := s3.inPos + run }
  else .done () (complete .success s)

/-- `RLE_COMPRESS` (R210): issue. The body runs in engine steps (R267). -/
def execRleCompress (s : State) : Host.Outcome State Fault Refusal :=
  .next (whenIdle (fun s0 => launch .rle noPair .rleEncode (accept 3#4 s0)) s)

/-- `RLE_DECOMPRESS` (R213): issue. -/
def execRleDecompress (s : State) : Host.Outcome State Fault Refusal :=
  .next (whenIdle (fun s0 => launch .rle noPair .rleDecode (accept 4#4 s0)) s)

/-- The decompressor's effect of one pair (R213): emit the symbol `count` times. -/
def execRlePair (count c : Byte) (s : State) : Host.Outcome State Fault Refusal :=
  .next (settle (emitRepeat c count.toNat s))

end Sys2Proof.Machine
end

