-- ==== Sys2Proof/Machine/Selector.lean ====
section
/-! DEFINITION. The Strategy Selector commands (40_dispatch.md section 2): `SEL_COMPRESS` and `SEL_DECOMPRESS`. -/

namespace Sys2Proof.Machine

open Sys2Proof

/-- The body `SEL_COMPRESS` starts (R103): RLE up to `RLE_MAX` bytes, LZ77 with the tier's pair above. -/
def startTier (s : State) : State :=
  if s.srcCount ≤ s.params.rleMax then launch .rle noPair .rleEncode s
  else launch .lz77 (tier s.params s.srcCount) .lzChunk s

/-- The decompressor a codec's artifact takes (R105). -/
def startDecoder (c : CodecId) (s : State) : State :=
  match c with
  | .rle => launch .rle noPair .rleDecode s
  | .lz77 => launch .lz77 noPair .lzDecode s
  | .huffman => launch .huffman noPair .hufHeader s
  | .unset => complete .invalidFormat s

/-- The dispatch of `SEL_DECOMPRESS` on the latched tag alone (R105, R106). -/
def startTagged (s : State) : State :=
  match codecOfTag s.latch.tag with
  | some c => startDecoder c s
  | none => complete .invalidFormat s

/-- `SEL_COMPRESS` (R103): issue. The body runs in engine steps (R267). -/
def execSelCompress (s : State) : Host.Outcome State Fault Refusal :=
  .next (whenIdle (fun s0 => startTier (accept 1#4 s0)) s)

/-- `SEL_DECOMPRESS` (R105, R106): issue. -/
def execSelDecompress (s : State) : Host.Outcome State Fault Refusal :=
  .next (whenIdle (fun s0 => startTagged (accept 2#4 s0)) s)

end Sys2Proof.Machine
end

