-- ==== Sys2Proof/Machine/Engine.lean ====
section
/-! DEFINITION. One engine step (R267): a decompressor fetches one artifact element and runs it as an instruction, a
compressor runs one turn of its loop. `run` is the meaning of instructions, given by Machine/Step.lean. -/

namespace Sys2Proof.Machine

open Sys2Proof

/-- Fetch one LZ77 token (R81, R124). -/
def fetchLz77 (s : State) : Body Code :=
  (nextByte s).bind fun flag s1 =>
    (nextBytes (lz77Rest flag) s1).bind fun rest s2 => .done (.lz77 (flag :: rest)) s2

/-- Fetch one RLE pair (R85, R213). -/
def fetchRle (s : State) : Body Code := (nextBytes 2 s).bind fun bs s1 => .done (.rle bs) s1

/-- Fetch the head of a Huffman artifact (R86, R87, R180, R181). -/
def fetchHufHeader (s : State) : Body Code :=
  (nextByte s).bind fun flag s1 =>
    (nextBytes (hufHeaderRest flag) s1).bind fun rest s2 => .done (.hufHeader (flag :: rest)) s2

/-- One more node is parsed (R182). -/
def countNode (s : State) : State := { s with huf := { s.huf with nodes := s.huf.nodes + 1 } }

/-- Fetch one tree node (R182): the node count is tested before the first bit is read (R237). -/
def fetchHufNode (s : State) : Body Code :=
  if nodeMax ≤ s.huf.nodes then .raised .corruptStream s
  else (readBit s).bind fun tag s1 =>
    (readBits (hufNodeRest tag) (countNode s1)).bind fun rest s2 => .done (.hufNode (tag :: rest)) s2

/-- Fetch the trailing byte (R183): an artifact that ends with its tree is truncated. -/
def fetchHufTrailing (s : State) : Body Code :=
  if s.srcCount ≤ s.reader.rbyte then .raised .ioFailure s
  else (inByte (s.srcCount - 1) s).bind fun b s1 => .done (.hufTrailing [b]) s1

/-- Run the element a fetch gives; an error of the fetch completes the command. -/
def runFetched (run : Instr → State → Host.Outcome State Fault Refusal) (x : Body Code) :
    Host.Outcome State Fault Refusal :=
  match x with
  | .raised e s => .next (complete e s)
  | .done c s =>
    match decode c with
    | .ok i => run i s
    | .error e => .refused (.undecodable e)

/-- A decompressor's loop (R213, R124, R180): the next element while input is left, completion at its end. -/
def runWhileInput (run : Instr → State → Host.Outcome State Fault Refusal) (fetch : State → Body Code) (s : State) :
    Host.Outcome State Fault Refusal :=
  if s.inPos < s.srcCount then runFetched run (fetch s) else .next (complete .success s)

/-- What the engine does in each phase of a running command. -/
def runPhase (run : Instr → State → Host.Outcome State Fault Refusal) (s : State) : Host.Outcome State Fault Refusal :=
  match s.phase with
  | .idle => .fault .busyWithoutBody
  | .rleEncode => .next (settle (rleEncodeStep s))
  | .rleDecode => runWhileInput run fetchRle s
  | .lzChunk => .next (settle (lzChunkStep s))
  | .lzEncode => .next (settle (lzEncodeStep s))
  | .lzDecode => runWhileInput run fetchLz77 s
  | .hufCount => .next (settle (hufCountStep s))
  | .hufBuild => hufBuildStep s
  | .hufCodes => hufCodesStep s
  | .hufTree => hufTreeStep s
  | .hufBody => .next (settle (hufBodyStep s))
  | .hufHeader => runWhileInput run fetchHufHeader s
  | .hufParse => runFetched run (fetchHufNode s)
  | .hufExtent => runFetched run (fetchHufTrailing s)
  | .hufWalk => hufWalkStep s

/-- One engine step: an idle engine waits for a CMD write (R246, R260). -/
def engineStep (run : Instr → State → Host.Outcome State Fault Refusal) (s : State) : Host.Outcome State Fault Refusal :=
  if s.status.busy then runPhase run s else .next s

/-- The pseudo-instruction `wait` (R97): one read of STATUS; while DONE is 0 the engine goes on and the host reads
again. -/
def hostWait (run : Instr → State → Host.Outcome State Fault Refusal) (rest : List Event) (s : State) :
    Host.Outcome State Fault Refusal :=
  let s1 := logRead s.status.word s
  if s.status.done then .next { s1 with inputs := rest } else engineStep run s1

/-- One step of the machine: the next listed input, or the engine when none is listed. -/
def stepWith (run : Instr → State → Host.Outcome State Fault Refusal) (s : State) : Host.Outcome State Fault Refusal :=
  match s.inputs with
  | [] => engineStep run s
  | .engine :: rest => engineStep run { s with inputs := rest }
  | .host op :: rest => hostAccess run op { s with inputs := rest }
  | .wait :: rest => hostWait run rest s
  | .fetch :: rest => .next (hostFetch { s with inputs := rest })
  | .reset :: rest => .next (warmReset { s with inputs := rest })

/-- BUSY is set, with an artifact of `bs` in IN, and the named part of a decompressor is about to read its first byte;
the reads find no access error. -/
def placeArtifact (c : CodecId) (ph : Phase) (bs : List Byte) (s : State) : State :=
  { s with
    status := { busy := true, done := false, err := .success, codec := c }
    inMem := Memory.writeAll s.inMem 0 bs
    latch := { s.latch with n := BitVec.ofNat 32 bs.length }
    inPos := 0
    phase := ph
    reader := { s.reader with rbyte := 0, rbit := 0 }
    huf := { s.huf with nodes := 0 }
    hazards := []
    env := { s.env with reads := List.replicate bs.length false ++ s.env.reads }
    inputs := .engine :: s.inputs }

/-- Bits packed into bytes, MSB-first, the last byte padded with zero bits (R14, R150). -/
def packBits : Nat → List Bool → List Byte
  | 0, _ => []
  | n + 1, bits =>
    BitVec.ofNat 8 (bitsValue ((bits ++ List.replicate 8 false).take 8)) :: packBits n (bits.drop 8)

/-- The state in which the very next step fetches and runs the instruction that `c` encodes: a command word is the
host's next access, written to CMD while the engine is idle; an artifact element is what the running decompressor
reads next (the trailing byte follows one body byte). -/
def placeCode (c : Code) (s : State) : State :=
  match c with
  | .command w =>
    { s with
      status := { s.status with busy := false }
      inputs := .host (.regWrite .w32 0 w) :: s.inputs }
  | .lz77 bs => placeArtifact .lz77 .lzDecode bs s
  | .rle bs => placeArtifact .rle .rleDecode bs s
  | .hufHeader bs => placeArtifact .huffman .hufHeader bs s
  | .hufNode bits => placeArtifact .huffman .hufParse (packBits ((bits.length + 7) / 8) bits) s
  | .hufTrailing bs => placeArtifact .huffman .hufExtent (0#8 :: bs) s

/-- The state in which the very next step runs the table row's instruction. -/
def placeTableWord (nbits w : Nat) (s : State) : State :=
  match tableCode nbits w with
  | some c => placeCode c s
  | none => s

end Sys2Proof.Machine
end

