-- ==== Sys2Proof/Machine/Dispatch.lean ====
section
/-! DEFINITION. The meaning of every instruction, one arm each. -/

namespace Sys2Proof.Machine

open Sys2Proof

def exec (i : Instr) (s : State) : Host.Outcome State Fault Refusal :=
  match i with
  | .selCompress => Sys2Proof.Machine.execSelCompress s
  | .selDecompress => Sys2Proof.Machine.execSelDecompress s
  | .rleCompress => Sys2Proof.Machine.execRleCompress s
  | .rleDecompress => Sys2Proof.Machine.execRleDecompress s
  | .lz77Compress => Sys2Proof.Machine.execLz77Compress s
  | .lz77Decompress => Sys2Proof.Machine.execLz77Decompress s
  | .hufCompress => Sys2Proof.Machine.execHufCompress s
  | .hufDecompress => Sys2Proof.Machine.execHufDecompress s
  | .reservedOp0 => Sys2Proof.Machine.execReservedOp0 s
  | .reservedOp9 => Sys2Proof.Machine.execReservedOp9 s
  | .reservedOpA => Sys2Proof.Machine.execReservedOpA s
  | .reservedOpB => Sys2Proof.Machine.execReservedOpB s
  | .reservedOpC => Sys2Proof.Machine.execReservedOpC s
  | .reservedOpD => Sys2Proof.Machine.execReservedOpD s
  | .reservedOpE => Sys2Proof.Machine.execReservedOpE s
  | .reservedOpF => Sys2Proof.Machine.execReservedOpF s
  | .reservedHigh w => Sys2Proof.Machine.execReservedHigh w s
  | .lz77Literal c => Sys2Proof.Machine.execLz77Literal c s
  | .lz77Match offset length => Sys2Proof.Machine.execLz77Match offset length s
  | .lz77ReservedFlag f => Sys2Proof.Machine.execLz77ReservedFlag f s
  | .rlePair count c => Sys2Proof.Machine.execRlePair count c s
  | .huffmanSingle h c count => Sys2Proof.Machine.execHuffmanSingle h c count s
  | .huffmanTreeFlag => Sys2Proof.Machine.execHuffmanTreeFlag s
  | .huffmanReservedFlag f => Sys2Proof.Machine.execHuffmanReservedFlag f s
  | .huffmanTreeLeaf x => Sys2Proof.Machine.execHuffmanTreeLeaf x s
  | .huffmanTreeInternal => Sys2Proof.Machine.execHuffmanTreeInternal s
  | .huffmanTrailing sig => Sys2Proof.Machine.execHuffmanTrailing sig s

end Sys2Proof.Machine
end

