-- ==== Sys2Proof/Machine/Step.lean ====
section
/-! DEFINITION. The step, and the state whose next step runs a given row of the opcode table. -/

namespace Sys2Proof.Machine

open Sys2Proof

/-- One step of the machine: `stepWith` over the meanings of all instructions. -/
def step (s : State) : Host.Outcome State Fault Refusal := stepWith exec s

/-- `s` with the row's instruction where the very next step takes its next instruction from. -/
def State.withFetchWord (s : State) (nbits w : Nat) : State := placeTableWord nbits w s

end Sys2Proof.Machine
end

