-- ==== Sys2Proof/Reference.lean ====
section
/-! DEFINITION. The codecs as pure functions on lists, which is what the source says a codec is (R2): the yardstick
that statements about a command's whole run use. The machine does not call them. -/

namespace Sys2Proof.Reference

open Sys2Proof Sys2Proof.Machine

/-- The maximal runs of a list, each as its length and its symbol (R210). -/
def runs : List Byte → List (Nat × Byte)
  | [] => []
  | c :: cs =>
    match runs cs with
    | [] => [(1, c)]
    | (n, d) :: rest => if c = d then (n + 1, d) :: rest else (1, c) :: (n, d) :: rest

/-- The pairs of one maximal run (R211): `floor(r / 255)` pairs of 255 and one of the remainder, if there is one. -/
def cutRun (r : Nat × Byte) : List Byte :=
  (List.replicate (r.1 / 255) [255#8, r.2]).flatten
    ++ (if r.1 % 255 = 0 then [] else [BitVec.ofNat 8 (r.1 % 255), r.2])

/-- The RLE artifact of an input (R210, R211). -/
def rleEncode (xs : List Byte) : List Byte := (runs xs).flatMap cutRun

/-- What a decompressor leaves: the symbols it emits and how it ends (R101, R237). With an error they are the symbols
emitted before it. -/
structure Decoded where
  out : List Byte
  err : ErrCode
  deriving DecidableEq, Repr

/-- Symbols emitted before the rest of a decompression. -/
def Decoded.after (ys : List Byte) (d : Decoded) : Decoded := { d with out := ys ++ d.out }

/-- The decompression of an RLE artifact (R213): the last pair of an odd length lacks its symbol. -/
def rleDecode : List Byte → Decoded
  | [] => { out := [], err := .success }
  | [_] => { out := [], err := .ioFailure }
  | n :: c :: rest => (rleDecode rest).after (List.replicate n.toNat c)

/-- The last `w` elements of a list. -/
def lastN {α : Type} (w : Nat) (xs : List α) : List α := xs.drop (xs.length - w)

/-- The tokens of one chunk and the window after it (R113 to R116), with at most `fuel` tokens. -/
def chunkTokens (w : Nat) : Nat → List Byte → List Byte → List Instr × List Byte
  | 0, win, _ => ([], win)
  | _ + 1, win, [] => ([], win)
  | fuel + 1, win, c :: cs =>
    let m := findMatch win (c :: cs)
    let used := (c :: cs).take (tokenLength m)
    let more := chunkTokens w fuel (lastN w (win ++ used)) ((c :: cs).drop (tokenLength m))
    (chooseToken m c :: more.1, more.2)

/-- The tokens of an input cut into chunks of `l` symbols (R111, R120), with at most `fuel` chunks. -/
def inputTokens (w l : Nat) : Nat → List Byte → List Byte → List Instr
  | 0, _, _ => []
  | _ + 1, _, [] => []
  | fuel + 1, win, x :: xs =>
    let chunk := (x :: xs).take l
    let r := chunkTokens w chunk.length win chunk
    r.1 ++ inputTokens w l fuel r.2 ((x :: xs).drop l)

/-- The bytes of an element of a byte-wise artifact. -/
def elementBytes (i : Instr) : List Byte :=
  match encode i with
  | .lz77 bs => bs
  | .rle bs => bs
  | .hufHeader bs => bs
  | .hufTrailing bs => bs
  | .hufNode _ => []
  | .command _ => []

/-- The LZ77 artifact of an input (R120). -/
def lzEncode (w l : Nat) (xs : List Byte) : List Byte := (inputTokens w l xs.length [] xs).flatMap elementBytes

/-- The output after a match copy (R125): one symbol at a time. -/
def copyBack (offset : Nat) : Nat → List Byte → List Byte
  | 0, out => out
  | n + 1, out => copyBack offset n (out ++ [out.getD (out.length - offset) 0#8])

/-- The decompression of an LZ77 token stream after the symbols `out` (R124): a missing byte is found before the offset
is looked at (R237). -/
def lzDecodeFrom (out : List Byte) : List Byte → Decoded
  | [] => { out := out, err := .success }
  | flag :: rest =>
    if flag = 0#8 then
      match rest with
      | c :: more => lzDecodeFrom (out ++ [c]) more
      | [] => { out := out, err := .ioFailure }
    else if flag = 1#8 then
      match rest with
      | o1 :: o0 :: l1 :: l0 :: more =>
        if (halfOf o1 o0).toNat = 0 ∨ out.length < (halfOf o1 o0).toNat then { out := out, err := .corruptStream }
        else lzDecodeFrom (copyBack (halfOf o1 o0).toNat (halfOf l1 l0).toNat out) more
      | _ => { out := out, err := .ioFailure }
    else { out := out, err := .corruptStream }

/-- The decompression of an LZ77 artifact (R124). -/
def lzDecode (xs : List Byte) : Decoded := lzDecodeFrom [] xs

/-- The artifact the Strategy Selector's compress makes of an input (R103). -/
def selArtifact (p : Params) (xs : List Byte) : List Byte :=
  if xs.length ≤ p.rleMax then rleEncode xs
  else lzEncode (tier p xs.length).window.toNat (tier p xs.length).lookahead.toNat xs

/-- A Huffman tree (R47). -/
inductive Tree where
  | leaf (sym : Byte)
  | node (left right : Tree)
  deriving DecidableEq, Repr

/-- The number of nodes of a tree. -/
def Tree.size : Tree → Nat
  | .leaf _ => 1
  | .node l r => l.size + r.size + 1

/-- The preorder bit sequence of a tree (R177). -/
def Tree.preorder : Tree → List Bool
  | .leaf c => true :: bitsMsb 16 c.toNat
  | .node l r => false :: (l.preorder ++ r.preorder)

/-- The leaves of a tree, each with its path after a given one (R176): 0 left, 1 right. -/
def Tree.paths : Tree → List Bool → List (Byte × List Bool)
  | .leaf c, path => [(c, path)]
  | .node l r, path => l.paths (path ++ [false]) ++ r.paths (path ++ [true])

/-- A tree stands at an index of an arena (R47). -/
def Stands (arena : List Node) : Nat → Tree → Prop
  | i, .leaf c => ∃ f q, arena[i]? = some (.leaf c f q)
  | i, .node l r => ∃ f a b q, arena[i]? = some (.internal f a b q) ∧ Stands arena a l ∧ Stands arena b r

/-- The walk from a tree down a bit string to a leaf (R184, R185): the leaf's symbol and the bits that are left. -/
def Tree.walk : Tree → List Bool → Option (Byte × List Bool)
  | .leaf c, bits => some (c, bits)
  | .node _ _, [] => none
  | .node l r, b :: bits => if b then r.walk bits else l.walk bits

/-- The symbols of a body (R184), with at most `fuel` of them; `none` when the bits end inside a code. -/
def Tree.decodeBody (t : Tree) : Nat → List Bool → Option (List Byte)
  | _, [] => some []
  | 0, _ :: _ => none
  | fuel + 1, b :: bits =>
    match t.walk (b :: bits) with
    | none => none
    | some (c, more) =>
      match t.decodeBody fuel more with
      | none => none
      | some cs => some (c :: cs)

/-- The distinct symbols of an input in ascending order (R174). -/
def symbols (xs : List Byte) : List Byte :=
  ((List.range alphabet).map fun k => BitVec.ofNat 8 k).filter fun c => decide (c ∈ xs)

/-- A tree in the queue of the tree build, with its key (R49). -/
structure Weighted where
  freq : Nat
  seq : Nat
  tree : Tree
  deriving DecidableEq, Repr

/-- Less in the queue's order (R49). -/
def Weighted.before (a b : Weighted) : Bool := keyLess (a.freq, a.seq) (b.freq, b.seq)

/-- The least of a nonempty queue, and the others (R49). -/
def least : Weighted → List Weighted → Weighted × List Weighted
  | a, [] => (a, [])
  | a, b :: bs =>
    if b.before a then ((least b bs).1, a :: (least b bs).2) else ((least a bs).1, b :: (least a bs).2)

/-- One leaf per symbol, numbered in ascending order (R174). -/
def leaves (xs : List Byte) : List Weighted :=
  (symbols xs).zipIdx.map fun (c, k) => { freq := xs.count c, seq := k, tree := .leaf c }

/-- The tree build (R175), with at most `fuel` merges; `none` when the fuel or the queue is empty. -/
def buildTree : Nat → Nat → List Weighted → Option Tree
  | _, _, [] => none
  | _, _, [a] => some a.tree
  | 0, _, _ :: _ :: _ => none
  | fuel + 1, seq, a :: b :: rest =>
    let first := least a (b :: rest)
    match first.2 with
    | [] => none
    | c :: cs =>
      let second := least c cs
      buildTree fuel (seq + 1)
        ({ freq := first.1.freq + second.1.freq, seq := seq, tree := .node first.1.tree second.1.tree } :: second.2)

/-- The tree of an input with two distinct symbols or more (R174, R175). -/
def hufTree (xs : List Byte) : Option Tree := buildTree alphabet (leaves xs).length (leaves xs)

/-- The code of a symbol (R176). -/
def Tree.code (t : Tree) (c : Byte) : List Bool := ((t.paths []).lookup c).getD []

/-- The bytes a bit string occupies after its flush (R152). -/
def byteCount (bits : List Bool) : Nat := (bits.length + 7) / 8

/-- A bit string as bytes, MSB-first, padded with zero bits (R150, R152). -/
def packed (bits : List Bool) : List Byte := packBits (byteCount bits) bits

/-- The single-symbol header (R87, R173). -/
def singleHeader (c : Byte) (n : Nat) : List Byte :=
  [0x01#8, 0x00#8, c, BitVec.ofNat 8 (n / 256), BitVec.ofNat 8 (n % 256)]

/-- The artifact with a tree (R88): the flag, the tree section, the body, the trailing byte. -/
def treeArtifact (t : Tree) (xs : List Byte) : List Byte :=
  let body := xs.flatMap t.code
  0x00#8 :: packed t.preorder ++ packed body ++ [BitVec.ofNat 8 (body.length - 8 * (byteCount body - 1))]

/-- The Huffman artifact of an input (R170, R172, R173). A single symbol that occurs more than 65535 times has none; the
header here would then hold a cut count, and statements exclude that case. -/
def hufEncode (xs : List Byte) : List Byte :=
  match symbols xs with
  | [] => []
  | [c] => singleHeader c xs.length
  | _ => ((hufTree xs).map fun t => treeArtifact t xs).getD []

/-- The bits of bytes in stream order (R14). -/
def streamBits (bs : List Byte) : List Bool := bs.flatMap fun b => bitsMsb 8 b.toNat

/-- `ParseNode` (R182) on the bits of the tree section, with `nodes` nodes parsed before: the tree, the nodes parsed so
far and the bits that are left. The depth is at most `fuel`; the node bound is met before a fuel of `nodeMax + 1` ends. -/
def parseTree : Nat → Nat → List Bool → Except ErrCode (Tree × Nat × List Bool)
  | 0, _, _ => .error .corruptStream
  | fuel + 1, nodes, bits =>
    if nodeMax ≤ nodes then .error .corruptStream
    else match bits with
      | [] => .error .ioFailure
      | tag :: rest =>
        if tag then
          if rest.length < 16 then .error .ioFailure
          else if 0xFF < bitsValue (rest.take 16) then .error .corruptStream
          else .ok (.leaf (BitVec.ofNat 8 (bitsValue (rest.take 16))), nodes + 1, rest.drop 16)
        else
          match parseTree fuel (nodes + 1) rest with
          | .error e => .error e
          | .ok (l, m, more) =>
            match parseTree fuel m more with
            | .error e => .error e
            | .ok (r, k, left) => .ok (.node l r, k, left)

/-- `DecodeBody` (R184) from the node `cur` of the tree `root` on. -/
def walkBody (root : Tree) : Tree → List Bool → Decoded
  | cur, [] => { out := [], err := if cur = root then .success else .corruptStream }
  | .leaf _, _ :: _ => { out := [], err := .corruptStream }
  | .node l r, b :: bits =>
    match (if b then r else l) with
    | .leaf c => (walkBody root root bits).after [c]
    | .node l' r' => walkBody root (.node l' r') bits

/-- The body's extent and the body (R183, R184), on the bytes after the tree section. -/
def bodyDecode (t : Tree) (tail : List Byte) : Decoded :=
  match tail.getLast? with
  | none => { out := [], err := .ioFailure }
  | some sig =>
    if sig.toNat < 1 ∨ 8 < sig.toNat then { out := [], err := .corruptStream }
    else if tail.length ≤ 1 then { out := [], err := .corruptStream }
    else walkBody t t ((streamBits tail).take (8 * (tail.length - 2) + sig.toNat))

/-- The tree, the byte boundary after it (R156) and the body (R180, R182 to R184), on the bytes after the flag. -/
def treeDecode (bs : List Byte) : Decoded :=
  match parseTree (nodeMax + 1) 0 (streamBits bs) with
  | .error e => { out := [], err := e }
  | .ok (t, _, left) => bodyDecode t (bs.drop (bs.length - left.length / 8))

/-- The single-symbol header after its flag (R181). -/
def singleDecode : List Byte → Decoded
  | h :: c :: n1 :: n0 :: more =>
    if more ≠ [] ∨ h ≠ 0#8 then { out := [], err := .corruptStream }
    else { out := List.replicate (halfOf n1 n0).toNat c, err := .success }
  | _ => { out := [], err := .ioFailure }

/-- The decompression of a Huffman artifact (R180). -/
def hufDecode : List Byte → Decoded
  | [] => { out := [], err := .success }
  | flag :: rest =>
    if flag = 1#8 then singleDecode rest
    else if flag = 0#8 then treeDecode rest
    else { out := [], err := .corruptStream }

end Sys2Proof.Reference
end

