-- ==== Sys2Proof/Safety.lean ====
section
/-! DEFINITION. The terms claims use: frames, the premise that no access fails, runs of many steps, and the
invariants that every step keeps. -/

namespace Sys2Proof.Machine

open Sys2Proof

/-- "Every draw is false" (R65): no listed draw is true, and none after them. -/
def State.Quiet (s : State) : Prop :=
  (∀ d ∈ s.env.reads, d = false) ∧ (∀ d ∈ s.env.writes, d = false) ∧ s.env.quiet = true

/-- `n` steps, stopping at a fault or a refusal. -/
def runSteps : Nat → State → Host.Outcome State Fault Refusal
  | 0, s => .next s
  | n + 1, s =>
    match step s with
    | .next t => runSteps n t
    | .fault r => .fault r
    | .refused r => .refused r

/-- Some number of steps leads from `s` to `t` (R267: "a sequence of engine steps of any length"). -/
def Runs (s t : State) : Prop := ∃ n, runSteps n s = .next t

/-- The first `n` bytes of IN. -/
def State.inBytes (s : State) (n : Nat) : List Byte := (List.range n).map s.inByteAt

/-- The first `n` bytes of OUT. -/
def State.outBytes (s : State) (n : Nat) : List Byte := (List.range n).map s.outByteAt

/-- The state differs only by draws taken and by what `Emit` writes: OUT, `out_pos` and the environment. -/
def EmitFrame (s t : State) : Prop :=
  t = { s with outMem := t.outMem, outPos := t.outPos, env := t.env }

/-- Issue leaves these as they are: the operand registers, both spaces, the environment, the inputs (R52, R74, R100). -/
def IssueFrame (s t : State) : Prop :=
  t.params = s.params ∧ t.srcLen = s.srcLen ∧ t.lzCfg = s.lzCfg ∧ t.decTag = s.decTag ∧ t.inMem = s.inMem
    ∧ t.outMem = s.outMem ∧ t.outEpoch = s.outEpoch ∧ t.env = s.env ∧ t.freeCount = s.freeCount
    ∧ t.inputs = s.inputs ∧ t.readLog = s.readLog

/-- The operands are latched and the cursors are 0 (R52, R31). -/
def Latched (op : BitVec 4) (s t : State) : Prop :=
  t.latch = { op := op, n := s.srcLen, w := windowField s.lzCfg, l := lookaheadField s.lzCfg, tag := s.decTag }
    ∧ t.inPos = 0 ∧ t.outPos = 0

/-- The body of a command stands at its start (R100, R262): BUSY is set, DONE, ERR and OUT_LEN are cleared, CODEC and
USED_CFG are written, the operands are latched and the internal state is at its start values. -/
def IssuedBody (op : BitVec 4) (c : CodecId) (w : LzPair) (ph : Phase) (s t : State) : Prop :=
  t.status = { busy := true, done := false, err := .success, codec := c }
    ∧ t.outLen = 0#32 ∧ t.usedCfg = pairWord w.window w.lookahead ∧ Latched op s t ∧ t.phase = ph
    ∧ t.lz = { LzWork.init with win := Ring.empty w.window.toNat, lookahead := w.lookahead.toNat }
    ∧ t.huf = HufWork.init ∧ t.writer = BitWriter.init ∧ t.reader = BitReader.init ∧ t.hazards = []
    ∧ IssueFrame s t

/-- The command is complete at issue with an error (R100, R101): nothing of IN or OUT is touched. -/
def RejectedAtIssue (op : BitVec 4) (e : ErrCode) (c : CodecId) (w : LzPair) (s t : State) : Prop :=
  t.status = { busy := false, done := true, err := e, codec := c }
    ∧ t.outLen = 0#32 ∧ t.usedCfg = pairWord w.window w.lookahead ∧ Latched op s t ∧ t.phase = .idle
    ∧ IssueFrame s t

/-- A command completed with an error once its body had started (R76, R101, R238): ERR and DONE are written, OUT_LEN
is 0, CODEC and USED_CFG are kept, OUT is any value, IN and the operand registers are as they were. -/
def FailedInBody (e : ErrCode) (s t : State) : Prop :=
  t.status = { busy := false, done := true, err := e, codec := s.status.codec }
    ∧ t.outLen = 0#32 ∧ t.usedCfg = s.usedCfg ∧ t.phase = .idle ∧ t.outMem = [] ∧ t.outEpoch = s.outEpoch + 1
    ∧ t.params = s.params ∧ t.srcLen = s.srcLen ∧ t.lzCfg = s.lzCfg ∧ t.decTag = s.decTag ∧ t.inMem = s.inMem
    ∧ t.latch = s.latch ∧ t.inputs = s.inputs ∧ t.readLog = s.readLog

/-- The result of a command that succeeded (R76, R101, R269): OUT_LEN bytes `ys` at the start of OUT, the rest of OUT
as it was at issue in `s`, IN and the operand registers unchanged. -/
def Succeeded (c : CodecId) (ys : List Byte) (s t : State) : Prop :=
  t.status = { busy := false, done := true, err := .success, codec := c }
    ∧ t.outLen = BitVec.ofNat 32 ys.length ∧ t.outBytes ys.length = ys ∧ t.phase = .idle
    ∧ (∀ a, ys.length ≤ a → t.outByteAt a = s.outByteAt a)
    ∧ t.inMem = s.inMem ∧ t.params = s.params ∧ t.srcLen = s.srcLen ∧ t.lzCfg = s.lzCfg ∧ t.decTag = s.decTag

/-- The run of a decompressor issued in `t` from `s` has ended in `u` as the reference says (R101, R237): with its symbols
in OUT, with its error, or with IOFailure where OUT is too small for the symbols (R63). -/
def DecodesTo (c : CodecId) (d : Reference.Decoded) (s t u : State) : Prop :=
  (d.out.length ≤ s.params.outSize → d.err = .success → Succeeded c d.out s u)
    ∧ (d.out.length ≤ s.params.outSize → d.err ≠ .success → FailedInBody d.err t u)
    ∧ (s.params.outSize < d.out.length → FailedInBody .ioFailure t u)

/-- The run of a compressor issued in `t` from `s` has ended in `u`: with its artifact in OUT, or with IOFailure where OUT is
too small for it (R63, R232). -/
def EncodesTo (c : CodecId) (art : List Byte) (s t u : State) : Prop :=
  (art.length ≤ s.params.outSize → Succeeded c art s u)
    ∧ (s.params.outSize < art.length → FailedInBody .ioFailure t u)

/-- The host has put the artifact that the command ended in `u` left in OUT into the IN of an idle machine `v`, and no
access of `v` fails (R110, R126, R186, R212). -/
def CarriesArtifact (u v : State) : Prop :=
  v.status.busy = false ∧ v.Quiet ∧ v.inputs = [] ∧ v.srcLen = u.outLen ∧ v.srcLen.toNat ≤ v.params.inSize
    ∧ v.inBytes u.outLen.toNat = u.outBytes u.outLen.toNat

/-- What the host can rely on in the registers (R36, R37, R39, R102). -/
structure RegisterInv (s : State) : Prop where
  busyOrDone : ¬(s.status.busy = true ∧ s.status.done = true)
  busyStatus : s.status.busy = true → s.status.err = .success ∧ s.outLen = 0#32 ∧ s.status.codec ≠ .unset
  busyPhase : s.status.busy = true ↔ s.phase ≠ .idle
  busyLength : s.status.busy = true → s.srcCount ≤ s.params.inSize

/-- IN and OUT are in canonical form and inside their sizes, and the cursors are in range (R31, R60). -/
structure SpaceInv (s : State) : Prop where
  inWf : Memory.wf s.inMem = true
  inBelow : Memory.below s.params.inSize s.inMem = true
  outWf : Memory.wf s.outMem = true
  outBelow : Memory.below s.params.outSize s.outMem = true
  outCursor : s.outPos ≤ s.params.outSize
  inCursor : s.status.busy = true → s.inPos ≤ s.srcCount

/-- The ring's shape (R45): never more than `W` symbols, and the oldest moves only when the ring is full. -/
structure Ring.Wf (r : Ring) : Prop where
  within : r.len ≤ r.cap
  slots : r.slots.length = r.len
  headFull : r.len < r.cap → r.head = 0
  headIn : 0 < r.cap → r.head < r.cap

/-- The LZ77 compressor's state while it runs (R10, R45, R111, R112). -/
structure LzInv (s : State) : Prop where
  ring : s.lz.win.Wf
  capLegal : s.lz.win.cap < 2 ^ 16
  lookaheadLegal : 1 ≤ s.lz.lookahead ∧ s.lz.lookahead < 2 ^ 16
  chunk : s.phase = .lzEncode →
    s.lz.pos ≤ s.lz.chunk.length ∧ s.lz.chunk.length ≤ s.lz.lookahead
      ∧ s.inPos + (s.lz.chunk.length - s.lz.pos) ≤ s.srcCount

/-- The children of an internal node come before it in the arena (R47: "stable indices in a flat arena"). -/
def ArenaWf (arena : List Node) : Prop :=
  ∀ i f l r q, arena[i]? = some (Node.internal f l r q) → l < i ∧ r < i

/-- The Huffman codec's state: every index it keeps is a node's, and the counters are in range (R46 to R51). -/
structure HufInv (s : State) : Prop where
  freq : s.huf.freq.length = 256
  codes : s.huf.codes.length = 256
  wcount : s.writer.wcount < 8
  rbit : s.reader.rbit < 8
  arena : ArenaWf s.huf.arena
  nodes : s.huf.nodes ≤ nodeMax
  queue : s.phase = .hufCount ∨ s.phase = .hufBuild → ∀ i ∈ s.huf.queue, i < s.huf.arena.length
  building : s.phase = .hufBuild → s.huf.queue ≠ []
  codeTodo : s.phase = .hufCodes →
    s.huf.root < s.huf.arena.length ∧ ∀ p ∈ s.huf.codeTodo, p.1 < s.huf.arena.length
  treeTodo : s.phase = .hufTree →
    s.huf.root < s.huf.arena.length ∧ ∀ i ∈ s.huf.treeTodo, i < s.huf.arena.length
  frames : s.phase = .hufParse → ∀ l, Frame.wantRight l ∈ s.huf.frames → l < s.huf.arena.length
  root : s.phase = .hufExtent → s.huf.root < s.huf.arena.length
  walk : s.phase = .hufWalk → s.huf.root < s.huf.arena.length ∧ s.huf.cur < s.huf.arena.length

/-- The machine's invariant. -/
structure Inv (s : State) : Prop where
  params : s.params.wf
  registers : RegisterInv s
  spaces : SpaceInv s
  lz : s.phase = .lzChunk ∨ s.phase = .lzEncode → LzInv s
  huf : HufInv s

/-- What the LZ77 compressor's window and chunk hold (R111, R116): the last `W` symbols consumed, and the input from
`in_pos` on. -/
def LzTrace (s : State) : Prop :=
  s.phase = .lzChunk ∨ s.phase = .lzEncode →
    s.lz.win.view = Reference.lastN s.lz.win.cap (s.inBytes s.inPos)
      ∧ (s.phase = .lzEncode → s.lz.look = (List.range (s.lz.chunk.length - s.lz.pos)).map fun k => s.inByteAt (s.inPos + k))

/-- Bit `j` of IN in stream order (R14): bit 0 of the stream is bit 7 of byte 0. -/
def State.inBit (s : State) (j : Nat) : Bool := (s.inByteAt (j / 8)).getLsbD (7 - j % 8)

/-- The bits of IN from bit `j` on are these, and they lie inside the artifact. -/
def State.BitsAt (s : State) (j : Nat) (bits : List Bool) : Prop :=
  (∀ k, k < bits.length → s.inBit (j + k) = bits.getD k false) ∧ j + bits.length ≤ 8 * s.srcCount

/-- The bit reader stands inside the artifact with its byte latched (R51, R154). -/
def ReaderReady (s : State) : Prop :=
  s.reader.rbit < 8 ∧ (s.reader.rbit = 0 ∨ s.reader.rcur = s.inByteAt s.reader.rbyte)

/-- The bit cursor `8 × rbyte + rbit` (R51). -/
def State.bitCursor (s : State) : Nat := 8 * s.reader.rbyte + s.reader.rbit

/-- The state after bits have been read (R154): only the bit reader, `in_pos` and the draws move. -/
def ReadFrame (s t : State) : Prop := t = { s with reader := t.reader, inPos := t.inPos, env := t.env }

/-- The internal state left from before a command (R53): everything but the registers, the spaces, the environment and
the inputs. -/
def SameVisible (s t : State) : Prop :=
  ∃ latch inPos outPos phase lz huf writer reader hazards,
    t =
      { s with
        latch := latch
        inPos := inPos
        outPos := outPos
        phase := phase
        lz := lz
        huf := huf
        writer := writer
        reader := reader
        hazards := hazards }

end Sys2Proof.Machine
end

