-- ==== Sys2Proof/Certificates/Slice0/Obligations.lean ====
section
/-! DEFINITION. The statements for the provers. A state is "idle" when STATUS.BUSY is 0. A statement about what a
command leaves in OUT takes "every draw is false" (`Quiet`) as its premise, as R65 asks. -/

open Sys2Proof Sys2Proof.Machine

/-! ## Reset -/

/-- R260: after reset every register reads 0, the engine is idle, no command is latched, and it waits. -/
def Obligations.ResetRegistersReadZero : Prop :=
  (∀ r : Reg, readReg r State.reset = 0#32)
    ∧ State.reset.status.busy = false ∧ State.reset.status.done = false ∧ State.reset.phase = .idle
    ∧ step State.reset = .next State.reset

/-- The invariant holds at reset. -/
def Obligations.ResetMeetsInvariant : Prop := Inv State.reset

/-- R261: a reset while BUSY = 1 abandons the command: every register reads 0 and the engine is idle and stays so, OUT
is any value (no byte of it is kept, and a new epoch of free bytes begins), IN is not changed. R260: after a reset of any
engine, idle or not, every register reads 0 and the engine is idle and waits; the host's later inputs are kept. -/
def Obligations.ResetAbandonsRunningCommand : Prop :=
  (∀ (s : State) (rest : List Event), s.status.busy = true → s.inputs = .reset :: rest →
    ∃ t, step s = .next t ∧ (∀ r : Reg, readReg r t = 0#32) ∧ t.phase = .idle ∧ t.outMem = []
      ∧ t.outEpoch = s.outEpoch + 1 ∧ t.inMem = s.inMem ∧ t.params = s.params ∧ t.inputs = rest
      ∧ engineStep exec t = .next t)
  ∧ ∀ (s : State) (rest : List Event), s.inputs = .reset :: rest →
    ∃ t, step s = .next t ∧ (∀ r : Reg, readReg r t = 0#32) ∧ t.status.busy = false ∧ t.status.done = false
      ∧ t.phase = .idle ∧ t.params = s.params ∧ t.inputs = rest ∧ engineStep exec t = .next t

/-! ## The host's accesses -/

/-- R35: the fields of STATUS as a host reads them, its reset value, and that writes to it are ignored; the numbers of
the errors (R230) and of the codecs (R89) in it. -/
def Obligations.StatusWordLayout : Prop :=
  ∀ (s : State) (v : Word),
    (readReg .status s).getLsbD 0 = s.status.busy
      ∧ (readReg .status s).getLsbD 1 = s.status.done
      ∧ (readReg .status s).extractLsb' 2 2 = 0#2
      ∧ (readReg .status s).extractLsb' 4 4 = s.status.err.code
      ∧ (readReg .status s).extractLsb' 8 4 = s.status.codec.code
      ∧ (readReg .status s).extractLsb' 12 20 = 0#20
      ∧ writeReg .status v s = s
      ∧ readReg .status State.reset = 0#32 ∧ Reg.status.offset = 0x04
      ∧ ErrCode.success.code = 0#4 ∧ ErrCode.invalidFormat.code = 1#4 ∧ ErrCode.ioFailure.code = 2#4
      ∧ ErrCode.corruptStream.code = 3#4 ∧ ErrCode.unsupported.code = 4#4 ∧ ErrCode.illegalCommand.code = 5#4
      ∧ CodecId.unset.code = 0#4 ∧ CodecId.rle.code = 1#4 ∧ CodecId.lz77.code = 2#4 ∧ CodecId.huffman.code = 3#4

/-- R33, R34, R44, R54, R68: an aligned 32-bit read at a register's offset returns the register and changes nothing else;
what each register reads, and the offsets of R33. R97: `wait` reads STATUS and is done when DONE is 1; while DONE is 0 the
host reads again, and the engine takes one step between two reads (the model's choice, log 12). `fetch`
reads OUT_LEN, and then reads that many bytes of OUT. That a read after the completion sees the command's results without
a STATUS read of DONE = 1 before it is the model's choice (log 30). -/
def Obligations.RegisterReadHasNoSideEffect : Prop :=
  ∀ (s : State) (rest : List Event),
    (∀ r : Reg, s.inputs = .host (.regRead .w32 r.offset) :: rest →
      step s = .next { s with inputs := rest, readLog := readReg r s :: s.readLog })
    ∧ (readReg .cmd s = 0#32 ∧ readReg .srcLen s = s.srcLen ∧ readReg .outLen s = s.outLen ∧ readReg .lzCfg s = s.lzCfg
      ∧ readReg .usedCfg s = s.usedCfg ∧ readReg .reserved s = 0#32
      ∧ (readReg .decCodec s).extractLsb' 0 8 = s.decTag ∧ (readReg .decCodec s).extractLsb' 8 24 = 0#24)
    ∧ (Reg.cmd.offset = 0x00 ∧ Reg.status.offset = 0x04 ∧ Reg.srcLen.offset = 0x08 ∧ Reg.outLen.offset = 0x0C
      ∧ Reg.lzCfg.offset = 0x10 ∧ Reg.usedCfg.offset = 0x14 ∧ Reg.decCodec.offset = 0x18 ∧ Reg.reserved.offset = 0x1C)
    ∧ (s.inputs = .wait :: rest →
      (s.status.done = true → step s = .next { s with inputs := rest, readLog := readReg .status s :: s.readLog })
      ∧ (s.status.done = false → step s = engineStep exec { s with readLog := readReg .status s :: s.readLog }))
    ∧ (s.inputs = .fetch :: rest →
      step s = .next
        { s with
          inputs := ((List.range s.outLen.toNat).map fun k => .host (.outRead k)) ++ rest
          readLog := readReg .outLen s :: s.readLog })

/-- R33, R40, R42, R44, R54: while the engine is idle SRC_LEN and LZ_CFG take the written word, DEC_CODEC its low byte,
and the read-only and reserved registers ignore the write. -/
def Obligations.IdleRegisterWrites : Prop :=
  ∀ (s : State) (r : Reg) (v : Word) (rest : List Event), s.status.busy = false →
    s.inputs = .host (.regWrite .w32 r.offset v) :: rest → r ≠ .cmd →
    step s = .next
      { s with
        inputs := rest
        srcLen := if r = .srcLen then v else s.srcLen
        lzCfg := if r = .lzCfg then v else s.lzCfg
        decTag := if r = .decCodec then v.extractLsb' 0 8 else s.decTag }

/-- R102: while BUSY = 1 a host write to CMD, SRC_LEN, LZ_CFG or DEC_CODEC changes nothing, and reads return the current
values: BUSY 1, DONE 0, ERR 0, OUT_LEN 0. -/
def Obligations.BusyRegisterWritesIgnored : Prop :=
  ∀ (s : State) (v : Word) (rest : List Event), s.status.busy = true →
    (∀ r : Reg, r = .cmd ∨ r = .srcLen ∨ r = .lzCfg ∨ r = .decCodec →
      s.inputs = .host (.regWrite .w32 r.offset v) :: rest → step s = .next { s with inputs := rest })
    ∧ (RegisterInv s →
        (readReg .status s).getLsbD 0 = true ∧ (readReg .status s).getLsbD 1 = false
          ∧ (readReg .status s).extractLsb' 4 4 = 0#4 ∧ readReg .outLen s = 0#32
          ∧ (readReg .status s).extractLsb' 8 4 = s.status.codec.code ∧ readReg .usedCfg s = s.usedCfg)

/-- R67: REG accesses that are not 32 bits wide, not aligned or at 0x20 or above are refused, and so are byte accesses
beyond IN and OUT; in order of the model's tests (log 22). -/
def Obligations.MalformedAccessesRefused : Prop :=
  ∀ (s : State) (rest : List Event) (w : Width) (off k : Nat) (v : Word) (b : Byte),
    (∀ op, (op = .regRead w off ∨ op = .regWrite w off v) → s.inputs = .host op :: rest →
      (w ≠ .w32 → step s = .refused .regWidth)
        ∧ (w = .w32 → off % 4 ≠ 0 → step s = .refused .regMisaligned)
        ∧ (w = .w32 → off % 4 = 0 → 0x20 ≤ off → step s = .refused .regOutOfRange))
    ∧ (s.inputs = .host (.inWrite k b) :: rest → s.params.inSize ≤ k → step s = .refused .inOutOfRange)
    ∧ (s.inputs = .host (.outRead k) :: rest → s.params.outSize ≤ k → step s = .refused .outOutOfRange)

/-- R60, R68: while the engine is idle `inb` stores its byte at its offset and nowhere else, and `outb` returns the byte
OUT holds and changes nothing else. R97: `fetch` returns OUT_LEN and then OUT's first OUT_LEN bytes in order. That these
reads see a completed command's output without a STATUS read of DONE = 1 before them is the model's choice (log 30): R72
promises no such ordering. -/
def Obligations.IdleByteAccesses : Prop :=
  ∀ (s : State) (rest : List Event) (k : Nat) (b : Byte), s.status.busy = false →
    (s.inputs = .host (.inWrite k b) :: rest → k < s.params.inSize →
      ∃ t, step s = .next t ∧ t = { s with inputs := rest, inMem := t.inMem } ∧ t.inByteAt k = b
        ∧ ∀ a, a ≠ k → t.inByteAt a = s.inByteAt a)
    ∧ (s.inputs = .host (.outRead k) :: rest → k < s.params.outSize →
      step s = .next { s with inputs := rest, readLog := (s.outByteAt k).setWidth 32 :: s.readLog })
    ∧ (s.inputs = .fetch :: rest → s.outLen.toNat ≤ s.params.outSize →
      runSteps (s.outLen.toNat + 1) s = .next
        { s with
          inputs := rest
          readLog := ((s.outBytes s.outLen.toNat).map fun c => c.setWidth 32).reverse ++ s.outLen :: s.readLog })

/-- R263: an engine read, that does not fail, of an offset the host has written during the command returns any value, and
a host read of OUT during a command returns any value. The model's choices (logs 7 and 8): the value is the next free byte,
the written offsets are the list `hazards`, which every step keeps until the command is over, and IN holds the byte the
host wrote. -/
def Obligations.BusyHostAccessesReadAnyValue : Prop :=
  (∀ (s : State) (rest : List Event) (k : Nat) (b : Byte), s.status.busy = true →
    (s.inputs = .host (.inWrite k b) :: rest → k < s.params.inSize → k < s.srcCount →
      ∃ t, step s = .next t ∧ t.status = s.status ∧ t.phase = s.phase ∧ t.inByteAt k = b ∧ k ∈ t.hazards
        ∧ (∀ a, a ≠ k → t.inByteAt a = s.inByteAt a)
        ∧ ∀ c u, inByte k t = .done c u → c = Config.anyByte t.freeCount)
    ∧ (s.inputs = .host (.outRead k) :: rest → k < s.params.outSize →
      step s = .next
        { s with
          inputs := rest
          freeCount := s.freeCount + 1
          readLog := (Config.anyByte s.freeCount).setWidth 32 :: s.readLog }))
  ∧ (∀ (s u : State) (k : Nat) (c : Byte), k ∈ s.hazards → inByte k s = .done c u →
    c = Config.anyByte s.freeCount ∧ u.freeCount = s.freeCount + 1)
  ∧ ∀ s t : State, s.status.busy = true → step s = .next t → t.status.busy = true → ∀ k ∈ s.hazards, k ∈ t.hazards

/-- R108, R109: an artifact named after its codec gives back the codec's tag and the path, whatever the path. -/
def Obligations.ArtifactNameGivesTagAndPath : Prop :=
  ∀ (path : List Char) (c : CodecId), c ≠ .unset →
    tagOfName (artifactName path c) = c.code.setWidth 8 ∧ destinationName (artifactName path c) = path

/-! ## Decoding and encoding -/

/-- Words written out from R82, R83, R85, R87, R88 and R91 decode to the instructions they stand for. -/
def Obligations.WrittenWordsDecode : Prop :=
  decode (.command 0x00000001#32) = .ok .selCompress
    ∧ decode (.command 0x00000005#32) = .ok .lz77Compress
    ∧ decode (.command 0x00000008#32) = .ok .hufDecompress
    ∧ decode (.command 0x0000000A#32) = .ok .reservedOpA
    ∧ decode (.command 0x00000015#32) = .ok (.reservedHigh 0x15#32)
    ∧ decode (.lz77 [0x00#8, 0x41#8]) = .ok (.lz77Literal 0x41#8)
    ∧ decode (.lz77 [0x01#8, 0x00#8, 0x06#8, 0x01#8, 0x03#8]) = .ok (.lz77Match 0x0006#16 0x0103#16)
    ∧ decode (.rle [0x0A#8, 0x61#8]) = .ok (.rlePair 0x0A#8 0x61#8)
    ∧ decode (.hufHeader [0x01#8, 0x00#8, 0x61#8, 0x02#8, 0x04#8]) = .ok (.huffmanSingle 0x00#8 0x61#8 0x0204#16)
    ∧ decode (.hufNode [true, false, false, false, false, false, false, false, false,
        false, true, true, false, false, false, false, true]) = .ok (.huffmanTreeLeaf 0x0061#16)

/-- Decode and encode agree on every well-formed instruction. -/
def Obligations.DecodeOfEncode : Prop := ∀ i : Instr, WellFormed i → decode (encode i) = .ok i

/-- Every encoded form that decodes is the encoding of the well-formed instruction it decodes to: no two forms of one
place stand for one instruction, and no bit of a form is dropped. -/
def Obligations.EncodeOfDecode : Prop := ∀ (c : Code) (i : Instr), decode c = .ok i → encode i = c ∧ WellFormed i

/-- R34, R91: a 32-bit write to offset 0x00 runs the decoded command word on the state without that input. -/
def Obligations.StepRunsWrittenCommand : Prop :=
  ∀ (s : State) (rest : List Event) (v : Word) (i : Instr),
    s.inputs = .host (.regWrite .w32 0x00 v) :: rest → decode (.command v) = .ok i →
    step s = exec i { s with inputs := rest }

/-- The model's choice (logs 11 and 14): one engine step of a running decompressor fetches one element of its artifact and
is exec of that element, on the state after the fetch. The order of the fetches is the pseudocode's (R124, R180, R182, R183,
R213), which says nothing of steps. -/
def Obligations.StepRunsFetchedElement : Prop :=
  ∀ (s s1 : State) (c : Code) (i : Instr), s.inputs = [] → s.status.busy = true →
    (s.phase = .rleDecode ∧ s.inPos < s.srcCount ∧ fetchRle s = .done c s1
      ∨ s.phase = .lzDecode ∧ s.inPos < s.srcCount ∧ fetchLz77 s = .done c s1
      ∨ s.phase = .hufHeader ∧ s.inPos < s.srcCount ∧ fetchHufHeader s = .done c s1
      ∨ s.phase = .hufParse ∧ fetchHufNode s = .done c s1
      ∨ s.phase = .hufExtent ∧ fetchHufTrailing s = .done c s1) →
    decode c = .ok i → step s = exec i s1

/-- R81, R85, R86: where IN holds an element's encoding at `in_pos`, the fetch of its place reads exactly those bytes and
moves `in_pos` past them. R182: below the node bound the fetch of a tree node reads exactly the node's bits from the bit
cursor on and counts the node. R183: the trailing byte is IN[N - 1]; an artifact that ends with its tree is IOFailure. -/
def Obligations.FetchReadsExactlyOneElement : Prop :=
  (∀ (i : Instr) (bs : List Byte) (s : State), WellFormed i → s.Quiet → s.hazards = [] →
    s.inPos + bs.length ≤ s.srcCount → (∀ k, k < bs.length → s.inByteAt (s.inPos + k) = bs.getD k 0#8) →
    (encode i = .lz77 bs →
      ∃ e, fetchLz77 s = .done (.lz77 bs) { s with env := e, inPos := s.inPos + bs.length })
    ∧ (encode i = .rle bs →
      ∃ e, fetchRle s = .done (.rle bs) { s with env := e, inPos := s.inPos + bs.length })
    ∧ (encode i = .hufHeader bs →
      ∃ e, fetchHufHeader s = .done (.hufHeader bs) { s with env := e, inPos := s.inPos + bs.length }))
  ∧ (∀ (i : Instr) (bits : List Bool) (s : State), encode i = .hufNode bits → s.Quiet → s.hazards = [] →
    s.huf.nodes < nodeMax → ReaderReady s → s.BitsAt s.bitCursor bits →
    ∃ t, fetchHufNode s = .done (.hufNode bits) t ∧ ReadFrame (countNode s) t ∧ ReaderReady t
      ∧ t.bitCursor = s.bitCursor + bits.length)
  ∧ ∀ s : State, s.Quiet → s.hazards = [] →
    (s.reader.rbyte < s.srcCount →
      ∃ e, fetchHufTrailing s = .done (.hufTrailing [s.inByteAt (s.srcCount - 1)]) { s with env := e })
    ∧ (s.srcCount ≤ s.reader.rbyte → fetchHufTrailing s = .raised .ioFailure s)

/-! ## Issue -/

/-- R103, R104: SEL_COMPRESS on an idle engine issues the RLE body up to RLE_MAX bytes and the LZ77 body with the tier's
pair above. -/
def Obligations.SelCompressIssues : Prop :=
  ∀ s : State, s.status.busy = false → s.srcLen.toNat ≤ s.params.inSize →
    ∃ t, exec .selCompress s = .next t
      ∧ (s.srcLen.toNat ≤ s.params.rleMax → IssuedBody 1#4 .rle noPair .rleEncode s t)
      ∧ (s.params.rleMax < s.srcLen.toNat → s.srcLen.toNat ≤ s.params.t1Max →
          IssuedBody 1#4 .lz77 s.params.tier1 .lzChunk s t)
      ∧ (s.params.rleMax < s.srcLen.toNat → s.params.t1Max < s.srcLen.toNat → s.srcLen.toNat ≤ s.params.t2Max →
          IssuedBody 1#4 .lz77 s.params.tier2 .lzChunk s t)
      ∧ (s.params.rleMax < s.srcLen.toNat → s.params.t1Max < s.srcLen.toNat → s.params.t2Max < s.srcLen.toNat →
          s.srcLen.toNat ≤ s.params.t3Max → IssuedBody 1#4 .lz77 s.params.tier3 .lzChunk s t)
      ∧ (s.params.rleMax < s.srcLen.toNat → s.params.t1Max < s.srcLen.toNat → s.params.t2Max < s.srcLen.toNat →
          s.params.t3Max < s.srcLen.toNat → IssuedBody 1#4 .lz77 s.params.tier4 .lzChunk s t)

/-- R105: SEL_DECOMPRESS on an idle engine issues the decompressor its tag names. -/
def Obligations.SelDecompressIssues : Prop :=
  ∀ s : State, s.status.busy = false → s.srcLen.toNat ≤ s.params.inSize →
    s.decTag = 1#8 ∨ s.decTag = 2#8 ∨ s.decTag = 3#8 →
    ∃ t, exec .selDecompress s = .next t
      ∧ (s.decTag = 1#8 → IssuedBody 2#4 .rle noPair .rleDecode s t)
      ∧ (s.decTag = 2#8 → IssuedBody 2#4 .lz77 noPair .lzDecode s t)
      ∧ (s.decTag = 3#8 → IssuedBody 2#4 .huffman noPair .hufHeader s t)

/-- R106: SEL_DECOMPRESS with a tag not in {1, 2, 3} completes at issue with InvalidFormat, whatever SRC_LEN is (R237):
no byte of IN or OUT is touched. -/
def Obligations.UnknownTagIsInvalidFormat : Prop :=
  ∀ s : State, s.status.busy = false → s.decTag ≠ 1#8 → s.decTag ≠ 2#8 → s.decTag ≠ 3#8 →
    ∃ t, exec .selDecompress s = .next t ∧ RejectedAtIssue 2#4 .invalidFormat .unset noPair s t

/-- R107: each direct command on an idle engine issues its codec's body; only LZ77_COMPRESS writes a nonzero USED_CFG. -/
def Obligations.DirectCommandsIssue : Prop :=
  ∀ s : State, s.status.busy = false → s.srcLen.toNat ≤ s.params.inSize →
    (∃ t, exec .rleCompress s = .next t ∧ IssuedBody 3#4 .rle noPair .rleEncode s t)
    ∧ (∃ t, exec .rleDecompress s = .next t ∧ IssuedBody 4#4 .rle noPair .rleDecode s t)
    ∧ (lookaheadField s.lzCfg ≠ 0#16 →
        ∃ t, exec .lz77Compress s = .next t
          ∧ IssuedBody 5#4 .lz77 { window := windowField s.lzCfg, lookahead := lookaheadField s.lzCfg } .lzChunk s t
          ∧ t.usedCfg = s.lzCfg)
    ∧ (∃ t, exec .lz77Decompress s = .next t ∧ IssuedBody 6#4 .lz77 noPair .lzDecode s t)
    ∧ (∃ t, exec .hufCompress s = .next t ∧ IssuedBody 7#4 .huffman noPair .hufCount s t)
    ∧ (∃ t, exec .hufDecompress s = .next t ∧ IssuedBody 8#4 .huffman noPair .hufHeader s t)

/-- R92, R235: every reserved command word, and LZ77_COMPRESS with LOOKAHEAD = 0, completes at issue with IllegalCommand,
whatever SRC_LEN is (R237), with CODEC 0, USED_CFG 0 and OUT_LEN 0. -/
def Obligations.IllegalCommandsRejected : Prop :=
  ∀ s : State, s.status.busy = false →
    (∃ t, exec .reservedOp0 s = .next t ∧ RejectedAtIssue 0x0#4 .illegalCommand .unset noPair s t)
    ∧ (∃ t, exec .reservedOp9 s = .next t ∧ RejectedAtIssue 0x9#4 .illegalCommand .unset noPair s t)
    ∧ (∃ t, exec .reservedOpA s = .next t ∧ RejectedAtIssue 0xA#4 .illegalCommand .unset noPair s t)
    ∧ (∃ t, exec .reservedOpB s = .next t ∧ RejectedAtIssue 0xB#4 .illegalCommand .unset noPair s t)
    ∧ (∃ t, exec .reservedOpC s = .next t ∧ RejectedAtIssue 0xC#4 .illegalCommand .unset noPair s t)
    ∧ (∃ t, exec .reservedOpD s = .next t ∧ RejectedAtIssue 0xD#4 .illegalCommand .unset noPair s t)
    ∧ (∃ t, exec .reservedOpE s = .next t ∧ RejectedAtIssue 0xE#4 .illegalCommand .unset noPair s t)
    ∧ (∃ t, exec .reservedOpF s = .next t ∧ RejectedAtIssue 0xF#4 .illegalCommand .unset noPair s t)
    ∧ (∀ w : Word, ∃ t, exec (.reservedHigh w) s = .next t
        ∧ RejectedAtIssue (w.extractLsb' 0 4) .illegalCommand .unset noPair s t)
    ∧ (lookaheadField s.lzCfg = 0#16 →
        ∃ t, exec .lz77Compress s = .next t ∧ RejectedAtIssue 5#4 .illegalCommand .unset noPair s t)

/-- R100, R232 item 1: with SRC_LEN above IN_SIZE each command completes at issue with IOFailure, CODEC and USED_CFG
already written, nothing of IN or OUT touched. -/
def Obligations.SourceTooLongIsIOFailure : Prop :=
  ∀ s : State, s.status.busy = false → s.params.inSize < s.srcLen.toNat →
    (∃ t, exec .selCompress s = .next t
      ∧ (s.srcLen.toNat ≤ s.params.rleMax → RejectedAtIssue 1#4 .ioFailure .rle noPair s t)
      ∧ (s.params.rleMax < s.srcLen.toNat →
          RejectedAtIssue 1#4 .ioFailure .lz77 (tier s.params s.srcLen.toNat) s t))
    ∧ (∀ c, codecOfTag s.decTag = some c →
        ∃ t, exec .selDecompress s = .next t ∧ RejectedAtIssue 2#4 .ioFailure c noPair s t)
    ∧ (∃ t, exec .rleCompress s = .next t ∧ RejectedAtIssue 3#4 .ioFailure .rle noPair s t)
    ∧ (∃ t, exec .rleDecompress s = .next t ∧ RejectedAtIssue 4#4 .ioFailure .rle noPair s t)
    ∧ (lookaheadField s.lzCfg ≠ 0#16 →
        ∃ t, exec .lz77Compress s = .next t
          ∧ RejectedAtIssue 5#4 .ioFailure .lz77
              { window := windowField s.lzCfg, lookahead := lookaheadField s.lzCfg } s t)
    ∧ (∃ t, exec .lz77Decompress s = .next t ∧ RejectedAtIssue 6#4 .ioFailure .lz77 noPair s t)
    ∧ (∃ t, exec .hufCompress s = .next t ∧ RejectedAtIssue 7#4 .ioFailure .huffman noPair s t)
    ∧ (∃ t, exec .hufDecompress s = .next t ∧ RejectedAtIssue 8#4 .ioFailure .huffman noPair s t)

/-- R53, R262: what a command does at issue does not depend on any internal state left from before it. -/
def Obligations.IssueForgetsInternalState : Prop :=
  ∀ (i : Instr) (w : Word) (s t : State), encode i = .command w → s.status.busy = false → SameVisible s t →
    exec i s = exec i t

/-! ## The engine's accesses and the end of a command -/

/-- R62, R63: `InByte` tests truncation before the draw, raises IOFailure on a true draw, and returns what IN holds on a
false one (an offset the host has written during the command aside, R263); `Emit` tests exhaustion before the draw, raises
IOFailure on a true draw, and on a false one writes its byte at `out_pos`, nowhere else, and advances `out_pos` by 1. A
draw changes the environment alone, and takes the next listed draw where one is listed. -/
def Obligations.AccessesTestInOrder : Prop :=
  (∀ (k : Nat) (s : State),
    (s.srcCount ≤ k → inByte k s = .raised .ioFailure s)
    ∧ (k < s.srcCount → (drawRead k s).1 = true → inByte k s = .raised .ioFailure (drawRead k s).2)
    ∧ (k < s.srcCount → (drawRead k s).1 = false → k ∉ s.hazards →
        inByte k s = .done (s.inByteAt k) (drawRead k s).2)
    ∧ (drawRead k s).2 = { s with env := (drawRead k s).2.env }
    ∧ ∀ d ds, s.env.reads = d :: ds → drawRead k s = (d, { s with env := { s.env with reads := ds } }))
  ∧ ∀ (b : Byte) (s : State), s.outPos ≤ s.params.outSize →
    (s.outPos = s.params.outSize → emit b s = .raised .ioFailure s)
    ∧ (s.outPos ≠ s.params.outSize → (drawWrite s.outPos s).1 = true →
        emit b s = .raised .ioFailure (drawWrite s.outPos s).2)
    ∧ (s.outPos ≠ s.params.outSize → (drawWrite s.outPos s).1 = false →
        ∃ t, emit b s = .done () t ∧ EmitFrame s t ∧ t.outPos = s.outPos + 1
          ∧ t.env = (drawWrite s.outPos s).2.env ∧ t.outByteAt s.outPos = b
          ∧ ∀ a, a ≠ s.outPos → t.outByteAt a = s.outByteAt a)
    ∧ (drawWrite s.outPos s).2 = { s with env := (drawWrite s.outPos s).2.env }
    ∧ ∀ d ds, s.env.writes = d :: ds → drawWrite s.outPos s = (d, { s with env := { s.env with writes := ds } })

/-- R76, R101, R238: completion writes OUT_LEN, ERR, BUSY and DONE and keeps CODEC and USED_CFG, IN and the operand registers;
OUT is kept when it succeeds and when no body had started, and is any value after an error of a body. -/
def Obligations.CompletionWritesRegisters : Prop :=
  ∀ (s : State) (e : ErrCode),
    (complete e s).status = { busy := false, done := true, err := e, codec := s.status.codec }
      ∧ (complete e s).outLen = (if e = .success then BitVec.ofNat 32 s.outPos else 0#32)
      ∧ (complete e s).usedCfg = s.usedCfg ∧ (complete e s).phase = .idle
      ∧ (complete e s).srcLen = s.srcLen ∧ (complete e s).lzCfg = s.lzCfg ∧ (complete e s).decTag = s.decTag
      ∧ (complete e s).inMem = s.inMem
      ∧ (e = .success ∨ s.status.busy = false → ∀ a, (complete e s).outByteAt a = s.outByteAt a)
      ∧ (e ≠ .success → s.status.busy = true → FailedInBody e s (complete e s))

/-! ## RLE -/

/-- R213: a pair emits its symbol `count` times at `out_pos` and nothing else; a count of 0 emits nothing. -/
def Obligations.RlePairRepeatsSymbol : Prop :=
  ∀ (n c : Byte) (s : State), s.Quiet → s.outPos + n.toNat ≤ s.params.outSize →
    ∃ t, exec (.rlePair n c) s = .next t ∧ EmitFrame s t ∧ t.outPos = s.outPos + n.toNat
      ∧ (∀ j, j < n.toNat → t.outByteAt (s.outPos + j) = c)
      ∧ ∀ a, (a < s.outPos ∨ s.outPos + n.toNat ≤ a) → t.outByteAt a = s.outByteAt a

/-- R212: decompressing the artifact of an input gives the input: for the reference codec, and for a run of RLE_COMPRESS
followed by a run of RLE_DECOMPRESS on any machine that holds its artifact. -/
def Obligations.RleRoundTrip : Prop :=
  (∀ xs : List Byte, Reference.rleDecode (Reference.rleEncode xs) = { out := xs, err := .success })
  ∧ ∀ s : State, s.params.wf → s.status.busy = false → s.Quiet → s.inputs = [] → s.srcLen.toNat ≤ s.params.inSize →
    (Reference.rleEncode (s.inBytes s.srcLen.toNat)).length ≤ s.params.outSize →
    ∃ t u, exec .rleCompress s = .next t ∧ Runs t u
      ∧ Succeeded .rle (Reference.rleEncode (s.inBytes s.srcLen.toNat)) s u
      ∧ ∀ v : State, CarriesArtifact u v → s.srcLen.toNat ≤ v.params.outSize →
          ∃ t' w, exec .rleDecompress v = .next t' ∧ Runs t' w ∧ Succeeded .rle (s.inBytes s.srcLen.toNat) v w

/-- R210, R211: RLE_COMPRESS issues and runs to completion with the pairs of the input's maximal runs in OUT, and so does
SEL_COMPRESS of at most RLE_MAX bytes (R103); an artifact that does not fit OUT ends with IOFailure (R63, R232). -/
def Obligations.RleCompressRunWritesRunPairs : Prop :=
  ∀ s : State, s.status.busy = false → s.Quiet → s.inputs = [] → s.srcLen.toNat ≤ s.params.inSize →
    (∃ t u, exec .rleCompress s = .next t ∧ IssuedBody 3#4 .rle noPair .rleEncode s t ∧ Runs t u
      ∧ EncodesTo .rle (Reference.rleEncode (s.inBytes s.srcLen.toNat)) s t u)
    ∧ (s.srcLen.toNat ≤ s.params.rleMax →
      ∃ t u, exec .selCompress s = .next t ∧ IssuedBody 1#4 .rle noPair .rleEncode s t ∧ Runs t u
        ∧ EncodesTo .rle (Reference.rleEncode (s.inBytes s.srcLen.toNat)) s t u)

/-- R213, R232: RLE_DECOMPRESS issues and runs to completion with the expanded pairs in OUT; an artifact of odd length, and
an output that does not fit, end with IOFailure. SEL_DECOMPRESS with tag 1 does the same (R105). -/
def Obligations.RleDecompressRunExpandsPairs : Prop :=
  ∀ s : State, s.status.busy = false → s.Quiet → s.inputs = [] → s.srcLen.toNat ≤ s.params.inSize →
    (∃ t u, exec .rleDecompress s = .next t ∧ IssuedBody 4#4 .rle noPair .rleDecode s t ∧ Runs t u
      ∧ DecodesTo .rle (Reference.rleDecode (s.inBytes s.srcLen.toNat)) s t u)
    ∧ (s.decTag = 1#8 →
      ∃ t u, exec .selDecompress s = .next t ∧ IssuedBody 2#4 .rle noPair .rleDecode s t ∧ Runs t u
        ∧ DecodesTo .rle (Reference.rleDecode (s.inBytes s.srcLen.toNat)) s t u)

/-! ## LZ77 -/

/-- R45: the ring holds the last `W` symbols: an append keeps the ring's shape and adds at the end, the oldest evicted
beyond capacity; with `W = 0` it stores nothing. -/
def Obligations.RingAppendKeepsLastSymbols : Prop :=
  ∀ (r : Ring) (c : Byte), r.Wf →
    (r.append c).Wf ∧ (r.append c).cap = r.cap ∧ (r.append c).view = Reference.lastN r.cap (r.view ++ [c])

/-- R113, R114: the match found is a common prefix of the window from its candidate on and the lookahead; no common prefix
of the two, from any window position, is longer, and from an older position than the match's every one is strictly shorter.
With no common symbol the match is offset 0, length 0. R118: the match lies in the window, is no longer than its offset,
and no longer than the lookahead. The same in terms of the finder's own candidate length. -/
def Obligations.FindMatchIsLongestAndOldest : Prop :=
  ∀ win look : List Byte,
    (∀ j, j < (findMatch win look).length →
      win[win.length - (findMatch win look).offset + j]? = look[j]?)
    ∧ (∀ i k, i + k ≤ win.length → k ≤ look.length → (∀ j, j < k → win[i + j]? = look[j]?) →
        k ≤ (findMatch win look).length
        ∧ (0 < (findMatch win look).length → i < win.length - (findMatch win look).offset →
            k < (findMatch win look).length))
    ∧ ((findMatch win look).length = 0 → (findMatch win look).offset = 0)
    ∧ (∀ i, i < win.length → commonPrefix (win.drop i) look ≤ (findMatch win look).length)
    ∧ (0 < (findMatch win look).length →
        1 ≤ (findMatch win look).offset
        ∧ commonPrefix (win.drop (win.length - (findMatch win look).offset)) look = (findMatch win look).length
        ∧ ∀ i, i < win.length - (findMatch win look).offset →
            commonPrefix (win.drop i) look < (findMatch win look).length)
    ∧ (findMatch win look).length ≤ look.length ∧ (findMatch win look).offset ≤ win.length
    ∧ (findMatch win look).length ≤ (findMatch win look).offset

/-- R124: a literal emits its symbol at `out_pos` and nothing else. -/
def Obligations.Lz77LiteralEmitsSymbol : Prop :=
  ∀ (c : Byte) (s : State), s.Quiet → s.outPos < s.params.outSize →
    ∃ t, exec (.lz77Literal c) s = .next t ∧ EmitFrame s t ∧ t.outPos = s.outPos + 1
      ∧ t.outByteAt s.outPos = c ∧ ∀ a, a ≠ s.outPos → t.outByteAt a = s.outByteAt a

/-- R125: a match copies `length` symbols from `offset` back, the last `offset` symbols repeating periodically. -/
def Obligations.Lz77MatchCopiesPeriodically : Prop :=
  ∀ (offset length : Half) (s : State), s.Quiet → 1 ≤ offset.toNat → offset.toNat ≤ s.outPos →
    s.outPos + length.toNat ≤ s.params.outSize →
    ∃ t, exec (.lz77Match offset length) s = .next t ∧ EmitFrame s t ∧ t.outPos = s.outPos + length.toNat
      ∧ (∀ j, j < length.toNat →
          t.outByteAt (s.outPos + j) = s.outByteAt (s.outPos - offset.toNat + j % offset.toNat))
      ∧ ∀ a, (a < s.outPos ∨ s.outPos + length.toNat ≤ a) → t.outByteAt a = s.outByteAt a

/-- R84, R124: in a running command a match with offset 0 or beyond the output, and a reserved flag, end it with
CorruptStream. -/
def Obligations.Lz77CorruptTokensFail : Prop :=
  ∀ s : State, s.status.busy = true →
    (∀ offset length : Half, offset.toNat = 0 ∨ s.outPos < offset.toNat →
      ∃ t, exec (.lz77Match offset length) s = .next t ∧ FailedInBody .corruptStream s t)
    ∧ ∀ f : Byte, ∃ t, exec (.lz77ReservedFlag f) s = .next t ∧ FailedInBody .corruptStream s t

/-- R111, R116: every engine step of the LZ77 compressor keeps the window equal to the last `W` symbols consumed and the
lookahead equal to the input from `in_pos` on. -/
def Obligations.WindowHoldsLastSymbolsConsumed : Prop :=
  ∀ s t : State, Inv s → s.inputs = [] → s.hazards = [] → LzTrace s → step s = .next t → LzTrace t

/-- R115: a match of two symbols or more is a match token with its offset and length and consumes its length; any other is
a literal and consumes one symbol. R120: LZ77_COMPRESS issues and runs to completion with the token stream of the input in
OUT, and so does SEL_COMPRESS of more than RLE_MAX bytes with the tier's pair (R103); an artifact that does not fit OUT ends
with IOFailure (R63, R232). -/
def Obligations.Lz77CompressRunWritesTokens : Prop :=
  (∀ (m : Match) (c : Byte),
    (2 ≤ m.length →
      chooseToken m c = .lz77Match (BitVec.ofNat 16 m.offset) (BitVec.ofNat 16 m.length) ∧ tokenLength m = m.length)
    ∧ (m.length < 2 → chooseToken m c = .lz77Literal c ∧ tokenLength m = 1))
  ∧ ∀ s : State, s.status.busy = false → s.Quiet → s.inputs = [] → s.srcLen.toNat ≤ s.params.inSize →
    (lookaheadField s.lzCfg ≠ 0#16 →
      ∃ t u, exec .lz77Compress s = .next t
        ∧ IssuedBody 5#4 .lz77 { window := windowField s.lzCfg, lookahead := lookaheadField s.lzCfg } .lzChunk s t
        ∧ Runs t u
        ∧ EncodesTo .lz77
            (Reference.lzEncode (windowField s.lzCfg).toNat (lookaheadField s.lzCfg).toNat (s.inBytes s.srcLen.toNat))
            s t u)
    ∧ (s.params.wf → s.params.rleMax < s.srcLen.toNat →
      ∃ t u, exec .selCompress s = .next t
        ∧ IssuedBody 1#4 .lz77 (tier s.params s.srcLen.toNat) .lzChunk s t
        ∧ Runs t u
        ∧ EncodesTo .lz77
            (Reference.lzEncode (tier s.params s.srcLen.toNat).window.toNat
              (tier s.params s.srcLen.toNat).lookahead.toNat (s.inBytes s.srcLen.toNat))
            s t u)

/-- R124, R237: LZ77_DECOMPRESS issues and runs to completion with the decoded token stream in OUT; a truncated token ends
it with IOFailure, a corrupt one with CorruptStream, whichever comes first, and an output that does not fit with
IOFailure. SEL_DECOMPRESS with tag 2 does the same (R105). -/
def Obligations.Lz77DecompressRunDecodesTokens : Prop :=
  ∀ s : State, s.status.busy = false → s.Quiet → s.inputs = [] → s.srcLen.toNat ≤ s.params.inSize →
    (∃ t u, exec .lz77Decompress s = .next t ∧ IssuedBody 6#4 .lz77 noPair .lzDecode s t ∧ Runs t u
      ∧ DecodesTo .lz77 (Reference.lzDecode (s.inBytes s.srcLen.toNat)) s t u)
    ∧ (s.decTag = 2#8 →
      ∃ t u, exec .selDecompress s = .next t ∧ IssuedBody 2#4 .lz77 noPair .lzDecode s t ∧ Runs t u
        ∧ DecodesTo .lz77 (Reference.lzDecode (s.inBytes s.srcLen.toNat)) s t u)

/-- R126: for every input and every legal pair, decompressing the artifact gives the input: for the reference codec, and for
a run of LZ77_COMPRESS followed by a run of LZ77_DECOMPRESS on any machine that holds its artifact. -/
def Obligations.Lz77RoundTrip : Prop :=
  (∀ (xs : List Byte) (w l : Nat), w < 2 ^ 16 → 1 ≤ l → l < 2 ^ 16 →
    Reference.lzDecode (Reference.lzEncode w l xs) = { out := xs, err := .success })
  ∧ ∀ (s : State) (art : List Byte), s.params.wf → s.status.busy = false → s.Quiet → s.inputs = [] →
    s.srcLen.toNat ≤ s.params.inSize → lookaheadField s.lzCfg ≠ 0#16 →
    art = Reference.lzEncode (windowField s.lzCfg).toNat (lookaheadField s.lzCfg).toNat (s.inBytes s.srcLen.toNat) →
    art.length ≤ s.params.outSize →
    ∃ t u, exec .lz77Compress s = .next t ∧ Runs t u ∧ Succeeded .lz77 art s u
      ∧ ∀ v : State, CarriesArtifact u v → s.srcLen.toNat ≤ v.params.outSize →
          ∃ t' w, exec .lz77Decompress v = .next t' ∧ Runs t' w ∧ Succeeded .lz77 (s.inBytes s.srcLen.toNat) v w

/-- R110: SEL_COMPRESS of an input, then SEL_DECOMPRESS of its artifact with the tag of the compress's CODEC, gives the
input back. -/
def Obligations.SelectorRoundTrip : Prop :=
  ∀ s : State, s.params.wf → s.status.busy = false → s.Quiet → s.inputs = [] →
    s.srcLen.toNat ≤ s.params.inSize → s.srcLen.toNat ≤ s.params.outSize →
    (Reference.selArtifact s.params (s.inBytes s.srcLen.toNat)).length ≤ s.params.outSize →
    (Reference.selArtifact s.params (s.inBytes s.srcLen.toNat)).length ≤ s.params.inSize →
    ∃ t u c, exec .selCompress s = .next t ∧ Runs t u
      ∧ Succeeded c (Reference.selArtifact s.params (s.inBytes s.srcLen.toNat)) s u
      ∧ ∀ v : State, v.params = s.params → v.status.busy = false → v.Quiet → v.inputs = [] →
          v.decTag = c.code.setWidth 8 → v.srcLen = u.outLen →
          v.inBytes u.outLen.toNat = u.outBytes u.outLen.toNat →
          ∃ t' w, exec .selDecompress v = .next t' ∧ Runs t' w
            ∧ Succeeded c (s.inBytes s.srcLen.toNat) v w

/-! ## Bit streams -/

/-- R150, R152: a string of bits written from the writer's start and flushed occupies `ceil(b / 8)` bytes, packed MSB-first
and padded with zero bits, and the flush returns the number of significant bits of the last byte. -/
def Obligations.BitWriterPacksMsbFirst : Prop :=
  ∀ (bits : List Bool) (s : State), s.Quiet → s.writer = BitWriter.init → bits ≠ [] →
    s.outPos + (bits.length + 7) / 8 ≤ s.params.outSize →
    ∃ t u sig, putBits bits s = .done () t ∧ flushBits t = .done sig u ∧ EmitFrame s u
      ∧ u.outPos = s.outPos + (bits.length + 7) / 8 ∧ sig = bits.length - 8 * ((bits.length + 7) / 8 - 1)
      ∧ (∀ j, j < (bits.length + 7) / 8 →
          u.outByteAt (s.outPos + j) = (packBits ((bits.length + 7) / 8) bits).getD j 0#8)
      ∧ ∀ a, (a < s.outPos ∨ s.outPos + (bits.length + 7) / 8 ≤ a) → u.outByteAt a = s.outByteAt a

/-- R154, R155: the bits read are those of IN in stream order from the bit cursor on; only the reader, `in_pos` and the
draws change. -/
def Obligations.BitReaderReadsStreamOrder : Prop :=
  ∀ (bits : List Bool) (s : State), s.Quiet → s.hazards = [] → ReaderReady s → s.BitsAt s.bitCursor bits →
    ∃ t, readBits bits.length s = .done bits t ∧ ReadFrame s t ∧ ReaderReady t
      ∧ t.bitCursor = s.bitCursor + bits.length

/-! ## Huffman -/

/-- R49: a node's key is its frequency and sequence number, in lexicographic order: smaller frequency first, then smaller
sequence number. `ExtractMin` takes an index with the least key, and leaves the others. R175: while the queue holds two nodes or
more, a build step takes the two least, the first as the left child, and inserts their parent with the summed frequency and
the next sequence number; the one node left is the root, from which `GenCodes` starts with the empty prefix (R176). -/
def Obligations.BuildStepMergesTwoLeast : Prop :=
  (∀ a b : Nat × Nat, keyLess a b = true ↔ a.1 < b.1 ∨ a.1 = b.1 ∧ a.2 < b.2)
  ∧ (∀ (c : Byte) (f l r q : Nat), (Node.leaf c f q).key = (f, q) ∧ (Node.internal f l r q).key = (f, q))
  ∧ (∀ (arena : List Node) (q : List Nat), q ≠ [] → (∀ i ∈ q, i < arena.length) →
    ∃ i q' n, extractMin arena q = some (i, q') ∧ (i :: q').Perm q ∧ arena[i]? = some n
      ∧ ∀ j ∈ q, ∀ m, arena[j]? = some m → keyLess m.key n.key = false)
  ∧ (∀ s : State, Inv s → s.inputs = [] → s.phase = .hufBuild → 2 ≤ s.huf.queue.length →
    ∃ a b na nb q,
      s.huf.arena[a]? = some na ∧ s.huf.arena[b]? = some nb ∧ (a :: b :: q).Perm s.huf.queue
      ∧ (∀ j ∈ s.huf.queue, ∀ m, s.huf.arena[j]? = some m → keyLess m.key na.key = false)
      ∧ (∀ j ∈ b :: q, ∀ m, s.huf.arena[j]? = some m → keyLess m.key nb.key = false)
      ∧ step s = .next
          { s with
            huf :=
              { s.huf with
                arena := s.huf.arena ++ [.internal (na.key.1 + nb.key.1) a b s.huf.nextSeq]
                queue := q ++ [s.huf.arena.length]
                nextSeq := s.huf.nextSeq + 1 } })
  ∧ ∀ (s : State) (a : Nat), Inv s → s.inputs = [] → s.phase = .hufBuild → s.huf.queue = [a] →
    step s = .next { s with huf := { s.huf with root := a, codeTodo := [(a, [])] }, phase := .hufCodes }

/-- HUF_COMPRESS issues (R170) and runs. R172: an empty input succeeds empty. R173, R234: an input with one distinct symbol
gives the five-byte header, or Unsupported when the symbol occurs more than 65535 times. R171, R174: with two distinct
symbols or more the symbols are counted, and the tree build starts with one leaf per symbol in ascending order, numbered in
that order. R170, R175 to R178: the run then succeeds with the artifact of R88 in OUT. An artifact that does not fit OUT
ends with IOFailure (R63, R232). -/
def Obligations.HufCompressRunWritesArtifact : Prop :=
  ∀ (s : State) (xs : List Byte), s.status.busy = false → s.Quiet → s.inputs = [] →
    s.srcLen.toNat ≤ s.params.inSize → xs = s.inBytes s.srcLen.toNat →
    ∃ t, exec .hufCompress s = .next t ∧ IssuedBody 7#4 .huffman noPair .hufCount s t
      ∧ (s.srcLen.toNat = 0 → ∃ u, Runs t u ∧ Succeeded .huffman [] s u)
      ∧ (∀ c, 1 ≤ s.srcLen.toNat → (∀ k, k < s.srcLen.toNat → s.inByteAt k = c) →
        ∃ u, Runs t u
          ∧ (s.srcLen.toNat ≤ 65535 →
            EncodesTo .huffman
              [0x01#8, 0x00#8, c, BitVec.ofNat 8 (s.srcLen.toNat / 256), BitVec.ofNat 8 (s.srcLen.toNat % 256)] s t u)
          ∧ (65535 < s.srcLen.toNat → FailedInBody .unsupported t u))
      ∧ (2 ≤ (Reference.symbols xs).length →
        (∃ b, Runs t b ∧ b.phase = .hufBuild ∧ b.status = t.status
          ∧ (∀ c : Byte, b.huf.freq.getD c.toNat 0 = xs.count c)
          ∧ b.huf.arena = (Reference.symbols xs).zipIdx.map (fun (c, k) => .leaf c (xs.count c) k)
          ∧ b.huf.queue = List.range (Reference.symbols xs).length
          ∧ b.huf.nextSeq = (Reference.symbols xs).length)
        ∧ ∃ u tree, Runs t u ∧ Reference.hufTree xs = some tree
            ∧ EncodesTo .huffman (Reference.treeArtifact tree xs) s t u)

/-- R180 to R184: HUF_DECOMPRESS issues and runs to completion with the decoded artifact in OUT, or with the first error the
artifact holds (R237): flag, single-symbol header, tree, byte boundary, extent and body walk joined. An empty artifact
succeeds empty; an output that does not fit ends with IOFailure. SEL_DECOMPRESS with tag 3 does the same (R105). -/
def Obligations.HufDecompressRunDecodesArtifact : Prop :=
  ∀ s : State, s.status.busy = false → s.Quiet → s.inputs = [] → s.srcLen.toNat ≤ s.params.inSize →
    (∃ t u, exec .hufDecompress s = .next t ∧ IssuedBody 8#4 .huffman noPair .hufHeader s t ∧ Runs t u
      ∧ DecodesTo .huffman (Reference.hufDecode (s.inBytes s.srcLen.toNat)) s t u)
    ∧ (s.decTag = 3#8 →
      ∃ t u, exec .selDecompress s = .next t ∧ IssuedBody 2#4 .huffman noPair .hufHeader s t ∧ Runs t u
        ∧ DecodesTo .huffman (Reference.hufDecode (s.inBytes s.srcLen.toNat)) s t u)

/-- R186: for every input with at most 65535 copies of its symbol when it has a single one, decompressing the artifact gives
the input: for the reference codec, and for a run of HUF_COMPRESS followed by a run of HUF_DECOMPRESS on any machine that
holds its artifact. -/
def Obligations.HuffmanRoundTrip : Prop :=
  (∀ xs : List Byte, ((Reference.symbols xs).length = 1 → xs.length ≤ countMax) →
    Reference.hufDecode (Reference.hufEncode xs) = { out := xs, err := .success })
  ∧ ∀ (s : State) (xs : List Byte), s.params.wf → s.status.busy = false → s.Quiet → s.inputs = [] →
    s.srcLen.toNat ≤ s.params.inSize → xs = s.inBytes s.srcLen.toNat →
    ((Reference.symbols xs).length = 1 → xs.length ≤ countMax) →
    (Reference.hufEncode xs).length ≤ s.params.outSize →
    ∃ t u, exec .hufCompress s = .next t ∧ Runs t u ∧ Succeeded .huffman (Reference.hufEncode xs) s u
      ∧ ∀ v : State, CarriesArtifact u v → s.srcLen.toNat ≤ v.params.outSize →
          ∃ t' w, exec .hufDecompress v = .next t' ∧ Runs t' w ∧ Succeeded .huffman xs v w

/-- R181: a single-symbol header of a five-byte artifact repeats its symbol `count` times and completes the command. -/
def Obligations.HuffmanSingleRepeatsSymbol : Prop :=
  ∀ (c : Byte) (n : Half) (s : State), s.Quiet → s.srcCount ≤ 5 → s.outPos + n.toNat ≤ s.params.outSize →
    ∃ t, exec (.huffmanSingle 0x00#8 c n) s = .next t
      ∧ t.status = { busy := false, done := true, err := .success, codec := s.status.codec }
      ∧ t.outLen = BitVec.ofNat 32 (s.outPos + n.toNat) ∧ t.phase = .idle
      ∧ (∀ j, j < n.toNat → t.outByteAt (s.outPos + j) = c)
      ∧ (∀ a, (a < s.outPos ∨ s.outPos + n.toNat ≤ a) → t.outByteAt a = s.outByteAt a)
      ∧ t.inMem = s.inMem ∧ t.params = s.params ∧ t.srcLen = s.srcLen ∧ t.lzCfg = s.lzCfg ∧ t.usedCfg = s.usedCfg
      ∧ t.decTag = s.decTag ∧ t.latch = s.latch ∧ t.inputs = s.inputs ∧ t.readLog = s.readLog

/-- R181, R182, R183, R184, R86, R233: the causes of CorruptStream in a Huffman artifact. In a running command a header with
bytes after it or a character above 0xFF, a leaf above 0xFF, a reserved flag, and a trailing byte outside 1..8 or without a
body byte end it with CorruptStream; so does a tree that needs a 512th node, before any bit of that node is read (R237). A
body that ends inside a code, and a body bit at a tree that is one leaf, do the same. -/
def Obligations.HuffmanCorruptElementsFail : Prop :=
  (∀ s : State, s.status.busy = true →
    (∀ (h c : Byte) (n : Half), 5 < s.srcCount ∨ h ≠ 0#8 →
      ∃ t, exec (.huffmanSingle h c n) s = .next t ∧ FailedInBody .corruptStream s t)
    ∧ (∀ x : Half, 0xFF < x.toNat → ∃ t, exec (.huffmanTreeLeaf x) s = .next t ∧ FailedInBody .corruptStream s t)
    ∧ (∀ f : Byte, ∃ t, exec (.huffmanReservedFlag f) s = .next t ∧ FailedInBody .corruptStream s t)
    ∧ (∀ sig : Byte, sig.toNat = 0 ∨ 8 < sig.toNat ∨ s.srcCount ≤ s.reader.rbyte + 1 →
        ∃ t, exec (.huffmanTrailing sig) s = .next t ∧ FailedInBody .corruptStream s t)
    ∧ (s.huf.nodes = nodeMax → fetchHufNode s = .raised .corruptStream s
        ∧ (s.inputs = [] → s.phase = .hufParse → ∃ t, step s = .next t ∧ FailedInBody .corruptStream s t)))
  ∧ ∀ s : State, Inv s → s.inputs = [] → s.phase = .hufWalk →
    (s.huf.bitsLeft = 0 → s.huf.cur ≠ s.huf.root → ∃ t, step s = .next t ∧ FailedInBody .corruptStream s t)
    ∧ (∀ c f q b s1, s.huf.bitsLeft ≠ 0 → s.huf.arena[s.huf.cur]? = some (.leaf c f q) → readBit s = .done b s1 →
        ∃ t, step s = .next t
          ∧ t.status = { busy := false, done := true, err := .corruptStream, codec := s.status.codec }
          ∧ t.outLen = 0#32 ∧ t.phase = .idle)

/-- R180, R182, R183: the flag "false" starts the parse at byte 1; an internal node waits for its left child; a leaf goes to
its parent's left or right, or is the whole tree; a trailing byte in 1..8 after at least one body byte sets the number of
body bits and starts the walk at the root. Nothing but the decompressor's own state changes. -/
def Obligations.HuffmanTreeElementsParse : Prop :=
  ∀ s : State,
    exec .huffmanTreeFlag s = .next
      { s with
        reader := { s.reader with rbyte := 1, rbit := 0 }
        huf := { s.huf with nodes := 0, arena := [], frames := [] }
        phase := .hufParse }
    ∧ exec .huffmanTreeInternal s = .next { s with huf := { s.huf with frames := .wantLeft :: s.huf.frames } }
    ∧ (∀ sig : Byte, 1 ≤ sig.toNat → sig.toNat ≤ 8 → s.reader.rbyte + 2 ≤ s.srcCount →
        exec (.huffmanTrailing sig) s = .next
          { s with
            huf :=
              { s.huf with
                bitsLeft := 8 * (s.srcCount - s.reader.rbyte - 2) + sig.toNat
                cur := s.huf.root }
            phase := .hufWalk })
    ∧ ∀ c : Byte, ∃ t, exec (.huffmanTreeLeaf (c.setWidth 16)) s = .next t
        ∧ (∀ fs, s.huf.frames = .wantLeft :: fs →
            t = { s with
                  huf :=
                    { s.huf with
                      arena := s.huf.arena ++ [.leaf c 0 0]
                      frames := .wantRight s.huf.arena.length :: fs } })
        ∧ (∀ l fs, s.huf.frames = .wantRight l :: .wantLeft :: fs →
            t = { s with
                  huf :=
                    { s.huf with
                      arena := s.huf.arena ++ [.leaf c 0 0, .internal 0 l s.huf.arena.length 0]
                      frames := .wantRight (s.huf.arena.length + 1) :: fs } })
        ∧ (s.huf.frames = [] →
            t = { s with
                  huf := { s.huf with arena := s.huf.arena ++ [.leaf c 0 0], root := s.huf.arena.length }
                  reader :=
                    { s.reader with
                      rbyte := if 0 < s.reader.rbit then s.reader.rbyte + 1 else s.reader.rbyte
                      rbit := 0 }
                  phase := .hufExtent })

/-- R176: from its start, `GenCodes` records for each leaf of the tree the path to it, and the flag "false" is emitted
before the tree (R170). -/
def Obligations.GenCodesRunRecordsPaths : Prop :=
  ∀ (tree : Reference.Tree) (s : State), s.status.busy = true → s.inputs = [] → s.Quiet → s.phase = .hufCodes →
    Reference.Stands s.huf.arena s.huf.root tree → s.huf.codeTodo = [(s.huf.root, [])] → s.huf.codes.length = 256 →
    ((tree.paths []).map Prod.fst).Nodup → s.outPos < s.params.outSize →
    ∃ t, Runs s t ∧ t.phase = .hufTree ∧ t.status = s.status
      ∧ t.huf.arena = s.huf.arena ∧ t.huf.root = s.huf.root ∧ t.huf.treeTodo = [s.huf.root]
      ∧ t.writer = BitWriter.init
      ∧ (∀ c p, (c, p) ∈ tree.paths [] → t.huf.codes.getD c.toNat none = some p)
      ∧ t.outPos = s.outPos + 1 ∧ t.outByteAt s.outPos = 0x00#8
      ∧ ∀ a, a ≠ s.outPos → t.outByteAt a = s.outByteAt a

/-- R177, R88 item 2: from its start, `SerializeTree` and its flush emit the tree's preorder bits packed MSB-first and padded
with zero bits, and pass 2 starts at the first input byte. -/
def Obligations.SerializeTreeRunWritesPreorder : Prop :=
  ∀ (tree : Reference.Tree) (s : State), s.status.busy = true → s.inputs = [] → s.Quiet → s.phase = .hufTree →
    Reference.Stands s.huf.arena s.huf.root tree → s.huf.treeTodo = [s.huf.root] → s.writer = BitWriter.init →
    s.outPos + (tree.preorder.length + 7) / 8 ≤ s.params.outSize →
    ∃ t, Runs s t ∧ t.phase = .hufBody ∧ t.status = s.status ∧ t.inPos = 0 ∧ t.writer = BitWriter.init
      ∧ t.huf.codes = s.huf.codes ∧ t.outPos = s.outPos + (tree.preorder.length + 7) / 8
      ∧ (∀ j, j < (tree.preorder.length + 7) / 8 →
          t.outByteAt (s.outPos + j) = (packBits ((tree.preorder.length + 7) / 8) tree.preorder).getD j 0#8)
      ∧ ∀ a, (a < s.outPos ∨ s.outPos + (tree.preorder.length + 7) / 8 ≤ a) → t.outByteAt a = s.outByteAt a

/-- R178: from its start, pass 2 emits the codes of the input's symbols packed MSB-first and padded with zero bits, then the
number of significant bits of the final body byte, and completes the command. -/
def Obligations.BodyRunWritesCodes : Prop :=
  ∀ (s : State) (bits : List Bool), s.status.busy = true → s.inputs = [] → s.Quiet → s.hazards = [] →
    s.phase = .hufBody → s.inPos = 0 → s.writer = BitWriter.init →
    (∀ k, k < s.srcCount → s.huf.codes.getD (s.inByteAt k).toNat none ≠ none) →
    bits = (s.inBytes s.srcCount).flatMap (fun c => (s.huf.codes.getD c.toNat none).getD []) → bits ≠ [] →
    s.outPos + (bits.length + 7) / 8 + 1 ≤ s.params.outSize →
    ∃ u, Runs s u
      ∧ u.status = { busy := false, done := true, err := .success, codec := s.status.codec }
      ∧ u.outLen = BitVec.ofNat 32 (s.outPos + (bits.length + 7) / 8 + 1)
      ∧ (∀ j, j < (bits.length + 7) / 8 →
          u.outByteAt (s.outPos + j) = (packBits ((bits.length + 7) / 8) bits).getD j 0#8)
      ∧ u.outByteAt (s.outPos + (bits.length + 7) / 8)
          = BitVec.ofNat 8 (bits.length - 8 * ((bits.length + 7) / 8 - 1))
      ∧ ∀ a, (a < s.outPos ∨ s.outPos + (bits.length + 7) / 8 + 1 ≤ a) → u.outByteAt a = s.outByteAt a

/-- R177, R182: from a state about to parse, engine steps over a tree's preorder bits rebuild the tree in the arena and
leave the bit reader at the next byte boundary. -/
def Obligations.ParseRebuildsTree : Prop :=
  ∀ (tree : Reference.Tree) (s : State), s.status.busy = true → s.inputs = [] → s.Quiet → s.hazards = [] →
    s.phase = .hufParse → s.huf.frames = [] → s.huf.nodes + tree.size ≤ nodeMax → ReaderReady s →
    s.BitsAt s.bitCursor tree.preorder →
    ∃ t, Runs s t ∧ t.phase = .hufExtent ∧ t.status = s.status ∧ Reference.Stands t.huf.arena t.huf.root tree
      ∧ t.reader.rbit = 0 ∧ t.reader.rbyte = (s.bitCursor + tree.preorder.length + 7) / 8
      ∧ t.huf.nodes = s.huf.nodes + tree.size ∧ t.outMem = s.outMem ∧ t.outPos = s.outPos ∧ t.inMem = s.inMem

/-- R184, R185: from the start of the body, engine steps walk the tree bit by bit, 0 left and 1 right, and complete the
command with the decoded symbols appended to OUT. -/
def Obligations.WalkDecodesBody : Prop :=
  ∀ (tree : Reference.Tree) (bits : List Bool) (xs : List Byte) (s : State), s.status.busy = true → s.inputs = [] →
    s.Quiet → s.hazards = [] → s.phase = .hufWalk → s.huf.cur = s.huf.root →
    Reference.Stands s.huf.arena s.huf.root tree → ReaderReady s → s.BitsAt s.bitCursor bits →
    s.huf.bitsLeft = bits.length → tree.decodeBody bits.length bits = some xs →
    s.outPos + xs.length ≤ s.params.outSize →
    ∃ u, Runs s u
      ∧ u.status = { busy := false, done := true, err := .success, codec := s.status.codec }
      ∧ u.outLen = BitVec.ofNat 32 (s.outPos + xs.length)
      ∧ (∀ j, j < xs.length → u.outByteAt (s.outPos + j) = xs.getD j 0#8)
      ∧ (∀ a, (a < s.outPos ∨ s.outPos + xs.length ≤ a) → u.outByteAt a = s.outByteAt a)
      ∧ u.inMem = s.inMem ∧ u.usedCfg = s.usedCfg

/-! ## The whole machine -/

/-- Every step keeps the invariant: the registers, the spaces, the ring, the arena and the counters stay legal. -/
def Obligations.EveryStepKeepsInvariant : Prop :=
  ∀ s t : State, Inv s → step s = .next t → Inv t

/-- No state that meets the invariant stops with a fault: the only stops are the refused host accesses of R67. -/
def Obligations.InvariantRulesOutFaults : Prop :=
  ∀ s : State, Inv s →
    (∀ f, step s ≠ .fault f)
      ∧ ∀ r, step s = .refused r →
          r = .regWidth ∨ r = .regMisaligned ∨ r = .regOutOfRange ∨ r = .inOutOfRange ∨ r = .outOutOfRange

/-- R100, R267, R269: a running command completes after finitely many engine steps, whatever the input and the draws, and
keeps its CODEC; so every command word issued on an idle engine leads to BUSY 0 and DONE 1. -/
def Obligations.EveryCommandCompletes : Prop :=
  (∀ s : State, Inv s → s.inputs = [] → s.status.busy = true →
    ∃ t, Runs s t ∧ t.status.busy = false ∧ t.status.done = true ∧ t.status.codec = s.status.codec)
  ∧ ∀ (i : Instr) (w : Word) (s : State), encode i = .command w → Inv s → s.inputs = [] → s.status.busy = false →
    ∃ t u, exec i s = .next t ∧ Runs t u ∧ u.status.busy = false ∧ u.status.done = true

/-- R61, R74: an engine step writes neither IN nor an operand register, and takes no host input. -/
def Obligations.EngineKeepsInAndOperands : Prop :=
  ∀ s t : State, s.inputs = [] → step s = .next t →
    t.inMem = s.inMem ∧ t.srcLen = s.srcLen ∧ t.lzCfg = s.lzCfg ∧ t.decTag = s.decTag ∧ t.params = s.params
      ∧ t.latch = s.latch ∧ t.usedCfg = s.usedCfg ∧ t.status.codec = s.status.codec ∧ t.inputs = s.inputs
      ∧ t.readLog = s.readLog

/-- R63, R76: an engine step that does not end in an error never moves `out_pos` back and leaves every byte of OUT but those
it emits as it was. -/
def Obligations.EngineWritesOutOnlyAtCursor : Prop :=
  ∀ s t : State, s.inputs = [] → s.status.busy = true → s.status.err = .success → step s = .next t →
    t.status.err = .success →
    s.outPos ≤ t.outPos ∧ ∀ a, (a < s.outPos ∨ t.outPos ≤ a) → t.outByteAt a = s.outByteAt a

/-- R233, R236: which errors each codec's body can end with. -/
def Obligations.ErrorsOfEachBody : Prop :=
  ∀ s t : State, s.inputs = [] → s.status.busy = true → step s = .next t → t.status.busy = false →
    (s.phase = .rleEncode ∨ s.phase = .rleDecode ∨ s.phase = .lzChunk ∨ s.phase = .lzEncode →
      t.status.err = .success ∨ t.status.err = .ioFailure)
    ∧ (s.phase = .hufCount →
      t.status.err = .success ∨ t.status.err = .ioFailure ∨ t.status.err = .unsupported)
    ∧ (s.phase = .hufBuild ∨ s.phase = .hufCodes ∨ s.phase = .hufTree ∨ s.phase = .hufBody →
      t.status.err = .success ∨ t.status.err = .ioFailure)
    ∧ (s.phase = .lzDecode ∨ s.phase = .hufHeader ∨ s.phase = .hufParse ∨ s.phase = .hufExtent ∨ s.phase = .hufWalk →
      t.status.err = .success ∨ t.status.err = .ioFailure ∨ t.status.err = .corruptStream)
end

