-- ==== Sys2Proof/Laws/Memory.lean ====
section
/-! SUPPORT. The laws of the byte spaces: read after write, and that every operation keeps the canonical form. -/

namespace Sys2Proof.Machine

open Sys2Proof

@[simp] theorem Memory.read_nil (k : Nat) : Memory.read [] k = none := rfl

theorem Memory.read_write_same (m : List Host.Cell) (k : Nat) (v : Byte) :
    Memory.read (Memory.write m k v) k = some v := by
  induction m with
  | nil => simp [Memory.write, Memory.read]
  | cons c rest ih =>
    obtain ⟨a, b⟩ := c
    unfold Memory.write
    split
    · simp [Memory.read]
    · split
      · simp [Memory.read]
      · have : a ≠ k := by omega
        simp [Memory.read, this, ih]

theorem Memory.read_write_other (m : List Host.Cell) (k j : Nat) (v : Byte) (h : j ≠ k) :
    Memory.read (Memory.write m k v) j = Memory.read m j := by
  induction m with
  | nil => simp [Memory.write, Memory.read, Memory.unlisted, Ne.symm h]
  | cons c rest ih =>
    obtain ⟨a, b⟩ := c
    unfold Memory.write
    split
    · simp [Memory.read, Ne.symm h]
    · split
      · subst a; simp [Memory.read, Ne.symm h]
      · simp [Memory.read, ih]

theorem Memory.risesFrom_write (m : List Host.Cell) (l k : Nat) (v : Byte)
    (hm : Memory.risesFrom l m = true) (hk : l < k) : Memory.risesFrom l (Memory.write m k v) = true := by
  induction m generalizing l with
  | nil => simp [Memory.write, Memory.risesFrom, hk]
  | cons c rest ih =>
    obtain ⟨a, b⟩ := c
    simp only [Memory.risesFrom, Bool.and_eq_true, decide_eq_true_eq] at hm
    unfold Memory.write
    split
    · simp [Memory.risesFrom, *]
    · split
      · subst a; simp [Memory.risesFrom, hm.2, hk]
      · simp [Memory.risesFrom, hm.1, ih a hm.2 (by omega)]

/-- A write keeps the canonical form. -/
theorem Memory.wf_write (m : List Host.Cell) (k : Nat) (v : Byte) (hm : Memory.wf m = true) :
    Memory.wf (Memory.write m k v) = true := by
  cases m with
  | nil => simp [Memory.write, Memory.wf, Memory.risesFrom]
  | cons c rest =>
    obtain ⟨a, b⟩ := c
    simp only [Memory.wf] at hm
    unfold Memory.write
    split
    · simp [Memory.wf, Memory.risesFrom, *]
    · split
      · subst a; simpa [Memory.wf] using hm
      · simpa [Memory.wf] using Memory.risesFrom_write rest a k v hm (by omega)

/-- A write below `size` keeps every listed offset below `size`. -/
theorem Memory.below_write (size : Nat) (m : List Host.Cell) (k : Nat) (v : Byte)
    (hm : Memory.below size m = true) (hk : k < size) : Memory.below size (Memory.write m k v) = true := by
  induction m with
  | nil => simp [Memory.write, Memory.below, hk]
  | cons c rest ih =>
    obtain ⟨a, b⟩ := c
    simp only [Memory.below, List.all_cons, Bool.and_eq_true, decide_eq_true_eq] at hm ih
    unfold Memory.write
    split
    · simp [Memory.below, hk, hm]
    · split
      · simp [Memory.below, hk, hm]
      · simp [Memory.below, hm.1, ih hm.2]

theorem Memory.wf_writeAll (bs : List Byte) (m : List Host.Cell) (k : Nat) (hm : Memory.wf m = true) :
    Memory.wf (Memory.writeAll m k bs) = true := by
  induction bs generalizing m k with
  | nil => exact hm
  | cons b bs ih => exact ih _ _ (Memory.wf_write m k b hm)

theorem Memory.wf_nil : Memory.wf [] = true := rfl

theorem Memory.below_nil (size : Nat) : Memory.below size [] = true := rfl

end Sys2Proof.Machine
end

