-- ==== Sys2Proof/Laws/State.lean ====
section
/-! SUPPORT. One lemma per field per update of the state, so that no proof unfolds a record update. -/

namespace Sys2Proof.Machine

open Sys2Proof

@[simp] theorem putOut_params (b : Byte) (s : State) : (putOut b s).params = s.params := rfl
@[simp] theorem putOut_status (b : Byte) (s : State) : (putOut b s).status = s.status := rfl
@[simp] theorem putOut_srcLen (b : Byte) (s : State) : (putOut b s).srcLen = s.srcLen := rfl
@[simp] theorem putOut_outLen (b : Byte) (s : State) : (putOut b s).outLen = s.outLen := rfl
@[simp] theorem putOut_lzCfg (b : Byte) (s : State) : (putOut b s).lzCfg = s.lzCfg := rfl
@[simp] theorem putOut_usedCfg (b : Byte) (s : State) : (putOut b s).usedCfg = s.usedCfg := rfl
@[simp] theorem putOut_decTag (b : Byte) (s : State) : (putOut b s).decTag = s.decTag := rfl
@[simp] theorem putOut_inMem (b : Byte) (s : State) : (putOut b s).inMem = s.inMem := rfl
@[simp] theorem putOut_outMem (b : Byte) (s : State) : (putOut b s).outMem = Memory.write s.outMem s.outPos b := rfl
@[simp] theorem putOut_outEpoch (b : Byte) (s : State) : (putOut b s).outEpoch = s.outEpoch := rfl
@[simp] theorem putOut_latch (b : Byte) (s : State) : (putOut b s).latch = s.latch := rfl
@[simp] theorem putOut_inPos (b : Byte) (s : State) : (putOut b s).inPos = s.inPos := rfl
@[simp] theorem putOut_outPos (b : Byte) (s : State) : (putOut b s).outPos = s.outPos + 1 := rfl
@[simp] theorem putOut_phase (b : Byte) (s : State) : (putOut b s).phase = s.phase := rfl
@[simp] theorem putOut_lz (b : Byte) (s : State) : (putOut b s).lz = s.lz := rfl
@[simp] theorem putOut_huf (b : Byte) (s : State) : (putOut b s).huf = s.huf := rfl
@[simp] theorem putOut_writer (b : Byte) (s : State) : (putOut b s).writer = s.writer := rfl
@[simp] theorem putOut_reader (b : Byte) (s : State) : (putOut b s).reader = s.reader := rfl
@[simp] theorem putOut_hazards (b : Byte) (s : State) : (putOut b s).hazards = s.hazards := rfl
@[simp] theorem putOut_env (b : Byte) (s : State) : (putOut b s).env = s.env := rfl
@[simp] theorem putOut_freeCount (b : Byte) (s : State) : (putOut b s).freeCount = s.freeCount := rfl
@[simp] theorem putOut_inputs (b : Byte) (s : State) : (putOut b s).inputs = s.inputs := rfl
@[simp] theorem putOut_readLog (b : Byte) (s : State) : (putOut b s).readLog = s.readLog := rfl

@[simp] theorem scrambleOut_params (s : State) : (scrambleOut s).params = s.params := rfl
@[simp] theorem scrambleOut_status (s : State) : (scrambleOut s).status = s.status := rfl
@[simp] theorem scrambleOut_srcLen (s : State) : (scrambleOut s).srcLen = s.srcLen := rfl
@[simp] theorem scrambleOut_outLen (s : State) : (scrambleOut s).outLen = s.outLen := rfl
@[simp] theorem scrambleOut_lzCfg (s : State) : (scrambleOut s).lzCfg = s.lzCfg := rfl
@[simp] theorem scrambleOut_usedCfg (s : State) : (scrambleOut s).usedCfg = s.usedCfg := rfl
@[simp] theorem scrambleOut_decTag (s : State) : (scrambleOut s).decTag = s.decTag := rfl
@[simp] theorem scrambleOut_inMem (s : State) : (scrambleOut s).inMem = s.inMem := rfl
@[simp] theorem scrambleOut_outMem (s : State) : (scrambleOut s).outMem = [] := rfl
@[simp] theorem scrambleOut_outEpoch (s : State) : (scrambleOut s).outEpoch = s.outEpoch + 1 := rfl
@[simp] theorem scrambleOut_latch (s : State) : (scrambleOut s).latch = s.latch := rfl
@[simp] theorem scrambleOut_inPos (s : State) : (scrambleOut s).inPos = s.inPos := rfl
@[simp] theorem scrambleOut_outPos (s : State) : (scrambleOut s).outPos = s.outPos := rfl
@[simp] theorem scrambleOut_phase (s : State) : (scrambleOut s).phase = s.phase := rfl
@[simp] theorem scrambleOut_lz (s : State) : (scrambleOut s).lz = s.lz := rfl
@[simp] theorem scrambleOut_huf (s : State) : (scrambleOut s).huf = s.huf := rfl
@[simp] theorem scrambleOut_writer (s : State) : (scrambleOut s).writer = s.writer := rfl
@[simp] theorem scrambleOut_reader (s : State) : (scrambleOut s).reader = s.reader := rfl
@[simp] theorem scrambleOut_hazards (s : State) : (scrambleOut s).hazards = s.hazards := rfl
@[simp] theorem scrambleOut_env (s : State) : (scrambleOut s).env = s.env := rfl
@[simp] theorem scrambleOut_freeCount (s : State) : (scrambleOut s).freeCount = s.freeCount := rfl
@[simp] theorem scrambleOut_inputs (s : State) : (scrambleOut s).inputs = s.inputs := rfl
@[simp] theorem scrambleOut_readLog (s : State) : (scrambleOut s).readLog = s.readLog := rfl

@[simp] theorem clearWork_params (s : State) : (clearWork s).params = s.params := rfl
@[simp] theorem clearWork_status (s : State) : (clearWork s).status = s.status := rfl
@[simp] theorem clearWork_srcLen (s : State) : (clearWork s).srcLen = s.srcLen := rfl
@[simp] theorem clearWork_outLen (s : State) : (clearWork s).outLen = s.outLen := rfl
@[simp] theorem clearWork_lzCfg (s : State) : (clearWork s).lzCfg = s.lzCfg := rfl
@[simp] theorem clearWork_usedCfg (s : State) : (clearWork s).usedCfg = s.usedCfg := rfl
@[simp] theorem clearWork_decTag (s : State) : (clearWork s).decTag = s.decTag := rfl
@[simp] theorem clearWork_inMem (s : State) : (clearWork s).inMem = s.inMem := rfl
@[simp] theorem clearWork_outMem (s : State) : (clearWork s).outMem = s.outMem := rfl
@[simp] theorem clearWork_outEpoch (s : State) : (clearWork s).outEpoch = s.outEpoch := rfl
@[simp] theorem clearWork_latch (s : State) : (clearWork s).latch = s.latch := rfl
@[simp] theorem clearWork_inPos (s : State) : (clearWork s).inPos = s.inPos := rfl
@[simp] theorem clearWork_outPos (s : State) : (clearWork s).outPos = s.outPos := rfl
@[simp] theorem clearWork_phase (s : State) : (clearWork s).phase = .idle := rfl
@[simp] theorem clearWork_lz (s : State) : (clearWork s).lz = LzWork.init := rfl
@[simp] theorem clearWork_huf (s : State) : (clearWork s).huf = HufWork.init := rfl
@[simp] theorem clearWork_writer (s : State) : (clearWork s).writer = BitWriter.init := rfl
@[simp] theorem clearWork_reader (s : State) : (clearWork s).reader = BitReader.init := rfl
@[simp] theorem clearWork_hazards (s : State) : (clearWork s).hazards = [] := rfl
@[simp] theorem clearWork_env (s : State) : (clearWork s).env = s.env := rfl
@[simp] theorem clearWork_freeCount (s : State) : (clearWork s).freeCount = s.freeCount := rfl
@[simp] theorem clearWork_inputs (s : State) : (clearWork s).inputs = s.inputs := rfl
@[simp] theorem clearWork_readLog (s : State) : (clearWork s).readLog = s.readLog := rfl

@[simp] theorem reportCompletion_params (e : ErrCode) (s : State) : (reportCompletion e s).params = s.params := rfl
@[simp] theorem reportCompletion_status (e : ErrCode) (s : State) : (reportCompletion e s).status = { s.status with busy := false, done := true, err := e } := rfl
@[simp] theorem reportCompletion_srcLen (e : ErrCode) (s : State) : (reportCompletion e s).srcLen = s.srcLen := rfl
@[simp] theorem reportCompletion_outLen (e : ErrCode) (s : State) : (reportCompletion e s).outLen = if e = .success then BitVec.ofNat 32 s.outPos else 0#32 := rfl
@[simp] theorem reportCompletion_lzCfg (e : ErrCode) (s : State) : (reportCompletion e s).lzCfg = s.lzCfg := rfl
@[simp] theorem reportCompletion_usedCfg (e : ErrCode) (s : State) : (reportCompletion e s).usedCfg = s.usedCfg := rfl
@[simp] theorem reportCompletion_decTag (e : ErrCode) (s : State) : (reportCompletion e s).decTag = s.decTag := rfl
@[simp] theorem reportCompletion_inMem (e : ErrCode) (s : State) : (reportCompletion e s).inMem = s.inMem := rfl
@[simp] theorem reportCompletion_outMem (e : ErrCode) (s : State) : (reportCompletion e s).outMem = s.outMem := rfl
@[simp] theorem reportCompletion_outEpoch (e : ErrCode) (s : State) : (reportCompletion e s).outEpoch = s.outEpoch := rfl
@[simp] theorem reportCompletion_latch (e : ErrCode) (s : State) : (reportCompletion e s).latch = s.latch := rfl
@[simp] theorem reportCompletion_inPos (e : ErrCode) (s : State) : (reportCompletion e s).inPos = s.inPos := rfl
@[simp] theorem reportCompletion_outPos (e : ErrCode) (s : State) : (reportCompletion e s).outPos = s.outPos := rfl
@[simp] theorem reportCompletion_phase (e : ErrCode) (s : State) : (reportCompletion e s).phase = s.phase := rfl
@[simp] theorem reportCompletion_lz (e : ErrCode) (s : State) : (reportCompletion e s).lz = s.lz := rfl
@[simp] theorem reportCompletion_huf (e : ErrCode) (s : State) : (reportCompletion e s).huf = s.huf := rfl
@[simp] theorem reportCompletion_writer (e : ErrCode) (s : State) : (reportCompletion e s).writer = s.writer := rfl
@[simp] theorem reportCompletion_reader (e : ErrCode) (s : State) : (reportCompletion e s).reader = s.reader := rfl
@[simp] theorem reportCompletion_hazards (e : ErrCode) (s : State) : (reportCompletion e s).hazards = s.hazards := rfl
@[simp] theorem reportCompletion_env (e : ErrCode) (s : State) : (reportCompletion e s).env = s.env := rfl
@[simp] theorem reportCompletion_freeCount (e : ErrCode) (s : State) : (reportCompletion e s).freeCount = s.freeCount := rfl
@[simp] theorem reportCompletion_inputs (e : ErrCode) (s : State) : (reportCompletion e s).inputs = s.inputs := rfl
@[simp] theorem reportCompletion_readLog (e : ErrCode) (s : State) : (reportCompletion e s).readLog = s.readLog := rfl

@[simp] theorem accept_params (op : BitVec 4) (s : State) : (accept op s).params = s.params := rfl
@[simp] theorem accept_status (op : BitVec 4) (s : State) : (accept op s).status = Status.issued := rfl
@[simp] theorem accept_srcLen (op : BitVec 4) (s : State) : (accept op s).srcLen = s.srcLen := rfl
@[simp] theorem accept_outLen (op : BitVec 4) (s : State) : (accept op s).outLen = 0#32 := rfl
@[simp] theorem accept_lzCfg (op : BitVec 4) (s : State) : (accept op s).lzCfg = s.lzCfg := rfl
@[simp] theorem accept_usedCfg (op : BitVec 4) (s : State) : (accept op s).usedCfg = 0#32 := rfl
@[simp] theorem accept_decTag (op : BitVec 4) (s : State) : (accept op s).decTag = s.decTag := rfl
@[simp] theorem accept_inMem (op : BitVec 4) (s : State) : (accept op s).inMem = s.inMem := rfl
@[simp] theorem accept_outMem (op : BitVec 4) (s : State) : (accept op s).outMem = s.outMem := rfl
@[simp] theorem accept_outEpoch (op : BitVec 4) (s : State) : (accept op s).outEpoch = s.outEpoch := rfl
@[simp] theorem accept_latch (op : BitVec 4) (s : State) : (accept op s).latch = { op := op, n := s.srcLen, w := windowField s.lzCfg, l := lookaheadField s.lzCfg, tag := s.decTag } := rfl
@[simp] theorem accept_inPos (op : BitVec 4) (s : State) : (accept op s).inPos = 0 := rfl
@[simp] theorem accept_outPos (op : BitVec 4) (s : State) : (accept op s).outPos = 0 := rfl
@[simp] theorem accept_phase (op : BitVec 4) (s : State) : (accept op s).phase = s.phase := rfl
@[simp] theorem accept_lz (op : BitVec 4) (s : State) : (accept op s).lz = s.lz := rfl
@[simp] theorem accept_huf (op : BitVec 4) (s : State) : (accept op s).huf = s.huf := rfl
@[simp] theorem accept_writer (op : BitVec 4) (s : State) : (accept op s).writer = s.writer := rfl
@[simp] theorem accept_reader (op : BitVec 4) (s : State) : (accept op s).reader = s.reader := rfl
@[simp] theorem accept_hazards (op : BitVec 4) (s : State) : (accept op s).hazards = s.hazards := rfl
@[simp] theorem accept_env (op : BitVec 4) (s : State) : (accept op s).env = s.env := rfl
@[simp] theorem accept_freeCount (op : BitVec 4) (s : State) : (accept op s).freeCount = s.freeCount := rfl
@[simp] theorem accept_inputs (op : BitVec 4) (s : State) : (accept op s).inputs = s.inputs := rfl
@[simp] theorem accept_readLog (op : BitVec 4) (s : State) : (accept op s).readLog = s.readLog := rfl

@[simp] theorem nameCodec_params (c : CodecId) (w : LzPair) (s : State) : (nameCodec c w s).params = s.params := rfl
@[simp] theorem nameCodec_status (c : CodecId) (w : LzPair) (s : State) : (nameCodec c w s).status = { s.status with codec := c } := rfl
@[simp] theorem nameCodec_srcLen (c : CodecId) (w : LzPair) (s : State) : (nameCodec c w s).srcLen = s.srcLen := rfl
@[simp] theorem nameCodec_outLen (c : CodecId) (w : LzPair) (s : State) : (nameCodec c w s).outLen = s.outLen := rfl
@[simp] theorem nameCodec_lzCfg (c : CodecId) (w : LzPair) (s : State) : (nameCodec c w s).lzCfg = s.lzCfg := rfl
@[simp] theorem nameCodec_usedCfg (c : CodecId) (w : LzPair) (s : State) : (nameCodec c w s).usedCfg = pairWord w.window w.lookahead := rfl
@[simp] theorem nameCodec_decTag (c : CodecId) (w : LzPair) (s : State) : (nameCodec c w s).decTag = s.decTag := rfl
@[simp] theorem nameCodec_inMem (c : CodecId) (w : LzPair) (s : State) : (nameCodec c w s).inMem = s.inMem := rfl
@[simp] theorem nameCodec_outMem (c : CodecId) (w : LzPair) (s : State) : (nameCodec c w s).outMem = s.outMem := rfl
@[simp] theorem nameCodec_outEpoch (c : CodecId) (w : LzPair) (s : State) : (nameCodec c w s).outEpoch = s.outEpoch := rfl
@[simp] theorem nameCodec_latch (c : CodecId) (w : LzPair) (s : State) : (nameCodec c w s).latch = s.latch := rfl
@[simp] theorem nameCodec_inPos (c : CodecId) (w : LzPair) (s : State) : (nameCodec c w s).inPos = s.inPos := rfl
@[simp] theorem nameCodec_outPos (c : CodecId) (w : LzPair) (s : State) : (nameCodec c w s).outPos = s.outPos := rfl
@[simp] theorem nameCodec_phase (c : CodecId) (w : LzPair) (s : State) : (nameCodec c w s).phase = s.phase := rfl
@[simp] theorem nameCodec_lz (c : CodecId) (w : LzPair) (s : State) : (nameCodec c w s).lz = s.lz := rfl
@[simp] theorem nameCodec_huf (c : CodecId) (w : LzPair) (s : State) : (nameCodec c w s).huf = s.huf := rfl
@[simp] theorem nameCodec_writer (c : CodecId) (w : LzPair) (s : State) : (nameCodec c w s).writer = s.writer := rfl
@[simp] theorem nameCodec_reader (c : CodecId) (w : LzPair) (s : State) : (nameCodec c w s).reader = s.reader := rfl
@[simp] theorem nameCodec_hazards (c : CodecId) (w : LzPair) (s : State) : (nameCodec c w s).hazards = s.hazards := rfl
@[simp] theorem nameCodec_env (c : CodecId) (w : LzPair) (s : State) : (nameCodec c w s).env = s.env := rfl
@[simp] theorem nameCodec_freeCount (c : CodecId) (w : LzPair) (s : State) : (nameCodec c w s).freeCount = s.freeCount := rfl
@[simp] theorem nameCodec_inputs (c : CodecId) (w : LzPair) (s : State) : (nameCodec c w s).inputs = s.inputs := rfl
@[simp] theorem nameCodec_readLog (c : CodecId) (w : LzPair) (s : State) : (nameCodec c w s).readLog = s.readLog := rfl

@[simp] theorem startBody_params (ph : Phase) (w : LzPair) (s : State) : (startBody ph w s).params = s.params := rfl
@[simp] theorem startBody_status (ph : Phase) (w : LzPair) (s : State) : (startBody ph w s).status = { s.status with busy := true } := rfl
@[simp] theorem startBody_srcLen (ph : Phase) (w : LzPair) (s : State) : (startBody ph w s).srcLen = s.srcLen := rfl
@[simp] theorem startBody_outLen (ph : Phase) (w : LzPair) (s : State) : (startBody ph w s).outLen = s.outLen := rfl
@[simp] theorem startBody_lzCfg (ph : Phase) (w : LzPair) (s : State) : (startBody ph w s).lzCfg = s.lzCfg := rfl
@[simp] theorem startBody_usedCfg (ph : Phase) (w : LzPair) (s : State) : (startBody ph w s).usedCfg = s.usedCfg := rfl
@[simp] theorem startBody_decTag (ph : Phase) (w : LzPair) (s : State) : (startBody ph w s).decTag = s.decTag := rfl
@[simp] theorem startBody_inMem (ph : Phase) (w : LzPair) (s : State) : (startBody ph w s).inMem = s.inMem := rfl
@[simp] theorem startBody_outMem (ph : Phase) (w : LzPair) (s : State) : (startBody ph w s).outMem = s.outMem := rfl
@[simp] theorem startBody_outEpoch (ph : Phase) (w : LzPair) (s : State) : (startBody ph w s).outEpoch = s.outEpoch := rfl
@[simp] theorem startBody_latch (ph : Phase) (w : LzPair) (s : State) : (startBody ph w s).latch = s.latch := rfl
@[simp] theorem startBody_inPos (ph : Phase) (w : LzPair) (s : State) : (startBody ph w s).inPos = s.inPos := rfl
@[simp] theorem startBody_outPos (ph : Phase) (w : LzPair) (s : State) : (startBody ph w s).outPos = s.outPos := rfl
@[simp] theorem startBody_phase (ph : Phase) (w : LzPair) (s : State) : (startBody ph w s).phase = ph := rfl
@[simp] theorem startBody_lz (ph : Phase) (w : LzPair) (s : State) : (startBody ph w s).lz = { LzWork.init with win := Ring.empty w.window.toNat, lookahead := w.lookahead.toNat } := rfl
@[simp] theorem startBody_huf (ph : Phase) (w : LzPair) (s : State) : (startBody ph w s).huf = HufWork.init := rfl
@[simp] theorem startBody_writer (ph : Phase) (w : LzPair) (s : State) : (startBody ph w s).writer = BitWriter.init := rfl
@[simp] theorem startBody_reader (ph : Phase) (w : LzPair) (s : State) : (startBody ph w s).reader = BitReader.init := rfl
@[simp] theorem startBody_hazards (ph : Phase) (w : LzPair) (s : State) : (startBody ph w s).hazards = [] := rfl
@[simp] theorem startBody_env (ph : Phase) (w : LzPair) (s : State) : (startBody ph w s).env = s.env := rfl
@[simp] theorem startBody_freeCount (ph : Phase) (w : LzPair) (s : State) : (startBody ph w s).freeCount = s.freeCount := rfl
@[simp] theorem startBody_inputs (ph : Phase) (w : LzPair) (s : State) : (startBody ph w s).inputs = s.inputs := rfl
@[simp] theorem startBody_readLog (ph : Phase) (w : LzPair) (s : State) : (startBody ph w s).readLog = s.readLog := rfl

@[simp] theorem logRead_params (v : Word) (s : State) : (logRead v s).params = s.params := rfl
@[simp] theorem logRead_status (v : Word) (s : State) : (logRead v s).status = s.status := rfl
@[simp] theorem logRead_srcLen (v : Word) (s : State) : (logRead v s).srcLen = s.srcLen := rfl
@[simp] theorem logRead_outLen (v : Word) (s : State) : (logRead v s).outLen = s.outLen := rfl
@[simp] theorem logRead_lzCfg (v : Word) (s : State) : (logRead v s).lzCfg = s.lzCfg := rfl
@[simp] theorem logRead_usedCfg (v : Word) (s : State) : (logRead v s).usedCfg = s.usedCfg := rfl
@[simp] theorem logRead_decTag (v : Word) (s : State) : (logRead v s).decTag = s.decTag := rfl
@[simp] theorem logRead_inMem (v : Word) (s : State) : (logRead v s).inMem = s.inMem := rfl
@[simp] theorem logRead_outMem (v : Word) (s : State) : (logRead v s).outMem = s.outMem := rfl
@[simp] theorem logRead_outEpoch (v : Word) (s : State) : (logRead v s).outEpoch = s.outEpoch := rfl
@[simp] theorem logRead_latch (v : Word) (s : State) : (logRead v s).latch = s.latch := rfl
@[simp] theorem logRead_inPos (v : Word) (s : State) : (logRead v s).inPos = s.inPos := rfl
@[simp] theorem logRead_outPos (v : Word) (s : State) : (logRead v s).outPos = s.outPos := rfl
@[simp] theorem logRead_phase (v : Word) (s : State) : (logRead v s).phase = s.phase := rfl
@[simp] theorem logRead_lz (v : Word) (s : State) : (logRead v s).lz = s.lz := rfl
@[simp] theorem logRead_huf (v : Word) (s : State) : (logRead v s).huf = s.huf := rfl
@[simp] theorem logRead_writer (v : Word) (s : State) : (logRead v s).writer = s.writer := rfl
@[simp] theorem logRead_reader (v : Word) (s : State) : (logRead v s).reader = s.reader := rfl
@[simp] theorem logRead_hazards (v : Word) (s : State) : (logRead v s).hazards = s.hazards := rfl
@[simp] theorem logRead_env (v : Word) (s : State) : (logRead v s).env = s.env := rfl
@[simp] theorem logRead_freeCount (v : Word) (s : State) : (logRead v s).freeCount = s.freeCount := rfl
@[simp] theorem logRead_inputs (v : Word) (s : State) : (logRead v s).inputs = s.inputs := rfl
@[simp] theorem logRead_readLog (v : Word) (s : State) : (logRead v s).readLog = v :: s.readLog := rfl

@[simp] theorem warmReset_params (s : State) : (warmReset s).params = s.params := rfl
@[simp] theorem warmReset_status (s : State) : (warmReset s).status = Status.reset := rfl
@[simp] theorem warmReset_srcLen (s : State) : (warmReset s).srcLen = 0#32 := rfl
@[simp] theorem warmReset_outLen (s : State) : (warmReset s).outLen = 0#32 := rfl
@[simp] theorem warmReset_lzCfg (s : State) : (warmReset s).lzCfg = 0#32 := rfl
@[simp] theorem warmReset_usedCfg (s : State) : (warmReset s).usedCfg = 0#32 := rfl
@[simp] theorem warmReset_decTag (s : State) : (warmReset s).decTag = 0#8 := rfl
@[simp] theorem warmReset_inMem (s : State) : (warmReset s).inMem = s.inMem := rfl
@[simp] theorem warmReset_outMem (s : State) : (warmReset s).outMem = [] := rfl
@[simp] theorem warmReset_outEpoch (s : State) : (warmReset s).outEpoch = s.outEpoch + 1 := rfl
@[simp] theorem warmReset_latch (s : State) : (warmReset s).latch = Latch.reset := rfl
@[simp] theorem warmReset_inPos (s : State) : (warmReset s).inPos = 0 := rfl
@[simp] theorem warmReset_outPos (s : State) : (warmReset s).outPos = 0 := rfl
@[simp] theorem warmReset_phase (s : State) : (warmReset s).phase = .idle := rfl
@[simp] theorem warmReset_lz (s : State) : (warmReset s).lz = LzWork.init := rfl
@[simp] theorem warmReset_huf (s : State) : (warmReset s).huf = HufWork.init := rfl
@[simp] theorem warmReset_writer (s : State) : (warmReset s).writer = BitWriter.init := rfl
@[simp] theorem warmReset_reader (s : State) : (warmReset s).reader = BitReader.init := rfl
@[simp] theorem warmReset_hazards (s : State) : (warmReset s).hazards = [] := rfl
@[simp] theorem warmReset_env (s : State) : (warmReset s).env = s.env := rfl
@[simp] theorem warmReset_freeCount (s : State) : (warmReset s).freeCount = s.freeCount := rfl
@[simp] theorem warmReset_inputs (s : State) : (warmReset s).inputs = s.inputs := rfl
@[simp] theorem warmReset_readLog (s : State) : (warmReset s).readLog = s.readLog := rfl

@[simp] theorem settleOut_params (e : ErrCode) (s : State) : (settleOut e s).params = s.params := by
  unfold settleOut; split <;> rfl
@[simp] theorem settleOut_status (e : ErrCode) (s : State) : (settleOut e s).status = s.status := by
  unfold settleOut; split <;> rfl
@[simp] theorem settleOut_srcLen (e : ErrCode) (s : State) : (settleOut e s).srcLen = s.srcLen := by
  unfold settleOut; split <;> rfl
@[simp] theorem settleOut_outLen (e : ErrCode) (s : State) : (settleOut e s).outLen = s.outLen := by
  unfold settleOut; split <;> rfl
@[simp] theorem settleOut_lzCfg (e : ErrCode) (s : State) : (settleOut e s).lzCfg = s.lzCfg := by
  unfold settleOut; split <;> rfl
@[simp] theorem settleOut_usedCfg (e : ErrCode) (s : State) : (settleOut e s).usedCfg = s.usedCfg := by
  unfold settleOut; split <;> rfl
@[simp] theorem settleOut_decTag (e : ErrCode) (s : State) : (settleOut e s).decTag = s.decTag := by
  unfold settleOut; split <;> rfl
@[simp] theorem settleOut_inMem (e : ErrCode) (s : State) : (settleOut e s).inMem = s.inMem := by
  unfold settleOut; split <;> rfl
@[simp] theorem settleOut_latch (e : ErrCode) (s : State) : (settleOut e s).latch = s.latch := by
  unfold settleOut; split <;> rfl
@[simp] theorem settleOut_inPos (e : ErrCode) (s : State) : (settleOut e s).inPos = s.inPos := by
  unfold settleOut; split <;> rfl
@[simp] theorem settleOut_outPos (e : ErrCode) (s : State) : (settleOut e s).outPos = s.outPos := by
  unfold settleOut; split <;> rfl
@[simp] theorem settleOut_phase (e : ErrCode) (s : State) : (settleOut e s).phase = s.phase := by
  unfold settleOut; split <;> rfl
@[simp] theorem settleOut_lz (e : ErrCode) (s : State) : (settleOut e s).lz = s.lz := by
  unfold settleOut; split <;> rfl
@[simp] theorem settleOut_huf (e : ErrCode) (s : State) : (settleOut e s).huf = s.huf := by
  unfold settleOut; split <;> rfl
@[simp] theorem settleOut_writer (e : ErrCode) (s : State) : (settleOut e s).writer = s.writer := by
  unfold settleOut; split <;> rfl
@[simp] theorem settleOut_reader (e : ErrCode) (s : State) : (settleOut e s).reader = s.reader := by
  unfold settleOut; split <;> rfl
@[simp] theorem settleOut_hazards (e : ErrCode) (s : State) : (settleOut e s).hazards = s.hazards := by
  unfold settleOut; split <;> rfl
@[simp] theorem settleOut_env (e : ErrCode) (s : State) : (settleOut e s).env = s.env := by
  unfold settleOut; split <;> rfl
@[simp] theorem settleOut_freeCount (e : ErrCode) (s : State) : (settleOut e s).freeCount = s.freeCount := by
  unfold settleOut; split <;> rfl
@[simp] theorem settleOut_inputs (e : ErrCode) (s : State) : (settleOut e s).inputs = s.inputs := by
  unfold settleOut; split <;> rfl
@[simp] theorem settleOut_readLog (e : ErrCode) (s : State) : (settleOut e s).readLog = s.readLog := by
  unfold settleOut; split <;> rfl

@[simp] theorem complete_params (e : ErrCode) (s : State) : (complete e s).params = s.params := by
  simp [complete]
@[simp] theorem complete_status (e : ErrCode) (s : State) : (complete e s).status = { s.status with busy := false, done := true, err := e } := by
  simp [complete]
@[simp] theorem complete_srcLen (e : ErrCode) (s : State) : (complete e s).srcLen = s.srcLen := by
  simp [complete]
@[simp] theorem complete_outLen (e : ErrCode) (s : State) : (complete e s).outLen = if e = .success then BitVec.ofNat 32 s.outPos else 0#32 := by
  simp [complete]
@[simp] theorem complete_lzCfg (e : ErrCode) (s : State) : (complete e s).lzCfg = s.lzCfg := by
  simp [complete]
@[simp] theorem complete_usedCfg (e : ErrCode) (s : State) : (complete e s).usedCfg = s.usedCfg := by
  simp [complete]
@[simp] theorem complete_decTag (e : ErrCode) (s : State) : (complete e s).decTag = s.decTag := by
  simp [complete]
@[simp] theorem complete_inMem (e : ErrCode) (s : State) : (complete e s).inMem = s.inMem := by
  simp [complete]
@[simp] theorem complete_outMem (e : ErrCode) (s : State) : (complete e s).outMem = (settleOut e s).outMem := by
  simp [complete]
@[simp] theorem complete_outEpoch (e : ErrCode) (s : State) : (complete e s).outEpoch = (settleOut e s).outEpoch := by
  simp [complete]
@[simp] theorem complete_latch (e : ErrCode) (s : State) : (complete e s).latch = s.latch := by
  simp [complete]
@[simp] theorem complete_inPos (e : ErrCode) (s : State) : (complete e s).inPos = s.inPos := by
  simp [complete]
@[simp] theorem complete_outPos (e : ErrCode) (s : State) : (complete e s).outPos = s.outPos := by
  simp [complete]
@[simp] theorem complete_phase (e : ErrCode) (s : State) : (complete e s).phase = .idle := by
  simp [complete]
@[simp] theorem complete_lz (e : ErrCode) (s : State) : (complete e s).lz = LzWork.init := by
  simp [complete]
@[simp] theorem complete_huf (e : ErrCode) (s : State) : (complete e s).huf = HufWork.init := by
  simp [complete]
@[simp] theorem complete_writer (e : ErrCode) (s : State) : (complete e s).writer = BitWriter.init := by
  simp [complete]
@[simp] theorem complete_reader (e : ErrCode) (s : State) : (complete e s).reader = BitReader.init := by
  simp [complete]
@[simp] theorem complete_hazards (e : ErrCode) (s : State) : (complete e s).hazards = [] := by
  simp [complete]
@[simp] theorem complete_env (e : ErrCode) (s : State) : (complete e s).env = s.env := by
  simp [complete]
@[simp] theorem complete_freeCount (e : ErrCode) (s : State) : (complete e s).freeCount = s.freeCount := by
  simp [complete]
@[simp] theorem complete_inputs (e : ErrCode) (s : State) : (complete e s).inputs = s.inputs := by
  simp [complete]
@[simp] theorem complete_readLog (e : ErrCode) (s : State) : (complete e s).readLog = s.readLog := by
  simp [complete]

@[simp] theorem settleOut_success (s : State) : settleOut .success s = s := by
  simp [settleOut]

@[simp] theorem settle_done (u : Unit) (s : State) : settle (.done u s) = s := rfl

@[simp] theorem settle_raised (e : ErrCode) (s : State) : settle (.raised e s) = complete e s := rfl

@[simp] theorem Body.bind_done {α β : Type} (a : α) (s : State) (f : α → State → Body β) :
    (Body.done a s).bind f = f a s := rfl

@[simp] theorem Body.bind_raised {α β : Type} (e : ErrCode) (s : State) (f : α → State → Body β) :
    (Body.raised e s : Body α).bind f = .raised e s := rfl

/-- The frequency table has 256 counters (R46). -/
@[simp] theorem HufWork.init_freq_length : HufWork.init.freq.length = 256 := List.length_replicate

/-- The code table has 256 entries (R48). -/
@[simp] theorem HufWork.init_codes_length : HufWork.init.codes.length = 256 := List.length_replicate

end Sys2Proof.Machine
end

