-- ==== Sys2Proof/Laws/Ops.lean ====
section
/-! SUPPORT. For each shared operation, once, everything it can do. -/

namespace Sys2Proof.Machine

open Sys2Proof

theorem Body.bind_eq_done {α β : Type} {x : Body α} {f : α → State → Body β} {b : β} {t : State} :
    x.bind f = .done b t ↔ ∃ a s, x = .done a s ∧ f a s = .done b t := by
  cases x <;> simp

theorem Body.bind_eq_raised {α β : Type} {x : Body α} {f : α → State → Body β} {e : ErrCode} {t : State} :
    x.bind f = .raised e t ↔ x = .raised e t ∨ ∃ a s, x = .done a s ∧ f a s = .raised e t := by
  cases x <;> simp

/-- A read draw changes the environment alone. -/
theorem drawRead_frame (k : Nat) (s : State) : (drawRead k s).2 = { s with env := (drawRead k s).2.env } := by
  unfold drawRead; split
  · rfl
  · split <;> rfl

/-- A write draw changes the environment alone. -/
theorem drawWrite_frame (k : Nat) (s : State) : (drawWrite k s).2 = { s with env := (drawWrite k s).2.env } := by
  unfold drawWrite; split
  · rfl
  · split <;> rfl

/-- In a quiet environment a read draw is false, and the environment stays quiet. -/
theorem drawRead_quiet (k : Nat) (s : State) (h : s.Quiet) :
    ∃ e, drawRead k s = (false, { s with env := e }) ∧ ({ s with env := e } : State).Quiet := by
  obtain ⟨hr, hw, hq⟩ := h
  unfold drawRead
  cases hs : s.env.reads with
  | nil => exact ⟨s.env, by simp [hq], hr, hw, hq⟩
  | cons d ds =>
    have hd : d = false := hr d (by simp [hs])
    refine ⟨{ s.env with reads := ds }, by simp [hd], ?_, hw, hq⟩
    intro x hx; exact hr x (by simp [hs]; exact .inr hx)

/-- In a quiet environment a write draw is false, and the environment stays quiet. -/
theorem drawWrite_quiet (k : Nat) (s : State) (h : s.Quiet) :
    ∃ e, drawWrite k s = (false, { s with env := e }) ∧ ({ s with env := e } : State).Quiet := by
  obtain ⟨hr, hw, hq⟩ := h
  unfold drawWrite
  cases hs : s.env.writes with
  | nil => exact ⟨s.env, by simp [hq], hr, hw, hq⟩
  | cons d ds =>
    have hd : d = false := hw d (by simp [hs])
    refine ⟨{ s.env with writes := ds }, by simp [hd], hr, ?_, hq⟩
    intro x hx; exact hw x (by simp [hs]; exact .inr hx)

/-- A fetched byte changes at most the count of free values, and it is what IN holds where the host has not written
during the command. -/
theorem fetchIn_frame (k : Nat) (s : State) :
    (fetchIn k s).2 = { s with freeCount := (fetchIn k s).2.freeCount }
      ∧ (s.hazards.contains k = false → fetchIn k s = (s.inByteAt k, s)) := by
  unfold fetchIn
  split
  · exact ⟨rfl, by simp_all⟩
  · exact ⟨rfl, fun _ => rfl⟩

/-- What `InByte` does when it answers a byte. -/
theorem inByte_done {k : Nat} {s t : State} {b : Byte} (h : inByte k s = .done b t) :
    k < s.srcCount ∧ t = { s with env := t.env, freeCount := t.freeCount }
      ∧ (s.hazards.contains k = false → b = s.inByteAt k ∧ t.freeCount = s.freeCount) := by
  unfold inByte at h
  split at h
  · cases h
  · rename_i hk
    have hf := drawRead_frame k s
    split at h
    · cases h
    · rename_i s1 hd
      rw [hd] at hf
      obtain ⟨h1, h2⟩ := fetchIn_frame k s1
      obtain ⟨hb, ht⟩ : (fetchIn k s1).1 = b ∧ (fetchIn k s1).2 = t := by simpa using h
      subst hb ht
      simp only at hf
      refine ⟨by omega, ?_, fun hz => ?_⟩
      · rw [h1, hf]
      · have hz1 : s1.hazards.contains k = false := by rw [hf]; exact hz
        rw [h2 hz1, hf]
        exact ⟨rfl, rfl⟩

/-- What `InByte` does when it raises an error. -/
theorem inByte_raised {k : Nat} {s t : State} {e : ErrCode} (h : inByte k s = .raised e t) :
    e = .ioFailure ∧ t = { s with env := t.env } := by
  unfold inByte at h
  split at h
  · cases h; exact ⟨rfl, rfl⟩
  · have hf := drawRead_frame k s
    split at h
    · rename_i s1 hd
      rw [hd] at hf
      cases h
      exact ⟨rfl, hf⟩
    · cases h

/-- `InByte` below `N` in a quiet environment, at an offset the host has not written during the command. -/
theorem inByte_quiet {k : Nat} {s : State} (hq : s.Quiet) (hk : k < s.srcCount)
    (hz : s.hazards.contains k = false) :
    ∃ e, inByte k s = .done (s.inByteAt k) { s with env := e } ∧ ({ s with env := e } : State).Quiet := by
  obtain ⟨e, hd, hqe⟩ := drawRead_quiet k s hq
  refine ⟨e, ?_, hqe⟩
  unfold inByte
  rw [if_neg (by omega), hd]
  have : ({ s with env := e } : State).hazards.contains k = false := hz
  simp only [(fetchIn_frame k _).2 this]
  rfl

/-- What `Emit` does when it goes on. -/
theorem emit_done {b : Byte} {s t : State} {u : Unit} (h : emit b s = .done u t) :
    s.outPos < s.params.outSize ∧ EmitFrame s t ∧ t.outPos = s.outPos + 1
      ∧ t.outMem = Memory.write s.outMem s.outPos b := by
  unfold emit at h
  split at h
  · cases h
  · have hf := drawWrite_frame s.outPos s
    split at h
    · cases h
    · rename_i s1 hd
      rw [hd] at hf
      simp only at hf
      cases h
      refine ⟨by omega, ?_, by rw [hf]; rfl, by rw [hf]; rfl⟩
      unfold EmitFrame putOut
      rw [hf]

/-- What `Emit` does when it raises an error. -/
theorem emit_raised {b : Byte} {s t : State} {e : ErrCode} (h : emit b s = .raised e t) :
    e = .ioFailure ∧ t = { s with env := t.env } := by
  unfold emit at h
  split at h
  · cases h; exact ⟨rfl, rfl⟩
  · have hf := drawWrite_frame s.outPos s
    split at h
    · rename_i s1 hd
      rw [hd] at hf
      cases h
      exact ⟨rfl, hf⟩
    · cases h

/-- `Emit` in a quiet environment with room in OUT. -/
theorem emit_quiet {b : Byte} {s : State} (hq : s.Quiet) (ho : s.outPos < s.params.outSize) :
    ∃ e, emit b s = .done () (putOut b { s with env := e }) ∧ (putOut b { s with env := e }).Quiet := by
  obtain ⟨e, hd, hqe⟩ := drawWrite_quiet s.outPos s hq
  refine ⟨e, ?_, hqe⟩
  unfold emit
  rw [if_neg (by omega), hd]

theorem EmitFrame.refl (s : State) : EmitFrame s s := rfl

theorem EmitFrame.trans {s t u : State} (h1 : EmitFrame s t) (h2 : EmitFrame t u) : EmitFrame s u := by
  unfold EmitFrame at *
  rw [h2, h1]

/-- The byte written is read back. -/
@[simp] theorem putOut_outByteAt_same (b : Byte) (s : State) : (putOut b s).outByteAt s.outPos = b := by
  simp [State.outByteAt, Memory.read_write_same]

/-- Every other byte of OUT reads as before. -/
theorem putOut_outByteAt_other (b : Byte) (s : State) (a : Nat) (h : a ≠ s.outPos) :
    (putOut b s).outByteAt a = s.outByteAt a := by
  simp [State.outByteAt, Memory.read_write_other _ _ _ _ h]

/-- What `Emit` does to the bytes of OUT when it goes on. -/
theorem emit_done_reads {b : Byte} {s t : State} {u : Unit} (h : emit b s = .done u t) :
    t.outByteAt s.outPos = b ∧ ∀ a, a ≠ s.outPos → t.outByteAt a = s.outByteAt a := by
  obtain ⟨_, hf, _, hm⟩ := emit_done h
  have he : t.outEpoch = s.outEpoch := by rw [hf]
  refine ⟨by simp [State.outByteAt, hm, Memory.read_write_same], fun a ha => ?_⟩
  simp [State.outByteAt, hm, he, Memory.read_write_other _ _ _ _ ha]

/-- What `emitAll` does when it goes on: the cursor moves by the number of bytes, the bytes stand from the old cursor
on, and every other byte reads as before. -/
theorem emitAll_done {bs : List Byte} {s t : State} {u : Unit} (h : emitAll bs s = .done u t) :
    EmitFrame s t ∧ t.outPos = s.outPos + bs.length
      ∧ (∀ j, j < bs.length → t.outByteAt (s.outPos + j) = bs.getD j 0#8)
      ∧ ∀ a, (a < s.outPos ∨ s.outPos + bs.length ≤ a) → t.outByteAt a = s.outByteAt a := by
  induction bs generalizing s with
  | nil => cases h; exact ⟨rfl, rfl, by simp, fun _ _ => rfl⟩
  | cons b bs ih =>
    obtain ⟨_, s1, h1, h2⟩ := Body.bind_eq_done.mp h
    obtain ⟨_, f1, p1, _⟩ := emit_done h1
    obtain ⟨r1, o1⟩ := emit_done_reads h1
    obtain ⟨f2, p2, r2, o2⟩ := ih h2
    refine ⟨f1.trans f2, by simp [p2, p1]; omega, fun j hj => ?_, fun a ha => ?_⟩
    · cases j with
      | zero =>
        rw [Nat.add_zero, o2 _ (by omega), r1]
        simp
      | succ j =>
        have hj' : j < bs.length := by simpa using hj
        have := r2 j hj'
        rw [p1] at this
        rw [show s.outPos + (j + 1) = s.outPos + 1 + j by omega, this]
        simp
    · simp only [List.length_cons] at ha
      rw [o2 a (by omega), o1 a (by omega)]

/-- `emitRepeat` is `emitAll` of a constant list. -/
theorem emitRepeat_eq_emitAll (c : Byte) (n : Nat) (s : State) :
    emitRepeat c n s = emitAll (List.replicate n c) s := by
  induction n generalizing s with
  | zero => rfl
  | succ n ih =>
    simp only [emitRepeat, List.replicate_succ, emitAll]
    congr 1
    funext _ s1
    exact ih s1

/-- `emitAll` in a quiet environment with room in OUT goes on. -/
theorem emitAll_quiet {bs : List Byte} {s : State} (hq : s.Quiet)
    (ho : s.outPos + bs.length ≤ s.params.outSize) : ∃ t, emitAll bs s = .done () t ∧ t.Quiet := by
  induction bs generalizing s with
  | nil => exact ⟨s, rfl, hq⟩
  | cons b bs ih =>
    simp only [List.length_cons] at ho
    obtain ⟨e, h1, q1⟩ := emit_quiet (b := b) hq (by omega)
    obtain ⟨t, h2, q2⟩ := ih q1 (by simp; omega)
    exact ⟨t, by rw [emitAll, h1, Body.bind_done, h2], q2⟩

/-- `emitAll` raises nothing but `IOFailure`. -/
theorem emitAll_raised {bs : List Byte} {s t : State} {e : ErrCode} (h : emitAll bs s = .raised e t) :
    e = .ioFailure ∧ EmitFrame s t := by
  induction bs generalizing s with
  | nil => cases h
  | cons b bs ih =>
    rcases Body.bind_eq_raised.mp h with h1 | ⟨_, s1, h1, h2⟩
    · obtain ⟨he, ht⟩ := emit_raised h1
      refine ⟨he, ?_⟩
      unfold EmitFrame
      rw [ht]
    · obtain ⟨he, ht⟩ := ih h2
      exact ⟨he, (emit_done h1).2.1.trans ht⟩

/-- What the match copy does when it goes on (R125): the cursor moves by the length, each byte is the one that stands
at its source when it is read, and every other byte reads as before. -/
theorem copyOut_done {j n : Nat} {s t : State} {u : Unit} (h : copyOut j n s = .done u t) :
    EmitFrame s t ∧ t.outPos = s.outPos + n
      ∧ ∀ a, (a < s.outPos ∨ s.outPos + n ≤ a) → t.outByteAt a = s.outByteAt a := by
  induction n generalizing j s with
  | zero => cases h; exact ⟨rfl, rfl, fun _ _ => rfl⟩
  | succ n ih =>
    obtain ⟨_, s1, h1, h2⟩ := Body.bind_eq_done.mp h
    obtain ⟨_, f1, p1, _⟩ := emit_done h1
    obtain ⟨f2, p2, o2⟩ := ih h2
    refine ⟨f1.trans f2, by omega, fun a ha => ?_⟩
    rw [o2 a (by omega), (emit_done_reads h1).2 a (by omega)]

/-- What `nextByte` does when it answers a byte. -/
theorem nextByte_done {s t : State} {b : Byte} (h : nextByte s = .done b t) :
    s.inPos < s.srcCount ∧ t = { s with env := t.env, freeCount := t.freeCount, inPos := s.inPos + 1 } := by
  obtain ⟨b1, s1, h1, h2⟩ := Body.bind_eq_done.mp h
  obtain ⟨hk, hf, _⟩ := inByte_done h1
  cases h2
  refine ⟨hk, ?_⟩
  rw [hf]

/-- What `nextBytes` does when it answers bytes. -/
theorem nextBytes_done {n : Nat} {s t : State} {bs : List Byte} (h : nextBytes n s = .done bs t) :
    bs.length = n ∧ t = { s with env := t.env, freeCount := t.freeCount, inPos := s.inPos + n }
      ∧ (n = 0 ∨ s.inPos + n ≤ s.srcCount) := by
  induction n generalizing s bs with
  | zero => cases h; exact ⟨rfl, rfl, .inl rfl⟩
  | succ n ih =>
    obtain ⟨b, s1, h1, h2⟩ := Body.bind_eq_done.mp h
    obtain ⟨bs1, s2, h3, h4⟩ := Body.bind_eq_done.mp h2
    cases h4
    obtain ⟨hk, f1⟩ := nextByte_done h1
    obtain ⟨hl, f2, hn⟩ := ih h3
    have hp : s1.inPos = s.inPos + 1 := by rw [f1]
    have hc : s1.srcCount = s.srcCount := by rw [f1]; rfl
    refine ⟨by simp [hl], ?_, .inr ?_⟩
    · rw [f2, hp, f1]
      simp only [State.mk.injEq, and_true, true_and]
      omega
    · omega

end Sys2Proof.Machine
end

