-- ==== Sys2Proof/Laws/PerInstr.lean ====
section
/-! SUPPORT. Facts made per instruction: the encoded form of an instruction has the width its row of
spec/opcode_table.json gives. -/

namespace Sys2Proof.Laws.EncodedWidth

open Sys2Proof

/-- The bits of an encoded form. -/
def codeBits : Code → Nat
  | .command _ => 32
  | .lz77 bs => 8 * bs.length
  | .rle bs => 8 * bs.length
  | .hufHeader bs => 8 * bs.length
  | .hufNode bits => bits.length
  | .hufTrailing bs => 8 * bs.length

/-- The bits of an instruction's row. -/
def rowBits : Instr → Nat
  | .selCompress | .selDecompress | .rleCompress | .rleDecompress => 32
  | .lz77Compress | .lz77Decompress | .hufCompress | .hufDecompress => 32
  | .reservedOp0 | .reservedOp9 | .reservedOpA | .reservedOpB => 32
  | .reservedOpC | .reservedOpD | .reservedOpE | .reservedOpF => 32
  | .reservedHigh _ => 32
  | .lz77Literal _ => 16
  | .lz77Match _ _ => 40
  | .lz77ReservedFlag _ => 8
  | .rlePair _ _ => 16
  | .huffmanSingle _ _ _ => 40
  | .huffmanTreeFlag => 8
  | .huffmanReservedFlag _ => 8
  | .huffmanTreeLeaf _ => 17
  | .huffmanTreeInternal => 1
  | .huffmanTrailing _ => 8

/-- The encoded form is as wide as the table's row. -/
def Statement (i : Instr) : Prop := codeBits (encode i) = rowBits i

theorem selCompress : Statement .selCompress := rfl

theorem selDecompress : Statement .selDecompress := rfl

theorem rleCompress : Statement .rleCompress := rfl

theorem rleDecompress : Statement .rleDecompress := rfl

theorem lz77Compress : Statement .lz77Compress := rfl

theorem lz77Decompress : Statement .lz77Decompress := rfl

theorem hufCompress : Statement .hufCompress := rfl

theorem hufDecompress : Statement .hufDecompress := rfl

theorem reservedOp0 : Statement .reservedOp0 := rfl

theorem reservedOp9 : Statement .reservedOp9 := rfl

theorem reservedOpA : Statement .reservedOpA := rfl

theorem reservedOpB : Statement .reservedOpB := rfl

theorem reservedOpC : Statement .reservedOpC := rfl

theorem reservedOpD : Statement .reservedOpD := rfl

theorem reservedOpE : Statement .reservedOpE := rfl

theorem reservedOpF : Statement .reservedOpF := rfl

theorem reservedHigh (w : Word) : Statement (.reservedHigh w) := rfl

theorem lz77Literal (c : Byte) : Statement (.lz77Literal c) := rfl

theorem lz77Match (offset length : Half) : Statement (.lz77Match offset length) := rfl

theorem lz77ReservedFlag (f : Byte) : Statement (.lz77ReservedFlag f) := rfl

theorem rlePair (count c : Byte) : Statement (.rlePair count c) := rfl

theorem huffmanSingle (h c : Byte) (count : Half) : Statement (.huffmanSingle h c count) := rfl

theorem huffmanTreeFlag : Statement .huffmanTreeFlag := rfl

theorem huffmanReservedFlag (f : Byte) : Statement (.huffmanReservedFlag f) := rfl

theorem huffmanTreeLeaf (x : Half) : Statement (.huffmanTreeLeaf x) := rfl

theorem huffmanTreeInternal : Statement .huffmanTreeInternal := rfl

theorem huffmanTrailing (s : Byte) : Statement (.huffmanTrailing s) := rfl

end Sys2Proof.Laws.EncodedWidth
end

