-- ==== Sys2Proof/Laws/Reference.lean ====
section
/-! SUPPORT. The small lemmas of the reference decoders, and what the bit reader can do. -/

namespace Sys2Proof.Reference

open Sys2Proof Sys2Proof.Machine

@[simp] theorem Decoded.after_out (ys : List Byte) (d : Decoded) : (d.after ys).out = ys ++ d.out := rfl

@[simp] theorem Decoded.after_err (ys : List Byte) (d : Decoded) : (d.after ys).err = d.err := rfl

theorem Decoded.after_after (xs ys : List Byte) (d : Decoded) : (d.after ys).after xs = d.after (xs ++ ys) := by
  simp [Decoded.after]

theorem rleDecode_pair (n c : Byte) (rest : List Byte) :
    rleDecode (n :: c :: rest) = (rleDecode rest).after (List.replicate n.toNat c) := rfl

@[simp] theorem copyBack_length (offset n : Nat) (out : List Byte) :
    (copyBack offset n out).length = out.length + n := by
  induction n generalizing out with
  | zero => rfl
  | succ n ih => simp [copyBack, ih]; omega

/-- `least` answers the queue's elements in some order. -/
theorem least_perm (a : Weighted) (q : List Weighted) : ((least a q).1 :: (least a q).2).Perm (a :: q) := by
  induction q generalizing a with
  | nil => exact .refl _
  | cons b q ih =>
    unfold least
    split
    · exact (List.Perm.swap _ _ _).trans ((ih b).cons a)
    · exact ((List.Perm.swap _ _ _).trans ((ih a).cons b)).trans (.swap _ _ _)

theorem bitsMsb_length (n v : Nat) : (bitsMsb n v).length = n := by
  induction n with
  | zero => rfl
  | succ n ih => simp [bitsMsb, ih]

@[simp] theorem streamBits_length (bs : List Byte) : (streamBits bs).length = 8 * bs.length := by
  induction bs with
  | nil => rfl
  | cons b bs ih =>
    show (bitsMsb 8 b.toNat ++ streamBits bs).length = _
    rw [List.length_append, ih, bitsMsb_length, List.length_cons]; omega

end Sys2Proof.Reference

namespace Sys2Proof.Machine

open Sys2Proof

/-- What the byte latch does when it goes on: it reads `IN[rbyte]` when the bit is the byte's first. -/
theorem latchByte_done {s t : State} {u : Unit} (h : latchByte s = .done u t) :
    t = { s with env := t.env, freeCount := t.freeCount, reader := t.reader, inPos := t.inPos }
      ∧ t.reader.rbyte = s.reader.rbyte ∧ t.reader.rbit = s.reader.rbit
      ∧ (s.reader.rbit ≠ 0 → t = s)
      ∧ (s.reader.rbit = 0 → s.reader.rbyte < s.srcCount ∧ t.inPos = s.reader.rbyte + 1
          ∧ (s.hazards.contains s.reader.rbyte = false →
              t.reader.rcur = s.inByteAt s.reader.rbyte ∧ t.freeCount = s.freeCount)) := by
  unfold latchByte at h
  split at h
  · rename_i h0
    obtain ⟨b, s1, h1, h2⟩ := Body.bind_eq_done.mp h
    obtain ⟨hk, hf, hv⟩ := inByte_done h1
    have hr : s1.reader = s.reader := by rw [hf]
    cases h2
    refine ⟨by rw [hf], by rw [hr], by rw [hr], fun hne => absurd h0 hne, fun _ => ⟨hk, by rw [hr], hv⟩⟩
  · rename_i h0
    cases h
    exact ⟨rfl, rfl, rfl, fun _ => rfl, fun he => absurd he h0⟩

/-- What `ReadBit` does when it answers a bit: the cursor moves by one, and nothing but the reader, `in_pos`, the draws
and the count of free values changes. -/
theorem readBit_done {s t : State} {b : Bool} (h : readBit s = .done b t) (hr : s.reader.rbit < 8) :
    t = { s with env := t.env, freeCount := t.freeCount, reader := t.reader, inPos := t.inPos }
      ∧ t.bitCursor = s.bitCursor + 1 ∧ t.reader.rbit < 8 := by
  obtain ⟨_, s1, h1, h2⟩ := Body.bind_eq_done.mp h
  obtain ⟨hf, hb, hc, _, _⟩ := latchByte_done h1
  cases h2
  refine ⟨by rw [hf], ?_, ?_⟩
  · simp only [State.bitCursor, BitReader.advance]
    split <;> simp only [hb, hc] at * <;> omega
  · simp only [BitReader.advance]
    split <;> simp only [hc] at * <;> omega

/-- What a read of several bits does when it answers. -/
theorem readBits_done {n : Nat} {s t : State} {bits : List Bool} (h : readBits n s = .done bits t)
    (hr : s.reader.rbit < 8) :
    bits.length = n ∧ t = { s with env := t.env, freeCount := t.freeCount, reader := t.reader, inPos := t.inPos }
      ∧ t.bitCursor = s.bitCursor + n ∧ t.reader.rbit < 8 := by
  induction n generalizing s bits with
  | zero => cases h; exact ⟨rfl, rfl, rfl, hr⟩
  | succ n ih =>
    obtain ⟨b, s1, h1, h2⟩ := Body.bind_eq_done.mp h
    obtain ⟨bs, s2, h3, h4⟩ := Body.bind_eq_done.mp h2
    cases h4
    obtain ⟨f1, c1, r1⟩ := readBit_done h1 hr
    obtain ⟨hl, f2, c2, r2⟩ := ih h3 r1
    refine ⟨by simp [hl], by rw [f2, f1], by omega, r2⟩

end Sys2Proof.Machine
end

