-- ==== Sys2Proof/Laws/Window.lean ====
section
/-! SUPPORT. What the candidate length of the match finder is: a candidate is as long as its symbols agree. -/

namespace Sys2Proof.Machine

open Sys2Proof

/-- A prefix of the window and the lookahead is common up to `k` exactly when their first `k` symbols agree (R113). -/
theorem le_commonPrefix_iff (win look : List Byte) (k : Nat) :
    k ≤ commonPrefix win look ↔ k ≤ win.length ∧ k ≤ look.length ∧ ∀ j, j < k → win[j]? = look[j]? := by
  induction win generalizing look k with
  | nil =>
    simp only [commonPrefix, List.length_nil, Nat.le_zero]
    exact ⟨fun h => ⟨h, by omega, fun j hj => by omega⟩, fun h => h.1⟩
  | cons w ws ih =>
    cases look with
    | nil =>
      simp only [commonPrefix, List.length_nil, Nat.le_zero]
      exact ⟨fun h => ⟨by omega, h, fun j hj => by omega⟩, fun h => h.2.1⟩
    | cons c cs =>
      cases k with
      | zero => simp
      | succ k =>
        simp only [commonPrefix, List.length_cons, Nat.add_le_add_iff_right]
        by_cases hc : w = c
        · subst hc
          rw [if_pos rfl, Nat.add_le_add_iff_right, ih]
          refine and_congr_right fun _ => and_congr_right fun _ => ⟨fun h j hj => ?_, fun h j hj => ?_⟩
          · cases j with
            | zero => rfl
            | succ j => simpa using h j (by omega)
          · simpa using h (j + 1) (by omega)
        · rw [if_neg hc]
          refine ⟨fun h => by omega, fun h => absurd ?_ hc⟩
          simpa using h.2.2 0 (by omega)

/-- A candidate lies inside the window and the lookahead. -/
theorem commonPrefix_le (win look : List Byte) :
    commonPrefix win look ≤ win.length ∧ commonPrefix win look ≤ look.length := by
  have h := (le_commonPrefix_iff win look _).mp (Nat.le_refl _)
  exact ⟨h.1, h.2.1⟩

end Sys2Proof.Machine
end

