-- ==== Sys2Proof/Tests/Slice0.lean ====
section
/-! SUPPORT. The model's own tests: the WellFormed smoke, words written out from 30_encoding.md, single steps against
95_test_vectors.md, and for every statement with hypotheses a state and operands that meet them. -/

namespace Sys2Proof.Tests

open Sys2Proof Sys2Proof.Machine

/-! ## Small states -/

/-- The machine after reset with the given sizes, the tier defaults of R8 and no access error. -/
def ready (inSize outSize : Nat) : State :=
  { State.reset with
    params := Params.defaults inSize outSize 0 0 0
    env := { reads := [], writes := [], quiet := true, count := 0 } }

/-- IN holds the bytes and SRC_LEN their number. -/
def load (bs : List Byte) (s : State) : State :=
  { s with inMem := Memory.writeAll [] 0 bs, srcLen := BitVec.ofNat 32 bs.length }

/-- An idle machine of 64 bytes of IN and OUT with an input loaded. -/
def idleWith (bs : List Byte) : State := load bs (ready 64 64)

/-- A command is running over the bytes, in the named part of its body. -/
def busyWith (c : CodecId) (ph : Phase) (bs : List Byte) : State :=
  { idleWith bs with
    status := { busy := true, done := false, err := .success, codec := c }
    latch := { Latch.reset with n := BitVec.ofNat 32 bs.length }
    phase := ph }

/-- OUT holds bytes already emitted. -/
def emitted (bs : List Byte) (s : State) : State :=
  { s with outMem := Memory.writeAll [] 0 bs, outPos := bs.length }

/-- The next input of the host. -/
def hostNext (op : HostOp) (s : State) : State := { s with inputs := [.host op] }

/-- STATUS as the host reads it after a step. -/
def statusOf (o : Host.Outcome State Fault Refusal) : Option Word :=
  match o with
  | .next t => some t.status.word
  | _ => none

/-- What a step has emitted so far. -/
def outOf (o : Host.Outcome State Fault Refusal) : Option (List Byte) :=
  match o with
  | .next t => some (t.outBytes t.outPos)
  | _ => none

/-- STATUS and USED_CFG after an issue. -/
def issueOf (o : Host.Outcome State Fault Refusal) : Option (Word × Word) :=
  match o with
  | .next t => some (t.status.word, t.usedCfg)
  | _ => none

/-- The last value a host read returned. -/
def readOf (o : Host.Outcome State Fault Refusal) : Option Word :=
  match o with
  | .next t => t.readLog.head?
  | _ => none

/-- The step answers a next state. -/
def goesOn (o : Host.Outcome State Fault Refusal) : Bool :=
  match o with
  | .next _ => true
  | _ => false

theorem goesOn_next {o : Host.Outcome State Fault Refusal} (h : goesOn o = true) : ∃ t, o = .next t := by
  cases o with
  | next t => exact ⟨t, rfl⟩
  | fault _ => cases h
  | refused _ => cases h

/-- The state a step or a run answers; the given one where it stops. -/
def nextOf (o : Host.Outcome State Fault Refusal) (s : State) : State :=
  match o with
  | .next t => t
  | _ => s

theorem eq_nextOf {o : Host.Outcome State Fault Refusal} (s : State) (h : goesOn o = true) : o = .next (nextOf o s) := by
  cases o with
  | next t => rfl
  | fault _ => cases h
  | refused _ => cases h

theorem quiet_ready (a b : Nat) : (ready a b).Quiet := ⟨by simp [ready], by simp [ready], rfl⟩

/-! ## WellFormed smoke: each check refuses an ill-formed term -/

theorem test_refuse_reservedHigh : ¬ WellFormed (.reservedHigh 0x00000005#32) := by decide
theorem test_refuse_lz77ReservedFlag : ¬ WellFormed (.lz77ReservedFlag 0x01#8) := by decide
theorem test_refuse_huffmanReservedFlag : ¬ WellFormed (.huffmanReservedFlag 0x00#8) := by decide

/-! ## Decoding: words written out from the spec's encodings -/

theorem test_decode_selCompress : decode (.command 0x00000001#32) = .ok .selCompress := by decide
theorem test_decode_selDecompress : decode (.command 0x00000002#32) = .ok .selDecompress := by decide
theorem test_decode_rleCompress : decode (.command 0x00000003#32) = .ok .rleCompress := by decide
theorem test_decode_rleDecompress : decode (.command 0x00000004#32) = .ok .rleDecompress := by decide
theorem test_decode_lz77Compress : decode (.command 0x00000005#32) = .ok .lz77Compress := by decide
theorem test_decode_lz77Decompress : decode (.command 0x00000006#32) = .ok .lz77Decompress := by decide
theorem test_decode_hufCompress : decode (.command 0x00000007#32) = .ok .hufCompress := by decide
theorem test_decode_hufDecompress : decode (.command 0x00000008#32) = .ok .hufDecompress := by decide
theorem test_decode_reservedOp0 : decode (.command 0x00000000#32) = .ok .reservedOp0 := by decide
theorem test_decode_reservedOp9 : decode (.command 0x00000009#32) = .ok .reservedOp9 := by decide
theorem test_decode_reservedOpA : decode (.command 0x0000000A#32) = .ok .reservedOpA := by decide
theorem test_decode_reservedOpB : decode (.command 0x0000000B#32) = .ok .reservedOpB := by decide
theorem test_decode_reservedOpC : decode (.command 0x0000000C#32) = .ok .reservedOpC := by decide
theorem test_decode_reservedOpD : decode (.command 0x0000000D#32) = .ok .reservedOpD := by decide
theorem test_decode_reservedOpE : decode (.command 0x0000000E#32) = .ok .reservedOpE := by decide
theorem test_decode_reservedOpF : decode (.command 0x0000000F#32) = .ok .reservedOpF := by decide
theorem test_decode_reservedHigh : decode (.command 0x80000001#32) = .ok (.reservedHigh 0x80000001#32) := by decide
theorem test_decode_lz77Literal : decode (.lz77 [0x00#8, 0x44#8]) = .ok (.lz77Literal 0x44#8) := by decide
theorem test_decode_lz77Match :
    decode (.lz77 [0x01#8, 0x12#8, 0x34#8, 0x56#8, 0x78#8]) = .ok (.lz77Match 0x1234#16 0x5678#16) := by decide
theorem test_decode_lz77ReservedFlag : decode (.lz77 [0x02#8]) = .ok (.lz77ReservedFlag 0x02#8) := by decide
theorem test_decode_rlePair : decode (.rle [0xFF#8, 0x7A#8]) = .ok (.rlePair 0xFF#8 0x7A#8) := by decide
theorem test_decode_huffmanSingle :
    decode (.hufHeader [0x01#8, 0x00#8, 0x61#8, 0x12#8, 0x34#8]) = .ok (.huffmanSingle 0x00#8 0x61#8 0x1234#16) := by
  decide
theorem test_decode_huffmanTreeFlag : decode (.hufHeader [0x00#8]) = .ok .huffmanTreeFlag := by decide
theorem test_decode_huffmanReservedFlag : decode (.hufHeader [0xFF#8]) = .ok (.huffmanReservedFlag 0xFF#8) := by decide
theorem test_decode_huffmanTreeLeaf :
    decode (.hufNode [true, false, false, false, false, false, false, false, false,
      false, true, true, false, false, false, false, true]) = .ok (.huffmanTreeLeaf 0x0061#16) := by decide
theorem test_decode_huffmanTreeInternal : decode (.hufNode [false]) = .ok .huffmanTreeInternal := by decide
theorem test_decode_huffmanTrailing : decode (.hufTrailing [0x03#8]) = .ok (.huffmanTrailing 0x03#8) := by decide

theorem test_decode_truncated : decode (.lz77 [0x01#8, 0x00#8]) = .error .truncated := by decide
theorem test_decode_overlong : decode (.rle [0x01#8, 0x61#8, 0x62#8]) = .error .overlong := by decide

theorem test_table_command : decodeTableWord 32 0x7 = some .hufCompress := by decide
theorem test_table_literal : decodeTableWord 16 0x0041 = some (.lz77Literal 0x41#8) := by decide
theorem test_table_match : decodeTableWord 40 0x0100060103 = some (.lz77Match 0x0006#16 0x0103#16) := by decide
theorem test_table_leaf : decodeTableWord 24 0x10061 = some (.huffmanTreeLeaf 0x0061#16) := by decide

/-! ## Single steps against 95_test_vectors.md -/

/-- The row's instruction is the first after reset (V-CMD-1, V-CMD-4; R83, R88 for the elements). -/
theorem test_first_step_reserved : statusOf (step (State.reset.withFetchWord 32 0x80000001)) = some 0x52#32 := by decide
theorem test_first_step_tree_flag : goesOn (step (State.reset.withFetchWord 8 0)) = true := by decide
theorem test_first_step_leaf :
    statusOf (step (State.reset.withFetchWord 24 0x10161)) = some 0x332#32 := by decide

/-- V-SEL-2 to V-SEL-4: N = 100 is RLE, N = 101 and 1024 are LZ77 with (512, 16). -/
theorem test_selCompress_rle :
    issueOf (exec .selCompress { ready 4096 64 with srcLen := 100#32 }) = some (0x101#32, 0x0#32) := by decide
theorem test_selCompress_tier1 :
    issueOf (exec .selCompress { ready 4096 64 with srcLen := 1024#32 }) = some (0x201#32, 0x00100200#32) := by decide

/-- V-SEL-10, V-CMD-8. -/
theorem test_selDecompress_tag1 :
    issueOf (exec .selDecompress { idleWith [0x0A#8, 0x61#8] with decTag := 1#8 }) = some (0x101#32, 0x0#32) := by decide
theorem test_selDecompress_unknown :
    statusOf (exec .selDecompress { ready 64 64 with decTag := 9#8, srcLen := 65#32 }) = some 0x12#32 := by decide

/-- V-CMD-7; R100 for the others. -/
theorem test_rleCompress_too_long :
    statusOf (exec .rleCompress { ready 64 64 with srcLen := 65#32 }) = some 0x122#32 := by decide
theorem test_rleDecompress_issue :
    issueOf (exec .rleDecompress { ready 64 64 with srcLen := 64#32 }) = some (0x101#32, 0x0#32) := by decide

/-- V-CMD-5, V-CMD-6. -/
theorem test_lz77Compress_no_lookahead : statusOf (exec .lz77Compress (ready 64 64)) = some 0x52#32 := by decide
theorem test_lz77Compress_issue :
    issueOf (exec .lz77Compress { idleWith [0x41#8] with lzCfg := 0x00010000#32 }) = some (0x201#32, 0x00010000#32) := by
  decide
theorem test_lz77Decompress_issue : statusOf (exec .lz77Decompress (ready 64 64)) = some 0x201#32 := by decide

/-- R100, R107. -/
theorem test_hufCompress_issue : statusOf (exec .hufCompress (ready 64 64)) = some 0x301#32 := by decide
theorem test_hufDecompress_issue : statusOf (exec .hufDecompress (ready 64 64)) = some 0x301#32 := by decide

/-- V-CMD-2, V-CMD-3, V-CMD-9. -/
theorem test_reservedOpA_status : issueOf (exec .reservedOpA { ready 64 64 with decTag := 9#8 }) = some (0x52#32, 0x0#32) := by
  decide
theorem test_reservedHigh_status :
    issueOf (exec (.reservedHigh 0x15#32) { ready 64 64 with lzCfg := 0x00010000#32 }) = some (0x52#32, 0x0#32) := by decide

/-- V-SEL-10, R213: the pair `0A 61`; a count of 0 emits nothing. -/
theorem test_rlePair_step :
    outOf (step (busyWith .rle .rleDecode [0x0A#8, 0x61#8])) = some (List.replicate 10 0x61#8) := by decide
theorem test_rlePair_zero : outOf (step (busyWith .rle .rleDecode [0x00#8, 0x61#8])) = some [] := by decide

/-- V-RLE: one turn of the compressor's loop on `"aab"`. -/
theorem test_rleCompress_turn :
    outOf (step (busyWith .rle .rleEncode [0x61#8, 0x61#8, 0x62#8])) = some [0x02#8, 0x61#8] := by decide

/-- V-LZ-D1's first token. -/
theorem test_lz77Literal_step :
    outOf (step (busyWith .lz77 .lzDecode [0x00#8, 0x41#8])) = some [0x41#8] := by decide

/-- V-LZ-D1: `off = 2 < len = 5` after "AB"; V-LZ-D3: `start < 0`. -/
theorem test_lz77Match_overlap :
    outOf (exec (.lz77Match 2#16 5#16) (emitted [0x41#8, 0x42#8] (busyWith .lz77 .lzDecode [])))
      = some [0x41#8, 0x42#8, 0x41#8, 0x42#8, 0x41#8, 0x42#8, 0x41#8] := by decide
theorem test_lz77Match_negative_start :
    statusOf (exec (.lz77Match 2#16 1#16) (emitted [0x41#8] (busyWith .lz77 .lzDecode []))) = some 0x232#32 := by decide

/-- V-LZ-D5, V-LZ-D6. -/
theorem test_lz77ReservedFlag_step :
    statusOf (step (busyWith .lz77 .lzDecode [0x02#8, 0x41#8])) = some 0x232#32 := by decide
theorem test_lz77_truncated_match :
    statusOf (step (busyWith .lz77 .lzDecode [0x01#8, 0x00#8, 0x01#8, 0x00#8])) = some 0x222#32 := by decide

/-- S3, V-LZ-1: the window "ABCABC" and the lookahead "ABCD" give offset 6, length 3. -/
theorem test_findMatch :
    findMatch [0x41#8, 0x42#8, 0x43#8, 0x41#8, 0x42#8, 0x43#8] [0x41#8, 0x42#8, 0x43#8, 0x44#8]
      = { offset := 6, length := 3 } := by decide

/-- V-LZ-3 (95_test_vectors.md): the third token of "ABABABAB" with W = 2 is match(2,2), which consumes two symbols. -/
theorem test_lz77Compress_match_turn :
    (match step { busyWith .lz77 .lzEncode [0x41#8, 0x42#8, 0x41#8, 0x42#8, 0x41#8, 0x42#8, 0x41#8, 0x42#8] with
        inPos := 2
        lz :=
          { win := { cap := 2, head := 0, len := 2, slots := [0x41#8, 0x42#8] }
            lookahead := 16
            chunk := [0x41#8, 0x42#8, 0x41#8, 0x42#8, 0x41#8, 0x42#8, 0x41#8, 0x42#8]
            pos := 2 } } with
      | .next t => some (t.outBytes t.outPos, t.inPos, t.lz.pos, t.lz.win.view)
      | _ => none) = some ([0x01#8, 0x00#8, 0x02#8, 0x00#8, 0x02#8], 4, 4, [0x41#8, 0x42#8]) := by decide

/-- S5: `01 00 61 00 04`; a nonzero high byte is corrupt (R181). -/
theorem test_huffmanSingle_step :
    outOf (step (busyWith .huffman .hufHeader [0x01#8, 0x00#8, 0x61#8, 0x00#8, 0x04#8]))
      = some (List.replicate 4 0x61#8) := by decide
theorem test_huffmanSingle_high :
    statusOf (step (busyWith .huffman .hufHeader [0x01#8, 0x01#8, 0x61#8, 0x00#8, 0x04#8])) = some 0x332#32 := by decide

/-- R180: after the flag "false" the tree's first bit is bit 7 of byte 1. -/
theorem test_huffmanTreeFlag_step :
    (match step (busyWith .huffman .hufHeader [0x00#8, 0x40#8]) with
      | .next t => some (t.phase, t.reader.rbyte, t.reader.rbit)
      | _ => none) = some (.hufParse, 1, 0) := by decide

/-- R86. -/
theorem test_huffmanReservedFlag_step :
    statusOf (step (busyWith .huffman .hufHeader [0x02#8])) = some 0x332#32 := by decide

/-- V-SEL-12's tree `40 18 A0 0C 20` without its first bit starts with the leaf 'b' (R88, R182). -/
theorem test_huffmanTreeLeaf_step :
    (match step { busyWith .huffman .hufParse [0x00#8, 0x40#8, 0x18#8, 0xA0#8] with
        reader := { rbyte := 1, rbit := 1, rcur := 0x40#8 }
        huf := { HufWork.init with frames := [.wantLeft] } } with
      | .next t => some (t.huf.arena, t.huf.frames, t.reader.rbyte, t.reader.rbit)
      | _ => none) = some ([.leaf 0x62#8 0 0], [.wantRight 0], 3, 2) := by decide

/-- The same tree's first bit is an internal node (R88, R182). -/
theorem test_huffmanTreeInternal_step :
    (match step (busyWith .huffman .hufParse [0x00#8, 0x40#8]) with
      | .next t => some (t.huf.frames, t.huf.nodes, t.reader.rbit)
      | _ => none) = some ([.wantLeft], 1, 1) := by decide

/-- V-SEL-12: the tree ends before byte 6, and `C0 03` is a body of three bits. -/
theorem test_huffmanTrailing_step :
    (match step { busyWith .huffman .hufExtent [0x00#8, 0x40#8, 0x18#8, 0xA0#8, 0x0C#8, 0x20#8, 0xC0#8, 0x03#8] with
        reader := { rbyte := 6, rbit := 0, rcur := 0x20#8 } } with
      | .next t => some (t.phase, t.huf.bitsLeft)
      | _ => none) = some (.hufWalk, 3) := by decide
theorem test_huffmanTrailing_nine :
    statusOf (exec (.huffmanTrailing 9#8) (busyWith .huffman .hufExtent [0x00#8, 0x40#8, 0x09#8])) = some 0x332#32 := by
  decide

/-- V-CMD-12, V-CMD-11, V-CMD-14. -/
theorem test_decCodec_read :
    readOf (step (hostNext (.regRead .w32 0x18) { ready 64 64 with decTag := 3#8 })) = some 0x3#32 := by decide
theorem test_cmd_read : readOf (step (hostNext (.regRead .w32 0x00) (ready 64 64))) = some 0x0#32 := by decide
theorem test_misaligned_read :
    step (hostNext (.regRead .w32 0x06) (ready 64 64)) = .refused .regMisaligned := rfl

/-! ## Witnesses: states and operands that meet a statement's hypotheses, one per clause at its boundary -/

theorem witness_ResetAbandonsRunningCommand :
    (({ busyWith .rle .rleDecode [] with inputs := [.reset] } : State).status.busy = true
        ∧ ({ busyWith .rle .rleDecode [] with inputs := [.reset] } : State).inputs = .reset :: [])
      ∧ ({ ready 64 64 with inputs := [.reset, .wait] } : State).inputs = .reset :: [.wait] := ⟨⟨rfl, rfl⟩, rfl⟩

theorem witness_RegisterReadHasNoSideEffect :
    (hostNext (.regRead .w32 0x1C) (ready 64 64)).inputs = .host (.regRead .w32 Reg.reserved.offset) :: []
      ∧ (({ complete .success (ready 64 64) with inputs := [.wait] } : State).inputs = .wait :: []
        ∧ ({ complete .success (ready 64 64) with inputs := [.wait] } : State).status.done = true)
      ∧ (({ busyWith .rle .rleDecode [] with inputs := [.wait] } : State).inputs = .wait :: []
        ∧ ({ busyWith .rle .rleDecode [] with inputs := [.wait] } : State).status.done = false)
      ∧ ({ ready 64 64 with inputs := [.fetch] } : State).inputs = .fetch :: [] :=
  ⟨rfl, ⟨rfl, rfl⟩, ⟨rfl, rfl⟩, rfl⟩

theorem witness_IdleRegisterWrites :
    (ready 64 64).status.busy = false
      ∧ (hostNext (.regWrite .w32 0x18 0xFFFFFF03#32) (ready 64 64)).inputs
        = .host (.regWrite .w32 Reg.decCodec.offset 0xFFFFFF03#32) :: []
      ∧ Reg.decCodec ≠ Reg.cmd := ⟨rfl, rfl, by decide⟩

/-- The register invariant of a busy state. -/
theorem registerInv_busyWith (ph : Phase) (h : ph ≠ .idle) (bs : List Byte) (hl : (BitVec.ofNat 32 bs.length).toNat ≤ 64) :
    RegisterInv (busyWith .lz77 ph bs) where
  busyOrDone := by simp [busyWith]
  busyStatus _ := ⟨rfl, rfl, by simp [busyWith]⟩
  busyPhase := by simp [busyWith, h]
  busyLength _ := hl

theorem witness_BusyRegisterWritesIgnored :
    (busyWith .lz77 .lzDecode [0x00#8]).status.busy = true ∧ RegisterInv (busyWith .lz77 .lzDecode [0x00#8])
      ∧ (hostNext (.regWrite .w32 0x00 1#32) (busyWith .lz77 .lzDecode [0x00#8])).inputs
        = .host (.regWrite .w32 Reg.cmd.offset 1#32) :: []
      ∧ (hostNext (.regWrite .w32 0x08 1#32) (busyWith .lz77 .lzDecode [0x00#8])).inputs
        = .host (.regWrite .w32 Reg.srcLen.offset 1#32) :: []
      ∧ (hostNext (.regWrite .w32 0x10 1#32) (busyWith .lz77 .lzDecode [0x00#8])).inputs
        = .host (.regWrite .w32 Reg.lzCfg.offset 1#32) :: []
      ∧ (hostNext (.regWrite .w32 0x18 1#32) (busyWith .lz77 .lzDecode [0x00#8])).inputs
        = .host (.regWrite .w32 Reg.decCodec.offset 1#32) :: [] :=
  ⟨rfl, registerInv_busyWith .lzDecode (by decide) _ (by decide), rfl, rfl, rfl, rfl⟩

theorem witness_MalformedAccessesRefused :
    (Width.w8 ≠ Width.w32 ∧ (hostNext (.regRead .w8 0x04) (ready 64 64)).inputs = .host (.regRead .w8 0x04) :: [])
      ∧ (0x1D % 4 ≠ 0 ∧ (hostNext (.regWrite .w32 0x1D 0#32) (ready 64 64)).inputs
          = .host (.regWrite .w32 0x1D 0#32) :: [])
      ∧ (0x20 % 4 = 0 ∧ 0x20 ≤ 0x20 ∧ (hostNext (.regRead .w32 0x20) (ready 64 64)).inputs
          = .host (.regRead .w32 0x20) :: [])
      ∧ ((hostNext (.inWrite 64 0#8) (ready 64 64)).inputs = .host (.inWrite 64 0#8) :: []
          ∧ (ready 64 64).params.inSize ≤ 64)
      ∧ ((hostNext (.outRead 64) (ready 64 64)).inputs = .host (.outRead 64) :: []
          ∧ (ready 64 64).params.outSize ≤ 64) := by
  refine ⟨⟨by decide, rfl⟩, ⟨by decide, rfl⟩, ⟨by decide, by decide, rfl⟩, ⟨rfl, by decide⟩, ⟨rfl, by decide⟩⟩

theorem witness_IdleByteAccesses :
    (ready 64 64).status.busy = false ∧ 63 < (ready 64 64).params.inSize ∧ 63 < (ready 64 64).params.outSize
      ∧ (hostNext (.inWrite 63 7#8) (ready 64 64)).inputs = .host (.inWrite 63 7#8) :: []
      ∧ (hostNext (.outRead 63) (ready 64 64)).inputs = .host (.outRead 63) :: []
      ∧ (({ ready 64 64 with outLen := 64#32, inputs := [.fetch] } : State).inputs = .fetch :: []
        ∧ ({ ready 64 64 with outLen := 64#32, inputs := [.fetch] } : State).outLen.toNat ≤ (ready 64 64).params.outSize) :=
  ⟨rfl, by decide, by decide, rfl, rfl, rfl, by decide⟩

/-- The write at the last offset of the artifact, and an engine read of it that does not fail. -/
theorem witness_BusyHostAccessesReadAnyValue :
    (busyWith .rle .rleDecode [1#8, 2#8]).status.busy = true
      ∧ (hostNext (.inWrite 1 9#8) (busyWith .rle .rleDecode [1#8, 2#8])).inputs = .host (.inWrite 1 9#8) :: []
      ∧ 1 < (busyWith .rle .rleDecode [1#8, 2#8]).params.inSize ∧ 1 < (busyWith .rle .rleDecode [1#8, 2#8]).srcCount
      ∧ (∃ t c u, step (hostNext (.inWrite 1 9#8) (busyWith .rle .rleDecode [1#8, 2#8])) = .next t
          ∧ inByte 1 t = .done c u)
      ∧ (hostNext (.outRead 63) (busyWith .rle .rleDecode [1#8, 2#8])).inputs = .host (.outRead 63) :: []
      ∧ 63 < (busyWith .rle .rleDecode [1#8, 2#8]).params.outSize :=
  ⟨rfl, rfl, by decide, by decide, ⟨_, _, _, rfl, rfl⟩, rfl, by decide⟩

/-- An offset the host has written stays in the list over a step of a command that goes on, and reads as a free byte. -/
theorem witness_BusyHostAccessesReadAnyValue_later :
    ∃ s t u : State, ∃ c, 1 ∈ s.hazards ∧ inByte 1 s = .done c u ∧ s.status.busy = true ∧ step s = .next t
      ∧ t.status.busy = true :=
  ⟨{ busyWith .huffman .hufCount [1#8, 2#8] with hazards := [1] }, _, _, _, by decide, rfl, rfl, rfl, by decide⟩

theorem witness_ArtifactNameGivesTagAndPath :
    CodecId.rle ≠ .unset ∧ CodecId.huffman ≠ .unset
      ∧ tagOfName (artifactName ['a', '.', 'b'] .huffman) = 3#8 := by decide

theorem witness_DecodeOfEncode :
    WellFormed (.reservedHigh 0x00000010#32) ∧ WellFormed (.lz77ReservedFlag 0x02#8)
      ∧ WellFormed (.huffmanReservedFlag 0xFF#8) ∧ WellFormed (.lz77Match 0xFFFF#16 0x0000#16) := by decide

theorem witness_EncodeOfDecode : decode (.hufHeader [0xFF#8]) = .ok (.huffmanReservedFlag 0xFF#8) := by decide

theorem witness_StepRunsWrittenCommand :
    (hostNext (.regWrite .w32 0x00 0x1#32) (ready 64 64)).inputs = .host (.regWrite .w32 0x00 0x1#32) :: []
      ∧ decode (.command 0x1#32) = .ok .selCompress := ⟨rfl, by decide⟩

/-- The five places a decompressor fetches from. -/
theorem witness_StepRunsFetchedElement :
    (∃ s1, fetchRle (busyWith .rle .rleDecode [1#8, 2#8]) = .done (.rle [1#8, 2#8]) s1
        ∧ decode (.rle [1#8, 2#8]) = .ok (.rlePair 1#8 2#8))
      ∧ (∃ s1, fetchLz77 (busyWith .lz77 .lzDecode [0#8, 2#8]) = .done (.lz77 [0#8, 2#8]) s1
        ∧ decode (.lz77 [0#8, 2#8]) = .ok (.lz77Literal 2#8))
      ∧ (∃ s1, fetchHufHeader (busyWith .huffman .hufHeader [0#8]) = .done (.hufHeader [0#8]) s1
        ∧ decode (.hufHeader [0#8]) = .ok .huffmanTreeFlag)
      ∧ (∃ s1, fetchHufNode (busyWith .huffman .hufParse [0#8, 0#8]) = .done (.hufNode [false]) s1
        ∧ decode (.hufNode [false]) = .ok .huffmanTreeInternal)
      ∧ (∃ s1, fetchHufTrailing (busyWith .huffman .hufExtent [0#8, 0#8, 8#8]) = .done (.hufTrailing [8#8]) s1
        ∧ decode (.hufTrailing [8#8]) = .ok (.huffmanTrailing 8#8)) := by
  refine ⟨⟨_, rfl, by decide⟩, ⟨_, rfl, by decide⟩, ⟨_, rfl, by decide⟩, ⟨_, rfl, by decide⟩, ⟨_, rfl, by decide⟩⟩

theorem quiet_busyWith (c : CodecId) (ph : Phase) (bs : List Byte) : (busyWith c ph bs).Quiet := quiet_ready 64 64

theorem witness_FetchReadsExactlyOneElement :
    (encode (.lz77Match 1#16 2#16) = .lz77 [1#8, 0#8, 1#8, 0#8, 2#8]
        ∧ (busyWith .lz77 .lzDecode [1#8, 0#8, 1#8, 0#8, 2#8]).Quiet
        ∧ (busyWith .lz77 .lzDecode [1#8, 0#8, 1#8, 0#8, 2#8]).hazards = []
        ∧ 0 + 5 ≤ (busyWith .lz77 .lzDecode [1#8, 0#8, 1#8, 0#8, 2#8]).srcCount
        ∧ ∀ k, k < 5 → (busyWith .lz77 .lzDecode [1#8, 0#8, 1#8, 0#8, 2#8]).inByteAt (0 + k)
            = [1#8, 0#8, 1#8, 0#8, 2#8].getD k 0#8)
      ∧ (encode (.rlePair 3#8 4#8) = .rle [3#8, 4#8]
        ∧ 0 + 2 ≤ (busyWith .rle .rleDecode [3#8, 4#8]).srcCount
        ∧ ∀ k, k < 2 → (busyWith .rle .rleDecode [3#8, 4#8]).inByteAt (0 + k) = [3#8, 4#8].getD k 0#8)
      ∧ (encode .huffmanTreeFlag = .hufHeader [0#8]
        ∧ 0 + 1 ≤ (busyWith .huffman .hufHeader [0#8]).srcCount
        ∧ ∀ k, k < 1 → (busyWith .huffman .hufHeader [0#8]).inByteAt (0 + k) = [0#8].getD k 0#8) := by
  refine ⟨⟨by decide, quiet_busyWith _ _ _, rfl, by decide, by decide⟩, ⟨by decide, by decide, by decide⟩,
    ⟨by decide, by decide, by decide⟩⟩

/-- The last bits of the artifact, one node below the bound; a trailing byte, and an artifact that ends with its tree. -/
theorem witness_FetchReadsExactlyOneElement_huffman :
    (encode .huffmanTreeInternal = .hufNode [false]
        ∧ ({ busyWith .huffman .hufParse [0#8, 0#8] with
              reader := { rbyte := 1, rbit := 7, rcur := 0#8 }, huf := { HufWork.init with nodes := 510 } } : State).Quiet
        ∧ 510 < nodeMax
        ∧ ReaderReady { busyWith .huffman .hufParse [0#8, 0#8] with
              reader := { rbyte := 1, rbit := 7, rcur := 0#8 }, huf := { HufWork.init with nodes := 510 } }
        ∧ ({ busyWith .huffman .hufParse [0#8, 0#8] with
              reader := { rbyte := 1, rbit := 7, rcur := 0#8 }, huf := { HufWork.init with nodes := 510 } } : State).BitsAt
            15 [false])
      ∧ (busyWith .huffman .hufExtent [0#8, 1#8]).Quiet ∧ (busyWith .huffman .hufExtent [0#8, 1#8]).hazards = []
      ∧ ({ busyWith .huffman .hufExtent [0#8, 1#8] with reader := { rbyte := 1, rbit := 0, rcur := 0#8 } } : State).reader.rbyte
        < (busyWith .huffman .hufExtent [0#8, 1#8]).srcCount
      ∧ (busyWith .huffman .hufExtent [0#8, 1#8]).srcCount
        ≤ ({ busyWith .huffman .hufExtent [0#8, 1#8] with reader := { rbyte := 2, rbit := 0, rcur := 0#8 } } : State).reader.rbyte :=
  ⟨⟨rfl, quiet_ready 64 64, by decide, ⟨by decide, .inr (by decide)⟩, ⟨by decide, by decide⟩⟩,
    quiet_ready 64 64, rfl, by decide, by decide⟩

/-- An idle machine whose IN is large enough for every tier, with a given SRC_LEN. -/
def sized (n : Nat) : State := { ready 2000000 64 with srcLen := BitVec.ofNat 32 n }

/-- The first and the last N of each tier. -/
theorem witness_SelCompressIssues :
    (∀ n ∈ [0, 100, 101, 1024, 1025, 10240, 10241, 1048576, 1048577, 2000000],
        (sized n).status.busy = false ∧ (sized n).srcLen.toNat ≤ (sized n).params.inSize)
      ∧ (sized 100).srcLen.toNat ≤ (sized 100).params.rleMax
      ∧ ((sized 101).params.rleMax < (sized 101).srcLen.toNat ∧ (sized 1024).srcLen.toNat ≤ (sized 1024).params.t1Max)
      ∧ ((sized 1025).params.t1Max < (sized 1025).srcLen.toNat ∧ (sized 10240).srcLen.toNat ≤ (sized 10240).params.t2Max)
      ∧ ((sized 10241).params.t2Max < (sized 10241).srcLen.toNat
          ∧ (sized 1048576).srcLen.toNat ≤ (sized 1048576).params.t3Max)
      ∧ (sized 1048577).params.t3Max < (sized 1048577).srcLen.toNat := by decide

theorem witness_SelDecompressIssues :
    ∀ tag ∈ [1#8, 2#8, 3#8],
      ({ ready 64 64 with decTag := tag, srcLen := 64#32 } : State).status.busy = false
        ∧ ({ ready 64 64 with decTag := tag, srcLen := 64#32 } : State).srcLen.toNat ≤ 64
        ∧ (tag = 1#8 ∨ tag = 2#8 ∨ tag = 3#8) := by decide

theorem witness_UnknownTagIsInvalidFormat :
    ∀ tag ∈ [0#8, 4#8, 255#8], ({ ready 64 64 with decTag := tag } : State).status.busy = false
      ∧ tag ≠ 1#8 ∧ tag ≠ 2#8 ∧ tag ≠ 3#8 := by decide

theorem witness_DirectCommandsIssue :
    ({ sized 64 with lzCfg := 0x00010000#32 } : State).status.busy = false
      ∧ ({ sized 64 with lzCfg := 0x00010000#32 } : State).srcLen.toNat ≤ 2000000
      ∧ lookaheadField ({ sized 64 with lzCfg := 0x00010000#32 } : State).lzCfg ≠ 0#16 := by decide

theorem witness_IllegalCommandsRejected :
    (ready 64 64).status.busy = false
      ∧ lookaheadField ({ ready 64 64 with lzCfg := 0x0000FFFF#32 } : State).lzCfg = 0#16 := by decide

/-- N one above IN_SIZE, in the RLE bracket and above it, for a known tag and a nonzero LOOKAHEAD. -/
theorem witness_SourceTooLongIsIOFailure :
    ({ ready 64 64 with srcLen := 65#32 } : State).params.inSize < (65#32).toNat
      ∧ (65#32).toNat ≤ (ready 64 64).params.rleMax
      ∧ (ready 64 64).params.inSize < (101#32).toNat ∧ (ready 64 64).params.rleMax < (101#32).toNat
      ∧ codecOfTag 3#8 = some .huffman ∧ lookaheadField 0x00010000#32 ≠ 0#16 := by decide

theorem witness_IssueForgetsInternalState :
    encode .hufCompress = .command 0x7#32 ∧ (ready 64 64).status.busy = false
      ∧ SameVisible (ready 64 64)
          { ready 64 64 with inPos := 5, phase := .hufWalk, writer := { wacc := 1#8, wcount := 3 }, hazards := [1] } :=
  ⟨rfl, rfl, Latch.reset, 5, 0, .hufWalk, LzWork.init, HufWork.init, { wacc := 1#8, wcount := 3 }, BitReader.init, [1],
    rfl⟩

/-- A state whose next read draw and next write draw are the given one. -/
def drawing (d : Bool) : State :=
  { busyWith .rle .rleDecode [1#8] with env := { reads := [d], writes := [d], quiet := true, count := 0 } }

theorem witness_AccessesTestInOrder :
    (drawing false).srcCount ≤ 1 ∧ (0 < (drawing true).srcCount ∧ (drawRead 0 (drawing true)).1 = true)
      ∧ (0 < (drawing false).srcCount ∧ (drawRead 0 (drawing false)).1 = false ∧ 0 ∉ (drawing false).hazards)
      ∧ (drawing false).env.reads = false :: [] ∧ (drawing false).env.writes = false :: []
      ∧ (drawing false).outPos ≤ (drawing false).params.outSize
      ∧ ({ drawing false with outPos := 64 } : State).outPos = 64
      ∧ ((drawing true).outPos ≠ (drawing true).params.outSize ∧ (drawWrite 0 (drawing true)).1 = true)
      ∧ ((drawing false).outPos ≠ (drawing false).params.outSize ∧ (drawWrite 0 (drawing false)).1 = false) := by
  decide

theorem witness_CompletionWritesRegisters :
    ErrCode.ioFailure ≠ .success ∧ (busyWith .rle .rleDecode []).status.busy = true
      ∧ (ready 64 64).status.busy = false := by decide

/-- The last pair that OUT takes, and a pair of count 0 with OUT full. -/
theorem witness_RlePairRepeatsSymbol :
    (busyWith .rle .rleDecode []).Quiet ∧ (busyWith .rle .rleDecode []).outPos + (64#8).toNat ≤ 64
      ∧ ({ busyWith .rle .rleDecode [] with outPos := 64 } : State).outPos + (0#8).toNat ≤ 64 :=
  ⟨quiet_busyWith _ _ _, by decide, by decide⟩

theorem quiet_idleWith (bs : List Byte) : (idleWith bs).Quiet := quiet_ready 64 64

theorem witness_RleCompressRunWritesRunPairs :
    (idleWith [0x61#8, 0x61#8, 0x62#8]).status.busy = false ∧ (idleWith [0x61#8, 0x61#8, 0x62#8]).Quiet
      ∧ (idleWith [0x61#8, 0x61#8, 0x62#8]).inputs = [] ∧ (idleWith [0x61#8, 0x61#8, 0x62#8]).srcLen.toNat ≤ 64
      ∧ Reference.rleEncode ((idleWith [0x61#8, 0x61#8, 0x62#8]).inBytes 3) = [2#8, 0x61#8, 1#8, 0x62#8] :=
  ⟨rfl, quiet_idleWith _, rfl, by decide, by decide⟩

/-- The RLE bracket of SEL_COMPRESS, and an artifact that does not fit OUT. -/
theorem witness_RleCompressRunWritesRunPairs_others :
    (idleWith [0x61#8]).srcLen.toNat ≤ (idleWith [0x61#8]).params.rleMax
      ∧ (load [0x61#8] (ready 64 1)).status.busy = false ∧ (load [0x61#8] (ready 64 1)).Quiet
      ∧ (load [0x61#8] (ready 64 1)).params.outSize
        < (Reference.rleEncode ((load [0x61#8] (ready 64 1)).inBytes 1)).length :=
  ⟨by decide, rfl, quiet_ready 64 1, by decide⟩

theorem wf_ready (a b : Nat) (ha : 1 ≤ a ∧ a < 2 ^ 32) (hb : 1 ≤ b ∧ b < 2 ^ 32) : (ready a b).params.wf :=
  ⟨ha.1, ha.2, hb.1, hb.2, by simp [ready, Params.defaults]⟩

/-- The state a command on an input is issued to, and the one its run ends in after `n` engine steps. -/
def issued (i : Instr) (s : State) : State := nextOf (exec i s) s
def ended (n : Nat) (i : Instr) (s : State) : State := nextOf (runSteps n (issued i s)) s

/-- RLE_COMPRESS of one byte, and a machine that holds its artifact. -/
theorem witness_RleRoundTrip :
    (idleWith [0x61#8]).params.wf ∧ (idleWith [0x61#8]).status.busy = false ∧ (idleWith [0x61#8]).Quiet
      ∧ (idleWith [0x61#8]).inputs = [] ∧ (idleWith [0x61#8]).srcLen.toNat ≤ 64
      ∧ (Reference.rleEncode ((idleWith [0x61#8]).inBytes 1)).length ≤ 64
      ∧ exec .rleCompress (idleWith [0x61#8]) = .next (issued .rleCompress (idleWith [0x61#8]))
      ∧ runSteps 2 (issued .rleCompress (idleWith [0x61#8])) = .next (ended 2 .rleCompress (idleWith [0x61#8]))
      ∧ CarriesArtifact (ended 2 .rleCompress (idleWith [0x61#8])) (idleWith [1#8, 0x61#8]) :=
  ⟨wf_ready 64 64 (by decide) (by decide), rfl, quiet_idleWith _, rfl, by decide, by decide,
    eq_nextOf _ (by decide), eq_nextOf _ (by decide), rfl, quiet_idleWith _, rfl, by decide, by decide, by decide⟩

theorem witness_RleDecompressRunExpandsPairs :
    (idleWith [2#8, 0x61#8]).status.busy = false ∧ (idleWith [2#8, 0x61#8]).Quiet ∧ (idleWith [2#8, 0x61#8]).inputs = []
      ∧ (idleWith [2#8, 0x61#8]).srcLen.toNat ≤ 64
      ∧ Reference.rleDecode ((idleWith [2#8, 0x61#8]).inBytes 2) = { out := [0x61#8, 0x61#8], err := .success }
      ∧ Reference.rleDecode ((idleWith [2#8]).inBytes 1) = { out := [], err := .ioFailure } :=
  ⟨rfl, quiet_idleWith _, rfl, by decide, by decide, by decide⟩

/-- W = 0, a ring below capacity, and a full ring whose head has moved. -/
theorem witness_RingAppendKeepsLastSymbols :
    (Ring.empty 0).Wf ∧ (Ring.empty 3).Wf
      ∧ ({ cap := 2, head := 1, len := 2, slots := [0x43#8, 0x42#8] } : Ring).Wf :=
  ⟨⟨by decide, rfl, by decide, by decide⟩, ⟨by decide, rfl, by decide, by decide⟩,
    ⟨by decide, rfl, by decide, by decide⟩⟩

theorem witness_FindMatchIsLongestAndOldest : 0 < (findMatch [0x41#8] [0x41#8]).length := by decide

/-- A common prefix of two symbols from position 0, before a match of three at position 3; and no match at all. -/
theorem witness_FindMatchIsLongestAndOldest_symbols :
    (findMatch [1#8, 2#8, 9#8, 1#8, 2#8, 3#8] [1#8, 2#8, 3#8]).length = 3
      ∧ 0 + 2 ≤ 6 ∧ (∀ j, j < 2 → [1#8, 2#8, 9#8, 1#8, 2#8, 3#8][0 + j]? = [1#8, 2#8, 3#8][j]?)
      ∧ 0 < 6 - (findMatch [1#8, 2#8, 9#8, 1#8, 2#8, 3#8] [1#8, 2#8, 3#8]).offset
      ∧ (findMatch [1#8] [2#8]).length = 0 := by decide

theorem witness_Lz77LiteralEmitsSymbol :
    (busyWith .lz77 .lzDecode []).Quiet ∧ ({ busyWith .lz77 .lzDecode [] with outPos := 63 } : State).outPos < 64 :=
  ⟨quiet_busyWith _ _ _, by decide⟩

/-- An offset back to the first byte of OUT, and a copy to its last. -/
theorem witness_Lz77MatchCopiesPeriodically :
    (emitted [0x41#8, 0x42#8] (busyWith .lz77 .lzDecode [])).Quiet ∧ 1 ≤ (2#16).toNat
      ∧ (2#16).toNat ≤ (emitted [0x41#8, 0x42#8] (busyWith .lz77 .lzDecode [])).outPos
      ∧ (emitted [0x41#8, 0x42#8] (busyWith .lz77 .lzDecode [])).outPos + (62#16).toNat ≤ 64 :=
  ⟨quiet_ready 64 64, by decide, by decide, by decide⟩

theorem witness_Lz77CorruptTokensFail :
    (emitted [0x41#8] (busyWith .lz77 .lzDecode [])).status.busy = true ∧ (0#16).toNat = 0
      ∧ (emitted [0x41#8] (busyWith .lz77 .lzDecode [])).outPos < (2#16).toNat := by decide

theorem witness_Lz77CompressRunWritesTokens :
    ({ idleWith [0x41#8, 0x41#8] with lzCfg := 0x00040004#32 } : State).status.busy = false
      ∧ ({ idleWith [0x41#8, 0x41#8] with lzCfg := 0x00040004#32 } : State).Quiet
      ∧ ({ idleWith [0x41#8, 0x41#8] with lzCfg := 0x00040004#32 } : State).inputs = []
      ∧ ({ idleWith [0x41#8, 0x41#8] with lzCfg := 0x00040004#32 } : State).srcLen.toNat ≤ 64
      ∧ lookaheadField 0x00040004#32 ≠ 0#16
      ∧ Reference.lzEncode (windowField 0x00040004#32).toNat (lookaheadField 0x00040004#32).toNat
          ((idleWith [0x41#8, 0x41#8]).inBytes 2) = [0#8, 0x41#8, 0#8, 0x41#8] :=
  ⟨rfl, quiet_ready 64 64, rfl, by decide, by decide, by decide⟩

/-- Matches of length 2 and 1; SEL_COMPRESS above RLE_MAX; an artifact that does not fit OUT. -/
theorem witness_Lz77CompressRunWritesTokens_others :
    2 ≤ ({ offset := 2, length := 2 } : Match).length ∧ ({ offset := 1, length := 1 } : Match).length < 2
      ∧ ({ ready 128 64 with srcLen := 101#32 } : State).params.wf
      ∧ ({ ready 128 64 with srcLen := 101#32 } : State).params.rleMax < (101#32).toNat
      ∧ (101#32).toNat ≤ ({ ready 128 64 with srcLen := 101#32 } : State).params.inSize
      ∧ (load [0x61#8] (ready 64 1)).params.outSize
        < (Reference.lzEncode 4 4 ((load [0x61#8] (ready 64 1)).inBytes 1)).length :=
  ⟨by decide, by decide, wf_ready 128 64 (by decide) (by decide), by decide, by decide, by decide⟩

theorem witness_Lz77DecompressRunDecodesTokens :
    (idleWith [0#8, 0x41#8, 1#8, 0#8, 1#8, 0#8, 2#8]).status.busy = false
      ∧ (idleWith [0#8, 0x41#8, 1#8, 0#8, 1#8, 0#8, 2#8]).Quiet
      ∧ (idleWith [0#8, 0x41#8, 1#8, 0#8, 1#8, 0#8, 2#8]).inputs = []
      ∧ (idleWith [0#8, 0x41#8, 1#8, 0#8, 1#8, 0#8, 2#8]).srcLen.toNat ≤ 64
      ∧ Reference.lzDecode ((idleWith [0#8, 0x41#8, 1#8, 0#8, 1#8, 0#8, 2#8]).inBytes 7)
        = { out := [0x41#8, 0x41#8, 0x41#8], err := .success }
      ∧ Reference.lzDecode ((idleWith [0#8, 0x41#8, 1#8, 0#8, 2#8, 0#8, 1#8]).inBytes 7)
        = { out := [0x41#8], err := .corruptStream }
      ∧ Reference.lzDecode ((idleWith [0#8, 0x41#8, 1#8, 0#8]).inBytes 4) = { out := [0x41#8], err := .ioFailure } :=
  ⟨rfl, quiet_idleWith _, rfl, by decide, rfl, rfl, rfl⟩

/-- The smallest and the largest legal pair. -/
theorem witness_Lz77RoundTrip : (0 < 2 ^ 16 ∧ 1 ≤ 1 ∧ 1 < 2 ^ 16) ∧ (65535 < 2 ^ 16 ∧ 1 ≤ 65535) := by decide

/-- LZ77_COMPRESS of one byte with W = 0 and L = 1, and a machine that holds its artifact. -/
theorem witness_Lz77RoundTrip_run :
    lookaheadField ({ idleWith [0x61#8] with lzCfg := 0x00010000#32 } : State).lzCfg ≠ 0#16
      ∧ Reference.lzEncode (windowField 0x00010000#32).toNat (lookaheadField 0x00010000#32).toNat
          ((idleWith [0x61#8]).inBytes 1) = [0#8, 0x61#8]
      ∧ exec .lz77Compress { idleWith [0x61#8] with lzCfg := 0x00010000#32 }
        = .next (issued .lz77Compress { idleWith [0x61#8] with lzCfg := 0x00010000#32 })
      ∧ runSteps 4 (issued .lz77Compress { idleWith [0x61#8] with lzCfg := 0x00010000#32 })
        = .next (ended 4 .lz77Compress { idleWith [0x61#8] with lzCfg := 0x00010000#32 })
      ∧ CarriesArtifact (ended 4 .lz77Compress { idleWith [0x61#8] with lzCfg := 0x00010000#32 })
          (idleWith [0#8, 0x61#8]) :=
  ⟨by decide, by decide, eq_nextOf _ (by decide), eq_nextOf _ (by decide), rfl, quiet_idleWith _, rfl, by decide,
    by decide, by decide⟩

/-- SEL_COMPRESS of one byte, and a second machine that holds its artifact. -/
theorem witness_SelectorRoundTrip :
    (idleWith [0x61#8]).params.wf ∧ (idleWith [0x61#8]).Quiet ∧ (idleWith [0x61#8]).inputs = []
      ∧ (idleWith [0x61#8]).srcLen.toNat ≤ 64
      ∧ Reference.selArtifact (ready 64 64).params ((idleWith [0x61#8]).inBytes 1) = [1#8, 0x61#8]
      ∧ (∃ t u, exec .selCompress (idleWith [0x61#8]) = .next t ∧ runSteps 2 t = .next u
          ∧ ({ idleWith [1#8, 0x61#8] with decTag := CodecId.rle.code.setWidth 8 } : State).srcLen = u.outLen
          ∧ ({ idleWith [1#8, 0x61#8] with decTag := 1#8 } : State).inBytes u.outLen.toNat
            = u.outBytes u.outLen.toNat) :=
  ⟨wf_ready 64 64 (by decide) (by decide), quiet_idleWith _, rfl, by decide, by decide,
    ⟨_, _, rfl, rfl, rfl, by decide⟩⟩

theorem witness_BitWriterPacksMsbFirst :
    (busyWith .huffman .hufBody []).Quiet ∧ (busyWith .huffman .hufBody []).writer = BitWriter.init
      ∧ [true] ≠ [] ∧ ({ busyWith .huffman .hufBody [] with outPos := 63 } : State).outPos + ([true].length + 7) / 8 ≤ 64 :=
  ⟨quiet_busyWith _ _ _, rfl, by decide, by decide⟩

/-- A Huffman decompressor that stands at the start of a byte. -/
def readingAt (k : Nat) (ph : Phase) (bs : List Byte) : State :=
  { busyWith .huffman ph bs with reader := { rbyte := k, rbit := 0, rcur := 0#8 } }

theorem witness_BitReaderReadsStreamOrder :
    (readingAt 1 .hufParse [0#8, 0x40#8]).Quiet ∧ (readingAt 1 .hufParse [0#8, 0x40#8]).hazards = []
      ∧ ReaderReady (readingAt 1 .hufParse [0#8, 0x40#8])
      ∧ (readingAt 1 .hufParse [0#8, 0x40#8]).BitsAt (readingAt 1 .hufParse [0#8, 0x40#8]).bitCursor
          [false, true, false, false, false, false, false, false] :=
  ⟨quiet_busyWith _ _ _, rfl, ⟨by decide, .inl rfl⟩, ⟨by decide, by decide⟩⟩

theorem witness_BuildStepMergesTwoLeast_extract :
    [1, 0] ≠ [] ∧ ∀ i ∈ [1, 0], i < [Node.leaf 0x61#8 2 0, Node.leaf 0x62#8 1 1].length := by decide

theorem memory_read_same (c : Byte) (n a : Nat) (k : Nat) (h : a ≤ k) (hk : k < a + n) :
    Memory.read ((List.range' a n).map fun i => (i, c)) k = some c := by
  induction n generalizing a with
  | zero => omega
  | succ n ih =>
    simp only [List.range'_succ, List.map_cons, Memory.read]
    split
    · rfl
    · exact ih (a + 1) (by omega) (by omega)

/-- 65536 bytes of one symbol. -/
def manySame : State :=
  { ready 65536 64 with inMem := (List.range' 0 65536).map fun i => (i, 0x61#8), srcLen := 65536#32 }

/-- One byte, and one byte more than the header can count. -/
theorem witness_HufCompressRunWritesArtifact :
    ((idleWith [0x61#8]).status.busy = false ∧ (idleWith [0x61#8]).Quiet ∧ (idleWith [0x61#8]).inputs = []
        ∧ (idleWith [0x61#8]).srcLen.toNat = 1 ∧ (∀ k, k < 1 → (idleWith [0x61#8]).inByteAt k = 0x61#8)
        ∧ 5 ≤ (idleWith [0x61#8]).params.outSize)
      ∧ (manySame.status.busy = false ∧ manySame.Quiet ∧ manySame.inputs = []
        ∧ manySame.srcLen.toNat ≤ manySame.params.inSize ∧ 65535 < manySame.srcLen.toNat
        ∧ ∀ k, k < manySame.srcLen.toNat → manySame.inByteAt k = 0x61#8) := by
  refine ⟨⟨rfl, quiet_idleWith _, rfl, rfl, by decide, by decide⟩, rfl, quiet_ready 65536 64, rfl, by decide, by decide, ?_⟩
  intro k hk
  have hk' : k < 0 + 65536 := by simpa [manySame] using hk
  have h := memory_read_same 0x61#8 65536 0 k (Nat.zero_le k) hk'
  unfold State.inByteAt
  rw [show manySame.inMem = (List.range' 0 65536).map fun i => (i, 0x61#8) from rfl, h]
  rfl

/-- The empty input, and two distinct symbols; artifacts that do not fit four bytes of OUT. -/
theorem witness_HufCompressRunWritesArtifact_others :
    ((idleWith []).status.busy = false ∧ (idleWith []).Quiet ∧ (idleWith []).srcLen.toNat = 0)
      ∧ (idleWith [0x62#8, 0x61#8]).Quiet ∧ 2 ≤ (Reference.symbols ((idleWith [0x62#8, 0x61#8]).inBytes 2)).length
      ∧ (Reference.hufEncode ((idleWith [0x62#8, 0x61#8]).inBytes 2)).length ≤ 64
      ∧ 4 < (Reference.hufEncode ((load [0x62#8, 0x61#8] (ready 64 4)).inBytes 2)).length
      ∧ 4 < (Reference.singleHeader 0x61#8 1).length := by
  refine ⟨⟨rfl, quiet_idleWith _, rfl⟩, quiet_idleWith _, ?_, ?_, ?_, ?_⟩ <;> decide +kernel

/-- V-HUF-2 (95_test_vectors.md): "aab" gives `00 40 18 A0 0C 20 C0 03`, and back. -/
theorem test_hufEncode_aab :
    Reference.hufEncode [0x61#8, 0x61#8, 0x62#8] = [0x00#8, 0x40#8, 0x18#8, 0xA0#8, 0x0C#8, 0x20#8, 0xC0#8, 0x03#8] := by
  decide +kernel
theorem test_hufDecode_aab :
    Reference.hufDecode [0x00#8, 0x40#8, 0x18#8, 0xA0#8, 0x0C#8, 0x20#8, 0xC0#8, 0x03#8]
      = { out := [0x61#8, 0x61#8, 0x62#8], err := .success } := by decide +kernel

/-- Success, an error, and an output that does not fit. -/
theorem witness_HufDecompressRunDecodesArtifact :
    (idleWith [1#8, 0#8, 0x61#8, 0#8, 64#8]).status.busy = false ∧ (idleWith [1#8, 0#8, 0x61#8, 0#8, 64#8]).Quiet
      ∧ (idleWith [1#8, 0#8, 0x61#8, 0#8, 64#8]).inputs = [] ∧ (idleWith [1#8, 0#8, 0x61#8, 0#8, 64#8]).srcLen.toNat ≤ 64
      ∧ Reference.hufDecode [1#8, 0#8, 0x61#8, 0#8, 64#8] = { out := List.replicate 64 0x61#8, err := .success }
      ∧ Reference.hufDecode [2#8] = { out := [], err := .corruptStream }
      ∧ 64 < (Reference.hufDecode [1#8, 0#8, 0x61#8, 0#8, 65#8]).out.length := by
  refine ⟨rfl, quiet_idleWith _, rfl, by decide, ?_, ?_, ?_⟩ <;> decide +kernel

/-- SEL_DECOMPRESS with each codec's tag. -/
theorem witness_decompress_runs_by_tag :
    ∀ tag ∈ [1#8, 2#8, 3#8], ({ idleWith [0#8] with decTag := tag } : State).decTag = tag
      ∧ ({ idleWith [0#8] with decTag := tag } : State).status.busy = false
      ∧ ({ idleWith [0#8] with decTag := tag } : State).srcLen.toNat ≤ 64 := by decide

/-- HUF_COMPRESS of one byte, and a machine that holds its artifact. -/
theorem witness_HuffmanRoundTrip :
    (idleWith [0x61#8]).params.wf ∧ (idleWith [0x61#8]).status.busy = false ∧ (idleWith [0x61#8]).Quiet
      ∧ (idleWith [0x61#8]).inputs = [] ∧ (idleWith [0x61#8]).srcLen.toNat ≤ 64
      ∧ ((Reference.symbols [0x61#8]).length = 1 → [0x61#8].length ≤ countMax)
      ∧ (Reference.hufEncode [0x61#8]).length ≤ 64
      ∧ exec .hufCompress (idleWith [0x61#8]) = .next (issued .hufCompress (idleWith [0x61#8]))
      ∧ runSteps 2 (issued .hufCompress (idleWith [0x61#8])) = .next (ended 2 .hufCompress (idleWith [0x61#8]))
      ∧ CarriesArtifact (ended 2 .hufCompress (idleWith [0x61#8])) (idleWith [1#8, 0#8, 0x61#8, 0#8, 1#8]) :=
  ⟨wf_ready 64 64 (by decide) (by decide), rfl, quiet_idleWith _, rfl, by decide, fun _ => by decide,
    by decide +kernel, eq_nextOf _ (by decide), eq_nextOf _ (by decide +kernel), rfl, quiet_idleWith _, rfl,
    by decide +kernel, by decide, by decide +kernel⟩

/-- The largest artifact and the last byte of OUT. -/
theorem witness_HuffmanSingleRepeatsSymbol :
    (busyWith .huffman .hufHeader [1#8, 0#8, 0x61#8, 0#8, 64#8]).Quiet
      ∧ (busyWith .huffman .hufHeader [1#8, 0#8, 0x61#8, 0#8, 64#8]).srcCount ≤ 5
      ∧ (busyWith .huffman .hufHeader [1#8, 0#8, 0x61#8, 0#8, 64#8]).outPos + (64#16).toNat ≤ 64 :=
  ⟨quiet_busyWith _ _ _, by decide, by decide⟩

theorem witness_HuffmanCorruptElementsFail :
    (busyWith .huffman .hufHeader [1#8, 0#8, 0x61#8, 0#8, 1#8, 0#8]).status.busy = true
      ∧ 5 < (busyWith .huffman .hufHeader [1#8, 0#8, 0x61#8, 0#8, 1#8, 0#8]).srcCount ∧ 1#8 ≠ 0#8
      ∧ 0xFF < (0x100#16).toNat ∧ (0#8).toNat = 0 ∧ 8 < (9#8).toNat
      ∧ (readingAt 1 .hufExtent [0#8, 1#8]).srcCount ≤ (readingAt 1 .hufExtent [0#8, 1#8]).reader.rbyte + 1 := by
  decide

/-- The 512th node of a tree. -/
theorem witness_HuffmanCorruptElementsFail_nodes :
    ({ busyWith .huffman .hufParse [0#8] with huf := { HufWork.init with nodes := 511 } } : State).huf.nodes = nodeMax
      ∧ ({ busyWith .huffman .hufParse [0#8] with huf := { HufWork.init with nodes := 511 } } : State).inputs = []
      ∧ ({ busyWith .huffman .hufParse [0#8] with huf := { HufWork.init with nodes := 511 } } : State).phase = .hufParse :=
  ⟨rfl, rfl, rfl⟩

/-- The smallest body, and a leaf in each of its three places. -/
theorem witness_HuffmanTreeElementsParse :
    (1 ≤ (1#8).toNat ∧ (8#8).toNat ≤ 8
        ∧ (readingAt 1 .hufExtent [0#8, 0#8, 1#8]).reader.rbyte + 2 ≤ (readingAt 1 .hufExtent [0#8, 0#8, 1#8]).srcCount)
      ∧ ({ HufWork.init with frames := [.wantLeft] } : HufWork).frames = .wantLeft :: []
      ∧ ({ HufWork.init with frames := [.wantRight 0, .wantLeft] } : HufWork).frames = .wantRight 0 :: .wantLeft :: []
      ∧ HufWork.init.frames = [] := by decide

/-! ### Huffman states with a tree -/

/-- The tree of V-HUF "aab": 'b' left, 'a' right (95_test_vectors.md V-SEL-12). -/
def treeAab : Reference.Tree := .node (.leaf 0x62#8) (.leaf 0x61#8)

/-- Its arena: the leaves first, the root last. -/
def arenaAab : List Node := [.leaf 0x61#8 2 0, .leaf 0x62#8 1 1, .internal 3 1 0 2]

theorem stands_aab : Reference.Stands arenaAab 2 treeAab :=
  ⟨3, 1, 0, 2, rfl, ⟨1, 1, rfl⟩, ⟨2, 0, rfl⟩⟩

/-- A Huffman command in a phase after the tree is known. -/
def withTree (ph : Phase) (bs : List Byte) : State :=
  { readingAt 1 ph bs with
    huf :=
      { HufWork.init with
        arena := arenaAab
        root := 2
        cur := 2
        codeTodo := [(2, [])]
        treeTodo := [2] } }

theorem quiet_withTree (ph : Phase) (bs : List Byte) : (withTree ph bs).Quiet := quiet_ready 64 64

theorem witness_GenCodesRunRecordsPaths :
    (withTree .hufCodes []).status.busy = true ∧ (withTree .hufCodes []).inputs = [] ∧ (withTree .hufCodes []).Quiet
      ∧ (withTree .hufCodes []).phase = .hufCodes
      ∧ Reference.Stands (withTree .hufCodes []).huf.arena (withTree .hufCodes []).huf.root treeAab
      ∧ (withTree .hufCodes []).huf.codeTodo = [((withTree .hufCodes []).huf.root, [])]
      ∧ (withTree .hufCodes []).huf.codes.length = 256 ∧ ((treeAab.paths []).map Prod.fst).Nodup
      ∧ (withTree .hufCodes []).outPos < (withTree .hufCodes []).params.outSize :=
  ⟨rfl, rfl, quiet_withTree _ _, rfl, stands_aab, rfl, HufWork.init_codes_length, by decide, by decide⟩

theorem witness_SerializeTreeRunWritesPreorder :
    (withTree .hufTree []).status.busy = true ∧ (withTree .hufTree []).inputs = [] ∧ (withTree .hufTree []).Quiet
      ∧ (withTree .hufTree []).phase = .hufTree
      ∧ Reference.Stands (withTree .hufTree []).huf.arena (withTree .hufTree []).huf.root treeAab
      ∧ (withTree .hufTree []).huf.treeTodo = [(withTree .hufTree []).huf.root]
      ∧ (withTree .hufTree []).writer = BitWriter.init
      ∧ (withTree .hufTree []).outPos + (treeAab.preorder.length + 7) / 8 ≤ (withTree .hufTree []).params.outSize :=
  ⟨rfl, rfl, quiet_withTree _ _, rfl, stands_aab, rfl, rfl, by decide⟩

/-- Pass 2 over "aab" with the codes of V-SEL-12: 'a' is 1 and 'b' is 0. -/
def encodingAab : State :=
  { busyWith .huffman .hufBody [0x61#8, 0x61#8, 0x62#8] with
    huf :=
      { HufWork.init with
        codes := ((List.replicate 256 none).set 0x61 (some [true])).set 0x62 (some [false]) } }

theorem witness_BodyRunWritesCodes :
    encodingAab.status.busy = true ∧ encodingAab.inputs = [] ∧ encodingAab.Quiet ∧ encodingAab.hazards = []
      ∧ encodingAab.phase = .hufBody ∧ encodingAab.inPos = 0 ∧ encodingAab.writer = BitWriter.init
      ∧ (∀ k, k < encodingAab.srcCount → encodingAab.huf.codes.getD (encodingAab.inByteAt k).toNat none ≠ none)
      ∧ [true, true, false]
        = (encodingAab.inBytes encodingAab.srcCount).flatMap
            (fun c => (encodingAab.huf.codes.getD c.toNat none).getD [])
      ∧ encodingAab.outPos + ([true, true, false].length + 7) / 8 + 1 ≤ encodingAab.params.outSize :=
  ⟨rfl, rfl, quiet_ready 64 64, rfl, rfl, rfl, rfl, by decide, by decide, by decide⟩

theorem witness_ParseRebuildsTree :
    (readingAt 1 .hufParse [0#8, 0x40#8, 0x18#8, 0xA0#8, 0x0C#8, 0x20#8]).status.busy = true
      ∧ (readingAt 1 .hufParse [0#8, 0x40#8, 0x18#8, 0xA0#8, 0x0C#8, 0x20#8]).inputs = []
      ∧ (readingAt 1 .hufParse [0#8, 0x40#8, 0x18#8, 0xA0#8, 0x0C#8, 0x20#8]).Quiet
      ∧ (readingAt 1 .hufParse [0#8, 0x40#8, 0x18#8, 0xA0#8, 0x0C#8, 0x20#8]).hazards = []
      ∧ (readingAt 1 .hufParse [0#8, 0x40#8, 0x18#8, 0xA0#8, 0x0C#8, 0x20#8]).huf.frames = []
      ∧ (readingAt 1 .hufParse [0#8, 0x40#8, 0x18#8, 0xA0#8, 0x0C#8, 0x20#8]).huf.nodes + treeAab.size ≤ nodeMax
      ∧ ReaderReady (readingAt 1 .hufParse [0#8, 0x40#8, 0x18#8, 0xA0#8, 0x0C#8, 0x20#8])
      ∧ (readingAt 1 .hufParse [0#8, 0x40#8, 0x18#8, 0xA0#8, 0x0C#8, 0x20#8]).BitsAt 8 treeAab.preorder :=
  ⟨rfl, rfl, quiet_busyWith _ _ _, rfl, rfl, by decide, ⟨by decide, .inl rfl⟩, ⟨by decide, by decide⟩⟩

/-- The body `C0` of V-SEL-12, three bits. -/
def walkingAab : State :=
  { withTree .hufWalk [0#8, 0xC0#8, 3#8] with
    huf := { (withTree .hufWalk []).huf with bitsLeft := 3 } }

theorem witness_WalkDecodesBody :
    walkingAab.status.busy = true ∧ walkingAab.inputs = [] ∧ walkingAab.Quiet ∧ walkingAab.hazards = []
      ∧ walkingAab.phase = .hufWalk ∧ walkingAab.huf.cur = walkingAab.huf.root
      ∧ Reference.Stands walkingAab.huf.arena walkingAab.huf.root treeAab ∧ ReaderReady walkingAab
      ∧ walkingAab.BitsAt walkingAab.bitCursor [true, true, false]
      ∧ walkingAab.huf.bitsLeft = [true, true, false].length
      ∧ treeAab.decodeBody 3 [true, true, false] = some [0x61#8, 0x61#8, 0x62#8]
      ∧ walkingAab.outPos + [0x61#8, 0x61#8, 0x62#8].length ≤ walkingAab.params.outSize :=
  ⟨rfl, rfl, quiet_withTree _ _, rfl, rfl, rfl, stands_aab, ⟨by decide, .inl rfl⟩, ⟨by decide, by decide⟩, rfl,
    by decide, by decide⟩

/-! ### States that meet the invariant -/

theorem arenaWf_aab : ArenaWf arenaAab := by
  intro i f l r q h
  match i, h with
  | 0, h => simp [arenaAab] at h
  | 1, h => simp [arenaAab] at h
  | 2, h => simp [arenaAab] at h; omega
  | n + 3, h => simp [arenaAab] at h

theorem arenaWf_leaves : ArenaWf [.leaf 0x61#8 2 0, .leaf 0x62#8 1 1] := by
  intro i f l r q h
  match i, h with
  | 0, h => simp at h
  | 1, h => simp at h
  | n + 2, h => simp at h

theorem arenaWf_nil : ArenaWf [] := by intro i f l r q h; simp at h

/-- The registers and spaces of a busy state. -/
theorem spaceInv_busyWith (c : CodecId) (ph : Phase) (bs : List Byte) (hw : Memory.wf (Memory.writeAll [] 0 bs) = true)
    (hb : Memory.below 64 (Memory.writeAll [] 0 bs) = true) : SpaceInv (busyWith c ph bs) where
  inWf := hw
  inBelow := hb
  outWf := rfl
  outBelow := rfl
  outCursor := Nat.zero_le _
  inCursor _ := Nat.zero_le _

/-- An idle machine. -/
theorem inv_idle : Inv (ready 64 64) where
  params := wf_ready 64 64 (by decide) (by decide)
  registers := ⟨by decide, by decide, by decide, by decide⟩
  spaces := ⟨rfl, rfl, rfl, rfl, Nat.zero_le _, by decide⟩
  lz := by intro h; exact absurd h (by decide)
  huf :=
    { freq := HufWork.init_freq_length
      codes := HufWork.init_codes_length
      wcount := by decide
      rbit := by decide
      arena := arenaWf_nil
      nodes := by decide
      queue := by decide
      building := by decide
      codeTodo := by decide
      treeTodo := by decide
      frames := by intro h; exact absurd h (by decide)
      root := by decide
      walk := by decide }

/-- The LZ77 compressor in the middle of a chunk: one symbol consumed, one to encode, window of 2. -/
def lzMiddle : State :=
  { busyWith .lz77 .lzEncode [0x41#8, 0x42#8] with
    inPos := 1
    lz :=
      { win := { cap := 2, head := 0, len := 1, slots := [0x41#8] }
        lookahead := 2
        chunk := [0x41#8, 0x42#8]
        pos := 1 } }

theorem inv_lzMiddle : Inv lzMiddle where
  params := wf_ready 64 64 (by decide) (by decide)
  registers := ⟨by decide, by decide, by decide, by decide⟩
  spaces := ⟨by decide, by decide, rfl, rfl, Nat.zero_le _, by decide⟩
  lz := fun _ => ⟨⟨by decide, rfl, by decide, by decide⟩, by decide, by decide, by decide⟩
  huf :=
    { freq := HufWork.init_freq_length
      codes := HufWork.init_codes_length
      wcount := by decide
      rbit := by decide
      arena := arenaWf_nil
      nodes := by decide
      queue := by decide
      building := by decide
      codeTodo := by decide
      treeTodo := by decide
      frames := by intro h; exact absurd h (by decide)
      root := by decide
      walk := by decide }

theorem witness_WindowHoldsLastSymbolsConsumed :
    Inv lzMiddle ∧ lzMiddle.inputs = [] ∧ lzMiddle.hazards = [] ∧ LzTrace lzMiddle ∧ ∃ t, step lzMiddle = .next t :=
  ⟨inv_lzMiddle, rfl, rfl, fun _ => ⟨by decide, fun _ => by decide⟩, goesOn_next (by decide)⟩

/-- A Huffman state in a named phase, whose arena is well formed. -/
theorem inv_huffman (ph : Phase) (bs : List Byte) (r : BitReader) (h : HufWork)
    (hn : (BitVec.ofNat 32 bs.length).toNat ≤ 64) (hw : Memory.wf (Memory.writeAll [] 0 bs) = true)
    (hb : Memory.below 64 (Memory.writeAll [] 0 bs) = true) (hp : ph = .hufBuild ∨ ph = .hufWalk)
    (hr : r.rbit < 8) (ha : ArenaWf h.arena) (hfreq : h.freq.length = 256) (hcodes : h.codes.length = 256)
    (hnodes : h.nodes ≤ nodeMax) (hq : ∀ i ∈ h.queue, i < h.arena.length) (hq0 : ph = .hufBuild → h.queue ≠ [])
    (hwalk : ph = .hufWalk → h.root < h.arena.length ∧ h.cur < h.arena.length) :
    Inv { busyWith .huffman ph bs with reader := r, huf := h } where
  params := wf_ready 64 64 (by decide) (by decide)
  registers :=
    { busyOrDone := by simp [busyWith]
      busyStatus := fun _ => ⟨rfl, rfl, by simp [busyWith]⟩
      busyPhase := by rcases hp with h | h <;> simp [busyWith, h]
      busyLength := fun _ => hn }
  spaces := ⟨hw, hb, rfl, rfl, Nat.zero_le _, fun _ => Nat.zero_le _⟩
  lz := by rcases hp with h | h <;> simp [busyWith, h]
  huf :=
    { freq := hfreq
      codes := hcodes
      wcount := Nat.zero_lt_succ 7
      rbit := hr
      arena := ha
      nodes := hnodes
      queue := fun _ => hq
      building := fun hb => hq0 hb
      codeTodo := fun hb => by rcases hp with h | h <;> simp [busyWith, h] at hb
      treeTodo := fun hb => by rcases hp with h | h <;> simp [busyWith, h] at hb
      frames := fun hb => by rcases hp with h | h <;> simp [busyWith, h] at hb
      root := fun hb => by rcases hp with h | h <;> simp [busyWith, h] at hb
      walk := fun hb => hwalk hb }

/-- The tree of "aab" about to be built. -/
def buildingAab : State :=
  { busyWith .huffman .hufBuild [] with
    reader := BitReader.init
    huf := { HufWork.init with arena := [.leaf 0x61#8 2 0, .leaf 0x62#8 1 1], queue := [0, 1], nextSeq := 2 } }

theorem witness_BuildStepMergesTwoLeast :
    Inv buildingAab ∧ buildingAab.inputs = [] ∧ buildingAab.phase = .hufBuild ∧ 2 ≤ buildingAab.huf.queue.length :=
  ⟨inv_huffman .hufBuild [] _ _ (by decide) rfl rfl (.inl rfl) (by decide) arenaWf_leaves
      HufWork.init_freq_length HufWork.init_codes_length (by decide) (by decide) (by decide) (by decide),
    rfl, rfl, by decide⟩

/-- One node left: the arena's first leaf is the root. -/
def builtLeaf : State :=
  { busyWith .huffman .hufBuild [] with
    reader := BitReader.init
    huf := { HufWork.init with arena := [.leaf 0x61#8 2 0, .leaf 0x62#8 1 1], queue := [0], nextSeq := 2 } }

theorem witness_BuildStepMergesTwoLeast_root :
    Inv builtLeaf ∧ builtLeaf.inputs = [] ∧ builtLeaf.phase = .hufBuild ∧ builtLeaf.huf.queue = [0] :=
  ⟨inv_huffman .hufBuild [] _ _ (by decide) rfl rfl (.inl rfl) (by decide) arenaWf_leaves
      HufWork.init_freq_length HufWork.init_codes_length (by decide) (by decide) (by decide) (by decide),
    rfl, rfl, rfl⟩

/-- The walk with no bit left, away from the root. -/
def partialCode : State :=
  { busyWith .huffman .hufWalk [0#8, 0xC0#8, 3#8] with
    reader := { rbyte := 1, rbit := 3, rcur := 0xC0#8 }
    huf := { HufWork.init with arena := arenaAab, root := 2, cur := 1, bitsLeft := 0 } }

/-- The walk at a tree that is one leaf, with a bit to read. -/
def loneLeaf : State :=
  { busyWith .huffman .hufWalk [0#8, 0xC0#8, 3#8] with
    reader := { rbyte := 1, rbit := 0, rcur := 0#8 }
    huf := { HufWork.init with arena := [.leaf 0x61#8 2 0, .leaf 0x62#8 1 1], bitsLeft := 1 } }

theorem witness_HuffmanCorruptElementsFail_walk :
    (Inv partialCode ∧ partialCode.inputs = [] ∧ partialCode.phase = .hufWalk ∧ partialCode.huf.bitsLeft = 0
        ∧ partialCode.huf.cur ≠ partialCode.huf.root)
      ∧ (Inv loneLeaf ∧ loneLeaf.inputs = [] ∧ loneLeaf.phase = .hufWalk ∧ loneLeaf.huf.bitsLeft ≠ 0
        ∧ loneLeaf.huf.arena[loneLeaf.huf.cur]? = some (.leaf 0x61#8 2 0)
        ∧ ∃ b s1, readBit loneLeaf = .done b s1) := by
  refine ⟨⟨?_, rfl, rfl, rfl, by decide⟩, ?_, rfl, rfl, by decide, rfl, ⟨_, _, rfl⟩⟩
  · exact inv_huffman .hufWalk _ _ _ (by decide) (by decide) (by decide) (.inr rfl) (by decide) arenaWf_aab
      HufWork.init_freq_length HufWork.init_codes_length (by decide) (by decide) (by decide) (by decide)
  · exact inv_huffman .hufWalk _ _ _ (by decide) (by decide) (by decide) (.inr rfl) (by decide) arenaWf_leaves
      HufWork.init_freq_length HufWork.init_codes_length (by decide) (by decide) (by decide) (by decide)

theorem witness_EveryStepKeepsInvariant : Inv lzMiddle ∧ ∃ t, step lzMiddle = .next t :=
  ⟨inv_lzMiddle, goesOn_next (by decide)⟩

theorem witness_InvariantRulesOutFaults :
    Inv lzMiddle ∧ ∃ r, step (hostNext (.outRead 64) (ready 64 64)) = .refused r := ⟨inv_lzMiddle, _, rfl⟩

theorem witness_EveryCommandCompletes :
    (Inv lzMiddle ∧ lzMiddle.inputs = [] ∧ lzMiddle.status.busy = true)
      ∧ (encode .selCompress = .command 0x1#32 ∧ Inv (ready 64 64) ∧ (ready 64 64).inputs = []
        ∧ (ready 64 64).status.busy = false) := ⟨⟨inv_lzMiddle, rfl, rfl⟩, rfl, inv_idle, rfl, rfl⟩

theorem witness_EngineKeepsInAndOperands : lzMiddle.inputs = [] ∧ ∃ t, step lzMiddle = .next t :=
  ⟨rfl, goesOn_next (by decide)⟩

theorem witness_EngineWritesOutOnlyAtCursor :
    lzMiddle.inputs = [] ∧ lzMiddle.status.busy = true ∧ lzMiddle.status.err = .success
      ∧ ∃ t, step lzMiddle = .next t ∧ t.status.err = .success := ⟨rfl, rfl, rfl, _, rfl, by decide⟩

/-- Pass 2 with no input left. -/
def encodingEnd : State := busyWith .huffman .hufBody []

/-- Pass 1 with a read that fails. -/
def countingFails : State :=
  { busyWith .huffman .hufCount [1#8] with env := { reads := [true], writes := [], quiet := true, count := 0 } }

/-- The end of a command in each kind of body. -/
theorem witness_ErrorsOfEachBody :
    (∃ t, step (busyWith .rle .rleEncode []) = .next t ∧ t.status.busy = false)
      ∧ (∃ t, step countingFails = .next t ∧ t.status.busy = false)
      ∧ (∃ t, step (busyWith .huffman .hufHeader [2#8]) = .next t ∧ t.status.busy = false)
      ∧ (∃ t, step encodingEnd = .next t ∧ t.status.busy = false) :=
  ⟨⟨_, rfl, by decide⟩, ⟨_, rfl, by decide⟩, ⟨_, rfl, by decide⟩, ⟨_, rfl, by decide⟩⟩

end Sys2Proof.Tests
end

/-! ## The invariant as predicates on fields

`Inv` is a structure over the state, so an update of a field `Inv` does not read still changes the statement. Below each
part is a predicate on the fields it reads: an update of any other field leaves it the same by definition. `inv_iff` ties
the parts to `Inv`. -/

namespace Sys2Proof.Machine

open Sys2Proof

/-- The part of the invariant that also an error keeps: legal parameters, both spaces canonical and inside their sizes, and
`out_pos` inside OUT (R9, R31, R60). -/
def SpacesLegal (s : State) : Prop :=
  s.params.wf ∧ Memory.wf s.inMem = true ∧ Memory.below s.params.inSize s.inMem = true
    ∧ Memory.wf s.outMem = true ∧ Memory.below s.params.outSize s.outMem = true ∧ s.outPos ≤ s.params.outSize

/-- The registers while a command runs (R36, R37, R39, R100, R102). -/
def CommandRuns (s : State) : Prop :=
  s.status.busy = true ∧ s.status.done = false ∧ s.status.err = .success ∧ s.status.codec ≠ .unset
    ∧ s.outLen = 0#32 ∧ s.srcCount ≤ s.params.inSize

/-- The LZ77 compressor's state `z` in phase `ph`, with `i` of `n` input bytes consumed (R45, R111, R112). -/
def LzLegal (ph : Phase) (z : LzWork) (i n : Nat) : Prop :=
  ph = .lzChunk ∨ ph = .lzEncode →
    z.win.Wf ∧ z.win.cap < 2 ^ 16 ∧ 1 ≤ z.lookahead ∧ z.lookahead < 2 ^ 16
      ∧ (ph = .lzEncode → z.pos ≤ z.chunk.length ∧ z.chunk.length ≤ z.lookahead ∧ i + (z.chunk.length - z.pos) ≤ n)

/-- The arena indices the Huffman codec follows in phase `ph` are nodes (R47). -/
def IndicesLegal (ph : Phase) (h : HufWork) : Prop :=
  match ph with
  | .hufCount => ∀ i ∈ h.queue, i < h.arena.length
  | .hufBuild => (∀ i ∈ h.queue, i < h.arena.length) ∧ h.queue ≠ []
  | .hufCodes => h.root < h.arena.length ∧ ∀ p ∈ h.codeTodo, p.1 < h.arena.length
  | .hufTree => h.root < h.arena.length ∧ ∀ i ∈ h.treeTodo, i < h.arena.length
  | .hufParse => ∀ l, Frame.wantRight l ∈ h.frames → l < h.arena.length
  | .hufExtent => h.root < h.arena.length
  | .hufWalk => h.root < h.arena.length ∧ h.cur < h.arena.length
  | _ => True

/-- The sizes of the Huffman codec's tables, the order of its arena and its node count (R46 to R48, R182). -/
def TablesLegal (h : HufWork) : Prop :=
  h.freq.length = 256 ∧ h.codes.length = 256 ∧ ArenaWf h.arena ∧ h.nodes ≤ nodeMax

theorem TablesLegal.arena {h : HufWork} (ht : TablesLegal h) : ArenaWf h.arena := ht.2.2.1

/-- The bit counters are inside a byte (R50, R51). -/
def BitsLegal (s : State) : Prop := s.writer.wcount < 8 ∧ s.reader.rbit < 8

/-- A command runs, and its internal state is legal. -/
structure Running (s : State) : Prop where
  spaces : SpacesLegal s
  command : CommandRuns s
  body : s.phase ≠ .idle
  cursor : s.inPos ≤ s.srcCount
  lz : LzLegal s.phase s.lz s.inPos s.srcCount
  tables : TablesLegal s.huf
  indices : IndicesLegal s.phase s.huf
  bits : BitsLegal s

/-- No command runs. -/
structure Waiting (s : State) : Prop where
  spaces : SpacesLegal s
  free : s.status.busy = false
  body : s.phase = .idle
  tables : TablesLegal s.huf
  bits : BitsLegal s

theorem spacesLegal_of_inv {s : State} (h : Inv s) : SpacesLegal s :=
  ⟨h.params, h.spaces.inWf, h.spaces.inBelow, h.spaces.outWf, h.spaces.outBelow, h.spaces.outCursor⟩

theorem hufInv_iff (s : State) :
    HufInv s ↔ TablesLegal s.huf ∧ IndicesLegal s.phase s.huf ∧ BitsLegal s := by
  constructor
  · intro h
    refine ⟨⟨h.freq, h.codes, h.arena, h.nodes⟩, ?_, h.wcount, h.rbit⟩
    unfold IndicesLegal
    split
    next hp => exact h.queue (.inl hp)
    next hp => exact ⟨h.queue (.inr hp), h.building hp⟩
    next hp => exact h.codeTodo hp
    next hp => exact h.treeTodo hp
    next hp => exact h.frames hp
    next hp => exact h.root hp
    next hp => exact h.walk hp
    next => trivial
  · rintro ⟨⟨hfreq, hcodes, harena, hnodes⟩, hi, hw, hr⟩
    exact
      { freq := hfreq, codes := hcodes, wcount := hw, rbit := hr, arena := harena, nodes := hnodes
        queue := by
          rintro (hp | hp)
          · rw [hp] at hi; exact hi
          · rw [hp] at hi; exact hi.1
        building := fun hp => by rw [hp] at hi; exact hi.2
        codeTodo := fun hp => by rw [hp] at hi; exact hi
        treeTodo := fun hp => by rw [hp] at hi; exact hi
        frames := fun hp => by rw [hp] at hi; exact hi
        root := fun hp => by rw [hp] at hi; exact hi
        walk := fun hp => by rw [hp] at hi; exact hi }

theorem Inv.running {s : State} (h : Inv s) (hb : s.status.busy = true) : Running s := by
  obtain ⟨herr, hlen, hcodec⟩ := h.registers.busyStatus hb
  obtain ⟨ht, hi, hbits⟩ := (hufInv_iff s).mp h.huf
  have hdone : s.status.done = false := by
    cases hd : s.status.done
    · rfl
    · exact absurd ⟨hb, hd⟩ h.registers.busyOrDone
  exact
    { spaces := spacesLegal_of_inv h
      command := ⟨hb, hdone, herr, hcodec, hlen, h.registers.busyLength hb⟩
      body := h.registers.busyPhase.mp hb
      cursor := h.spaces.inCursor hb
      lz := fun hp =>
        have z := h.lz hp
        ⟨z.ring, z.capLegal, z.lookaheadLegal.1, z.lookaheadLegal.2, z.chunk⟩
      tables := ht
      indices := hi
      bits := hbits }

theorem Inv.waiting {s : State} (h : Inv s) (hb : s.status.busy = false) : Waiting s := by
  obtain ⟨ht, _, hbits⟩ := (hufInv_iff s).mp h.huf
  have hp : s.phase = .idle := by
    by_contra hne
    exact absurd (h.registers.busyPhase.mpr hne) (by simp [hb])
  exact ⟨spacesLegal_of_inv h, hb, hp, ht, hbits⟩

theorem Running.inv {s : State} (h : Running s) : Inv s := by
  obtain ⟨hp, hiw, hib, how, hob, hoc⟩ := h.spaces
  obtain ⟨hb, hd, he, hc, hl, hn⟩ := h.command
  exact
    { params := hp
      registers := ⟨by simp [hd], fun _ => ⟨he, hl, hc⟩, ⟨fun _ => h.body, fun _ => hb⟩, fun _ => hn⟩
      spaces := ⟨hiw, hib, how, hob, hoc, fun _ => h.cursor⟩
      lz := fun hph =>
        have ⟨hr, hcap, hl1, hl2, hch⟩ := h.lz hph
        ⟨hr, hcap, ⟨hl1, hl2⟩, hch⟩
      huf := (hufInv_iff s).mpr ⟨h.tables, h.indices, h.bits⟩ }

theorem Waiting.inv {s : State} (h : Waiting s) : Inv s := by
  obtain ⟨hp, hiw, hib, how, hob, hoc⟩ := h.spaces
  have hfree : ¬ s.status.busy = true := by simp [h.free]
  have hidle : IndicesLegal s.phase s.huf := by rw [h.body]; trivial
  exact
    { params := hp
      registers := ⟨fun hbd => hfree hbd.1, (absurd · hfree), by simp [h.free, h.body], (absurd · hfree)⟩
      spaces := ⟨hiw, hib, how, hob, hoc, (absurd · hfree)⟩
      lz := by simp [h.body]
      huf := (hufInv_iff s).mpr ⟨h.tables, hidle, h.bits⟩ }

/-- A state meets the invariant in one of two ways. -/
theorem inv_iff (s : State) : Inv s ↔ Running s ∨ Waiting s := by
  refine ⟨fun h => ?_, fun h => h.elim Running.inv Waiting.inv⟩
  cases hb : s.status.busy
  · exact .inr (h.waiting hb)
  · exact .inl (h.running hb)

/-- The fields the invariant does not read may take any value. -/
theorem Inv.of_unread {s : State} (h : Inv s) (srcLen lzCfg : Word) (decTag : Byte) (hazards : List Nat)
    (freeCount : Nat) (inputs : List Event) (readLog : List Word) :
    Inv { s with
          srcLen := srcLen, lzCfg := lzCfg, decTag := decTag, hazards := hazards, freeCount := freeCount
          inputs := inputs, readLog := readLog } := by
  rcases (inv_iff s).mp h with r | w
  · exact Running.inv ⟨r.spaces, r.command, r.body, r.cursor, r.lz, r.tables, r.indices, r.bits⟩
  · exact Waiting.inv ⟨w.spaces, w.free, w.body, w.tables, w.bits⟩

/-- A byte stored inside IN (R60). -/
theorem Inv.write_in {s : State} (h : Inv s) {k : Nat} (b : Byte) (hk : k < s.params.inSize) :
    Inv { s with inMem := Memory.write s.inMem k b } := by
  obtain ⟨hp, hw, hb, hout⟩ := spacesLegal_of_inv h
  have spaces : SpacesLegal { s with inMem := Memory.write s.inMem k b } :=
    ⟨hp, Memory.wf_write _ _ _ hw, Memory.below_write _ _ _ _ hb hk, hout⟩
  rcases (inv_iff s).mp h with r | w
  · exact Running.inv ⟨spaces, r.command, r.body, r.cursor, r.lz, r.tables, r.indices, r.bits⟩
  · exact Waiting.inv ⟨spaces, w.free, w.body, w.tables, w.bits⟩

/-! ## Start values, completion and reset -/

theorem arenaWf_empty : ArenaWf [] := by
  intro i f l r q h
  simp at h

theorem tablesLegal_init : TablesLegal HufWork.init :=
  ⟨HufWork.init_freq_length, HufWork.init_codes_length, arenaWf_empty, Nat.zero_le _⟩

theorem bitsLegal_of_start {s : State} (hw : s.writer = BitWriter.init) (hr : s.reader = BitReader.init) :
    BitsLegal s := by
  rw [BitsLegal, hw, hr]
  exact ⟨by decide, by decide⟩

/-- An idle engine whose units stand at their start values (R55, R101, R262). -/
theorem Waiting.of_start {s : State} (hs : SpacesLegal s) (hb : s.status.busy = false) (hp : s.phase = .idle)
    (hh : s.huf = HufWork.init) (hw : s.writer = BitWriter.init) (hr : s.reader = BitReader.init) : Waiting s where
  spaces := hs
  free := hb
  body := hp
  tables := hh ▸ tablesLegal_init
  bits := bitsLegal_of_start hw hr

/-- OUT after a completion is as it was, or no byte of it is kept (R76). -/
theorem settleOut_outMem (e : ErrCode) (s : State) :
    (settleOut e s).outMem = s.outMem ∨ (settleOut e s).outMem = [] := by
  unfold settleOut
  split
  · exact .inr rfl
  · exact .inl rfl

/-- A completion, with success or an error, rests on the spaces alone (R101, R238). -/
theorem complete_inv {s : State} (e : ErrCode) (h : SpacesLegal s) : Inv (complete e s) := by
  obtain ⟨hp, hiw, hib, how, hob, hoc⟩ := h
  have spaces : SpacesLegal (complete e s) := by
    rcases settleOut_outMem e s with ho | ho
    · simpa [SpacesLegal, ho] using ⟨hp, hiw, hib, how, hob, hoc⟩
    · simpa [SpacesLegal, ho, Memory.wf_nil, Memory.below_nil] using ⟨hp, hiw, hib, hoc⟩
  exact (Waiting.of_start spaces (by simp) (by simp) (by simp) (by simp) (by simp)).inv

/-- The platform's reset keeps IN and the parameters and puts all else at its start (R260, R261). -/
theorem warmReset_inv {s : State} (h : SpacesLegal s) : Inv (warmReset s) := by
  obtain ⟨hp, hiw, hib, _, _, _⟩ := h
  have spaces : SpacesLegal (warmReset s) :=
    ⟨hp, hiw, hib, Memory.wf_nil, Memory.below_nil _, Nat.zero_le _⟩
  exact (Waiting.of_start spaces rfl rfl rfl rfl rfl).inv

/-- Every size made by `Config.sizeOf` is in the range of R9. -/
theorem sizeOf_range (seed : Nat) : 1 ≤ Config.sizeOf seed ∧ Config.sizeOf seed < 2 ^ 32 := by
  unfold Config.sizeOf
  omega

theorem config_params_wf : Config.params.wf := by
  obtain ⟨hi1, hi2⟩ := sizeOf_range Config.inSizeSeed
  obtain ⟨ho1, ho2⟩ := sizeOf_range Config.outSizeSeed
  exact ⟨hi1, hi2, ho1, ho2, by decide, by decide, by decide, by decide⟩

/-- Settles O2: reset is an idle state with every unit at its start value. -/
theorem resetMeetsInvariant : Obligations.ResetMeetsInvariant :=
  have spaces : SpacesLegal State.reset :=
    ⟨config_params_wf, Memory.wf_nil, Memory.below_nil _, Memory.wf_nil, Memory.below_nil _, Nat.zero_le _⟩
  (Waiting.of_start spaces rfl rfl rfl rfl rfl).inv

end Sys2Proof.Machine

/-! ## Issue

A command word's instruction is an issue function run on the accepted state. Everything said about issue below is said once
per kind of issue function (`IssueStart`), not once per instruction. -/

namespace Sys2Proof.Machine

open Sys2Proof

/-- The phases a body starts in, with the pair that is latched for it (R100, R103, R120): a compressor's lookahead is not
zero. -/
inductive StartPhase : Phase → LzPair → Prop where
  | rleEncode (w : LzPair) : StartPhase .rleEncode w
  | rleDecode (w : LzPair) : StartPhase .rleDecode w
  | lzChunk (w : LzPair) (h : w.lookahead ≠ 0#16) : StartPhase .lzChunk w
  | lzDecode (w : LzPair) : StartPhase .lzDecode w
  | hufCount (w : LzPair) : StartPhase .hufCount w
  | hufHeader (w : LzPair) : StartPhase .hufHeader w

/-- What a command does once it is accepted. -/
inductive IssueStart : (State → State) → Prop where
  /-- a reserved word (R92, R235) -/
  | illegal : IssueStart (complete .illegalCommand)
  /-- a direct command without a pair (R100) -/
  | direct (c : CodecId) (ph : Phase) (hc : c ≠ .unset) (hp : StartPhase ph noPair) : IssueStart (launch c noPair ph)
  /-- `LZ77_COMPRESS` (R120) -/
  | lz77 : IssueStart startLz77
  /-- `SEL_COMPRESS` (R103) -/
  | tier : IssueStart startTier
  /-- `SEL_DECOMPRESS` (R105) -/
  | tagged : IssueStart startTagged

/-- The meaning of every command word: one issue function, run while the engine is idle. -/
theorem exec_command {i : Instr} {w : Word} (h : encode i = .command w) :
    ∃ op start, IssueStart start ∧ ∀ s, exec i s = .next (whenIdle (fun s0 => start (accept op s0)) s) := by
  cases i with
  | selCompress => exact ⟨_, _, .tier, fun _ => rfl⟩
  | selDecompress => exact ⟨_, _, .tagged, fun _ => rfl⟩
  | rleCompress => exact ⟨_, _, .direct .rle .rleEncode nofun (.rleEncode _), fun _ => rfl⟩
  | rleDecompress => exact ⟨_, _, .direct .rle .rleDecode nofun (.rleDecode _), fun _ => rfl⟩
  | lz77Compress => exact ⟨_, _, .lz77, fun _ => rfl⟩
  | lz77Decompress => exact ⟨_, _, .direct .lz77 .lzDecode nofun (.lzDecode _), fun _ => rfl⟩
  | hufCompress => exact ⟨_, _, .direct .huffman .hufCount nofun (.hufCount _), fun _ => rfl⟩
  | hufDecompress => exact ⟨_, _, .direct .huffman .hufHeader nofun (.hufHeader _), fun _ => rfl⟩
  | reservedOp0 | reservedOp9 | reservedOpA | reservedOpB => exact ⟨_, _, .illegal, fun _ => rfl⟩
  | reservedOpC | reservedOpD | reservedOpE | reservedOpF => exact ⟨_, _, .illegal, fun _ => rfl⟩
  | reservedHigh v => exact ⟨_, _, .illegal, fun _ => rfl⟩
  | lz77Literal | lz77Match | lz77ReservedFlag | rlePair => cases h
  | huffmanSingle | huffmanTreeFlag | huffmanReservedFlag => cases h
  | huffmanTreeLeaf | huffmanTreeInternal | huffmanTrailing => cases h

/-- A word written to CMD is a command's instruction (R90 to R92). -/
theorem encode_decodeCommand (w : Word) : ∃ v, encode (decodeCommand w) = .command v := by
  unfold decodeCommand
  split
  · exact ⟨w, rfl⟩
  · split <;> exact ⟨_, rfl⟩

/-! ### Issue keeps the invariant -/

theorem spacesLegal_accept {s : State} (op : BitVec 4) (h : SpacesLegal s) : SpacesLegal (accept op s) := by
  obtain ⟨hp, hiw, hib, how, hob, _⟩ := h
  exact ⟨hp, hiw, hib, how, hob, Nat.zero_le _⟩

theorem ringWf_empty (cap : Nat) : (Ring.empty cap).Wf :=
  ⟨Nat.zero_le _, rfl, fun _ => rfl, id⟩

theorem one_le_toNat_of_ne_zero {v : Half} (h : v ≠ 0#16) : 1 ≤ v.toNat := by
  by_contra hlt
  exact h (BitVec.eq_of_toNat_eq (by simp; omega))

/-- The state a body starts with is legal in each phase it can start in (R262). -/
theorem startBody_legal {ph : Phase} {w : LzPair} (hp : StartPhase ph w) (n : Nat) :
    ph ≠ .idle
      ∧ LzLegal ph { LzWork.init with win := Ring.empty w.window.toNat, lookahead := w.lookahead.toNat } 0 n
      ∧ IndicesLegal ph HufWork.init := by
  cases hp with
  | rleEncode | rleDecode | lzDecode | hufHeader => exact ⟨nofun, nofun, trivial⟩
  | hufCount => exact ⟨nofun, nofun, nofun⟩
  | lzChunk _ hl =>
    exact ⟨nofun, fun _ => ⟨ringWf_empty _, w.window.isLt, one_le_toNat_of_ne_zero hl, w.lookahead.isLt, nofun⟩, trivial⟩

theorem launch_accept_inv {s : State} {c : CodecId} {w : LzPair} {ph : Phase} (op : BitVec 4) (hs : SpacesLegal s)
    (hc : c ≠ .unset) (hp : StartPhase ph w) : Inv (launch c w ph (accept op s)) := by
  have accepted : SpacesLegal (accept op s) := spacesLegal_accept op hs
  have spaces : SpacesLegal (nameCodec c w (accept op s)) := accepted
  obtain ⟨hbody, hlz, hind⟩ := startBody_legal hp s.srcLen.toNat
  simp only [launch]
  split
  · exact complete_inv _ spaces
  next hn =>
    exact Running.inv
      { spaces := spaces
        command := ⟨rfl, rfl, rfl, hc, rfl, Nat.le_of_not_lt hn⟩
        body := hbody
        cursor := Nat.zero_le _
        lz := hlz
        tables := tablesLegal_init
        indices := hind
        bits := bitsLegal_of_start rfl rfl }

/-- Every tier's lookahead is at least 1 (R10, R104). -/
theorem tier_lookahead_ne_zero {p : Params} (h : p.wf) (n : Nat) : (tier p n).lookahead ≠ 0#16 := by
  obtain ⟨_, _, _, _, h1, h2, h3, h4⟩ := h
  unfold tier
  split
  · exact h1
  · split
    · exact h2
    · split
      · exact h3
      · exact h4

theorem issueStart_inv {start : State → State} (h : IssueStart start) {s : State} (op : BitVec 4)
    (hs : SpacesLegal s) : Inv (start (accept op s)) := by
  cases h with
  | illegal => exact complete_inv _ (spacesLegal_accept op hs)
  | direct c ph hc hp => exact launch_accept_inv op hs hc hp
  | lz77 =>
    unfold startLz77
    split
    · exact complete_inv _ (spacesLegal_accept op hs)
    next hl => exact launch_accept_inv op hs nofun (.lzChunk _ hl)
  | tier =>
    unfold startTier
    split
    · exact launch_accept_inv op hs nofun (.rleEncode _)
    · exact launch_accept_inv op hs nofun (.lzChunk _ (tier_lookahead_ne_zero hs.1 _))
  | tagged =>
    unfold startTagged
    split
    next c _ =>
      cases c with
      | rle => exact launch_accept_inv op hs nofun (.rleDecode _)
      | lz77 => exact launch_accept_inv op hs nofun (.lzDecode _)
      | huffman => exact launch_accept_inv op hs nofun (.hufHeader _)
      | unset => exact complete_inv _ (spacesLegal_accept op hs)
    · exact complete_inv _ (spacesLegal_accept op hs)

/-- A written command word keeps the invariant: it is ignored while a command runs (R102) and issued otherwise. -/
theorem exec_command_inv {i : Instr} {w : Word} (hw : encode i = .command w) {s t : State} (h : Inv s)
    (he : exec i s = .next t) : Inv t := by
  obtain ⟨op, start, hstart, hexec⟩ := exec_command hw
  rw [hexec s] at he
  cases he
  unfold whenIdle
  split
  · exact h
  · exact issueStart_inv hstart op (spacesLegal_of_inv h)

/-! ### Issue forgets the work of earlier commands -/

theorem complete_clearWork (e : ErrCode) (s : State) : complete e (clearWork s) = complete e s := by
  unfold complete settleOut
  rw [clearWork_status]
  split <;> rfl

theorem launch_clearWork (c : CodecId) (w : LzPair) (ph : Phase) (s : State) :
    launch c w ph (clearWork s) = launch c w ph s := by
  have hname : nameCodec c w (clearWork s) = clearWork (nameCodec c w s) := rfl
  have hcount : (clearWork (nameCodec c w s)).srcCount = (nameCodec c w s).srcCount := rfl
  simp only [launch, hname, hcount, clearWork_params, complete_clearWork]
  rfl

/-- No issue function reads the work of an earlier command (R53, R262). -/
theorem issueStart_clearWork {start : State → State} (h : IssueStart start) (s : State) :
    start (clearWork s) = start s := by
  have hcount : (clearWork s).srcCount = s.srcCount := rfl
  cases h with
  | illegal => exact complete_clearWork _ s
  | direct c ph => exact launch_clearWork c _ ph s
  | lz77 => simp only [startLz77, clearWork_latch, complete_clearWork, launch_clearWork]
  | tier => simp only [startTier, hcount, clearWork_params, launch_clearWork]
  | tagged =>
    unfold startTagged
    rw [clearWork_latch]
    split
    next c _ =>
      cases c with
      | rle | lz77 | huffman => exact launch_clearWork _ _ _ s
      | unset => exact complete_clearWork _ s
    · exact complete_clearWork _ s

/-- Two states with the same registers, spaces, environment and inputs are accepted alike, but for the work (R52, R53). -/
theorem clearWork_accept_eq {s t : State} (op : BitVec 4) (h : SameVisible s t) :
    clearWork (accept op s) = clearWork (accept op t) := by
  obtain ⟨latch, inPos, outPos, phase, lz, huf, writer, reader, hazards, rfl⟩ := h
  rfl

theorem SameVisible.status {s t : State} (h : SameVisible s t) : t.status = s.status := by
  obtain ⟨latch, inPos, outPos, phase, lz, huf, writer, reader, hazards, rfl⟩ := h
  rfl

/-- Settles O24: an issue function reads the accepted state only through `clearWork`, which two states that differ only in
internal state share. -/
theorem issueForgetsInternalState : Obligations.IssueForgetsInternalState := by
  intro i w s t hw hb hv
  obtain ⟨op, start, hstart, hexec⟩ := exec_command hw
  have hbt : t.status.busy = false := by rw [hv.status, hb]
  have hstarts : start (accept op s) = start (accept op t) :=
    calc start (accept op s) = start (clearWork (accept op s)) := (issueStart_clearWork hstart _).symm
      _ = start (clearWork (accept op t)) := by rw [clearWork_accept_eq op hv]
      _ = start (accept op t) := issueStart_clearWork hstart _
  simp [hexec, whenIdle, hb, hbt, hstarts]

end Sys2Proof.Machine

/-! ## The step on each kind of input, and the registers -/

namespace Sys2Proof.Machine

open Sys2Proof

theorem step_host {s : State} {op : HostOp} {rest : List Event} (h : s.inputs = .host op :: rest) :
    step s = hostAccess exec op { s with inputs := rest } := by
  simp only [step, stepWith, h]

theorem step_wait {s : State} {rest : List Event} (h : s.inputs = .wait :: rest) :
    step s = hostWait exec rest s := by
  simp only [step, stepWith, h]

theorem step_fetch {s : State} {rest : List Event} (h : s.inputs = .fetch :: rest) :
    step s = .next (hostFetch { s with inputs := rest }) := by
  simp only [step, stepWith, h]

/-- The map of R33: a 32-bit access at a register's offset reaches it. -/
theorem checkReg_offset (r : Reg) : checkReg .w32 r.offset = .ok r := by
  cases r <;> rfl

theorem hostAccess_regRead (r : Reg) (s : State) :
    hostAccess exec (.regRead .w32 r.offset) s = .next (logRead (readReg r s) s) := by
  simp only [hostAccess, checkReg_offset]

theorem hostAccess_regWrite {r : Reg} (hr : r ≠ .cmd) (v : Word) (s : State) :
    hostAccess exec (.regWrite .w32 r.offset v) s = .next (writeReg r v s) := by
  simp only [hostAccess, checkReg_offset]

theorem hostAccess_cmdWrite {v : Word} {i : Instr} (hd : decode (.command v) = .ok i) (s : State) :
    hostAccess exec (.regWrite .w32 0x00 v) s = exec i s := by
  have hc : checkReg .w32 0x00 = .ok .cmd := rfl
  simp only [hostAccess, hc, writeCmd, hd]

/-- No register reads the inputs still to come. -/
theorem readReg_inputs (r : Reg) (s : State) (inputs : List Event) :
    readReg r { s with inputs := inputs } = readReg r s := by
  cases r <;> rfl

/-- What a write of each register stores while the engine is idle (R33, R40, R42, R44). -/
theorem writeReg_idle {s : State} (hb : s.status.busy = false) {r : Reg} (v : Word) :
    writeReg r v s =
      { s with
        srcLen := if r = .srcLen then v else s.srcLen
        lzCfg := if r = .lzCfg then v else s.lzCfg
        decTag := if r = .decCodec then tagField v else s.decTag } := by
  cases r <;> simp [writeReg, hb]

/-- A write to STATUS is ignored, busy or not (R35). -/
theorem writeReg_status (v : Word) (s : State) : writeReg .status v s = s := by
  unfold writeReg
  split <;> rfl

/-- A field that starts past the low part of a concatenation lies in its high part. -/
theorem extractLsb'_append_past {v w start len : Nat} (x : BitVec v) (y : BitVec w) (h : w ≤ start := by decide) :
    (x ++ y).extractLsb' start len = x.extractLsb' (start - w) len :=
  BitVec.extractLsb'_append_eq_of_le h

/-- Each part of the concatenation that STATUS is stands at its place. -/
theorem fields_of_append {codec err : BitVec 4} {done busy : Bool} {x : BitVec (20 + 4 + 4 + 2 + 1 + 1)}
    (hx : x = 0#20 ++ codec ++ err ++ 0#2 ++ BitVec.ofBool done ++ BitVec.ofBool busy) :
    x.getLsbD 0 = busy ∧ x.getLsbD 1 = done ∧ x.extractLsb' 2 2 = 0#2 ∧ x.extractLsb' 4 4 = err
      ∧ x.extractLsb' 8 4 = codec ∧ x.extractLsb' 12 20 = 0#20 := by
  refine ⟨?_, ?_, ?_, ?_, ?_, ?_⟩
  · rw [hx, BitVec.getLsbD_append]
    simp
  · rw [hx, BitVec.getLsbD_append, BitVec.getLsbD_append]
    simp
  · rw [hx, extractLsb'_append_past, extractLsb'_append_past]
    exact BitVec.extractLsb'_append_eq_right
  · rw [hx, extractLsb'_append_past, extractLsb'_append_past, extractLsb'_append_past]
    exact BitVec.extractLsb'_append_eq_right
  · rw [hx, extractLsb'_append_past, extractLsb'_append_past, extractLsb'_append_past, extractLsb'_append_past]
    exact BitVec.extractLsb'_append_eq_right
  · rw [hx, extractLsb'_append_past, extractLsb'_append_past, extractLsb'_append_past, extractLsb'_append_past]
    exact BitVec.extractLsb'_append_eq_left

/-- The fields of STATUS (R35). -/
theorem statusWord_fields (st : Status) :
    st.word.getLsbD 0 = st.busy ∧ st.word.getLsbD 1 = st.done
      ∧ st.word.extractLsb' 2 2 = 0#2 ∧ st.word.extractLsb' 4 4 = st.err.code
      ∧ st.word.extractLsb' 8 4 = st.codec.code ∧ st.word.extractLsb' 12 20 = 0#20 :=
  fields_of_append rfl

/-- Settles O4: the layout is `statusWord_fields`, the numbers are the definitions of the codes. -/
theorem statusWordLayout : Obligations.StatusWordLayout := by
  intro s v
  obtain ⟨hbusy, hdone, hlow, herr, hcodec, hhigh⟩ := statusWord_fields s.status
  exact ⟨hbusy, hdone, hlow, herr, hcodec, hhigh, writeReg_status v s, rfl, rfl,
    rfl, rfl, rfl, rfl, rfl, rfl, rfl, rfl, rfl, rfl⟩

/-- The tag stands in the low byte of DEC_CODEC, and bits 31:8 are zero (R44). -/
theorem decCodec_fields (tag : Byte) :
    (tag.setWidth 32).extractLsb' 0 8 = tag ∧ (tag.setWidth 32).extractLsb' 8 24 = 0#24 := by
  constructor
  · ext i hi
    have h32 : i < 32 := by omega
    simp [hi, h32]
  · ext i hi
    simp

/-- Settles O5, one clause per pseudo-instruction and kind of read. -/
theorem registerReadHasNoSideEffect : Obligations.RegisterReadHasNoSideEffect := by
  intro s rest
  refine ⟨fun r h => ?_, ⟨rfl, rfl, rfl, rfl, rfl, rfl, decCodec_fields s.decTag⟩,
    ⟨rfl, rfl, rfl, rfl, rfl, rfl, rfl, rfl⟩, fun h => ⟨fun hd => ?_, fun hd => ?_⟩, fun h => ?_⟩
  · rw [step_host h, hostAccess_regRead, readReg_inputs]
    rfl
  · simp only [step_wait h, hostWait, hd]
    rfl
  · simp only [step_wait h, hostWait, hd]
    rfl
  · rw [step_fetch h]
    rfl

/-- Settles O6 by `writeReg_idle`. -/
theorem idleRegisterWrites : Obligations.IdleRegisterWrites := by
  intro s r v rest hb h hr
  rw [step_host h, hostAccess_regWrite hr, writeReg_idle (s := { s with inputs := rest }) hb]
  rfl

/-- Settles O15. -/
theorem stepRunsWrittenCommand : Obligations.StepRunsWrittenCommand := by
  intro s rest v i h hd
  rw [step_host h, hostAccess_cmdWrite hd]

end Sys2Proof.Machine

/-! ## The ring buffer -/

namespace Sys2Proof.Machine

open Sys2Proof

@[simp] theorem Ring.view_length (r : Ring) : r.view.length = r.len := by
  simp [Ring.view]

theorem Ring.view_getElem (r : Ring) {i : Nat} (h : i < r.view.length) :
    r.view[i] = r.slots.getD ((r.head + i) % r.cap) 0#8 := by
  simp [Ring.view, Ring.get]

/-- While the oldest symbol stands at slot 0, the slots are the window (R45). -/
theorem Ring.view_of_head_zero {r : Ring} (h : r.Wf) (h0 : r.head = 0) : r.view = r.slots := by
  refine List.ext_getElem (by simp [h.slots]) fun i h1 h2 => ?_
  have hi : i < r.cap := by
    have := h.within
    rw [h.slots] at h2
    omega
  rw [Ring.view_getElem, h0, Nat.zero_add, Nat.mod_eq_of_lt hi, List.getD_eq_getElem _ _ h2]

theorem storeSlot_end (slots : List Byte) (c : Byte) : storeSlot slots slots.length c = slots ++ [c] := by
  simp [storeSlot]

theorem storeSlot_inside {slots : List Byte} {i : Nat} (h : i < slots.length) (c : Byte) :
    storeSlot slots i c = slots.set i c :=
  if_pos h

/-- Below capacity the symbol joins the slots (R45). -/
theorem Ring.append_below {r : Ring} (h : r.Wf) (c : Byte) (hl : r.len < r.cap) :
    r.append c = { r with slots := r.slots ++ [c], len := r.len + 1 } := by
  have hslot : (r.head + r.len) % r.cap = r.slots.length := by
    rw [h.headFull hl, h.slots, Nat.zero_add, Nat.mod_eq_of_lt hl]
  rw [Ring.append, if_pos hl, hslot, storeSlot_end]

/-- At capacity the symbol replaces the oldest (R45). -/
theorem Ring.append_full {r : Ring} (h : r.Wf) (c : Byte) (hl : r.len = r.cap) (hc : 0 < r.cap) :
    r.append c = { r with slots := r.slots.set r.head c, head := (r.head + 1) % r.cap } := by
  have hslot : r.head < r.slots.length := by
    rw [h.slots, hl]
    exact h.headIn hc
  rw [Ring.append, if_neg (by omega), if_neg (by omega), storeSlot_inside hslot]

/-- With `W = 0` nothing is held (R45). -/
theorem Ring.append_none {r : Ring} (c : Byte) (hc : r.cap = 0) : r.append c = r := by
  rw [Ring.append, if_neg (by omega), if_pos hc]

@[simp] theorem Ring.append_cap (r : Ring) (c : Byte) : (r.append c).cap = r.cap := by
  unfold Ring.append
  split
  · rfl
  · split <;> rfl

theorem Ring.append_wf {r : Ring} (h : r.Wf) (c : Byte) : (r.append c).Wf := by
  rcases Nat.lt_or_eq_of_le h.within with hl | hl
  · rw [Ring.append_below h c hl]
    exact ⟨hl, by simp [h.slots], fun _ => h.headFull hl, h.headIn⟩
  · rcases Nat.eq_zero_or_pos r.cap with hc | hc
    · rwa [Ring.append_none c hc]
    · rw [Ring.append_full h c hl hc]
      exact ⟨h.within, by simp [h.slots], fun hlt => absurd hl (Nat.ne_of_lt hlt), fun _ => Nat.mod_lt _ hc⟩

/-- A slot is not the one `k` further round the ring, for `k` short of a full turn. -/
theorem ne_add_mod {a k n : Nat} (ha : a < n) (hk0 : 0 < k) (hk : k < n) : a ≠ (a + k) % n := by
  rcases Nat.lt_or_ge (a + k) n with h | h
  · rw [Nat.mod_eq_of_lt h]
    omega
  · rw [Nat.mod_eq_sub_mod h, Nat.mod_eq_of_lt (by omega)]
    omega

/-- The window of a full ring moves by one symbol: slot `head` now holds the newest, and every other position reads the slot
that the position above it read before. -/
theorem Ring.view_append_full {r : Ring} (h : r.Wf) (c : Byte) (hl : r.len = r.cap) (hc : 0 < r.cap) :
    (r.append c).view = r.view.drop 1 ++ [c] := by
  have hhead := h.headIn hc
  have hslots := h.slots
  rw [Ring.append_full h c hl hc]
  refine List.ext_getElem (by simp; omega) fun i h1 h2 => ?_
  have hi : i < r.cap := by
    simp at h1
    omega
  have hpos : ((r.head + 1) % r.cap + i) % r.cap = (r.head + (1 + i)) % r.cap := by
    rw [Nat.mod_add_mod, Nat.add_assoc]
  rw [Ring.view_getElem]
  simp only [hpos]
  rcases Nat.lt_or_ge (1 + i) r.cap with hlt | hge
  · have hne : r.head ≠ (r.head + (1 + i)) % r.cap := ne_add_mod hhead (by omega) hlt
    rw [List.getElem_append_left (by simp; omega), List.getElem_drop, Ring.view_getElem]
    simp [List.getElem?_set_ne hne]
  · have hwrap : (r.head + (1 + i)) % r.cap = r.head := by
      rw [show 1 + i = r.cap by omega, Nat.add_mod_right, Nat.mod_eq_of_lt hhead]
    rw [List.getElem_append_right (by simp; omega), hwrap]
    simp [hslots, hl, hhead]

theorem lastN_of_le {α : Type} {w : Nat} {xs : List α} (h : xs.length ≤ w) : Reference.lastN w xs = xs := by
  simp [Reference.lastN, Nat.sub_eq_zero_of_le h]

/-- Settles O31: below capacity nothing is dropped, at capacity the oldest symbol is, and with `W = 0` the window stays
empty. -/
theorem ringAppendKeepsLastSymbols : Obligations.RingAppendKeepsLastSymbols := by
  intro r c h
  refine ⟨Ring.append_wf h c, Ring.append_cap r c, ?_⟩
  rcases Nat.lt_or_eq_of_le h.within with hl | hl
  · have hwf := Ring.append_wf h c
    rw [lastN_of_le (by simpa using hl), Ring.view_of_head_zero h (h.headFull hl)]
    rw [Ring.append_below h c hl] at hwf ⊢
    exact Ring.view_of_head_zero hwf (h.headFull hl)
  · have hdrop : Reference.lastN r.cap (r.view ++ [c]) = (r.view ++ [c]).drop 1 := by
      simp [Reference.lastN, hl]
    rw [hdrop]
    rcases Nat.eq_zero_or_pos r.cap with hc | hc
    · have hview : r.view = [] := List.eq_nil_of_length_eq_zero (by simp [hl, hc])
      rw [Ring.append_none c hc, hview]
      rfl
    · rw [Ring.view_append_full h c hl hc, List.drop_append_of_le_length (by simp; omega)]

/-! ### What a compressor turn does with the window -/

theorem Ring.appendAll_wf {r : Ring} (h : r.Wf) (cs : List Byte) : (r.appendAll cs).Wf := by
  induction cs generalizing r with
  | nil => exact h
  | cons c cs ih => exact ih (Ring.append_wf h c)

@[simp] theorem Ring.appendAll_cap (r : Ring) (cs : List Byte) : (r.appendAll cs).cap = r.cap := by
  induction cs generalizing r with
  | nil => rfl
  | cons c cs ih => exact (ih (r.append c)).trans (Ring.append_cap r c)

theorem scanWindow_length_le (win look : List Byte) (best : Match) (h : best.length ≤ look.length) :
    (scanWindow win look best).length ≤ look.length := by
  induction win generalizing best with
  | nil => exact h
  | cons w ws ih =>
    refine ih _ ?_
    split
    · exact (commonPrefix_le _ _).2
    · exact h

/-- A match is no longer than the lookahead (R113, R118). -/
theorem findMatch_length_le (win look : List Byte) : (findMatch win look).length ≤ look.length :=
  scanWindow_length_le win look _ (Nat.zero_le _)

/-- A token consumes no more than the lookahead (R115). -/
theorem tokenLength_le (win : List Byte) (c : Byte) (cs : List Byte) :
    tokenLength (findMatch win (c :: cs)) ≤ (c :: cs).length := by
  unfold tokenLength
  split
  · exact findMatch_length_le win _
  · simp

end Sys2Proof.Machine

/-! ## The pieces of a body

`Ensures` says what a piece of a body leaves: where it goes on a postcondition, where it raises an error the legal spaces that
the completion rests on. Each operation of the bodies gets one such statement. -/

namespace Sys2Proof.Machine

open Sys2Proof

/-- A postcondition of a piece of a body. -/
def Body.Ensures {α : Type} (x : Body α) (P : α → State → Prop) : Prop :=
  match x with
  | .done a s => P a s
  | .raised _ s => SpacesLegal s

theorem Body.Ensures.intro {α : Type} {x : Body α} {P : α → State → Prop} (hd : ∀ a t, x = .done a t → P a t)
    (hr : ∀ e t, x = .raised e t → SpacesLegal t) : x.Ensures P := by
  cases x with
  | done a t => exact hd a t rfl
  | raised e t => exact hr e t rfl

theorem Body.Ensures.bind {α β : Type} {x : Body α} {f : α → State → Body β} {P : α → State → Prop}
    {Q : β → State → Prop} (hx : x.Ensures P) (hf : ∀ a s, P a s → (f a s).Ensures Q) : (x.bind f).Ensures Q := by
  cases x with
  | done a s => exact hf a s hx
  | raised e s => exact hx

theorem Body.Ensures.mono {α : Type} {x : Body α} {P Q : α → State → Prop} (hx : x.Ensures P)
    (h : ∀ a s, P a s → Q a s) : x.Ensures Q := by
  cases x with
  | done a s => exact h a s hx
  | raised e s => exact hx

/-- An error completes the command, and the completion rests on the spaces alone. -/
theorem settle_inv {x : Body Unit} (h : x.Ensures fun _ s => Inv s) : Inv (settle x) := by
  cases x with
  | done u s => exact h
  | raised e s => exact complete_inv e h

/-! ### What a piece of a body leaves unchanged -/

/-- No operation of a body changes more than the cursors, OUT, the draws, the free values and the bit units. -/
def BodyFrame (s t : State) : Prop :=
  t = { s with
        inPos := t.inPos, outMem := t.outMem, outPos := t.outPos, env := t.env, freeCount := t.freeCount
        writer := t.writer, reader := t.reader }

theorem BodyFrame.trans {s t u : State} (h1 : BodyFrame s t) (h2 : BodyFrame t u) : BodyFrame s u := by
  unfold BodyFrame at *
  rw [h2, h1]

theorem EmitFrame.bodyFrame {s t : State} (h : EmitFrame s t) : BodyFrame s t := by
  unfold EmitFrame at h
  unfold BodyFrame
  rw [h]

theorem BodyFrame.phase {s t : State} (h : BodyFrame s t) : t.phase = s.phase := (congrArg State.phase h :)
theorem BodyFrame.lz {s t : State} (h : BodyFrame s t) : t.lz = s.lz := (congrArg State.lz h :)
theorem BodyFrame.huf {s t : State} (h : BodyFrame s t) : t.huf = s.huf := (congrArg State.huf h :)
theorem BodyFrame.srcCount {s t : State} (h : BodyFrame s t) : t.srcCount = s.srcCount := (congrArg State.srcCount h :)

/-- Outside a chunk the compressor's state does not depend on the cursor. -/
theorem LzLegal.move {ph : Phase} {z : LzWork} {i n : Nat} (h : LzLegal ph z i n) (hp : ph ≠ .lzEncode) (j : Nat) :
    LzLegal ph z j n := by
  intro hph
  obtain ⟨hring, hcap, hl1, hl2, _⟩ := h hph
  exact ⟨hring, hcap, hl1, hl2, fun he => absurd he hp⟩

theorem Running.of_bodyFrame {s t : State} (h : Running s) (hf : BodyFrame s t) (spaces : SpacesLegal t)
    (cursor : t.inPos ≤ s.srcCount) (stays : t.inPos = s.inPos ∨ s.phase ≠ .lzEncode) (bits : BitsLegal t) :
    Running t where
  spaces := spaces
  command := by
    unfold BodyFrame at hf
    rw [hf]
    exact h.command
  body := by
    rw [hf.phase]
    exact h.body
  cursor := by rwa [hf.srcCount]
  lz := by
    rw [hf.phase, hf.lz, hf.srcCount]
    rcases stays with he | hne
    · rw [he]
      exact h.lz
    · exact h.lz.move hne _
  tables := by
    rw [hf.huf]
    exact h.tables
  indices := by
    rw [hf.phase, hf.huf]
    exact h.indices
  bits := bits

/-- The body goes on in `t` from `s`. -/
structure Continues (s t : State) : Prop where
  running : Running t
  frame : BodyFrame s t

/-- The body goes on in `t` from `s`, and `in_pos` has not moved. -/
structure ContinuesAt (s t : State) : Prop extends Continues s t where
  inPos : t.inPos = s.inPos

theorem Continues.trans {s t u : State} (h1 : Continues s t) (h2 : Continues t u) : Continues s u :=
  ⟨h2.running, h1.frame.trans h2.frame⟩

theorem ContinuesAt.refl {s : State} (h : Running s) : ContinuesAt s s := ⟨⟨h, rfl⟩, rfl⟩

theorem ContinuesAt.trans {s t u : State} (h1 : ContinuesAt s t) (h2 : ContinuesAt t u) : ContinuesAt s u :=
  ⟨h1.toContinues.trans h2.toContinues, h2.inPos.trans h1.inPos⟩

/-- `in_pos` may move inside the artifact, but not inside an LZ77 chunk. -/
theorem Running.moveTo {s : State} (h : Running s) {j : Nat} (hj : j ≤ s.srcCount) (hp : s.phase ≠ .lzEncode) :
    Running { s with inPos := j } :=
  h.of_bodyFrame rfl h.spaces hj (.inr hp) h.bits

/-! ### Reads of IN -/

theorem SpacesLegal.of_env {s t : State} (h : SpacesLegal s) (ht : t = { s with env := t.env }) : SpacesLegal t := by
  rw [ht]
  exact h

theorem inByte_ensures {s : State} (h : Running s) (k : Nat) :
    (inByte k s).Ensures fun _ t => ContinuesAt s t ∧ k < s.srcCount := by
  refine .intro (fun b t hx => ?_) (fun e t hx => h.spaces.of_env (inByte_raised hx).2)
  obtain ⟨hk, hf, _⟩ := inByte_done hx
  have frame : BodyFrame s t := by
    unfold BodyFrame
    rw [hf]
  have spaces : SpacesLegal t := by
    rw [hf]
    exact h.spaces
  have bits : BitsLegal t := by
    rw [hf]
    exact h.bits
  have hpos : t.inPos = s.inPos := (congrArg State.inPos hf :)
  exact ⟨⟨⟨h.of_bodyFrame frame spaces (hpos ▸ h.cursor) (.inl hpos) bits, frame⟩, hpos⟩, hk⟩

theorem nextByte_ensures {s : State} (h : Running s) (hp : s.phase ≠ .lzEncode) :
    (nextByte s).Ensures fun _ t => Continues s t := by
  refine (inByte_ensures h _).bind fun b s1 ⟨h1, hk⟩ => ?_
  have hk1 : s1.inPos + 1 ≤ s1.srcCount := by
    rw [h1.inPos, h1.frame.srcCount]
    exact hk
  exact ⟨h1.running.moveTo hk1 (h1.frame.phase ▸ hp), h1.frame.trans rfl⟩

theorem nextBytes_ensures {s : State} (h : Running s) (hp : s.phase ≠ .lzEncode) (n : Nat) :
    (nextBytes n s).Ensures fun _ t => Continues s t := by
  induction n generalizing s with
  | zero => exact ⟨h, rfl⟩
  | succ n ih =>
    refine (nextByte_ensures h hp).bind fun b s1 h1 => ?_
    refine (ih h1.running (h1.frame.phase ▸ hp)).bind fun bs s2 h2 => ?_
    exact h1.trans h2

theorem countRun_ensures {s : State} (h : Running s) (c : Byte) (k more run : Nat) (hr : k + run ≤ s.srcCount) :
    (countRun c k more run s).Ensures fun r t => ContinuesAt s t ∧ k + r ≤ s.srcCount := by
  induction more generalizing s run with
  | zero => exact ⟨.refl h, hr⟩
  | succ more ih =>
    unfold countRun
    split
    · refine (inByte_ensures h _).bind fun b s1 ⟨h1, hk⟩ => ?_
      have hcount := h1.frame.srcCount
      split
      · refine (ih h1.running (run + 1) (by omega)).mono fun r t ⟨h2, hr2⟩ => ?_
        exact ⟨h1.trans h2, hcount ▸ hr2⟩
      · exact ⟨h1, hr⟩
    · exact ⟨.refl h, hr⟩

theorem readChunk_ensures {s : State} (h : Running s) (k n : Nat) :
    (readChunk k n s).Ensures fun bs t => ContinuesAt s t ∧ bs.length = n := by
  induction n generalizing s k with
  | zero => exact ⟨.refl h, rfl⟩
  | succ n ih =>
    refine (inByte_ensures h _).bind fun b s1 ⟨h1, _⟩ => ?_
    refine (ih h1.running _).bind fun bs s2 ⟨h2, hl⟩ => ?_
    exact ⟨h1.trans h2, by simp [hl]⟩

/-! ### Writes of OUT -/

theorem emit_ensures {s : State} (h : SpacesLegal s) (b : Byte) :
    (emit b s).Ensures fun _ t => EmitFrame s t ∧ SpacesLegal t := by
  refine .intro (fun u t hx => ?_) (fun e t hx => h.of_env (emit_raised hx).2)
  obtain ⟨hp, hiw, hib, how, hob, _⟩ := h
  obtain ⟨hroom, hf, hpos, hmem⟩ := emit_done hx
  have hparams : t.params = s.params := (congrArg State.params hf :)
  have hin : t.inMem = s.inMem := (congrArg State.inMem hf :)
  refine ⟨hf, ?_⟩
  rw [SpacesLegal, hparams, hin, hpos, hmem]
  exact ⟨hp, hiw, hib, Memory.wf_write _ _ _ how, Memory.below_write _ _ _ _ hob hroom, hroom⟩

/-- What `Emit` leaves, with the bit writer put to a legal value after it. -/
theorem Running.of_emitFrame {s t : State} (h : Running s) (w : BitWriter)
    (hf : EmitFrame { s with writer := w } t) (spaces : SpacesLegal t) (w' : BitWriter) (hw : w'.wcount < 8) :
    ContinuesAt s { t with writer := w' } := by
  have frame : BodyFrame s { t with writer := w' } := by
    unfold EmitFrame at hf
    unfold BodyFrame
    rw [hf]
  have hpos : t.inPos = s.inPos := (congrArg State.inPos hf :)
  have hreader : t.reader = s.reader := (congrArg State.reader hf :)
  have bits : BitsLegal { t with writer := w' } := ⟨hw, hreader ▸ h.bits.2⟩
  exact ⟨⟨h.of_bodyFrame frame spaces (hpos ▸ h.cursor) (.inl hpos) bits, frame⟩, hpos⟩

theorem emit_continues {s : State} (h : Running s) (b : Byte) : (emit b s).Ensures fun _ t => ContinuesAt s t :=
  (emit_ensures h.spaces b).mono fun _ t ⟨hf, spaces⟩ => by
    have hw : t.writer = s.writer := (congrArg State.writer hf :)
    exact h.of_emitFrame s.writer hf spaces t.writer (hw ▸ h.bits.1)

theorem emitAll_continues {s : State} (h : Running s) (bs : List Byte) :
    (emitAll bs s).Ensures fun _ t => ContinuesAt s t := by
  induction bs generalizing s with
  | nil => exact .refl h
  | cons b bs ih =>
    refine (emit_continues h b).bind fun _ s1 h1 => ?_
    exact (ih h1.running).mono fun _ t h2 => h1.trans h2

theorem emitRepeat_continues {s : State} (h : Running s) (c : Byte) (n : Nat) :
    (emitRepeat c n s).Ensures fun _ t => ContinuesAt s t := by
  rw [emitRepeat_eq_emitAll]
  exact emitAll_continues h _

theorem copyOut_continues {s : State} (h : Running s) (j n : Nat) :
    (copyOut j n s).Ensures fun _ t => ContinuesAt s t := by
  induction n generalizing s j with
  | zero => exact .refl h
  | succ n ih =>
    refine (emit_continues h _).bind fun _ s1 h1 => ?_
    exact (ih h1.running _).mono fun _ t h2 => h1.trans h2

theorem copyMatch_continues {s : State} (h : Running s) (offset length : Nat) :
    (copyMatch offset length s).Ensures fun _ t => ContinuesAt s t := by
  unfold copyMatch
  split
  · exact h.spaces
  · split
    · exact h.spaces
    · exact copyOut_continues h _ _

theorem wcount_init : BitWriter.init.wcount < 8 := by decide

theorem putBit_continues {s : State} (h : Running s) (b : Bool) : (putBit b s).Ensures fun _ t => ContinuesAt s t := by
  simp only [putBit]
  split
  · refine (emit_ensures (s := { s with writer := ⟨addBit b s.writer, s.writer.wcount + 1⟩ }) h.spaces _).bind fun _ t ⟨hf, spaces⟩ => ?_
    exact h.of_emitFrame _ hf spaces _ wcount_init
  next hne =>
    have hlt : s.writer.wcount + 1 < 8 := Nat.lt_of_le_of_ne h.bits.1 hne
    exact ⟨⟨h.of_bodyFrame rfl h.spaces h.cursor (.inl rfl) ⟨hlt, h.bits.2⟩, rfl⟩, rfl⟩

theorem putBits_continues {s : State} (h : Running s) (bs : List Bool) :
    (putBits bs s).Ensures fun _ t => ContinuesAt s t := by
  induction bs generalizing s with
  | nil => exact .refl h
  | cons b bs ih =>
    refine (putBit_continues h b).bind fun _ s1 h1 => ?_
    exact (ih h1.running).mono fun _ t h2 => h1.trans h2

theorem Running.resetWriter {s : State} (h : Running s) : ContinuesAt s { s with writer := BitWriter.init } :=
  ⟨⟨h.of_bodyFrame rfl h.spaces h.cursor (.inl rfl) ⟨wcount_init, h.bits.2⟩, rfl⟩, rfl⟩

theorem flushBits_continues {s : State} (h : Running s) : (flushBits s).Ensures fun _ t => ContinuesAt s t := by
  unfold flushBits
  split
  · refine (emit_continues h _).bind fun _ s1 h1 => ?_
    exact h1.trans h1.running.resetWriter
  · exact h.resetWriter

theorem emitElement_continues {s : State} (h : Running s) (i : Instr) :
    (emitElement i s).Ensures fun _ t => ContinuesAt s t := by
  unfold emitElement emitCode
  split
  · exact .refl h
  · exact emitAll_continues h _
  · exact emitAll_continues h _
  · exact emitAll_continues h _
  · exact putBits_continues h _
  · exact emitAll_continues h _

/-! ### The bit reader -/

theorem latchByte_raised {s t : State} {e : ErrCode} (h : latchByte s = .raised e t) : t = { s with env := t.env } := by
  unfold latchByte at h
  split at h
  · rcases Body.bind_eq_raised.mp h with h1 | ⟨_, _, _, h2⟩
    · exact (inByte_raised h1).2
    · cases h2
  · cases h

theorem readBit_ensures {s : State} (h : Running s) (hp : s.phase ≠ .lzEncode) :
    (readBit s).Ensures fun _ t => Continues s t := by
  refine .intro (fun b t hx => ?_) (fun e t hx => ?_)
  · obtain ⟨hf, _, hbit⟩ := readBit_done hx h.bits.2
    have frame : BodyFrame s t := by
      unfold BodyFrame
      rw [hf]
    have spaces : SpacesLegal t := by
      rw [hf]
      exact h.spaces
    have hw : t.writer = s.writer := (congrArg State.writer hf :)
    have cursor : t.inPos ≤ s.srcCount := by
      obtain ⟨_, s1, hl, h2⟩ := Body.bind_eq_done.mp hx
      obtain ⟨_, _, _, hold, hnew⟩ := latchByte_done hl
      cases h2
      show s1.inPos ≤ s.srcCount
      by_cases h0 : s.reader.rbit = 0
      · obtain ⟨hlt, hpos, _⟩ := hnew h0
        omega
      · rw [hold h0]
        exact h.cursor
    exact ⟨h.of_bodyFrame frame spaces cursor (.inr hp) ⟨hw ▸ h.bits.1, hbit⟩, frame⟩
  · rcases Body.bind_eq_raised.mp hx with h1 | ⟨_, _, _, h2⟩
    · exact h.spaces.of_env (latchByte_raised h1)
    · cases h2

theorem readBits_ensures {s : State} (h : Running s) (hp : s.phase ≠ .lzEncode) (n : Nat) :
    (readBits n s).Ensures fun _ t => Continues s t := by
  induction n generalizing s with
  | zero => exact ⟨h, rfl⟩
  | succ n ih =>
    refine (readBit_ensures h hp).bind fun b s1 h1 => ?_
    refine (ih h1.running (h1.frame.phase ▸ hp)).bind fun bs s2 h2 => ?_
    exact h1.trans h2

end Sys2Proof.Machine

/-! ## The Huffman codec's tables keep their shape -/

namespace Sys2Proof.Machine

open Sys2Proof

theorem countSymbol_length (freq : List Nat) (c : Byte) : (countSymbol freq c).length = freq.length :=
  List.length_set

/-- A node joins the arena after its children. -/
theorem arenaWf_append {arena : List Node} (h : ArenaWf arena) (n : Node)
    (hn : ∀ f l r q, n = .internal f l r q → l < arena.length ∧ r < arena.length) : ArenaWf (arena ++ [n]) := by
  intro i f l r q hi
  rcases Nat.lt_or_ge i arena.length with hlt | hge
  · rw [List.getElem?_append_left hlt] at hi
    exact h i f l r q hi
  · have hlast : i = arena.length := by
      have hsome := (List.getElem?_eq_some_iff.mp hi).1
      rw [List.length_append, List.length_singleton] at hsome
      omega
    subst hlast
    rw [List.getElem?_concat_length] at hi
    exact hn f l r q (Option.some.inj hi)

/-- The children of an arena's internal node are nodes. -/
theorem arenaWf_children {arena : List Node} (h : ArenaWf arena) {i f l r q : Nat}
    (hi : arena[i]? = some (.internal f l r q)) : l < arena.length ∧ r < arena.length := by
  obtain ⟨hl, hr⟩ := h i f l r q hi
  have hlt := (List.getElem?_eq_some_iff.mp hi).1
  exact ⟨hl.trans hlt, hr.trans hlt⟩

/-- Every leaf joins the arena with its queue entry (R174). -/
theorem insertLeaves_legal (cs : List Byte) {h : HufWork} (ht : TablesLegal h)
    (hq : ∀ i ∈ h.queue, i < h.arena.length) :
    TablesLegal (insertLeaves cs h) ∧ (∀ i ∈ (insertLeaves cs h).queue, i < (insertLeaves cs h).arena.length)
      ∧ (cs ≠ [] ∨ h.queue ≠ [] → (insertLeaves cs h).queue ≠ []) := by
  induction cs generalizing h with
  | nil => exact ⟨ht, hq, fun hor => hor.elim (absurd rfl) id⟩
  | cons c cs ih =>
    obtain ⟨hfreq, hcodes, harena, hnodes⟩ := ht
    have tables : TablesLegal
        { h with
          arena := h.arena ++ [.leaf c (h.freq.getD c.toNat 0) h.nextSeq]
          queue := h.queue ++ [h.arena.length]
          nextSeq := h.nextSeq + 1 } :=
      ⟨hfreq, hcodes, arenaWf_append harena _ nofun, hnodes⟩
    obtain ⟨ht', hq', hne⟩ := ih tables (by
      intro i hi
      rcases List.mem_append.mp hi with hold | hnew
      · have := hq i hold
        simp
        omega
      · simp_all)
    exact ⟨ht', hq', fun _ => hne (.inr (by simp))⟩

/-- `ExtractMin` takes one entry out of the queue (R49). -/
theorem extractMin_perm {arena : List Node} {queue rest : List Nat} {a : Nat}
    (h : extractMin arena queue = some (a, rest)) : (a :: rest).Perm queue := by
  induction queue generalizing a rest with
  | nil => cases h
  | cons i q ih =>
    unfold extractMin at h
    split at h
    · cases h
    · split at h
      · cases h
        exact .refl _
      · split at h
        · cases h
        next hq =>
          split at h
          · cases h
          · split at h
            · cases h
              exact (List.Perm.swap i a _).trans ((ih hq).cons i)
            · cases h
              exact .refl _

/-- What a turn of the tree build takes from the queue are nodes. -/
theorem extractMin_inside {arena : List Node} {queue rest : List Nat} {a : Nat}
    (h : extractMin arena queue = some (a, rest)) (hq : ∀ i ∈ queue, i < arena.length) :
    a < arena.length ∧ ∀ i ∈ rest, i < arena.length := by
  have hmem : ∀ i, i ∈ a :: rest ↔ i ∈ queue := fun _ => (extractMin_perm h).mem_iff
  exact ⟨hq a ((hmem a).mp (by simp)), fun i hi => hq i ((hmem i).mp (by simp [hi]))⟩

/-- A merged node joins the arena and the queue (R175). -/
theorem mergeNodes_legal {a b : Nat} {queue : List Nat} (na nb : Node) {h : HufWork} (ht : TablesLegal h)
    (ha : a < h.arena.length) (hb : b < h.arena.length) (hq : ∀ i ∈ queue, i < h.arena.length) :
    TablesLegal (mergeNodes a b queue na nb h) ∧ IndicesLegal .hufBuild (mergeNodes a b queue na nb h) := by
  obtain ⟨hfreq, hcodes, harena, hnodes⟩ := ht
  refine ⟨⟨hfreq, hcodes, arenaWf_append harena _ ?_, hnodes⟩, fun i hi => ?_, by simp [mergeNodes]⟩
  · intro f l r q hn
    cases hn
    exact ⟨ha, hb⟩
  · simp only [mergeNodes, List.mem_append, List.mem_singleton, List.length_append, List.length_singleton] at hi ⊢
    rcases hi with hold | hnew
    · exact (hq i hold).trans (Nat.lt_succ_self _)
    · omega

/-- A complete subtree at `i` returns through the stack of `ParseNode` (R182): the new nodes come after their children, what
the stack still waits with are nodes, and a complete tree has its root in the arena. -/
theorem returnNode_legal (fs : List Frame) {i : Nat} {h : HufWork} (ht : TablesLegal h) (hi : i < h.arena.length)
    (hfs : ∀ l, Frame.wantRight l ∈ fs → l < h.arena.length) :
    TablesLegal (returnNode fs i h).1 ∧ IndicesLegal .hufParse (returnNode fs i h).1
      ∧ ((returnNode fs i h).2 = true → IndicesLegal .hufExtent (returnNode fs i h).1) := by
  induction fs generalizing i h with
  | nil => exact ⟨ht, nofun, fun _ => hi⟩
  | cons f fs ih =>
    cases f with
    | wantLeft =>
      refine ⟨ht, fun l hl => ?_, nofun⟩
      rcases List.mem_cons.mp hl with hnew | hold
      · cases hnew
        exact hi
      · exact hfs l (List.mem_cons_of_mem _ hold)
    | wantRight l =>
      obtain ⟨hfreq, hcodes, harena, hnodes⟩ := ht
      have hl : l < h.arena.length := hfs l List.mem_cons_self
      have tables : TablesLegal { h with arena := h.arena ++ [.internal 0 l i 0] } := by
        refine ⟨hfreq, hcodes, arenaWf_append harena _ ?_, hnodes⟩
        intro f l' r' q hn
        cases hn
        exact ⟨hl, hi⟩
      refine ih tables (by simp) fun l' hl' => ?_
      have := hfs l' (List.mem_cons_of_mem _ hl')
      simp
      omega

/-! ## One engine step keeps the invariant, phase by phase -/

/-- A step's outcome meets the invariant where it is a next state. -/
def NextInv (o : Host.Outcome State Fault Refusal) : Prop := ∀ t, o = .next t → Inv t

theorem nextInv_next {s : State} (h : Inv s) : NextInv (.next s) := by
  intro t ht
  cases ht
  exact h

theorem nextInv_settle {x : Body Unit} (h : x.Ensures fun _ s => Inv s) : NextInv (.next (settle x)) :=
  nextInv_next (settle_inv h)

theorem nextInv_fault (f : Fault) : NextInv (.fault f) := by
  intro t ht
  cases ht

/-- A piece of a body whose end is a completed write. -/
theorem nextInv_settle_continues {s : State} {x : Body Unit} (h : x.Ensures fun _ t => ContinuesAt s t) :
    NextInv (.next (settle x)) :=
  nextInv_settle (h.mono fun _ _ ht => ht.running.inv)

theorem Running.indicesAt {s : State} (h : Running s) {ph : Phase} (hp : s.phase = ph) : IndicesLegal ph s.huf :=
  hp ▸ h.indices

/-- A running command may change its Huffman work and its phase to legal ones outside the LZ77 compressor. -/
theorem Running.enter {s : State} (h : Running s) (ph : Phase) (work : HufWork)
    (hph : ph ≠ .idle ∧ ph ≠ .lzChunk ∧ ph ≠ .lzEncode) (ht : TablesLegal work) (hi : IndicesLegal ph work) :
    Running { s with huf := work, phase := ph } where
  spaces := h.spaces
  command := h.command
  body := hph.1
  cursor := h.cursor
  lz := fun hor => hor.elim (absurd · hph.2.1) (absurd · hph.2.2)
  tables := ht
  indices := hi
  bits := h.bits

/-- A running command may change its Huffman work to a legal one for its phase. -/
theorem Running.withHuf {s : State} (h : Running s) {ph : Phase} (hp : s.phase = ph) (work : HufWork)
    (hph : ph ≠ .idle ∧ ph ≠ .lzChunk ∧ ph ≠ .lzEncode) (ht : TablesLegal work) (hi : IndicesLegal ph work) :
    Running { s with huf := work } := by
  have r := h.enter ph work hph ht hi
  rw [← hp] at r
  exact r

/-! ### RLE -/

theorem rleEncodeStep_ensures {s : State} (h : Running s) (hp : s.phase = .rleEncode) :
    (rleEncodeStep s).Ensures fun _ t => Inv t := by
  unfold rleEncodeStep
  split
  next hlt =>
    refine (inByte_ensures h _).bind fun c s1 ⟨h1, _⟩ => ?_
    refine (countRun_ensures h1.running c s.inPos 254 1 (h1.frame.srcCount ▸ hlt)).bind fun run s2 ⟨h2, hrun⟩ => ?_
    refine (emitElement_continues h2.running _).bind fun _ s3 h3 => ?_
    have h13 : ContinuesAt s1 s3 := h2.trans h3
    have hj : s3.inPos + run ≤ s3.srcCount := by
      rw [h13.inPos, h1.inPos, h13.frame.srcCount]
      exact hrun
    have hne : s3.phase ≠ .lzEncode := by simp [h13.frame.phase, h1.frame.phase, hp]
    exact (h13.running.moveTo hj hne).inv
  · exact complete_inv _ h.spaces

/-! ### LZ77 -/

theorem lzChunkStep_ensures {s : State} (h : Running s) (hp : s.phase = .lzChunk) :
    (lzChunkStep s).Ensures fun _ t => Inv t := by
  unfold lzChunkStep
  split
  · refine (readChunk_ensures h _ _).bind fun chunk s1 ⟨h1, hlen⟩ => ?_
    have r := h1.running
    obtain ⟨hring, hcap, hl1, hl2, _⟩ := r.lz (.inl (h1.frame.phase.trans hp))
    have hlook : chunk.length ≤ s1.lz.lookahead := by
      rw [h1.frame.lz, hlen]
      exact Nat.min_le_left _ _
    have hend : s1.inPos + chunk.length ≤ s1.srcCount := by
      have hmin : chunk.length ≤ s.srcCount - s.inPos := hlen ▸ Nat.min_le_right _ _
      rw [h1.inPos, h1.frame.srcCount]
      omega
    have legal : LzLegal .lzEncode { s1.lz with chunk := chunk, pos := 0 } s1.inPos s1.srcCount :=
      fun _ => ⟨hring, hcap, hl1, hl2, fun _ => ⟨Nat.zero_le _, hlook, hend⟩⟩
    exact Running.inv ⟨r.spaces, r.command, nofun, r.cursor, legal, r.tables, trivial, r.bits⟩
  · exact complete_inv _ h.spaces

/-- The lookahead is the rest of the chunk (R112). -/
theorem look_length (z : LzWork) : z.look.length = z.chunk.length - z.pos := List.length_drop

/-- A token's symbols are consumed from the chunk and from the input (R116). -/
theorem consume_legal {z : LzWork} {i n k : Nat} (h : LzLegal .lzEncode z i n) (hk : k ≤ z.look.length) :
    LzLegal .lzEncode (z.consume k) (i + k) n ∧ i + k ≤ n := by
  obtain ⟨hring, hcap, hl1, hl2, hch⟩ := h (.inr rfl)
  obtain ⟨hpos, hlen, hend⟩ := hch rfl
  rw [look_length] at hk
  refine ⟨fun _ => ⟨Ring.appendAll_wf hring _, ?_, hl1, hl2, fun _ => ⟨?_, hlen, ?_⟩⟩, by omega⟩
  · simpa [LzWork.consume] using hcap
  · simp only [LzWork.consume]
    omega
  · simp only [LzWork.consume]
    omega

theorem lzEncodeStep_ensures {s : State} (h : Running s) (hp : s.phase = .lzEncode) :
    (lzEncodeStep s).Ensures fun _ t => Inv t := by
  unfold lzEncodeStep
  split
  · have legal : LzLegal .lzChunk s.lz s.inPos s.srcCount := by
      obtain ⟨hring, hcap, hl1, hl2, _⟩ := h.lz (.inr hp)
      exact fun _ => ⟨hring, hcap, hl1, hl2, nofun⟩
    exact Running.inv ⟨h.spaces, h.command, nofun, h.cursor, legal, h.tables, trivial, h.bits⟩
  next c cs hlook =>
    refine (emitElement_continues h _).bind fun _ s1 h1 => ?_
    have r := h1.running
    have hp1 : s1.phase = .lzEncode := h1.frame.phase.trans hp
    have hk : tokenLength (findMatch s.lz.win.view (c :: cs)) ≤ s1.lz.look.length := by
      rw [h1.frame.lz, hlook]
      exact tokenLength_le _ c cs
    obtain ⟨legal, cursor⟩ := consume_legal (hp1 ▸ r.lz) hk
    exact Running.inv ⟨r.spaces, r.command, r.body, cursor, hp1 ▸ legal, r.tables, r.indices, r.bits⟩

/-! ### Huffman compressor -/

theorem singleSymbol_continues {s : State} (h : Running s) (c : Byte) (n : Nat) :
    (singleSymbol c n s).Ensures fun _ t => ContinuesAt s t := by
  unfold singleSymbol
  split
  · exact h.spaces
  · exact emitElement_continues h _

theorem hufCountStep_ensures {s : State} (h : Running s) (hp : s.phase = .hufCount) :
    (hufCountStep s).Ensures fun _ t => Inv t := by
  unfold hufCountStep
  split
  · refine (inByte_ensures h _).bind fun c s1 ⟨h1, hk⟩ => ?_
    have r := h1.running
    have hp1 : s1.phase = .hufCount := h1.frame.phase.trans hp
    obtain ⟨hfreq, hcodes, harena, hnodes⟩ := r.tables
    have tables : TablesLegal { s1.huf with freq := countSymbol s1.huf.freq c } :=
      ⟨(countSymbol_length _ _).trans hfreq, hcodes, harena, hnodes⟩
    have hj : s1.inPos + 1 ≤ s1.srcCount := by
      rw [h1.inPos, h1.frame.srcCount]
      exact hk
    have hne : s1.phase ≠ .lzEncode := by simp [hp1]
    exact ((r.withHuf hp1 _ (by decide) tables (r.indicesAt hp1)).moveTo hj hne).inv
  · split
    · exact complete_inv _ h.spaces
    · exact (singleSymbol_continues h _ _).bind fun _ s1 h1 => complete_inv _ h1.running.spaces
    next c cs _ _ =>
      obtain ⟨ht, hq, hne⟩ := insertLeaves_legal (c :: cs) h.tables (h.indicesAt hp)
      exact (h.enter .hufBuild _ (by decide) ht ⟨hq, hne (.inl nofun)⟩).inv

theorem hufBuildStep_inv {s : State} (h : Running s) (hp : s.phase = .hufBuild) : NextInv (hufBuildStep s) := by
  obtain ⟨hq, _⟩ := h.indicesAt hp
  unfold hufBuildStep
  split
  · exact nextInv_fault _
  next a hmin =>
    obtain ⟨ha, _⟩ := extractMin_inside hmin hq
    refine nextInv_next (h.enter .hufCodes { s.huf with root := a, codeTodo := [(a, [])] } (by decide) h.tables ⟨ha, fun p hmem => ?_⟩).inv
    rw [List.mem_singleton.mp hmem]
    exact ha
  next a q _ hmin =>
    obtain ⟨ha, hq1⟩ := extractMin_inside hmin hq
    split
    · exact nextInv_fault _
    next b q' hmin' =>
      obtain ⟨hb, hq2⟩ := extractMin_inside hmin' hq1
      split
      next na nb _ _ =>
        obtain ⟨ht, hi⟩ := mergeNodes_legal na nb h.tables ha hb hq2
        exact nextInv_next (h.withHuf hp _ (by decide) ht hi).inv
      · exact nextInv_fault _

theorem startTree_ensures {s : State} (h : Running s) (hroot : s.huf.root < s.huf.arena.length) :
    (startTree s).Ensures fun _ t => Inv t := by
  refine (emitElement_continues h _).bind fun _ s1 h1 => ?_
  have r := h1.running.resetWriter.running
  have hroot1 : s1.huf.root < s1.huf.arena.length := h1.frame.huf ▸ hroot
  refine (r.enter .hufTree { s1.huf with treeTodo := [s1.huf.root] } (by decide) r.tables ⟨hroot1, fun i hmem => ?_⟩).inv
  rw [List.mem_singleton.mp hmem]
  exact hroot1

theorem hufCodesStep_inv {s : State} (h : Running s) (hp : s.phase = .hufCodes) : NextInv (hufCodesStep s) := by
  obtain ⟨hroot, htodo⟩ := h.indicesAt hp
  obtain ⟨hfreq, hcodes, harena, hnodes⟩ := h.tables
  unfold hufCodesStep
  split
  · exact nextInv_settle (startTree_ensures h hroot)
  next i code todo htd =>
    have hrest : ∀ p ∈ todo, p.1 < s.huf.arena.length := fun p hmem => htodo p (htd ▸ List.mem_cons_of_mem _ hmem)
    split
    · exact nextInv_fault _
    next c _ _ _ =>
      have tables : TablesLegal { s.huf with codes := s.huf.codes.set c.toNat (some code), codeTodo := todo } :=
        ⟨hfreq, List.length_set.trans hcodes, harena, hnodes⟩
      exact nextInv_next (h.withHuf hp _ (by decide) tables ⟨hroot, hrest⟩).inv
    next l r _ hnode =>
      obtain ⟨hl, hr⟩ := arenaWf_children harena hnode
      have tables : TablesLegal { s.huf with codeTodo := (l, code ++ [false]) :: (r, code ++ [true]) :: todo } := h.tables
      exact nextInv_next (h.withHuf hp _ (by decide) tables
        ⟨hroot, List.forall_mem_cons.mpr ⟨hl, List.forall_mem_cons.mpr ⟨hr, hrest⟩⟩⟩).inv

theorem hufTreeStep_inv {s : State} (h : Running s) (hp : s.phase = .hufTree) : NextInv (hufTreeStep s) := by
  obtain ⟨hroot, htodo⟩ := h.indicesAt hp
  have visit : ∀ (e : Instr) (todo : List Nat), (∀ i ∈ todo, i < s.huf.arena.length) →
      NextInv (.next (settle (emitElement e { s with huf := { s.huf with treeTodo := todo } }))) := by
    intro e todo hin
    have visited := h.withHuf hp { s.huf with treeTodo := todo } (by decide) h.tables ⟨hroot, hin⟩
    exact nextInv_settle_continues (emitElement_continues visited e)
  unfold hufTreeStep
  split
  · refine nextInv_settle ((flushBits_continues h).bind fun _ s1 h1 => ?_)
    have body := h1.running.enter .hufBody s1.huf (by decide) h1.running.tables trivial
    exact (body.moveTo (j := 0) (Nat.zero_le _) nofun).inv
  next i todo htd =>
    have hrest : ∀ i ∈ todo, i < s.huf.arena.length := fun i hmem => htodo i (htd ▸ List.mem_cons_of_mem _ hmem)
    split
    · exact nextInv_fault _
    · exact visit _ _ hrest
    next l r _ hnode =>
      obtain ⟨hl, hr⟩ := arenaWf_children h.tables.arena hnode
      exact visit _ _ (List.forall_mem_cons.mpr ⟨hl, List.forall_mem_cons.mpr ⟨hr, hrest⟩⟩)

/-- A code that is undefined costs a free value and nothing else (R48). -/
theorem codeOf_continues {s : State} (h : Running s) (c : Byte) : ContinuesAt s (codeOf c s).2 := by
  unfold codeOf
  split
  · exact .refl h
  · exact ⟨⟨h.of_bodyFrame rfl h.spaces h.cursor (.inl rfl) h.bits, rfl⟩, rfl⟩

theorem hufBodyStep_ensures {s : State} (h : Running s) (hp : s.phase = .hufBody) :
    (hufBodyStep s).Ensures fun _ t => Inv t := by
  unfold hufBodyStep
  split
  · refine (inByte_ensures h _).bind fun c s1 ⟨h1, hk⟩ => ?_
    have h2 := codeOf_continues h1.running c
    refine (putBits_continues h2.running _).bind fun _ s3 h3 => ?_
    have h03 : ContinuesAt s s3 := (h1.trans h2).trans h3
    have hj : s3.inPos + 1 ≤ s3.srcCount := by
      rw [h03.inPos, h03.frame.srcCount]
      exact hk
    exact (h03.running.moveTo hj (by simp [h03.frame.phase, hp])).inv
  · refine (flushBits_continues h).bind fun sig s1 h1 => ?_
    exact (emitElement_continues h1.running _).bind fun _ s2 h2 => complete_inv _ h2.running.spaces

end Sys2Proof.Machine

/-! ## The decompressors

A decompressor's step fetches one element and runs it. Each fetch gives a form of its own place, and each form decodes to the
instructions of that place. -/

namespace Sys2Proof.Machine

open Sys2Proof

/-! ### What each place's form decodes to -/

theorem decodeRle_ok {bs : List Byte} {i : Instr} (h : decode (.rle bs) = .ok i) : ∃ n c, i = .rlePair n c := by
  match bs, h with
  | [n, c], h =>
    cases h
    exact ⟨n, c, rfl⟩
  | [], h | [_], h | _ :: _ :: _ :: _, h => cases h

theorem decodeLz77_ok {bs : List Byte} {i : Instr} (h : decode (.lz77 bs) = .ok i) :
    (∃ c, i = .lz77Literal c) ∨ (∃ o l, i = .lz77Match o l) ∨ ∃ f, i = .lz77ReservedFlag f := by
  simp only [decode] at h
  unfold decodeLz77 at h
  split at h
  · cases h
  · split at h
    · cases h
    · split at h
      · cases h
      · split at h
        · cases h
          exact .inl ⟨_, rfl⟩
        · cases h
          exact .inr (.inl ⟨_, _, rfl⟩)
        · cases h
          exact .inr (.inr ⟨_, rfl⟩)

theorem decodeHufHeader_ok {bs : List Byte} {i : Instr} (h : decode (.hufHeader bs) = .ok i) :
    (∃ hi c n, i = .huffmanSingle hi c n) ∨ i = .huffmanTreeFlag ∨ ∃ f, i = .huffmanReservedFlag f := by
  simp only [decode] at h
  unfold decodeHufHeader at h
  split at h
  · cases h
  · split at h
    · cases h
    · split at h
      · cases h
      · split at h
        · cases h
          exact .inl ⟨_, _, _, rfl⟩
        · split at h
          · cases h
            exact .inr (.inl rfl)
          · cases h
            exact .inr (.inr ⟨_, rfl⟩)

theorem decodeHufNode_ok {bits : List Bool} {i : Instr} (h : decode (.hufNode bits) = .ok i) :
    (∃ x, i = .huffmanTreeLeaf x) ∨ i = .huffmanTreeInternal := by
  simp only [decode] at h
  unfold decodeHufNode at h
  split at h
  · cases h
  · split at h
    · cases h
    · split at h
      · cases h
      · split at h
        · cases h
          exact .inl ⟨_, rfl⟩
        · cases h
          exact .inr rfl

theorem decodeHufTrailing_ok {bs : List Byte} {i : Instr} (h : decode (.hufTrailing bs) = .ok i) :
    ∃ sig, i = .huffmanTrailing sig := by
  simp only [decode] at h
  unfold decodeHufTrailing at h
  split at h
  · cases h
    exact ⟨_, rfl⟩
  · cases h
  · cases h

/-! ### What each fetch gives -/

theorem fetchRle_ensures {s : State} (h : Running s) (hp : s.phase = .rleDecode) :
    (fetchRle s).Ensures fun c t => Continues s t ∧ ∃ bs, c = .rle bs :=
  (nextBytes_ensures h (by simp [hp]) 2).bind fun bs _ h1 => ⟨h1, bs, rfl⟩

theorem fetchLz77_ensures {s : State} (h : Running s) (hp : s.phase = .lzDecode) :
    (fetchLz77 s).Ensures fun c t => Continues s t ∧ ∃ bs, c = .lz77 bs := by
  refine (nextByte_ensures h (by simp [hp])).bind fun flag s1 h1 => ?_
  refine (nextBytes_ensures h1.running (by simp [h1.frame.phase, hp]) _).bind fun rest s2 h2 => ?_
  exact ⟨h1.trans h2, _, rfl⟩

theorem fetchHufHeader_ensures {s : State} (h : Running s) (hp : s.phase = .hufHeader) :
    (fetchHufHeader s).Ensures fun c t => Continues s t ∧ ∃ bs, c = .hufHeader bs := by
  refine (nextByte_ensures h (by simp [hp])).bind fun flag s1 h1 => ?_
  refine (nextBytes_ensures h1.running (by simp [h1.frame.phase, hp]) _).bind fun rest s2 h2 => ?_
  exact ⟨h1.trans h2, _, rfl⟩

/-- The node count stays within `NODE_MAX`: it is tested before a node is counted (R182). -/
theorem fetchHufNode_ensures {s : State} (h : Running s) (hp : s.phase = .hufParse) :
    (fetchHufNode s).Ensures fun c t => (Running t ∧ t.phase = .hufParse) ∧ ∃ bits, c = .hufNode bits := by
  unfold fetchHufNode
  split
  · exact h.spaces
  next hmax =>
    refine (readBit_ensures h (by simp [hp])).bind fun tag s1 h1 => ?_
    have hp1 : s1.phase = .hufParse := h1.frame.phase.trans hp
    obtain ⟨hfreq, hcodes, harena, _⟩ := h1.running.tables
    have hnodes : s1.huf.nodes + 1 ≤ nodeMax := by
      rw [h1.frame.huf]
      omega
    have tables : TablesLegal { s1.huf with nodes := s1.huf.nodes + 1 } := ⟨hfreq, hcodes, harena, hnodes⟩
    have counted : Running (countNode s1) :=
      h1.running.withHuf hp1 _ (by decide) tables (h1.running.indicesAt hp1)
    have hp2 : (countNode s1).phase = .hufParse := hp1
    refine (readBits_ensures counted (by simp [hp2]) _).bind fun rest s2 h2 => ?_
    exact ⟨⟨h2.running, h2.frame.phase.trans hp2⟩, _, rfl⟩

theorem fetchHufTrailing_ensures {s : State} (h : Running s) :
    (fetchHufTrailing s).Ensures fun c t => Continues s t ∧ ∃ bs, c = .hufTrailing bs := by
  unfold fetchHufTrailing
  split
  · exact h.spaces
  · exact (inByte_ensures h _).bind fun b s1 ⟨h1, _⟩ => ⟨h1.toContinues, _, rfl⟩

/-! ### What each element does -/

theorem nextInv_complete {s : State} (h : Running s) (e : ErrCode) : NextInv (.next (complete e s)) :=
  nextInv_next (complete_inv e h.spaces)

theorem exec_rlePair_inv {s : State} (h : Running s) (n c : Byte) : NextInv (exec (.rlePair n c) s) :=
  nextInv_settle_continues (emitRepeat_continues h c n.toNat)

theorem exec_lz77Literal_inv {s : State} (h : Running s) (c : Byte) : NextInv (exec (.lz77Literal c) s) :=
  nextInv_settle_continues (emit_continues h c)

theorem exec_lz77Match_inv {s : State} (h : Running s) (o l : Half) : NextInv (exec (.lz77Match o l) s) :=
  nextInv_settle_continues (copyMatch_continues h o.toNat l.toNat)

theorem exec_huffmanSingle_inv {s : State} (h : Running s) (hi c : Byte) (n : Half) :
    NextInv (exec (.huffmanSingle hi c n) s) := by
  refine nextInv_settle ?_
  unfold repeatSymbol
  split
  · exact h.spaces
  · split
    · exact h.spaces
    · exact (emitRepeat_continues h _ _).bind fun _ s1 h1 => complete_inv _ h1.running.spaces

theorem Running.setReader {s : State} (h : Running s) (r : BitReader) (hr : r.rbit < 8) :
    ContinuesAt s { s with reader := r } :=
  ⟨⟨h.of_bodyFrame rfl h.spaces h.cursor (.inl rfl) ⟨h.bits.1, hr⟩, rfl⟩, rfl⟩

/-- The tree parse starts with an empty arena (R180). -/
theorem exec_huffmanTreeFlag_inv {s : State} (h : Running s) : NextInv (exec .huffmanTreeFlag s) := by
  obtain ⟨hfreq, hcodes, _, _⟩ := h.tables
  have tables : TablesLegal { s.huf with nodes := 0, arena := [], frames := [] } :=
    ⟨hfreq, hcodes, arenaWf_empty, Nat.zero_le _⟩
  have indices : IndicesLegal .hufParse { s.huf with nodes := 0, arena := [], frames := [] } := nofun
  have atByteOne := h.setReader { s.reader with rbyte := 1, rbit := 0 } (Nat.succ_pos 7)
  exact nextInv_next (atByteOne.running.enter .hufParse _ (by decide) tables indices).inv

theorem alignRead_continuesAt {s : State} (h : Running s) : ContinuesAt s (alignRead s) := by
  unfold alignRead
  split
  · exact h.setReader _ (Nat.succ_pos 7)
  · exact .refl h

theorem exec_huffmanTreeLeaf_inv {s : State} (h : Running s) (hp : s.phase = .hufParse) (x : Half) :
    NextInv (exec (.huffmanTreeLeaf x) s) := by
  refine nextInv_next ?_
  split
  · exact complete_inv _ h.spaces
  · obtain ⟨hfreq, hcodes, harena, hnodes⟩ := h.tables
    have leafTables : TablesLegal { s.huf with arena := s.huf.arena ++ [.leaf (x.setWidth 8) 0 0] } :=
      ⟨hfreq, hcodes, arenaWf_append harena _ nofun, hnodes⟩
    obtain ⟨ht, hparse, hroot⟩ := returnNode_legal s.huf.frames (i := s.huf.arena.length) leafTables (by simp)
      fun l hl => by
        have := h.indicesAt hp l hl
        simp
        omega
    have returned := h.withHuf hp _ (by decide) ht hparse
    unfold afterNode
    split
    next hdone =>
      have aligned := alignRead_continuesAt returned
      exact (aligned.running.enter .hufExtent _ (by decide) aligned.running.tables
        (aligned.frame.huf ▸ hroot hdone)).inv
    · exact returned.inv

theorem exec_huffmanTreeInternal_inv {s : State} (h : Running s) (hp : s.phase = .hufParse) :
    NextInv (exec .huffmanTreeInternal s) := by
  have indices : IndicesLegal .hufParse { s.huf with frames := .wantLeft :: s.huf.frames } := by
    intro l hl
    rcases List.mem_cons.mp hl with hnew | hold
    · cases hnew
    · exact h.indicesAt hp l hold
  exact nextInv_next (h.withHuf hp { s.huf with frames := .wantLeft :: s.huf.frames } (by decide) h.tables indices).inv

theorem exec_huffmanTrailing_inv {s : State} (h : Running s) (hp : s.phase = .hufExtent) (sig : Byte) :
    NextInv (exec (.huffmanTrailing sig) s) := by
  refine nextInv_next ?_
  split
  · exact complete_inv _ h.spaces
  · split
    · exact complete_inv _ h.spaces
    · have hroot : s.huf.root < s.huf.arena.length := h.indicesAt hp
      exact (h.enter .hufWalk
        { s.huf with bitsLeft := 8 * (bodyBytes s - 1) + sig.toNat, cur := s.huf.root }
        (by decide) h.tables ⟨hroot, hroot⟩).inv

/-! ### The walk of the body -/

theorem arriveAt_inv {s : State} (h : Running s) (hp : s.phase = .hufWalk) {i : Nat} (hi : i < s.huf.arena.length) :
    NextInv (arriveAt i s) := by
  obtain ⟨hroot, _⟩ := h.indicesAt hp
  unfold arriveAt
  split
  · exact nextInv_fault _
  · refine nextInv_settle ((emit_continues h _).bind fun _ s1 h1 => ?_)
    have hp1 : s1.phase = .hufWalk := h1.frame.phase.trans hp
    have hroot1 : s1.huf.root < s1.huf.arena.length := h1.frame.huf ▸ hroot
    exact (h1.running.withHuf hp1 { s1.huf with cur := s1.huf.root } (by decide) h1.running.tables
      ⟨hroot1, hroot1⟩).inv
  · exact nextInv_next (h.withHuf hp { s.huf with cur := i } (by decide) h.tables ⟨hroot, hi⟩).inv

theorem takeBit_inv {s : State} (h : Running s) (hp : s.phase = .hufWalk) (b : Bool) : NextInv (takeBit b s) := by
  unfold takeBit
  split
  · exact nextInv_fault _
  · exact nextInv_complete h _
  next l r _ hnode =>
    obtain ⟨hl, hr⟩ := arenaWf_children h.tables.arena hnode
    cases b
    · exact arriveAt_inv h hp hl
    · exact arriveAt_inv h hp hr

theorem hufWalkStep_inv {s : State} (h : Running s) (hp : s.phase = .hufWalk) : NextInv (hufWalkStep s) := by
  unfold hufWalkStep
  split
  · exact nextInv_complete h _
  · have hread := readBit_ensures h (by simp [hp])
    split
    next e s1 hx =>
      rw [hx] at hread
      exact nextInv_next (complete_inv e hread)
    next b s1 hx =>
      rw [hx] at hread
      have hp1 : s1.phase = .hufWalk := hread.frame.phase.trans hp
      have counted := hread.running.withHuf hp1 { s1.huf with bitsLeft := s1.huf.bitsLeft - 1 } (by decide)
        hread.running.tables (hread.running.indicesAt hp1)
      exact takeBit_inv counted hp1 b

/-! ### The engine step and the step -/

theorem runFetched_inv {x : Body Code}
    (h : x.Ensures fun c t => ∀ i, decode c = .ok i → NextInv (exec i t)) : NextInv (runFetched exec x) := by
  cases x with
  | raised e s => exact nextInv_next (complete_inv e h)
  | done c s =>
    simp only [runFetched]
    split
    next i hi => exact h i hi
    · intro t ht
      cases ht

theorem runWhileInput_inv {s : State} (h : Running s) {fetch : State → Body Code}
    (hf : NextInv (runFetched exec (fetch s))) : NextInv (runWhileInput exec fetch s) := by
  unfold runWhileInput
  split
  · exact hf
  · exact nextInv_complete h _

theorem rleDecode_inv {s : State} (h : Running s) (hp : s.phase = .rleDecode) :
    NextInv (runWhileInput exec fetchRle s) := by
  refine runWhileInput_inv h (runFetched_inv ((fetchRle_ensures h hp).mono ?_))
  rintro c t ⟨h1, bs, rfl⟩ i hi
  obtain ⟨n, c, rfl⟩ := decodeRle_ok hi
  exact exec_rlePair_inv h1.running n c

theorem lzDecode_inv {s : State} (h : Running s) (hp : s.phase = .lzDecode) :
    NextInv (runWhileInput exec fetchLz77 s) := by
  refine runWhileInput_inv h (runFetched_inv ((fetchLz77_ensures h hp).mono ?_))
  rintro c t ⟨h1, bs, rfl⟩ i hi
  rcases decodeLz77_ok hi with ⟨c, rfl⟩ | ⟨o, l, rfl⟩ | ⟨f, rfl⟩
  · exact exec_lz77Literal_inv h1.running c
  · exact exec_lz77Match_inv h1.running o l
  · exact nextInv_complete h1.running _

theorem hufHeader_inv {s : State} (h : Running s) (hp : s.phase = .hufHeader) :
    NextInv (runWhileInput exec fetchHufHeader s) := by
  refine runWhileInput_inv h (runFetched_inv ((fetchHufHeader_ensures h hp).mono ?_))
  rintro c t ⟨h1, bs, rfl⟩ i hi
  rcases decodeHufHeader_ok hi with ⟨high, c, n, rfl⟩ | rfl | ⟨f, rfl⟩
  · exact exec_huffmanSingle_inv h1.running high c n
  · exact exec_huffmanTreeFlag_inv h1.running
  · exact nextInv_complete h1.running _

theorem hufParse_inv {s : State} (h : Running s) (hp : s.phase = .hufParse) :
    NextInv (runFetched exec (fetchHufNode s)) := by
  refine runFetched_inv ((fetchHufNode_ensures h hp).mono ?_)
  rintro c t ⟨⟨h1, hp1⟩, bits, rfl⟩ i hi
  rcases decodeHufNode_ok hi with ⟨x, rfl⟩ | rfl
  · exact exec_huffmanTreeLeaf_inv h1 hp1 x
  · exact exec_huffmanTreeInternal_inv h1 hp1

theorem hufExtent_inv {s : State} (h : Running s) (hp : s.phase = .hufExtent) :
    NextInv (runFetched exec (fetchHufTrailing s)) := by
  refine runFetched_inv ((fetchHufTrailing_ensures h).mono ?_)
  rintro c t ⟨h1, bs, rfl⟩ i hi
  obtain ⟨sig, rfl⟩ := decodeHufTrailing_ok hi
  exact exec_huffmanTrailing_inv h1.running (h1.frame.phase.trans hp) sig

theorem runPhase_inv {s : State} (h : Running s) : NextInv (runPhase exec s) := by
  unfold runPhase
  split
  next => exact nextInv_fault _
  next hp => exact nextInv_settle (rleEncodeStep_ensures h hp)
  next hp => exact rleDecode_inv h hp
  next hp => exact nextInv_settle (lzChunkStep_ensures h hp)
  next hp => exact nextInv_settle (lzEncodeStep_ensures h hp)
  next hp => exact lzDecode_inv h hp
  next hp => exact nextInv_settle (hufCountStep_ensures h hp)
  next hp => exact hufBuildStep_inv h hp
  next hp => exact hufCodesStep_inv h hp
  next hp => exact hufTreeStep_inv h hp
  next hp => exact nextInv_settle (hufBodyStep_ensures h hp)
  next hp => exact hufHeader_inv h hp
  next hp => exact hufParse_inv h hp
  next hp => exact hufExtent_inv h hp
  next hp => exact hufWalkStep_inv h hp

theorem engineStep_inv {s : State} (h : Inv s) : NextInv (engineStep exec s) := by
  unfold engineStep
  split
  next hb => exact runPhase_inv (h.running hb)
  · exact nextInv_next h

theorem writeReg_inv {s : State} (h : Inv s) (r : Reg) (v : Word) : Inv (writeReg r v s) := by
  cases hb : s.status.busy
  · rw [writeReg_idle hb]
    exact h.of_unread _ _ _ _ _ _ _
  · simpa [writeReg, hb] using h

theorem noteHazard_inv {s : State} (h : Inv s) (k : Nat) : Inv (noteHazard k s) := by
  unfold noteHazard
  split
  · exact h.of_unread _ _ _ _ _ _ _
  · exact h

theorem logRead_inv {s : State} (h : Inv s) (v : Word) : Inv (logRead v s) := h.of_unread _ _ _ _ _ _ _

theorem hostFetchOut_inv {s : State} (h : Inv s) (k : Nat) : Inv (hostFetchOut k s).2 := by
  unfold hostFetchOut
  split
  · exact h.of_unread _ _ _ _ _ _ _
  · exact h

theorem nextInv_refused (r : Refusal) : NextInv (.refused r) := by
  intro t ht
  cases ht

theorem writeCmd_inv {s : State} (h : Inv s) (v : Word) : NextInv (writeCmd exec v s) := by
  obtain ⟨w, hw⟩ := encode_decodeCommand v
  exact fun t ht => exec_command_inv hw h ht

theorem hostAccess_inv {s : State} (h : Inv s) (op : HostOp) : NextInv (hostAccess exec op s) := by
  cases op with
  | regWrite width offset v =>
    simp only [hostAccess]
    split
    · exact nextInv_refused _
    · exact writeCmd_inv h v
    · exact nextInv_next (writeReg_inv h _ v)
  | regRead width offset =>
    simp only [hostAccess]
    split
    · exact nextInv_refused _
    · exact nextInv_next (logRead_inv h _)
  | inWrite k b =>
    simp only [hostAccess, hostWriteIn]
    split
    next hk => exact nextInv_next (noteHazard_inv (h.write_in b hk) k)
    · exact nextInv_refused _
  | outRead k =>
    simp only [hostAccess, hostReadOut]
    split
    · exact nextInv_next (logRead_inv (hostFetchOut_inv h k) _)
    · exact nextInv_refused _

theorem hostWait_inv {s : State} (h : Inv s) (rest : List Event) : NextInv (hostWait exec rest s) := by
  unfold hostWait
  split
  · exact nextInv_next (h.of_unread _ _ _ _ _ _ _)
  · exact engineStep_inv (logRead_inv h _)

/-- Settles O55: the next input is the engine's, the host's or the platform's, and each kind of step keeps the invariant. -/
theorem everyStepKeepsInvariant : Obligations.EveryStepKeepsInvariant := by
  intro s t h
  have taken : ∀ rest, Inv { s with inputs := rest } := fun rest => h.of_unread _ _ _ _ _ rest _
  suffices hstep : NextInv (step s) from hstep t
  unfold step stepWith
  split
  · exact engineStep_inv h
  · exact engineStep_inv (taken _)
  · exact hostAccess_inv (taken _) _
  · exact hostWait_inv h _
  · exact nextInv_next ((taken _).of_unread _ _ _ _ _ _ _)
  · exact nextInv_next (warmReset_inv (spacesLegal_of_inv (taken _)))

end Sys2Proof.Machine

/-! ## The host's accesses to IN and OUT, and the accesses that are refused -/

namespace Sys2Proof.Machine

open Sys2Proof

/-! ### Malformed accesses -/

theorem checkReg_of_width_ne {w : Width} (hw : w ≠ .w32) (off : Nat) : checkReg w off = .error .regWidth :=
  if_pos hw

theorem checkReg_of_misaligned {off : Nat} (ho : off % 4 ≠ 0) : checkReg .w32 off = .error .regMisaligned := by
  simp [checkReg, ho]

/-- The map of R33 ends at 0x20. -/
theorem regAt_of_ge {off : Nat} (ho : 0x20 ≤ off) : regAt off = none := by
  have hne : ∀ k, k < 0x20 → off ≠ k := fun k hk => by omega
  simp [regAt, hne]

theorem checkReg_of_ge {off : Nat} (ha : off % 4 = 0) (ho : 0x20 ≤ off) :
    checkReg .w32 off = .error .regOutOfRange := by
  simp [checkReg, ha, regAt_of_ge ho]

/-- A REG access that `checkReg` refuses is refused with the same reason, be it a read or a write. -/
theorem hostAccess_of_checkReg_error {op : HostOp} {w : Width} {off : Nat} {v : Word} {r : Refusal}
    (hop : op = .regRead w off ∨ op = .regWrite w off v) (hc : checkReg w off = .error r) (s : State) :
    hostAccess exec op s = .refused r := by
  rcases hop with rfl | rfl
  · simp only [hostAccess, hc]
  · simp only [hostAccess, hc]

/-- Settles O8: the three tests of `checkReg` in order, and the bounds of IN and OUT. -/
theorem malformedAccessesRefused : Obligations.MalformedAccessesRefused := by
  intro s rest w off k v b
  refine ⟨fun op hop h => ?_, fun h hk => ?_, fun h hk => ?_⟩
  · rw [step_host h]
    refine ⟨fun hw => ?_, fun hw ho => ?_, fun hw ha ho => ?_⟩
    · exact hostAccess_of_checkReg_error hop (checkReg_of_width_ne hw off) _
    · exact hostAccess_of_checkReg_error hop (hw ▸ checkReg_of_misaligned ho) _
    · exact hostAccess_of_checkReg_error hop (hw ▸ checkReg_of_ge ha ho) _
  · rw [step_host h]
    exact if_neg (Nat.not_lt.mpr hk)
  · rw [step_host h]
    exact if_neg (Nat.not_lt.mpr hk)

/-! ### Byte accesses and `fetch` while the engine is idle -/

/-- A write of IN while no command runs is no hazard (R263). -/
theorem hostWriteIn_idle {s : State} (hb : s.status.busy = false) {k : Nat} (hk : k < s.params.inSize) (b : Byte) :
    hostWriteIn k b s = .next { s with inMem := Memory.write s.inMem k b } := by
  simp [hostWriteIn, noteHazard, hk, hb]

theorem hostReadOut_idle {s : State} (hb : s.status.busy = false) {k : Nat} (hk : k < s.params.outSize) :
    hostReadOut k s = .next (logRead ((s.outByteAt k).setWidth 32) s) := by
  simp [hostReadOut, hostFetchOut, hk, hb]

/-- One `outb` while the engine is idle (R60, R68). -/
theorem step_outRead_idle {s : State} {k : Nat} {rest : List Event} (hb : s.status.busy = false)
    (h : s.inputs = .host (.outRead k) :: rest) (hk : k < s.params.outSize) :
    step s = .next { s with inputs := rest, readLog := (s.outByteAt k).setWidth 32 :: s.readLog } := by
  rw [step_host h]
  exact hostReadOut_idle (s := { s with inputs := rest }) hb hk

theorem runSteps_succ {s t : State} (h : step s = .next t) (n : Nat) : runSteps (n + 1) s = runSteps n t := by
  simp only [runSteps, h]

/-- A run of `outb` reads while the engine is idle logs the bytes in order, the last first. -/
theorem runSteps_outReads_idle (ks : List Nat) {s : State} {rest : List Event} (hb : s.status.busy = false)
    (h : s.inputs = ks.map (fun k => .host (.outRead k)) ++ rest) (hks : ∀ k ∈ ks, k < s.params.outSize) :
    runSteps ks.length s = .next
      { s with
        inputs := rest
        readLog := (ks.map fun k => (s.outByteAt k).setWidth 32).reverse ++ s.readLog } := by
  induction ks generalizing s with
  | nil =>
    have hs : s.inputs = rest := h
    rw [← hs]
    rfl
  | cons k ks ih =>
    obtain ⟨hk, hrest⟩ := List.forall_mem_cons.mp hks
    rw [List.map_cons, List.cons_append] at h
    rw [List.length_cons, runSteps_succ (step_outRead_idle hb h hk)]
    rw [ih]
    · simp [State.outByteAt]
    · exact hb
    · rfl
    · exact hrest

/-- Settles O9: a write is read back, a read logs its byte, and `fetch` is one read of OUT_LEN and a run of `outb` reads. -/
theorem idleByteAccesses : Obligations.IdleByteAccesses := by
  intro s rest k b hb
  refine ⟨fun h hk => ?_, step_outRead_idle hb, fun h hlen => ?_⟩
  · have hstep : step s = .next { s with inputs := rest, inMem := Memory.write s.inMem k b } := by
      rw [step_host h]
      exact hostWriteIn_idle (s := { s with inputs := rest }) hb hk b
    refine ⟨_, hstep, rfl, ?_, fun a ha => ?_⟩
    · simp [State.inByteAt, Memory.read_write_same]
    · simp [State.inByteAt, Memory.read_write_other _ _ _ _ ha]
  · have reads := runSteps_outReads_idle (List.range s.outLen.toNat) (s := hostFetch { s with inputs := rest })
      (rest := rest) hb rfl fun j hj => (List.mem_range.mp hj).trans_le hlen
    rw [List.length_range] at reads
    rw [runSteps_succ (step_fetch h), reads]
    simp [State.outBytes, State.outByteAt, hostFetch, logRead]

end Sys2Proof.Machine

/-! ## The engine's accesses to IN and OUT -/

namespace Sys2Proof.Machine

open Sys2Proof

/-- A listed draw is the next one taken (R65). -/
theorem drawRead_listed {s : State} {d : Bool} {ds : List Bool} (h : s.env.reads = d :: ds) (k : Nat) :
    drawRead k s = (d, { s with env := { s.env with reads := ds } }) := by
  simp only [drawRead, h]

theorem drawWrite_listed {s : State} {d : Bool} {ds : List Bool} (h : s.env.writes = d :: ds) (k : Nat) :
    drawWrite k s = (d, { s with env := { s.env with writes := ds } }) := by
  simp only [drawWrite, h]

/-- `InByte` past the artifact: no draw (R62, R237). -/
theorem inByte_truncated {k : Nat} {s : State} (h : s.srcCount ≤ k) : inByte k s = .raised .ioFailure s :=
  if_pos h

/-- `InByte` inside the artifact is decided by its draw (R62). -/
theorem inByte_of_lt {k : Nat} {s : State} (h : k < s.srcCount) :
    inByte k s =
      if (drawRead k s).1 then .raised .ioFailure (drawRead k s).2
      else .done (fetchIn k (drawRead k s).2).1 (fetchIn k (drawRead k s).2).2 := by
  unfold inByte
  rw [if_neg (Nat.not_le.mpr h)]
  split
  next hd => simp [hd]
  next hd => simp [hd]

/-- A draw does not change what a read of IN returns. -/
theorem fetchIn_drawRead {k : Nat} {s : State} (h : k ∉ s.hazards) :
    fetchIn k (drawRead k s).2 = (s.inByteAt k, (drawRead k s).2) := by
  rw [drawRead_frame]
  exact if_neg (by simpa using h)

/-- `Emit` with OUT full: no draw (R63, R237). -/
theorem emit_full {b : Byte} {s : State} (h : s.params.outSize ≤ s.outPos) : emit b s = .raised .ioFailure s :=
  if_pos h

/-- `Emit` with room in OUT is decided by its draw (R63). -/
theorem emit_of_lt {b : Byte} {s : State} (h : s.outPos < s.params.outSize) :
    emit b s =
      if (drawWrite s.outPos s).1 then .raised .ioFailure (drawWrite s.outPos s).2
      else .done () (putOut b (drawWrite s.outPos s).2) := by
  unfold emit
  rw [if_neg (Nat.not_le.mpr h)]
  split
  next hd => simp [hd]
  next hd => simp [hd]

/-- Settles O25: the bound is tested first, and inside it the draw decides. -/
theorem accessesTestInOrder : Obligations.AccessesTestInOrder := by
  refine ⟨fun k s => ⟨inByte_truncated, fun hk hd => ?_, fun hk hd hz => ?_, drawRead_frame k s,
      fun d ds h => drawRead_listed h k⟩,
    fun b s hpos => ⟨fun hfull => emit_full hfull.ge, fun hne hd => ?_, fun hne hd => ?_, drawWrite_frame _ s,
      fun d ds h => drawWrite_listed h _⟩⟩
  · rw [inByte_of_lt hk, if_pos hd]
  · rw [inByte_of_lt hk, hd, fetchIn_drawRead hz]
    rfl
  · rw [emit_of_lt (hpos.lt_of_ne hne), if_pos hd]
  · have hemit : emit b s = .done () (putOut b (drawWrite s.outPos s).2) := by
      rw [emit_of_lt (hpos.lt_of_ne hne), hd]
      rfl
    obtain ⟨_, frame, cursor, _⟩ := emit_done hemit
    obtain ⟨written, kept⟩ := emit_done_reads hemit
    exact ⟨_, hemit, frame, cursor, rfl, written, kept⟩

end Sys2Proof.Machine

/-! ## Every element a fetch gives has a meaning -/

namespace Sys2Proof.Machine

open Sys2Proof

/-- An artifact element: an instruction that is no command word (R80, R90). -/
def Element (i : Instr) : Prop := ∀ w, encode i ≠ .command w

/-- The form decodes, and to an artifact element. -/
def DecodesToElement (c : Code) : Prop := ∃ i, decode c = .ok i ∧ Element i

/-- Every instruction has a next state: an error is one too (R238). -/
theorem exec_next (i : Instr) (s : State) : ∃ t, exec i s = .next t := by
  cases i <;> exact ⟨_, rfl⟩

theorem decodesToElement_rle {bs : List Byte} (h : bs.length = 2) : DecodesToElement (.rle bs) := by
  obtain ⟨n, c, rfl⟩ := List.length_eq_two.mp h
  exact ⟨.rlePair n c, rfl, nofun⟩

theorem decodesToElement_lz77 {flag : Byte} {rest : List Byte} (h : rest.length = lz77Rest flag) :
    DecodesToElement (.lz77 (flag :: rest)) := by
  have hok : ∃ i, decode (.lz77 (flag :: rest)) = .ok i := by
    simp only [decode, decodeLz77, h, Nat.lt_irrefl, if_false]
    split <;> exact ⟨_, rfl⟩
  obtain ⟨i, hi⟩ := hok
  refine ⟨i, hi, ?_⟩
  rcases decodeLz77_ok hi with ⟨c, rfl⟩ | ⟨o, l, rfl⟩ | ⟨f, rfl⟩ <;> exact nofun

theorem decodesToElement_hufHeader {flag : Byte} {rest : List Byte} (h : rest.length = hufHeaderRest flag) :
    DecodesToElement (.hufHeader (flag :: rest)) := by
  have hok : ∃ i, decode (.hufHeader (flag :: rest)) = .ok i := by
    simp only [decode, decodeHufHeader, h, Nat.lt_irrefl, if_false]
    split
    · exact ⟨_, rfl⟩
    · split <;> exact ⟨_, rfl⟩
  obtain ⟨i, hi⟩ := hok
  refine ⟨i, hi, ?_⟩
  rcases decodeHufHeader_ok hi with ⟨high, c, n, rfl⟩ | rfl | ⟨f, rfl⟩ <;> exact nofun

theorem decodesToElement_hufNode {tag : Bool} {rest : List Bool} (h : rest.length = hufNodeRest tag) :
    DecodesToElement (.hufNode (tag :: rest)) := by
  have hok : ∃ i, decode (.hufNode (tag :: rest)) = .ok i := by
    simp only [decode, decodeHufNode, h, Nat.lt_irrefl, if_false]
    split <;> exact ⟨_, rfl⟩
  obtain ⟨i, hi⟩ := hok
  refine ⟨i, hi, ?_⟩
  rcases decodeHufNode_ok hi with ⟨x, rfl⟩ | rfl <;> exact nofun

/-! ### What each fetch gives -/

theorem readBits_length {n : Nat} {s t : State} {bits : List Bool} (h : readBits n s = .done bits t) :
    bits.length = n := by
  induction n generalizing s bits with
  | zero =>
    cases h
    rfl
  | succ n ih =>
    obtain ⟨b, s1, _, h2⟩ := Body.bind_eq_done.mp h
    obtain ⟨bs, s2, h3, h4⟩ := Body.bind_eq_done.mp h2
    cases h4
    simp [ih h3]

/-- What a fetch gives decodes to an artifact element. -/
def FetchesElement (x : Body Code) : Prop := ∀ c t, x = .done c t → DecodesToElement c

theorem fetchRle_element (s : State) : FetchesElement (fetchRle s) := by
  intro c t h
  obtain ⟨bs, s1, h1, h2⟩ := Body.bind_eq_done.mp h
  cases h2
  exact decodesToElement_rle (nextBytes_done h1).1

theorem fetchLz77_element (s : State) : FetchesElement (fetchLz77 s) := by
  intro c t h
  obtain ⟨flag, s1, _, h2⟩ := Body.bind_eq_done.mp h
  obtain ⟨rest, s2, h3, h4⟩ := Body.bind_eq_done.mp h2
  cases h4
  exact decodesToElement_lz77 (nextBytes_done h3).1

theorem fetchHufHeader_element (s : State) : FetchesElement (fetchHufHeader s) := by
  intro c t h
  obtain ⟨flag, s1, _, h2⟩ := Body.bind_eq_done.mp h
  obtain ⟨rest, s2, h3, h4⟩ := Body.bind_eq_done.mp h2
  cases h4
  exact decodesToElement_hufHeader (nextBytes_done h3).1

theorem fetchHufNode_element (s : State) : FetchesElement (fetchHufNode s) := by
  intro c t h
  unfold fetchHufNode at h
  split at h
  · cases h
  · obtain ⟨tag, s1, _, h2⟩ := Body.bind_eq_done.mp h
    obtain ⟨rest, s2, h3, h4⟩ := Body.bind_eq_done.mp h2
    cases h4
    exact decodesToElement_hufNode (readBits_length h3)

theorem fetchHufTrailing_element (s : State) : FetchesElement (fetchHufTrailing s) := by
  intro c t h
  unfold fetchHufTrailing at h
  split at h
  · cases h
  · obtain ⟨b, s1, _, h2⟩ := Body.bind_eq_done.mp h
    cases h2
    exact ⟨.huffmanTrailing b, rfl, nofun⟩

/-- The element a fetch gives runs; an error of the fetch completes the command. -/
theorem runFetched_eq {x : Body Code} (hx : FetchesElement x) :
    (∃ e t, x = .raised e t ∧ runFetched exec x = .next (complete e t))
      ∨ ∃ c t i, x = .done c t ∧ Element i ∧ runFetched exec x = exec i t := by
  cases x with
  | raised e t => exact .inl ⟨e, t, rfl, rfl⟩
  | done c t =>
    obtain ⟨i, hi, helem⟩ := hx c t rfl
    exact .inr ⟨c, t, i, rfl, helem, by simp only [runFetched, hi]⟩

end Sys2Proof.Machine

/-! ## What an engine step leaves unchanged

One relation, `EngineMove`, holds between the state before and after each piece of a body, whether the piece goes on or raises an
error. It needs no invariant. -/

namespace Sys2Proof.Machine

open Sys2Proof

/-- What an engine step may only read (R39, R61, R74): IN, the operand registers, the parameters, the latch, USED_CFG, CODEC,
the inputs still to come and the host's read log. -/
def State.readOnly (s : State) :
    List Host.Cell × Word × Word × Byte × Params × Latch × Word × CodecId × List Event × List Word :=
  (s.inMem, s.srcLen, s.lzCfg, s.decTag, s.params, s.latch, s.usedCfg, s.status.codec, s.inputs, s.readLog)

/-- OUT and its cursor. -/
def State.outSpace (s : State) : List Host.Cell × Nat × Nat := (s.outMem, s.outEpoch, s.outPos)

/-- `out_pos` does not move back, and only the bytes of OUT that it moves over change (R63). -/
def OutGrows (s t : State) : Prop :=
  s.outPos ≤ t.outPos ∧ ∀ a, (a < s.outPos ∨ t.outPos ≤ a) → t.outByteAt a = s.outByteAt a

/-- What a piece of a body does to the registers and the spaces. -/
structure EngineMove (s t : State) : Prop where
  kept : t.readOnly = s.readOnly
  out : OutGrows s t

theorem OutGrows.of_eq {s t : State} (h : t.outSpace = s.outSpace) : OutGrows s t := by
  simp only [State.outSpace, Prod.mk.injEq] at h
  obtain ⟨hmem, hepoch, hpos⟩ := h
  exact ⟨hpos.ge, fun a _ => by simp only [State.outByteAt, hmem, hepoch]⟩

theorem OutGrows.trans {s t u : State} (h1 : OutGrows s t) (h2 : OutGrows t u) : OutGrows s u := by
  obtain ⟨hle1, ho1⟩ := h1
  obtain ⟨hle2, ho2⟩ := h2
  exact ⟨hle1.trans hle2, fun a ha => (ho2 a (by omega)).trans (ho1 a (by omega))⟩

/-- A change of the engine's own work alone. -/
theorem EngineMove.of_eq {s t : State} (hk : t.readOnly = s.readOnly) (ho : t.outSpace = s.outSpace) : EngineMove s t :=
  ⟨hk, .of_eq ho⟩

theorem EngineMove.refl (s : State) : EngineMove s s := .of_eq rfl rfl

theorem EngineMove.trans {s t u : State} (h1 : EngineMove s t) (h2 : EngineMove t u) : EngineMove s u :=
  ⟨h2.kept.trans h1.kept, h1.out.trans h2.out⟩

theorem complete_readOnly (e : ErrCode) (s : State) : (complete e s).readOnly = s.readOnly := by
  simp [State.readOnly]

/-- A success leaves OUT as it stands (R76). -/
theorem complete_success_move (s : State) : EngineMove s (complete .success s) := by
  refine .of_eq (complete_readOnly _ s) ?_
  simp [State.outSpace, complete, settleOut]

/-! ### The pieces of a body -/

/-- The piece of a body that starts in `s` moves as the engine may, be it to its end or to its error. -/
def Body.MovesFrom {α : Type} (s : State) : Body α → Prop
  | .done _ t => EngineMove s t
  | .raised _ t => EngineMove s t

theorem EngineMove.movesFrom {α : Type} {s t : State} {x : Body α} (h : EngineMove s t) (hx : x.MovesFrom t) :
    x.MovesFrom s := by
  cases x with
  | done a u => exact h.trans hx
  | raised e u => exact h.trans hx

theorem Body.MovesFrom.bind {α β : Type} {s : State} {x : Body α} {f : α → State → Body β} (hx : x.MovesFrom s)
    (hf : ∀ a t, (f a t).MovesFrom t) : (x.bind f).MovesFrom s := by
  cases x with
  | done a t => exact EngineMove.movesFrom hx (hf a t)
  | raised e t => exact hx

theorem inByte_moves (k : Nat) (s : State) : (inByte k s).MovesFrom s := by
  cases h : inByte k s with
  | done b t =>
    obtain ⟨_, hf, _⟩ := inByte_done h
    exact .of_eq (congrArg State.readOnly hf :) (congrArg State.outSpace hf :)
  | raised e t =>
    obtain ⟨_, hf⟩ := inByte_raised h
    exact .of_eq (congrArg State.readOnly hf :) (congrArg State.outSpace hf :)

/-- `Emit` writes at `out_pos` and moves it past the byte (R63). -/
theorem emit_moves (b : Byte) (s : State) : (emit b s).MovesFrom s := by
  cases h : emit b s with
  | done u t =>
    obtain ⟨_, hf, hpos, _⟩ := emit_done h
    have hother := (emit_done_reads h).2
    exact ⟨(congrArg State.readOnly hf :), by omega, fun a ha => hother a (by omega)⟩
  | raised e t =>
    obtain ⟨_, hf⟩ := emit_raised h
    exact .of_eq (congrArg State.readOnly hf :) (congrArg State.outSpace hf :)

theorem emitAll_moves (bs : List Byte) (s : State) : (emitAll bs s).MovesFrom s := by
  induction bs generalizing s with
  | nil => exact .refl s
  | cons b bs ih => exact (emit_moves b s).bind fun _ t => ih t

theorem emitRepeat_moves (c : Byte) (n : Nat) (s : State) : (emitRepeat c n s).MovesFrom s := by
  rw [emitRepeat_eq_emitAll]
  exact emitAll_moves _ s

theorem nextByte_moves (s : State) : (nextByte s).MovesFrom s :=
  (inByte_moves _ s).bind fun _ _ => .of_eq rfl rfl

theorem nextBytes_moves (n : Nat) (s : State) : (nextBytes n s).MovesFrom s := by
  induction n generalizing s with
  | zero => exact .refl s
  | succ n ih => exact (nextByte_moves s).bind fun _ t => (ih t).bind fun _ u => .refl u

theorem countRun_moves (c : Byte) (k more run : Nat) (s : State) : (countRun c k more run s).MovesFrom s := by
  induction more generalizing run s with
  | zero => exact .refl s
  | succ more ih =>
    unfold countRun
    split
    · refine (inByte_moves _ s).bind fun b t => ?_
      split
      · exact ih _ t
      · exact .refl t
    · exact .refl s

theorem readChunk_moves (k n : Nat) (s : State) : (readChunk k n s).MovesFrom s := by
  induction n generalizing k s with
  | zero => exact .refl s
  | succ n ih => exact (inByte_moves k s).bind fun _ t => (ih _ t).bind fun _ u => .refl u

theorem copyOut_moves (j n : Nat) (s : State) : (copyOut j n s).MovesFrom s := by
  induction n generalizing j s with
  | zero => exact .refl s
  | succ n ih => exact (emit_moves _ s).bind fun _ t => ih _ t

theorem copyMatch_moves (offset length : Nat) (s : State) : (copyMatch offset length s).MovesFrom s := by
  unfold copyMatch
  split
  · exact .refl s
  · split
    · exact .refl s
    · exact copyOut_moves _ _ s

theorem putBit_moves (b : Bool) (s : State) : (putBit b s).MovesFrom s := by
  have written : ∀ w, EngineMove s { s with writer := w } := fun w => .of_eq rfl rfl
  simp only [putBit]
  split
  · exact (written _).movesFrom ((emit_moves _ _).bind fun _ _ => .of_eq rfl rfl)
  · exact written _

theorem putBits_moves (bs : List Bool) (s : State) : (putBits bs s).MovesFrom s := by
  induction bs generalizing s with
  | nil => exact .refl s
  | cons b bs ih => exact (putBit_moves b s).bind fun _ t => ih t

theorem flushBits_moves (s : State) : (flushBits s).MovesFrom s := by
  unfold flushBits
  split
  · exact (emit_moves _ s).bind fun _ _ => .of_eq rfl rfl
  · exact .of_eq rfl rfl

theorem latchByte_moves (s : State) : (latchByte s).MovesFrom s := by
  unfold latchByte
  split
  · exact (inByte_moves _ s).bind fun _ _ => .of_eq rfl rfl
  · exact .refl s

theorem readBit_moves (s : State) : (readBit s).MovesFrom s :=
  (latchByte_moves s).bind fun _ _ => .of_eq rfl rfl

theorem readBits_moves (n : Nat) (s : State) : (readBits n s).MovesFrom s := by
  induction n generalizing s with
  | zero => exact .refl s
  | succ n ih => exact (readBit_moves s).bind fun _ t => (ih t).bind fun _ u => .refl u

theorem emitElement_moves (i : Instr) (s : State) : (emitElement i s).MovesFrom s := by
  unfold emitElement emitCode
  split
  · exact .refl _
  · exact emitAll_moves _ _
  · exact emitAll_moves _ _
  · exact emitAll_moves _ _
  · exact putBits_moves _ _
  · exact emitAll_moves _ _

/-! ### The fetches -/

theorem fetchRle_moves (s : State) : (fetchRle s).MovesFrom s :=
  (nextBytes_moves 2 s).bind fun _ t => .refl t

theorem fetchLz77_moves (s : State) : (fetchLz77 s).MovesFrom s :=
  (nextByte_moves s).bind fun _ t => (nextBytes_moves _ t).bind fun _ u => .refl u

theorem fetchHufHeader_moves (s : State) : (fetchHufHeader s).MovesFrom s :=
  (nextByte_moves s).bind fun _ t => (nextBytes_moves _ t).bind fun _ u => .refl u

theorem fetchHufNode_moves (s : State) : (fetchHufNode s).MovesFrom s := by
  unfold fetchHufNode
  split
  · exact .refl s
  · refine (readBit_moves s).bind fun _ t => ?_
    have counted : EngineMove t (countNode t) := .of_eq rfl rfl
    exact counted.movesFrom ((readBits_moves _ _).bind fun _ u => .refl u)

theorem fetchHufTrailing_moves (s : State) : (fetchHufTrailing s).MovesFrom s := by
  unfold fetchHufTrailing
  split
  · exact .refl s
  · exact (inByte_moves _ s).bind fun _ t => .refl t

/-! ### The turns of the compressors -/

theorem rleEncodeStep_moves (s : State) : (rleEncodeStep s).MovesFrom s := by
  unfold rleEncodeStep
  split
  · refine (inByte_moves _ s).bind fun c s1 => (countRun_moves c _ _ _ s1).bind fun run s2 => ?_
    exact (emitElement_moves _ s2).bind fun _ _ => .of_eq rfl rfl
  · exact complete_success_move s

theorem lzChunkStep_moves (s : State) : (lzChunkStep s).MovesFrom s := by
  unfold lzChunkStep
  split
  · exact (readChunk_moves _ _ s).bind fun _ _ => .of_eq rfl rfl
  · exact complete_success_move s

theorem lzEncodeStep_moves (s : State) : (lzEncodeStep s).MovesFrom s := by
  unfold lzEncodeStep
  split
  · exact .of_eq rfl rfl
  · exact (emitElement_moves _ s).bind fun _ _ => .of_eq rfl rfl

theorem singleSymbol_moves (c : Byte) (n : Nat) (s : State) : (singleSymbol c n s).MovesFrom s := by
  unfold singleSymbol
  split
  · exact .refl s
  · exact emitElement_moves _ s

theorem hufCountStep_moves (s : State) : (hufCountStep s).MovesFrom s := by
  unfold hufCountStep
  split
  · exact (inByte_moves _ s).bind fun _ _ => .of_eq rfl rfl
  · split
    · exact complete_success_move s
    · exact (singleSymbol_moves _ _ s).bind fun _ t => complete_success_move t
    · exact .of_eq rfl rfl

theorem startTree_moves (s : State) : (startTree s).MovesFrom s :=
  (emitElement_moves _ s).bind fun _ _ => .of_eq rfl rfl

theorem codeOf_move (c : Byte) (s : State) : EngineMove s (codeOf c s).2 := by
  unfold codeOf
  split
  · exact .refl s
  · exact .of_eq rfl rfl

theorem hufBodyStep_moves (s : State) : (hufBodyStep s).MovesFrom s := by
  unfold hufBodyStep
  split
  · refine (inByte_moves _ s).bind fun c s1 => ?_
    exact (codeOf_move c s1).movesFrom ((putBits_moves _ _).bind fun _ _ => .of_eq rfl rfl)
  · refine (flushBits_moves s).bind fun sig s1 => ?_
    exact (emitElement_moves _ s1).bind fun _ t => complete_success_move t

/-! ### One engine step -/

/-- What a step from `s` answers: it keeps what the engine may only read, and without an error OUT only grows. After an error OUT
is any value (R76). -/
def StepMoves (s : State) (o : Host.Outcome State Fault Refusal) : Prop :=
  ∀ t, o = .next t → t.readOnly = s.readOnly ∧ (t.status.err = .success → OutGrows s t)

theorem stepMoves_next {s t : State} (h : EngineMove s t) : StepMoves s (.next t) := by
  intro u hu
  cases hu
  exact ⟨h.kept, fun _ => h.out⟩

theorem stepMoves_fault (s : State) (f : Fault) : StepMoves s (.fault f) := by
  intro t ht
  cases ht

/-- An error of a body is in ERR, and only a success leaves ERR 0 (R38, R101). -/
theorem stepMoves_complete {s t : State} (h : EngineMove s t) (e : ErrCode) : StepMoves s (.next (complete e t)) := by
  intro u hu
  cases hu
  refine ⟨(complete_readOnly e t).trans h.kept, fun herr => ?_⟩
  have he : e = .success := by simpa using herr
  rw [he]
  exact (h.trans (complete_success_move t)).out

theorem stepMoves_settle {s : State} {x : Body Unit} (h : x.MovesFrom s) : StepMoves s (.next (settle x)) := by
  cases x with
  | done u t => exact stepMoves_next h
  | raised e t => exact stepMoves_complete h e

theorem EngineMove.stepMoves {s t : State} {o : Host.Outcome State Fault Refusal} (h : EngineMove s t)
    (ho : StepMoves t o) : StepMoves s o := by
  intro u hu
  obtain ⟨hkept, hout⟩ := ho u hu
  exact ⟨hkept.trans h.kept, fun herr => h.out.trans (hout herr)⟩

theorem repeatSymbol_moves (h c : Byte) (n : Nat) (s : State) : (repeatSymbol h c n s).MovesFrom s := by
  unfold repeatSymbol
  split
  · exact .refl s
  · split
    · exact .refl s
    · exact (emitRepeat_moves _ _ s).bind fun _ t => complete_success_move t

theorem afterNode_move (r : HufWork × Bool) (s : State) : EngineMove s (afterNode r s) := by
  unfold afterNode alignRead
  split
  · split
    · exact .of_eq rfl rfl
    · exact .of_eq rfl rfl
  · exact .of_eq rfl rfl

/-- A decompressor's effect of each artifact element. -/
theorem exec_element_moves {i : Instr} (h : Element i) (s : State) : StepMoves s (exec i s) := by
  cases i with
  | lz77Literal c => exact stepMoves_settle (emit_moves c s)
  | lz77Match o l => exact stepMoves_settle (copyMatch_moves _ _ s)
  | lz77ReservedFlag f => exact stepMoves_complete (.refl s) _
  | rlePair n c => exact stepMoves_settle (emitRepeat_moves _ _ s)
  | huffmanSingle high c n => exact stepMoves_settle (repeatSymbol_moves _ _ _ s)
  | huffmanTreeFlag => exact stepMoves_next (.of_eq rfl rfl)
  | huffmanReservedFlag f => exact stepMoves_complete (.refl s) _
  | huffmanTreeLeaf x =>
    simp only [exec, execHuffmanTreeLeaf]
    split
    · exact stepMoves_complete (.refl s) _
    · exact stepMoves_next (afterNode_move _ s)
  | huffmanTreeInternal => exact stepMoves_next (.of_eq rfl rfl)
  | huffmanTrailing sig =>
    simp only [exec, execHuffmanTrailing]
    split
    · exact stepMoves_complete (.refl s) _
    · split
      · exact stepMoves_complete (.refl s) _
      · exact stepMoves_next (.of_eq rfl rfl)
  | selCompress | selDecompress | rleCompress | rleDecompress => exact absurd rfl (h _)
  | lz77Compress | lz77Decompress | hufCompress | hufDecompress => exact absurd rfl (h _)
  | reservedOp0 | reservedOp9 | reservedOpA | reservedOpB => exact absurd rfl (h _)
  | reservedOpC | reservedOpD | reservedOpE | reservedOpF => exact absurd rfl (h _)
  | reservedHigh w => exact absurd rfl (h _)

theorem runFetched_moves {s : State} {x : Body Code} (hx : x.MovesFrom s) (he : FetchesElement x) :
    StepMoves s (runFetched exec x) := by
  rcases runFetched_eq he with ⟨e, t, rfl, hrun⟩ | ⟨c, t, i, rfl, helem, hrun⟩
  · rw [hrun]
    exact stepMoves_complete hx e
  · rw [hrun]
    exact EngineMove.stepMoves hx (exec_element_moves helem t)

theorem runWhileInput_moves {s : State} {fetch : State → Body Code} (hx : (fetch s).MovesFrom s)
    (he : FetchesElement (fetch s)) : StepMoves s (runWhileInput exec fetch s) := by
  unfold runWhileInput
  split
  · exact runFetched_moves hx he
  · exact stepMoves_complete (.refl s) _

theorem hufBuildStep_moves (s : State) : StepMoves s (hufBuildStep s) := by
  unfold hufBuildStep
  split
  · exact stepMoves_fault s _
  · exact stepMoves_next (.of_eq rfl rfl)
  · split
    · exact stepMoves_fault s _
    · split
      · exact stepMoves_next (.of_eq rfl rfl)
      · exact stepMoves_fault s _

theorem hufCodesStep_moves (s : State) : StepMoves s (hufCodesStep s) := by
  unfold hufCodesStep
  split
  · exact stepMoves_settle (startTree_moves s)
  · split
    · exact stepMoves_fault s _
    · exact stepMoves_next (.of_eq rfl rfl)
    · exact stepMoves_next (.of_eq rfl rfl)

theorem hufTreeStep_moves (s : State) : StepMoves s (hufTreeStep s) := by
  have visited : ∀ work, EngineMove s { s with huf := work } := fun work => .of_eq rfl rfl
  unfold hufTreeStep
  split
  · exact stepMoves_settle ((flushBits_moves s).bind fun _ _ => .of_eq rfl rfl)
  · split
    · exact stepMoves_fault s _
    · exact stepMoves_settle ((visited _).movesFrom (emitElement_moves _ _))
    · exact stepMoves_settle ((visited _).movesFrom (emitElement_moves _ _))

theorem arriveAt_moves (i : Nat) (s : State) : StepMoves s (arriveAt i s) := by
  unfold arriveAt
  split
  · exact stepMoves_fault s _
  · exact stepMoves_settle ((emit_moves _ s).bind fun _ _ => .of_eq rfl rfl)
  · exact stepMoves_next (.of_eq rfl rfl)

theorem takeBit_moves (b : Bool) (s : State) : StepMoves s (takeBit b s) := by
  unfold takeBit
  split
  · exact stepMoves_fault s _
  · exact stepMoves_complete (.refl s) _
  · exact arriveAt_moves _ s

theorem hufWalkStep_moves (s : State) : StepMoves s (hufWalkStep s) := by
  have hread := readBit_moves s
  unfold hufWalkStep
  split
  · exact stepMoves_complete (.refl s) _
  · split
    next e s1 hx =>
      rw [hx] at hread
      exact stepMoves_complete hread e
    next b s1 hx =>
      rw [hx] at hread
      have counted : EngineMove s1 { s1 with huf := { s1.huf with bitsLeft := s1.huf.bitsLeft - 1 } } := .of_eq rfl rfl
      exact EngineMove.stepMoves (hread.trans counted) (takeBit_moves b _)

theorem runPhase_moves (s : State) : StepMoves s (runPhase exec s) := by
  unfold runPhase
  split
  next => exact stepMoves_fault s _
  next => exact stepMoves_settle (rleEncodeStep_moves s)
  next => exact runWhileInput_moves (fetchRle_moves s) (fetchRle_element s)
  next => exact stepMoves_settle (lzChunkStep_moves s)
  next => exact stepMoves_settle (lzEncodeStep_moves s)
  next => exact runWhileInput_moves (fetchLz77_moves s) (fetchLz77_element s)
  next => exact stepMoves_settle (hufCountStep_moves s)
  next => exact hufBuildStep_moves s
  next => exact hufCodesStep_moves s
  next => exact hufTreeStep_moves s
  next => exact stepMoves_settle (hufBodyStep_moves s)
  next => exact runWhileInput_moves (fetchHufHeader_moves s) (fetchHufHeader_element s)
  next => exact runFetched_moves (fetchHufNode_moves s) (fetchHufNode_element s)
  next => exact runFetched_moves (fetchHufTrailing_moves s) (fetchHufTrailing_element s)
  next => exact hufWalkStep_moves s

theorem engineStep_moves (s : State) : StepMoves s (engineStep exec s) := by
  unfold engineStep
  split
  · exact runPhase_moves s
  · exact stepMoves_next (.refl s)

/-- With no input listed the step is the engine's (R267). -/
theorem step_engine {s : State} (h : s.inputs = []) : step s = engineStep exec s := by
  simp only [step, stepWith, h]

/-- Settles O58: what `engineStep_moves` keeps, field by field. -/
theorem engineKeepsInAndOperands : Obligations.EngineKeepsInAndOperands := by
  intro s t h hstep
  obtain ⟨hkept, _⟩ := engineStep_moves s t (step_engine h ▸ hstep)
  simpa only [State.readOnly, Prod.mk.injEq] using hkept

/-- Settles O59: a step that ends in no error lets OUT grow. -/
theorem engineWritesOutOnlyAtCursor : Obligations.EngineWritesOutOnlyAtCursor := by
  intro s t h _ _ hstep herr
  exact (engineStep_moves s t (step_engine h ▸ hstep)).2 herr

end Sys2Proof.Machine

/-! ## The invariant rules out every fault -/

namespace Sys2Proof.Machine

open Sys2Proof

/-- The step has a next state. -/
def Proceeds (o : Host.Outcome State Fault Refusal) : Prop := ∃ t, o = .next t

/-- The refusals of R67. -/
def HostRefusal (r : Refusal) : Prop :=
  r = .regWidth ∨ r = .regMisaligned ∨ r = .regOutOfRange ∨ r = .inOutOfRange ∨ r = .outOutOfRange

/-- No fault, and no refusal but those of R67. -/
def Orderly (o : Host.Outcome State Fault Refusal) : Prop :=
  (∀ f, o ≠ .fault f) ∧ ∀ r, o = .refused r → HostRefusal r

theorem Proceeds.orderly {o : Host.Outcome State Fault Refusal} (h : Proceeds o) : Orderly o := by
  obtain ⟨t, rfl⟩ := h
  exact ⟨nofun, nofun⟩

theorem orderly_refused {r : Refusal} (h : HostRefusal r) : Orderly (.refused r) := by
  refine ⟨nofun, fun r' hr => ?_⟩
  cases hr
  exact h

theorem proceeds_next (s : State) : Proceeds (.next s) := ⟨s, rfl⟩

/-! ### The decompressors -/

theorem runFetched_proceeds {x : Body Code} (h : FetchesElement x) : Proceeds (runFetched exec x) := by
  rcases runFetched_eq h with ⟨e, t, _, hrun⟩ | ⟨c, t, i, _, _, hrun⟩
  · exact ⟨_, hrun⟩
  · rw [hrun]
    exact exec_next i t

theorem runWhileInput_proceeds {s : State} {fetch : State → Body Code} (h : FetchesElement (fetch s)) :
    Proceeds (runWhileInput exec fetch s) := by
  unfold runWhileInput
  split
  · exact runFetched_proceeds h
  · exact proceeds_next _

theorem arriveAt_proceeds {s : State} {i : Nat} (h : i < s.huf.arena.length) : Proceeds (arriveAt i s) := by
  unfold arriveAt
  rw [List.getElem?_eq_getElem h]
  split
  next heq => cases heq
  · exact proceeds_next _
  · exact proceeds_next _

theorem takeBit_proceeds {s : State} (harena : ArenaWf s.huf.arena) (hcur : s.huf.cur < s.huf.arena.length) (b : Bool) :
    Proceeds (takeBit b s) := by
  unfold takeBit
  split
  next hnone => exact absurd (List.getElem?_eq_none_iff.mp hnone) (Nat.not_le.mpr hcur)
  · exact proceeds_next _
  next l r _ hnode =>
    obtain ⟨hl, hr⟩ := arenaWf_children harena hnode
    cases b
    · exact arriveAt_proceeds hl
    · exact arriveAt_proceeds hr

theorem hufWalkStep_proceeds {s : State} (h : Running s) (hp : s.phase = .hufWalk) : Proceeds (hufWalkStep s) := by
  obtain ⟨_, hcur⟩ := h.indicesAt hp
  have hread := readBit_ensures h (by simp [hp])
  unfold hufWalkStep
  split
  · exact proceeds_next _
  · split
    · exact proceeds_next _
    next b s1 hx =>
      rw [hx] at hread
      have hhuf : s1.huf = s.huf := hread.frame.huf
      refine takeBit_proceeds ?_ ?_ b
      · rw [hhuf]
        exact h.tables.arena
      · rw [hhuf]
        exact hcur

/-! ### The Huffman compressor's tree -/

/-- `ExtractMin` answers on a nonempty queue of nodes (R49). -/
theorem extractMin_some {arena : List Node} {queue : List Nat} (hne : queue ≠ []) (hq : ∀ i ∈ queue, i < arena.length) :
    ∃ a rest, extractMin arena queue = some (a, rest) := by
  induction queue with
  | nil => exact absurd rfl hne
  | cons i rest ih =>
    obtain ⟨hi, hrest⟩ := List.forall_mem_cons.mp hq
    cases rest with
    | nil => exact ⟨i, [], by simp only [extractMin, List.getElem?_eq_getElem hi]⟩
    | cons k ks =>
      obtain ⟨j, rest', hmin⟩ := ih nofun hrest
      have hj : j < arena.length := (extractMin_inside hmin hrest).1
      rw [extractMin, List.getElem?_eq_getElem hi]
      simp only [hmin, List.getElem?_eq_getElem hj]
      split
      · exact ⟨_, _, rfl⟩
      · exact ⟨_, _, rfl⟩

theorem hufBuildStep_proceeds {s : State} (h : Running s) (hp : s.phase = .hufBuild) : Proceeds (hufBuildStep s) := by
  obtain ⟨hq, hne⟩ := h.indicesAt hp
  obtain ⟨a, q, hmin⟩ := extractMin_some hne hq
  obtain ⟨ha, hq1⟩ := extractMin_inside hmin hq
  unfold hufBuildStep
  rw [hmin]
  cases q with
  | nil => exact proceeds_next _
  | cons k ks =>
    obtain ⟨b, q', hmin'⟩ := extractMin_some (List.cons_ne_nil k ks) hq1
    have hb : b < s.huf.arena.length := (extractMin_inside hmin' hq1).1
    simp only [hmin', List.getElem?_eq_getElem ha, List.getElem?_eq_getElem hb]
    exact proceeds_next _

theorem hufCodesStep_proceeds {s : State} (h : Running s) (hp : s.phase = .hufCodes) : Proceeds (hufCodesStep s) := by
  obtain ⟨_, htodo⟩ := h.indicesAt hp
  unfold hufCodesStep
  split
  · exact proceeds_next _
  next i code todo htd =>
    have hi : i < s.huf.arena.length := htodo (i, code) (htd ▸ List.mem_cons_self)
    split
    next hnone => exact absurd (List.getElem?_eq_none_iff.mp hnone) (Nat.not_le.mpr hi)
    · exact proceeds_next _
    · exact proceeds_next _

theorem hufTreeStep_proceeds {s : State} (h : Running s) (hp : s.phase = .hufTree) : Proceeds (hufTreeStep s) := by
  obtain ⟨_, htodo⟩ := h.indicesAt hp
  unfold hufTreeStep
  split
  · exact proceeds_next _
  next i todo htd =>
    have hi : i < s.huf.arena.length := htodo i (htd ▸ List.mem_cons_self)
    split
    next hnone => exact absurd (List.getElem?_eq_none_iff.mp hnone) (Nat.not_le.mpr hi)
    · exact proceeds_next _
    · exact proceeds_next _

/-! ### Every step -/

theorem runPhase_proceeds {s : State} (h : Running s) : Proceeds (runPhase exec s) := by
  unfold runPhase
  split
  next hp => exact absurd hp h.body
  next => exact proceeds_next _
  next => exact runWhileInput_proceeds (fetchRle_element s)
  next => exact proceeds_next _
  next => exact proceeds_next _
  next => exact runWhileInput_proceeds (fetchLz77_element s)
  next => exact proceeds_next _
  next hp => exact hufBuildStep_proceeds h hp
  next hp => exact hufCodesStep_proceeds h hp
  next hp => exact hufTreeStep_proceeds h hp
  next => exact proceeds_next _
  next => exact runWhileInput_proceeds (fetchHufHeader_element s)
  next => exact runFetched_proceeds (fetchHufNode_element s)
  next => exact runFetched_proceeds (fetchHufTrailing_element s)
  next hp => exact hufWalkStep_proceeds h hp

theorem engineStep_proceeds {s : State} (h : Inv s) : Proceeds (engineStep exec s) := by
  unfold engineStep
  split
  next hb => exact runPhase_proceeds (h.running hb)
  · exact proceeds_next s

theorem hostWait_proceeds {s : State} (h : Inv s) (rest : List Event) : Proceeds (hostWait exec rest s) := by
  unfold hostWait
  split
  · exact proceeds_next _
  · exact engineStep_proceeds (logRead_inv h _)

/-- The tests of `checkReg` refuse with the reasons of R67. -/
theorem checkReg_error {w : Width} {off : Nat} {r : Refusal} (h : checkReg w off = .error r) : HostRefusal r := by
  unfold checkReg at h
  split at h
  · cases h
    exact .inl rfl
  · split at h
    · cases h
      exact .inr (.inl rfl)
    · split at h
      · cases h
      · cases h
        exact .inr (.inr (.inl rfl))

/-- A host access goes on or is refused as R67 says, in any state: every word written to CMD has a meaning. -/
theorem hostAccess_orderly (op : HostOp) (s : State) : Orderly (hostAccess exec op s) := by
  cases op with
  | regWrite width offset v =>
    simp only [hostAccess]
    split
    next r hc => exact orderly_refused (checkReg_error hc)
    · exact Proceeds.orderly (exec_next (decodeCommand v) s)
    · exact (proceeds_next _).orderly
  | regRead width offset =>
    simp only [hostAccess]
    split
    next r hc => exact orderly_refused (checkReg_error hc)
    · exact (proceeds_next _).orderly
  | inWrite k b =>
    simp only [hostAccess, hostWriteIn]
    split
    · exact (proceeds_next _).orderly
    · exact orderly_refused (.inr (.inr (.inr (.inl rfl))))
  | outRead k =>
    simp only [hostAccess, hostReadOut]
    split
    · exact (proceeds_next _).orderly
    · exact orderly_refused (.inr (.inr (.inr (.inr rfl))))

/-- Settles O56: an engine step proceeds where the invariant holds, and the host's accesses are orderly anywhere. -/
theorem invariantRulesOutFaults : Obligations.InvariantRulesOutFaults := by
  intro s h
  have taken : ∀ rest, Inv { s with inputs := rest } := fun rest => h.of_unread _ _ _ _ _ rest _
  suffices hstep : Orderly (step s) from hstep
  unfold step stepWith
  split
  · exact (engineStep_proceeds h).orderly
  · exact (engineStep_proceeds (taken _)).orderly
  · exact hostAccess_orderly _ _
  · exact (hostWait_proceeds h _).orderly
  · exact (proceeds_next _).orderly
  · exact (proceeds_next _).orderly

end Sys2Proof.Machine

/-! ## Decoding and encoding

An element's flag says how many bytes follow it, so the decoders of the flagged elements are read off the flag. The fields of an
element are put together by `halfOf` and `bitsValue` and taken apart by `hiByte`, `loByte` and `bitsMsb`. -/

namespace Sys2Proof

/-! ### Fields of two bytes -/

theorem halfOf_hiByte_loByte (v : Half) : halfOf (hiByte v) (loByte v) = v := by
  apply BitVec.eq_of_toNat_eq
  have hv := v.isLt
  simp only [halfOf, hiByte, loByte, BitVec.toNat_ofNat]
  omega

theorem halfOf_toNat (hi lo : Byte) : (halfOf hi lo).toNat = 256 * hi.toNat + lo.toNat := by
  have hhi := hi.isLt
  have hlo := lo.isLt
  simp only [halfOf, BitVec.toNat_ofNat]
  omega

theorem hiByte_halfOf (hi lo : Byte) : hiByte (halfOf hi lo) = hi := by
  apply BitVec.eq_of_toNat_eq
  have hhi := hi.isLt
  have hlo := lo.isLt
  simp only [hiByte, halfOf_toNat, BitVec.toNat_ofNat]
  omega

theorem loByte_halfOf (hi lo : Byte) : loByte (halfOf hi lo) = lo := by
  apply BitVec.eq_of_toNat_eq
  have hlo := lo.isLt
  simp only [loByte, halfOf_toNat, BitVec.toNat_ofNat]
  omega

/-! ### Groups of bits -/

/-- A group of bits read after the value `v` moves `v` up by its length. -/
theorem foldl_bits (bits : List Bool) (v : Nat) :
    bits.foldl (fun v b => 2 * v + b.toNat) v = 2 ^ bits.length * v + bitsValue bits := by
  induction bits generalizing v with
  | nil => simp [bitsValue]
  | cons b bits ih =>
    rw [bitsValue, List.foldl_cons, List.foldl_cons, ih, ih, List.length_cons]
    ring

theorem bitsValue_cons (b : Bool) (bits : List Bool) :
    bitsValue (b :: bits) = 2 ^ bits.length * b.toNat + bitsValue bits := by
  rw [bitsValue, List.foldl_cons, foldl_bits, Nat.mul_zero, Nat.zero_add]

theorem bitsValue_lt (bits : List Bool) : bitsValue bits < 2 ^ bits.length := by
  induction bits with
  | nil => exact Nat.one_pos
  | cons b bits ih =>
    rw [bitsValue_cons, List.length_cons, Nat.pow_succ]
    have hb : 2 ^ bits.length * b.toNat ≤ 2 ^ bits.length * 1 := Nat.mul_le_mul_left _ (Bool.toNat_le b)
    omega

/-- The group of a number's low bits has their value (R153, R155). -/
theorem bitsValue_bitsMsb (n v : Nat) : bitsValue (bitsMsb n v) = v % 2 ^ n := by
  induction n with
  | zero => simp [bitsMsb, bitsValue, Nat.mod_one]
  | succ n ih =>
    rw [bitsMsb, bitsValue_cons, Reference.bitsMsb_length, ih, Nat.toNat_testBit, Nat.mod_pow_succ, Nat.add_comm]

/-- Only the low bits of a number are written. -/
theorem bitsMsb_congr {n v w : Nat} (h : ∀ j, j < n → v.testBit j = w.testBit j) : bitsMsb n v = bitsMsb n w := by
  induction n with
  | zero => rfl
  | succ n ih =>
    rw [bitsMsb, bitsMsb, h n (Nat.lt_succ_self n), ih fun j hj => h j (Nat.lt_succ_of_lt hj)]

/-- A group of bits is written back from its value (R153, R155). -/
theorem bitsMsb_bitsValue (bits : List Bool) : bitsMsb bits.length (bitsValue bits) = bits := by
  induction bits with
  | nil => rfl
  | cons b bits ih =>
    have hlt := bitsValue_lt bits
    have hhead : (bitsValue (b :: bits)).testBit bits.length = b := by
      rw [bitsValue_cons, Nat.testBit_two_pow_mul_add _ hlt]
      cases b <;> simp
    have htail : bitsMsb bits.length (bitsValue (b :: bits)) = bitsMsb bits.length (bitsValue bits) :=
      bitsMsb_congr fun j hj => by rw [bitsValue_cons, Nat.testBit_two_pow_mul_add _ hlt, if_pos hj]
    rw [List.length_cons, bitsMsb, hhead, htail, ih]

/-! ### Flags -/

/-- A flag byte is false, true or reserved (R82 to R84, R86). -/
theorem flag_cases (f : Byte) : f = 0#8 ∨ f = 1#8 ∨ reservedFlag f = true := by
  simp only [reservedFlag, decide_eq_true_eq]
  bv_omega

theorem reservedFlag_ne {f : Byte} (h : reservedFlag f = true) : f ≠ 0#8 ∧ f ≠ 1#8 := by
  simp only [reservedFlag, decide_eq_true_eq] at h
  bv_omega

theorem lz77Rest_reserved {f : Byte} (h : reservedFlag f = true) : lz77Rest f = 0 := by
  obtain ⟨h0, h1⟩ := reservedFlag_ne h
  rw [lz77Rest, if_neg h0, if_neg h1]

theorem hufHeaderRest_reserved {f : Byte} (h : reservedFlag f = true) : hufHeaderRest f = 0 :=
  if_neg (reservedFlag_ne h).2

/-! ### What each decoder answers -/

theorem decodeLz77_literal (c : Byte) : decodeLz77 [0#8, c] = .ok (.lz77Literal c) := rfl

theorem decodeLz77_match (o1 o0 l1 l0 : Byte) :
    decodeLz77 [1#8, o1, o0, l1, l0] = .ok (.lz77Match (halfOf o1 o0) (halfOf l1 l0)) := rfl

theorem decodeLz77_reserved {f : Byte} (h : reservedFlag f = true) : decodeLz77 [f] = .ok (.lz77ReservedFlag f) := by
  simp [decodeLz77, lz77Rest_reserved h]

theorem decodeHufHeader_treeFlag : decodeHufHeader [0#8] = .ok .huffmanTreeFlag := rfl

theorem decodeHufHeader_single (h c n1 n0 : Byte) :
    decodeHufHeader [1#8, h, c, n1, n0] = .ok (.huffmanSingle h c (halfOf n1 n0)) := rfl

theorem decodeHufHeader_reserved {f : Byte} (h : reservedFlag f = true) :
    decodeHufHeader [f] = .ok (.huffmanReservedFlag f) := by
  simp [decodeHufHeader, hufHeaderRest_reserved h, (reservedFlag_ne h).1]

theorem decodeHufNode_internal : decodeHufNode [false] = .ok .huffmanTreeInternal := rfl

theorem decodeHufNode_leaf {rest : List Bool} (h : rest.length = 16) :
    decodeHufNode (true :: rest) = .ok (.huffmanTreeLeaf (BitVec.ofNat 16 (bitsValue rest))) := by
  simp [decodeHufNode, hufNodeRest, h]

/-- A command word above 0xF is reserved whatever its OP (R92). -/
theorem decodeCommand_high {w : Word} (h : w.toNat / 16 ≠ 0) : decodeCommand w = .reservedHigh w := if_pos h

/-- The opcode assignment, over the sixteen words without a high bit (R91, R92). -/
theorem encode_decodeCommand_op : ∀ op : BitVec 4,
    encode (decodeCommand (op.setWidth 32)) = .command (op.setWidth 32)
      ∧ WellFormed (decodeCommand (op.setWidth 32)) := by
  decide

/-! ### A form that decodes is as long as its flag says -/

theorem decodeLz77_length {flag : Byte} {rest : List Byte} {i : Instr} (h : decodeLz77 (flag :: rest) = .ok i) :
    rest.length = lz77Rest flag := by
  simp only [decodeLz77] at h
  split at h
  · cases h
  · split at h
    · cases h
    · omega

theorem decodeHufHeader_length {flag : Byte} {rest : List Byte} {i : Instr}
    (h : decodeHufHeader (flag :: rest) = .ok i) : rest.length = hufHeaderRest flag := by
  simp only [decodeHufHeader] at h
  split at h
  · cases h
  · split at h
    · cases h
    · omega

theorem decodeHufNode_length {tag : Bool} {rest : List Bool} {i : Instr} (h : decodeHufNode (tag :: rest) = .ok i) :
    rest.length = hufNodeRest tag := by
  simp only [decodeHufNode] at h
  split at h
  · cases h
  · split at h
    · cases h
    · omega

/-! ### Encoding what was decoded -/

/-- Every command word is the encoding of its instruction: above 0xF the instruction holds the word, and below it the word is its
OP (R90 to R92). -/
theorem encode_decodeCommand_eq (w : Word) : encode (decodeCommand w) = .command w ∧ WellFormed (decodeCommand w) := by
  by_cases hw : w.toNat / 16 = 0
  · have hop : (opField w).setWidth 32 = w := by
      apply BitVec.eq_of_toNat_eq
      simp only [opField, BitVec.toNat_setWidth, BitVec.extractLsb'_toNat, Nat.shiftRight_zero]
      omega
    rw [← hop]
    exact encode_decodeCommand_op (opField w)
  · rw [decodeCommand_high hw]
    exact ⟨rfl, decide_eq_true hw⟩

theorem encode_of_decodeLz77 {bs : List Byte} {i : Instr} (h : decodeLz77 bs = .ok i) :
    encode i = .lz77 bs ∧ WellFormed i := by
  cases bs with
  | nil => cases h
  | cons flag rest =>
    have hlen := decodeLz77_length h
    rcases flag_cases flag with rfl | rfl | hf
    · obtain ⟨c, rfl⟩ := List.length_eq_one_iff.mp hlen
      cases h
      exact ⟨rfl, rfl⟩
    · obtain ⟨o1, o0, l1, l0, rfl⟩ := List.length_eq_four.mp hlen
      cases h
      exact ⟨by simp [encode, hiByte_halfOf, loByte_halfOf], rfl⟩
    · obtain rfl := List.length_eq_zero_iff.mp (hlen.trans (lz77Rest_reserved hf))
      rw [decodeLz77_reserved hf] at h
      cases h
      exact ⟨rfl, hf⟩

theorem encode_of_decodeRle {bs : List Byte} {i : Instr} (h : decodeRle bs = .ok i) :
    encode i = .rle bs ∧ WellFormed i := by
  match bs, h with
  | [n, c], h =>
    cases h
    exact ⟨rfl, rfl⟩
  | [], h | [_], h | _ :: _ :: _ :: _, h => cases h

theorem encode_of_decodeHufHeader {bs : List Byte} {i : Instr} (h : decodeHufHeader bs = .ok i) :
    encode i = .hufHeader bs ∧ WellFormed i := by
  cases bs with
  | nil => cases h
  | cons flag rest =>
    have hlen := decodeHufHeader_length h
    rcases flag_cases flag with rfl | rfl | hf
    · obtain rfl := List.length_eq_zero_iff.mp hlen
      cases h
      exact ⟨rfl, rfl⟩
    · obtain ⟨high, c, n1, n0, rfl⟩ := List.length_eq_four.mp hlen
      cases h
      exact ⟨by simp [encode, hiByte_halfOf, loByte_halfOf], rfl⟩
    · obtain rfl := List.length_eq_zero_iff.mp (hlen.trans (hufHeaderRest_reserved hf))
      rw [decodeHufHeader_reserved hf] at h
      cases h
      exact ⟨rfl, hf⟩

theorem encode_of_decodeHufNode {bits : List Bool} {i : Instr} (h : decodeHufNode bits = .ok i) :
    encode i = .hufNode bits ∧ WellFormed i := by
  cases bits with
  | nil => cases h
  | cons tag rest =>
    have hlen := decodeHufNode_length h
    cases tag with
    | false =>
      obtain rfl := List.length_eq_zero_iff.mp hlen
      cases h
      exact ⟨rfl, rfl⟩
    | true =>
      have hlen16 : rest.length = 16 := hlen
      have hvalue : (BitVec.ofNat 16 (bitsValue rest)).toNat = bitsValue rest :=
        Nat.mod_eq_of_lt (hlen16 ▸ bitsValue_lt rest)
      have hbits : bitsMsb 16 (bitsValue rest) = rest := hlen16 ▸ bitsMsb_bitsValue rest
      rw [decodeHufNode_leaf hlen16] at h
      cases h
      exact ⟨by rw [encode, hvalue, hbits], rfl⟩

theorem encode_of_decodeHufTrailing {bs : List Byte} {i : Instr} (h : decodeHufTrailing bs = .ok i) :
    encode i = .hufTrailing bs ∧ WellFormed i := by
  match bs, h with
  | [sig], h =>
    cases h
    exact ⟨rfl, rfl⟩
  | [], h | _ :: _ :: _, h => cases h

/-- Settles O14, place by place. -/
theorem encodeOfDecode : Obligations.EncodeOfDecode := by
  intro c i h
  cases c with
  | command w =>
    cases h
    exact encode_decodeCommand_eq w
  | lz77 bs => exact encode_of_decodeLz77 h
  | rle bs => exact encode_of_decodeRle h
  | hufHeader bs => exact encode_of_decodeHufHeader h
  | hufNode bits => exact encode_of_decodeHufNode h
  | hufTrailing bs => exact encode_of_decodeHufTrailing h

/-- Settles O13: a field of two bytes or sixteen bits is put together as it was taken apart, and a reserved row's check sends its
form to no other row. -/
theorem decodeOfEncode : Obligations.DecodeOfEncode := by
  intro i hw
  cases i with
  | selCompress | selDecompress | rleCompress | rleDecompress => rfl
  | lz77Compress | lz77Decompress | hufCompress | hufDecompress => rfl
  | reservedOp0 | reservedOp9 | reservedOpA | reservedOpB => rfl
  | reservedOpC | reservedOpD | reservedOpE | reservedOpF => rfl
  | reservedHigh w => exact congrArg Except.ok (decodeCommand_high (of_decide_eq_true hw))
  | lz77Literal c => exact decodeLz77_literal c
  | lz77Match o l => rw [encode, decode, decodeLz77_match, halfOf_hiByte_loByte, halfOf_hiByte_loByte]
  | lz77ReservedFlag f => exact decodeLz77_reserved hw
  | rlePair n c => rfl
  | huffmanSingle h c n => rw [encode, decode, decodeHufHeader_single, halfOf_hiByte_loByte]
  | huffmanTreeFlag => exact decodeHufHeader_treeFlag
  | huffmanReservedFlag f => exact decodeHufHeader_reserved hw
  | huffmanTreeLeaf x =>
    rw [encode, decode, decodeHufNode_leaf (Reference.bitsMsb_length 16 _), bitsValue_bitsMsb, Nat.mod_eq_of_lt x.isLt,
      BitVec.ofNat_toNat, BitVec.setWidth_eq]
  | huffmanTreeInternal => exact decodeHufNode_internal
  | huffmanTrailing sig => rfl

/-- Settles O12: each written form is an encoding, and decodes to what it encodes. -/
theorem writtenWordsDecode : Obligations.WrittenWordsDecode :=
  ⟨rfl, rfl, rfl, rfl, decodeOfEncode (.reservedHigh 0x15#32) (by decide), decodeOfEncode (.lz77Literal 0x41#8) rfl,
    decodeOfEncode (.lz77Match 0x0006#16 0x0103#16) rfl, decodeOfEncode (.rlePair 0x0A#8 0x61#8) rfl,
    decodeOfEncode (.huffmanSingle 0x00#8 0x61#8 0x0204#16) rfl, decodeOfEncode (.huffmanTreeLeaf 0x0061#16) rfl⟩

end Sys2Proof

/-! ## Commands and tokens that end at once -/

namespace Sys2Proof.Machine

open Sys2Proof

/-- An error after the first lines of issue leaves the command rejected: CODEC and USED_CFG as they were named, nothing of OUT
dropped, since BUSY is not yet set (R76, R100, R101). -/
theorem complete_rejected {e : ErrCode} (he : e ≠ .success) (op : BitVec 4) (c : CodecId) (w : LzPair) (s : State) :
    RejectedAtIssue op e c w s (complete e (nameCodec c w (accept op s))) := by
  have hout : settleOut e (nameCodec c w (accept op s)) = nameCodec c w (accept op s) := by
    simp [settleOut, Status.issued]
  simp [RejectedAtIssue, Latched, IssueFrame, hout, he, Status.issued]

/-- A command whose first check fails has no codec and no pair yet (R39, R43, R235). -/
theorem rejectIllegal_rejected (op : BitVec 4) (s : State) :
    RejectedAtIssue op .illegalCommand .unset noPair s (rejectIllegal op s) :=
  complete_rejected (by decide) op .unset noPair s

theorem exec_illegal_rejected {s : State} (hb : s.status.busy = false) {i : Instr} {op : BitVec 4}
    (hexec : exec i s = .next (whenIdle (rejectIllegal op) s)) :
    ∃ t, exec i s = .next t ∧ RejectedAtIssue op .illegalCommand .unset noPair s t := by
  refine ⟨rejectIllegal op s, ?_, rejectIllegal_rejected op s⟩
  simp [hexec, whenIdle, hb]

/-- `LZ77_COMPRESS` with LOOKAHEAD = 0 is issued as a reserved word is (R120, R235). -/
theorem exec_lz77Compress_illegal {s : State} (hl : lookaheadField s.lzCfg = 0#16) :
    exec .lz77Compress s = .next (whenIdle (rejectIllegal 5#4) s) := by
  have hstart : startLz77 (accept 5#4 s) = rejectIllegal 5#4 s := if_pos hl
  simp only [exec, execLz77Compress, whenIdle, hstart]

/-- Settles O22: each of these commands is `rejectIllegal` with its OP. -/
theorem illegalCommandsRejected : Obligations.IllegalCommandsRejected := by
  intro s hb
  exact ⟨exec_illegal_rejected hb rfl, exec_illegal_rejected hb rfl, exec_illegal_rejected hb rfl,
    exec_illegal_rejected hb rfl, exec_illegal_rejected hb rfl, exec_illegal_rejected hb rfl,
    exec_illegal_rejected hb rfl, exec_illegal_rejected hb rfl, fun w => exec_illegal_rejected hb rfl,
    fun hl => exec_illegal_rejected hb (exec_lz77Compress_illegal hl)⟩

/-- An error of a running body ends the command with it, and OUT is any value (R76, R101, R238). -/
theorem complete_failedInBody {e : ErrCode} (he : e ≠ .success) {s : State} (hb : s.status.busy = true) :
    FailedInBody e s (complete e s) := by
  have hout : settleOut e s = scrambleOut s := if_pos ⟨he, hb⟩
  simp [FailedInBody, hout, he]

/-- A match that reaches back nowhere, or past the start of the output, copies nothing (R124). -/
theorem copyMatch_corrupt {offset : Nat} {s : State} (h : offset = 0 ∨ s.outPos < offset) (length : Nat) :
    copyMatch offset length s = .raised .corruptStream s := by
  unfold copyMatch
  split
  · rfl
  next hne => rw [if_pos (h.resolve_left hne)]

/-- Settles O35: both kinds of token raise CorruptStream before a byte is written. -/
theorem lz77CorruptTokensFail : Obligations.Lz77CorruptTokensFail := by
  intro s hb
  have fails : FailedInBody .corruptStream s (complete .corruptStream s) := complete_failedInBody (by decide) hb
  refine ⟨fun offset length h => ⟨_, ?_, fails⟩, fun f => ⟨_, rfl, fails⟩⟩
  simp only [exec, execLz77Match, copyMatch_corrupt h, settle_raised]

end Sys2Proof.Machine

/-! ## The fetches

A fetch reads the bytes that stand from `in_pos` on, or the bits that stand from the bit cursor on, and takes one draw for each
byte. -/

namespace Sys2Proof.Machine

open Sys2Proof

/-! ### Reads of bytes -/

/-- IN holds these bytes from `in_pos` on, inside the artifact. -/
def State.HoldsNext (s : State) (bs : List Byte) : Prop :=
  s.inPos + bs.length ≤ s.srcCount ∧ ∀ k, k < bs.length → s.inByteAt (s.inPos + k) = bs.getD k 0#8

/-- The first byte stands at `in_pos`. -/
theorem State.HoldsNext.head {s : State} {b : Byte} {bs : List Byte} (h : s.HoldsNext (b :: bs)) :
    s.inPos < s.srcCount ∧ s.inByteAt s.inPos = b := by
  obtain ⟨hlen, hbytes⟩ := h
  simp only [List.length_cons] at hlen
  exact ⟨by omega, hbytes 0 (by simp)⟩

/-- The others stand from the next byte on. -/
theorem State.HoldsNext.tail {s : State} {b : Byte} {bs : List Byte} (h : s.HoldsNext (b :: bs)) (e : Env) :
    ({ s with env := e, inPos := s.inPos + 1 } : State).HoldsNext bs := by
  obtain ⟨hlen, hbytes⟩ := h
  simp only [List.length_cons] at hlen
  have hroom : s.inPos + 1 + bs.length ≤ s.srcCount := by omega
  refine ⟨hroom, fun k hk => ?_⟩
  have hnext : s.inByteAt (s.inPos + (k + 1)) = bs.getD k 0#8 := hbytes (k + 1) (by simpa using hk)
  rwa [Nat.add_comm k 1, ← Nat.add_assoc] at hnext

theorem nextByte_quiet {s : State} {b : Byte} {bs : List Byte} (hq : s.Quiet) (hz : s.hazards = [])
    (h : s.HoldsNext (b :: bs)) :
    ∃ e, nextByte s = .done b { s with env := e, inPos := s.inPos + 1 }
      ∧ ({ s with env := e, inPos := s.inPos + 1 } : State).Quiet := by
  obtain ⟨hlt, hb⟩ := h.head
  obtain ⟨e, hread, hqe⟩ := inByte_quiet hq hlt (by simp [hz])
  exact ⟨e, by rw [nextByte, hread, hb, Body.bind_done], hqe⟩

theorem nextBytes_quiet {bs : List Byte} {s : State} (hq : s.Quiet) (hz : s.hazards = []) (h : s.HoldsNext bs) :
    ∃ e, nextBytes bs.length s = .done bs { s with env := e, inPos := s.inPos + bs.length } := by
  induction bs generalizing s with
  | nil => exact ⟨s.env, rfl⟩
  | cons b bs ih =>
    obtain ⟨e1, hfirst, hq1⟩ := nextByte_quiet hq hz h
    obtain ⟨e, hrest⟩ := ih hq1 hz (h.tail e1)
    refine ⟨e, ?_⟩
    rw [List.length_cons, nextBytes, hfirst, Body.bind_done, hrest, Body.bind_done, Nat.add_comm bs.length,
      Nat.add_assoc]

/-- An element whose flag says how many bytes follow (R81, R86). -/
theorem flagged_quiet {s : State} {flag : Byte} {rest : List Byte} (hq : s.Quiet) (hz : s.hazards = [])
    (h : s.HoldsNext (flag :: rest)) {follow : Byte → Nat} (hl : rest.length = follow flag)
    (form : List Byte → Code) :
    ∃ e, ((nextByte s).bind fun f s1 => (nextBytes (follow f) s1).bind fun r s2 => .done (form (f :: r)) s2)
      = .done (form (flag :: rest)) { s with env := e, inPos := s.inPos + (flag :: rest).length } := by
  obtain ⟨e1, hflag, hq1⟩ := nextByte_quiet hq hz h
  obtain ⟨e, hrest⟩ := nextBytes_quiet hq1 hz (h.tail e1)
  refine ⟨e, ?_⟩
  rw [hflag, Body.bind_done, ← hl, hrest, Body.bind_done, List.length_cons, Nat.add_comm rest.length, Nat.add_assoc]

theorem fetchLz77_quiet {s : State} {bs : List Byte} {i : Instr} (hd : decodeLz77 bs = .ok i) (hq : s.Quiet)
    (hz : s.hazards = []) (h : s.HoldsNext bs) :
    ∃ e, fetchLz77 s = .done (.lz77 bs) { s with env := e, inPos := s.inPos + bs.length } := by
  cases bs with
  | nil => cases hd
  | cons flag rest => exact flagged_quiet hq hz h (decodeLz77_length hd) .lz77

theorem fetchHufHeader_quiet {s : State} {bs : List Byte} {i : Instr} (hd : decodeHufHeader bs = .ok i) (hq : s.Quiet)
    (hz : s.hazards = []) (h : s.HoldsNext bs) :
    ∃ e, fetchHufHeader s = .done (.hufHeader bs) { s with env := e, inPos := s.inPos + bs.length } := by
  cases bs with
  | nil => cases hd
  | cons flag rest => exact flagged_quiet hq hz h (decodeHufHeader_length hd) .hufHeader

theorem fetchRle_quiet {s : State} {bs : List Byte} (hl : bs.length = 2) (hq : s.Quiet) (hz : s.hazards = [])
    (h : s.HoldsNext bs) :
    ∃ e, fetchRle s = .done (.rle bs) { s with env := e, inPos := s.inPos + bs.length } := by
  obtain ⟨e, hread⟩ := nextBytes_quiet hq hz h
  exact ⟨e, by rw [fetchRle, ← hl, hread, Body.bind_done]⟩

theorem fetchHufTrailing_quiet {s : State} (hq : s.Quiet) (hz : s.hazards = []) (h : s.reader.rbyte < s.srcCount) :
    ∃ e, fetchHufTrailing s = .done (.hufTrailing [s.inByteAt (s.srcCount - 1)]) { s with env := e } := by
  obtain ⟨e, hread, _⟩ := inByte_quiet (k := s.srcCount - 1) hq (by omega) (by simp [hz])
  exact ⟨e, by rw [fetchHufTrailing, if_neg (Nat.not_le.mpr h), hread, Body.bind_done]⟩

/-! ### Reads of bits -/

/-- The bit reader reads what IN holds: no access fails, the host has not written IN, and the reader has its byte. -/
structure ReadsStream (s : State) : Prop where
  quiet : s.Quiet
  untouched : s.hazards = []
  ready : ReaderReady s

/-- `t` is `s` past `n` bits of the stream (R154). -/
structure ReadPast (n : Nat) (s t : State) : Prop where
  frame : ReadFrame s t
  reads : ReadsStream t
  cursor : t.bitCursor = s.bitCursor + n

theorem ReadFrame.bitsAt {s t : State} (h : ReadFrame s t) {j : Nat} {bits : List Bool} (hb : s.BitsAt j bits) :
    t.BitsAt j bits := by
  unfold ReadFrame at h
  rw [h]
  exact hb

theorem ReadPast.trans {m n : Nat} {s t u : State} (h1 : ReadPast m s t) (h2 : ReadPast n t u) :
    ReadPast (m + n) s u := by
  obtain ⟨f1, _, c1⟩ := h1
  obtain ⟨f2, r2, c2⟩ := h2
  refine ⟨?_, r2, by omega⟩
  unfold ReadFrame at *
  rw [f2, f1]

theorem bitsAt_head {s : State} {j : Nat} {b : Bool} {bits : List Bool} (h : s.BitsAt j (b :: bits)) :
    s.inBit j = b ∧ j / 8 < s.srcCount := by
  obtain ⟨hbits, hroom⟩ := h
  simp only [List.length_cons] at hroom
  exact ⟨hbits 0 (by simp), by omega⟩

theorem bitsAt_tail {s : State} {j : Nat} {b : Bool} {bits : List Bool} (h : s.BitsAt j (b :: bits)) :
    s.BitsAt (j + 1) bits := by
  obtain ⟨hbits, hroom⟩ := h
  simp only [List.length_cons] at hroom
  refine ⟨fun k hk => ?_, by omega⟩
  have hnext : s.inBit (j + (k + 1)) = bits.getD k false := hbits (k + 1) (by simpa using hk)
  rwa [Nat.add_comm k 1, ← Nat.add_assoc] at hnext

/-- The bit cursor's byte and bit (R51). -/
theorem bitCursor_split {s : State} (h : s.reader.rbit < 8) :
    s.bitCursor / 8 = s.reader.rbyte ∧ s.bitCursor % 8 = s.reader.rbit := by
  unfold State.bitCursor
  omega

/-- The latched byte is the one the cursor stands in. -/
theorem latchByte_quiet {s : State} (h : ReadsStream s) (hk : s.reader.rbyte < s.srcCount) :
    ∃ t, latchByte s = .done () t ∧ ReadFrame s t ∧ t.Quiet
      ∧ t.reader = ⟨s.reader.rbyte, s.reader.rbit, s.inByteAt s.reader.rbyte⟩ := by
  obtain ⟨hq, hz, _, hlatched⟩ := h
  unfold latchByte
  split
  · obtain ⟨e, hread, hqe⟩ := inByte_quiet hq hk (by simp [hz])
    rw [hread]
    exact ⟨_, rfl, rfl, hqe, rfl⟩
  next hbit => exact ⟨s, rfl, rfl, hq, by rw [← hlatched.resolve_left hbit]⟩

/-- Past one bit the reader stands in the same byte, or at the start of the next (R154). -/
theorem advance_cases {r : BitReader} (h : r.rbit < 8) :
    r.advance = ⟨r.rbyte + 1, 0, r.rcur⟩ ∧ r.rbit = 7 ∨ r.advance = ⟨r.rbyte, r.rbit + 1, r.rcur⟩ ∧ r.rbit < 7 := by
  unfold BitReader.advance
  split
  next hlast => exact .inl ⟨rfl, by omega⟩
  next hmid => exact .inr ⟨rfl, by omega⟩

theorem advance_reader {s : State} (hbit : s.reader.rbit < 8) (hcur : s.reader.rcur = s.inByteAt s.reader.rbyte) :
    ReaderReady { s with reader := s.reader.advance }
      ∧ ({ s with reader := s.reader.advance } : State).bitCursor = s.bitCursor + 1 := by
  rcases advance_cases hbit with ⟨hadv, hlast⟩ | ⟨hadv, hmid⟩
  · rw [hadv]
    refine ⟨⟨Nat.succ_pos 7, .inl rfl⟩, ?_⟩
    simp only [State.bitCursor]
    omega
  · rw [hadv]
    exact ⟨⟨Nat.succ_lt_succ hmid, .inr hcur⟩, rfl⟩

theorem readBit_quiet {s : State} {b : Bool} {bits : List Bool} (h : ReadsStream s)
    (hb : s.BitsAt s.bitCursor (b :: bits)) : ∃ t, readBit s = .done b t ∧ ReadPast 1 s t := by
  obtain ⟨hcbyte, hcbit⟩ := bitCursor_split h.ready.1
  obtain ⟨hvalue, hk⟩ := bitsAt_head hb
  rw [State.inBit, hcbyte, hcbit] at hvalue
  rw [hcbyte] at hk
  obtain ⟨s1, hlatch, frame, hq1, hreader⟩ := latchByte_quiet h hk
  have hz : s1.hazards = [] := (congrArg State.hazards frame :).trans h.untouched
  have hbit : s1.reader.rbit < 8 := hreader ▸ h.ready.1
  have hlatched : s1.reader.rcur = s1.inByteAt s1.reader.rbyte := by
    rw [hreader]
    exact (congrArg (State.inByteAt · s.reader.rbyte) frame :).symm
  have hcursor : s1.bitCursor = s.bitCursor := by rw [State.bitCursor, hreader, State.bitCursor]
  have hread : readBit s = .done b { s1 with reader := s1.reader.advance } := by
    rw [readBit, hlatch, Body.bind_done, hreader, hvalue]
  have past : ReadFrame s { s1 with reader := s1.reader.advance } := by
    unfold ReadFrame at *
    rw [frame]
  obtain ⟨hready, hmoved⟩ := advance_reader hbit hlatched
  exact ⟨_, hread, past, ⟨hq1, hz, hready⟩, hmoved.trans (congrArg (· + 1) hcursor)⟩

theorem readBits_quiet {bits : List Bool} {s : State} (h : ReadsStream s) (hb : s.BitsAt s.bitCursor bits) :
    ∃ t, readBits bits.length s = .done bits t ∧ ReadPast bits.length s t := by
  induction bits generalizing s with
  | nil => exact ⟨s, rfl, rfl, h, rfl⟩
  | cons b bits ih =>
    obtain ⟨s1, hfirst, past1⟩ := readBit_quiet h hb
    have hb1 : s1.BitsAt s1.bitCursor bits := by
      rw [past1.cursor]
      exact past1.frame.bitsAt (bitsAt_tail hb)
    obtain ⟨t, hrest, past⟩ := ih past1.reads hb1
    refine ⟨t, by rw [List.length_cons, readBits, hfirst, Body.bind_done, hrest, Body.bind_done], ?_⟩
    rw [List.length_cons, Nat.add_comm]
    exact past1.trans past

/-- The first bit of a node says how many follow (R88). -/
theorem encode_hufNode {i : Instr} {bits : List Bool} (h : encode i = .hufNode bits) :
    ∃ tag rest, bits = tag :: rest ∧ rest.length = hufNodeRest tag := by
  cases i with
  | huffmanTreeLeaf x =>
    cases h
    exact ⟨_, _, rfl, Reference.bitsMsb_length 16 _⟩
  | huffmanTreeInternal =>
    cases h
    exact ⟨_, _, rfl, rfl⟩
  | _ => cases h

theorem fetchHufNode_quiet {s : State} {tag : Bool} {rest : List Bool} (hl : rest.length = hufNodeRest tag)
    (hn : s.huf.nodes < nodeMax) (h : ReadsStream s) (hb : s.BitsAt s.bitCursor (tag :: rest)) :
    ∃ t, fetchHufNode s = .done (.hufNode (tag :: rest)) t ∧ ReadFrame (countNode s) t ∧ ReaderReady t
      ∧ t.bitCursor = s.bitCursor + (tag :: rest).length := by
  obtain ⟨s1, hfirst, past1⟩ := readBit_quiet h hb
  have hreads : ReadsStream (countNode s1) := ⟨past1.reads.quiet, past1.reads.untouched, past1.reads.ready⟩
  have hb1 : s1.BitsAt s1.bitCursor rest := by
    rw [past1.cursor]
    exact past1.frame.bitsAt (bitsAt_tail hb)
  obtain ⟨t, hrest, past⟩ := readBits_quiet (s := countNode s1) hreads hb1
  refine ⟨t, ?_, ?_, past.reads.ready, ?_⟩
  · rw [fetchHufNode, if_neg (Nat.not_le.mpr hn), hfirst, Body.bind_done, ← hl, hrest, Body.bind_done]
  · have f1 := past1.frame
    have f2 := past.frame
    unfold ReadFrame at *
    rw [f2, f1]
    rfl
  · have c1 := past1.cursor
    have c2 : t.bitCursor = s1.bitCursor + rest.length := past.cursor
    simp only [List.length_cons]
    omega

/-- Settles O17: what a fetch reads is the form its element decodes from, so the form's length is the fetch's. -/
theorem fetchReadsExactlyOneElement : Obligations.FetchReadsExactlyOneElement := by
  refine ⟨fun i bs s hw hq hz hroom hbytes => ?_, fun i bits s hi hq hz hn hready hb => ?_, fun s hq hz => ?_⟩
  · have holds : s.HoldsNext bs := ⟨hroom, hbytes⟩
    have hd : decode (encode i) = .ok i := decodeOfEncode i hw
    refine ⟨fun hi => ?_, fun hi => ?_, fun hi => ?_⟩
    · rw [hi] at hd
      exact fetchLz77_quiet hd hq hz holds
    · rw [hi] at hd
      obtain ⟨n, c, rfl⟩ := decodeRle_ok hd
      cases hi
      exact fetchRle_quiet rfl hq hz holds
    · rw [hi] at hd
      exact fetchHufHeader_quiet hd hq hz holds
  · obtain ⟨tag, rest, rfl, hl⟩ := encode_hufNode hi
    exact fetchHufNode_quiet hl hn ⟨hq, hz, hready⟩ hb
  · exact ⟨fetchHufTrailing_quiet hq hz, fun h => if_pos h⟩

end Sys2Proof.Machine

/-! ## The start of a command's body

On an idle engine each of the eight commands is `launch` with its own OP, codec, pair and phase; SRC_LEN decides whether the
body starts or the command is rejected. -/

namespace Sys2Proof.Machine

open Sys2Proof

/-- The input fits IN: the body stands at its start (R100, R262). -/
theorem launch_issued {s : State} (hn : s.srcLen.toNat ≤ s.params.inSize) (op : BitVec 4) (c : CodecId) (w : LzPair)
    (ph : Phase) : IssuedBody op c w ph s (launch c w ph (accept op s)) := by
  have hstart : launch c w ph (accept op s) = startBody ph w (nameCodec c w (accept op s)) :=
    if_neg (Nat.not_lt.mpr hn)
  rw [hstart]
  exact ⟨rfl, rfl, rfl, ⟨rfl, rfl, rfl⟩, rfl, rfl, rfl, rfl, rfl, rfl, ⟨rfl, rfl, rfl, rfl, rfl, rfl, rfl, rfl, rfl, rfl, rfl⟩⟩

/-- SRC_LEN above `IN_SIZE`: CODEC and USED_CFG are already written (R100, R232 item 1). -/
theorem launch_tooLong {s : State} (hn : s.params.inSize < s.srcLen.toNat) (op : BitVec 4) (c : CodecId) (w : LzPair)
    (ph : Phase) : RejectedAtIssue op .ioFailure c w s (launch c w ph (accept op s)) := by
  have hreject : launch c w ph (accept op s) = complete .ioFailure (nameCodec c w (accept op s)) := if_pos hn
  rw [hreject]
  exact complete_rejected (by decide) op c w s

/-- `i` is the command that launches this body on `s` while the engine is idle. -/
def Launches (i : Instr) (op : BitVec 4) (c : CodecId) (w : LzPair) (ph : Phase) (s : State) : Prop :=
  s.status.busy = false → exec i s = .next (launch c w ph (accept op s))

theorem Launches.issued {i : Instr} {op : BitVec 4} {c : CodecId} {w : LzPair} {ph : Phase} {s : State}
    (h : Launches i op c w ph s) (hb : s.status.busy = false) (hn : s.srcLen.toNat ≤ s.params.inSize) :
    ∃ t, exec i s = .next t ∧ IssuedBody op c w ph s t :=
  ⟨_, h hb, launch_issued hn op c w ph⟩

theorem Launches.tooLong {i : Instr} {op : BitVec 4} {c : CodecId} {w : LzPair} {ph : Phase} {s : State}
    (h : Launches i op c w ph s) (hb : s.status.busy = false) (hn : s.params.inSize < s.srcLen.toNat) :
    ∃ t, exec i s = .next t ∧ RejectedAtIssue op .ioFailure c w s t :=
  ⟨_, h hb, launch_tooLong hn op c w ph⟩

/-! ### What each command launches -/

theorem whenIdle_idle {s : State} (hb : s.status.busy = false) (issue : State → State) : whenIdle issue s = issue s := by
  simp [whenIdle, hb]

theorem whenIdle_busy {s : State} (hb : s.status.busy = true) (issue : State → State) : whenIdle issue s = s :=
  if_pos hb

/-- A direct command without a pair (R107). -/
theorem launches_direct {i : Instr} {op : BitVec 4} {c : CodecId} {ph : Phase} {s : State}
    (hexec : exec i s = .next (whenIdle (fun s0 => launch c noPair ph (accept op s0)) s)) :
    Launches i op c noPair ph s := fun hb => by
  rw [hexec, whenIdle_idle hb]

/-- `LZ77_COMPRESS` takes its pair from LZ_CFG (R107, R120). -/
theorem launches_lz77Compress {s : State} (hl : lookaheadField s.lzCfg ≠ 0#16) :
    Launches .lz77Compress 5#4 .lz77 { window := windowField s.lzCfg, lookahead := lookaheadField s.lzCfg } .lzChunk s :=
  fun hb => by
    have hstart : startLz77 (accept 5#4 s)
        = launch .lz77 { window := windowField s.lzCfg, lookahead := lookaheadField s.lzCfg } .lzChunk (accept 5#4 s) :=
      if_neg hl
    simp only [exec, execLz77Compress, whenIdle_idle hb, hstart]

/-- `SEL_COMPRESS` of at most `RLE_MAX` bytes (R103). -/
theorem launches_selCompress_rle {s : State} (hr : s.srcLen.toNat ≤ s.params.rleMax) :
    Launches .selCompress 1#4 .rle noPair .rleEncode s := fun hb => by
  have hstart : startTier (accept 1#4 s) = launch .rle noPair .rleEncode (accept 1#4 s) := if_pos hr
  simp only [exec, execSelCompress, whenIdle_idle hb, hstart]

/-- `SEL_COMPRESS` of more than `RLE_MAX` bytes (R103, R104). -/
theorem launches_selCompress_lz77 {s : State} (hr : s.params.rleMax < s.srcLen.toNat) :
    Launches .selCompress 1#4 .lz77 (tier s.params s.srcLen.toNat) .lzChunk s := fun hb => by
  have hstart : startTier (accept 1#4 s)
      = launch .lz77 (tier s.params s.srcLen.toNat) .lzChunk (accept 1#4 s) := if_neg (Nat.not_le.mpr hr)
  simp only [exec, execSelCompress, whenIdle_idle hb, hstart]

/-- The start of each codec's decompressor (R105). -/
def decoderPhase : CodecId → Phase
  | .unset => .idle
  | .rle => .rleDecode
  | .lz77 => .lzDecode
  | .huffman => .hufHeader

theorem codecOfTag_ne_unset (tag : Byte) : codecOfTag tag ≠ some .unset := by
  unfold codecOfTag
  split
  · exact nofun
  · split
    · exact nofun
    · split <;> exact nofun

/-- `SEL_DECOMPRESS` with a known tag (R105). -/
theorem launches_selDecompress {s : State} {c : CodecId} (hc : codecOfTag s.decTag = some c) :
    Launches .selDecompress 2#4 c noPair (decoderPhase c) s := fun hb => by
  have hstart : startTagged (accept 2#4 s) = launch c noPair (decoderPhase c) (accept 2#4 s) := by
    simp only [startTagged, accept_latch, hc]
    cases c with
    | unset => exact absurd hc (codecOfTag_ne_unset _)
    | rle | lz77 | huffman => rfl
  simp only [exec, execSelDecompress, whenIdle_idle hb, hstart]

/-! ### The statements on issue -/

/-- Settles O18: the launched pair is the tier's, and each clause's bounds select its branch of R104. -/
theorem selCompressIssues : Obligations.SelCompressIssues := by
  intro s hb hn
  rcases Nat.lt_or_ge s.params.rleMax s.srcLen.toNat with hr | hr
  · obtain ⟨t, hexec, hissued⟩ := (launches_selCompress_lz77 hr).issued hb hn
    refine ⟨t, hexec, fun hle => absurd hle (Nat.not_le.mpr hr), fun _ h1 => ?_, fun _ h1 h2 => ?_,
      fun _ h1 h2 h3 => ?_, fun _ h1 h2 h3 => ?_⟩
    · rwa [tier, if_pos h1] at hissued
    · rwa [tier, if_neg (Nat.not_le.mpr h1), if_pos h2] at hissued
    · rwa [tier, if_neg (Nat.not_le.mpr h1), if_neg (Nat.not_le.mpr h2), if_pos h3] at hissued
    · rwa [tier, if_neg (Nat.not_le.mpr h1), if_neg (Nat.not_le.mpr h2), if_neg (Nat.not_le.mpr h3)] at hissued
  · have short : ∀ {P : Prop}, s.params.rleMax < s.srcLen.toNat → P := fun hlt => absurd hlt (Nat.not_lt.mpr hr)
    obtain ⟨t, hexec, hissued⟩ := (launches_selCompress_rle hr).issued hb hn
    exact ⟨t, hexec, fun _ => hissued, fun hlt => short hlt, fun hlt => short hlt, fun hlt => short hlt,
      fun hlt => short hlt⟩

/-- Settles O19: a tag names at most one codec, whose decompressor is launched. -/
theorem selDecompressIssues : Obligations.SelDecompressIssues := by
  intro s hb hn htag
  have launched : ∀ {c}, codecOfTag s.decTag = some c →
      ∃ t, exec .selDecompress s = .next t ∧ IssuedBody 2#4 c noPair (decoderPhase c) s t :=
    fun hc => (launches_selDecompress hc).issued hb hn
  rcases htag with h | h | h
  · obtain ⟨t, hexec, hissued⟩ := launched (c := .rle) (by simp [codecOfTag, h])
    exact ⟨t, hexec, fun _ => hissued, by simp [h], by simp [h]⟩
  · obtain ⟨t, hexec, hissued⟩ := launched (c := .lz77) (by simp [codecOfTag, h])
    exact ⟨t, hexec, by simp [h], fun _ => hissued, by simp [h]⟩
  · obtain ⟨t, hexec, hissued⟩ := launched (c := .huffman) (by simp [codecOfTag, h])
    exact ⟨t, hexec, by simp [h], by simp [h], fun _ => hissued⟩

/-- Settles O20: with no codec named the completion comes before the check of SRC_LEN. -/
theorem unknownTagIsInvalidFormat : Obligations.UnknownTagIsInvalidFormat := by
  intro s hb h1 h2 h3
  have hnone : codecOfTag s.decTag = none := by simp [codecOfTag, h1, h2, h3]
  have hstart : startTagged (accept 2#4 s) = complete .invalidFormat (accept 2#4 s) := by
    simp only [startTagged, accept_latch, hnone]
  refine ⟨_, ?_, complete_rejected (e := .invalidFormat) (by decide) 2#4 .unset noPair s⟩
  simp only [exec, execSelDecompress, whenIdle_idle hb, hstart]
  rfl

/-- LZ_CFG is its own two fields (R42, R43). -/
theorem pairWord_fields (cfg : Word) : pairWord (windowField cfg) (lookaheadField cfg) = cfg :=
  calc pairWord (windowField cfg) (lookaheadField cfg)
    _ = (cfg.extractLsb' 0 (16 + 16)).cast rfl := BitVec.extractLsb'_append_extractLsb'_eq_extractLsb' rfl
    _ = cfg := BitVec.extractLsb'_eq_self

/-- Settles O21: each direct command launches its own body. -/
theorem directCommandsIssue : Obligations.DirectCommandsIssue := by
  intro s hb hn
  refine ⟨(launches_direct rfl).issued hb hn, (launches_direct rfl).issued hb hn, fun hl => ?_,
    (launches_direct rfl).issued hb hn, (launches_direct rfl).issued hb hn, (launches_direct rfl).issued hb hn⟩
  obtain ⟨t, hexec, hissued⟩ := (launches_lz77Compress hl).issued hb hn
  obtain ⟨_, _, hused, _⟩ := id hissued
  exact ⟨t, hexec, hissued, hused.trans (pairWord_fields s.lzCfg)⟩

/-- Settles O23: the check of SRC_LEN is the same for every launched body. -/
theorem sourceTooLongIsIOFailure : Obligations.SourceTooLongIsIOFailure := by
  intro s hb hn
  refine ⟨?_, fun c hc => (launches_selDecompress hc).tooLong hb hn, (launches_direct rfl).tooLong hb hn,
    (launches_direct rfl).tooLong hb hn, fun hl => (launches_lz77Compress hl).tooLong hb hn,
    (launches_direct rfl).tooLong hb hn, (launches_direct rfl).tooLong hb hn, (launches_direct rfl).tooLong hb hn⟩
  rcases Nat.lt_or_ge s.params.rleMax s.srcLen.toNat with hr | hr
  · obtain ⟨t, hexec, hrejected⟩ := (launches_selCompress_lz77 hr).tooLong hb hn
    exact ⟨t, hexec, fun hle => absurd hle (Nat.not_le.mpr hr), fun _ => hrejected⟩
  · obtain ⟨t, hexec, hrejected⟩ := (launches_selCompress_rle hr).tooLong hb hn
    exact ⟨t, hexec, fun _ => hrejected, fun hlt => absurd hlt (Nat.not_lt.mpr hr)⟩

/-! ### Completion, and writes during a command -/

/-- OUT reads as before when no body's error drops it (R76). -/
theorem complete_outByteAt {e : ErrCode} {s : State} (h : e = .success ∨ s.status.busy = false) (a : Nat) :
    (complete e s).outByteAt a = s.outByteAt a := by
  have hkept : settleOut e s = s := by
    rcases h with h | h
    · rw [h, settleOut_success]
    · simp [settleOut, h]
  simp only [State.outByteAt, complete_outMem, complete_outEpoch, hkept]

/-- Settles O26. -/
theorem completionWritesRegisters : Obligations.CompletionWritesRegisters := by
  intro s e
  exact ⟨complete_status e s, complete_outLen e s, complete_usedCfg e s, complete_phase e s, complete_srcLen e s,
    complete_lzCfg e s, complete_decTag e s, complete_inMem e s, complete_outByteAt,
    fun he hb => complete_failedInBody he hb⟩

/-- A word written to CMD while a command runs is ignored (R102). -/
theorem writeCmd_busy {s : State} (hb : s.status.busy = true) (v : Word) : writeCmd exec v s = .next s := by
  obtain ⟨w, hw⟩ := encode_decodeCommand v
  obtain ⟨op, start, _, hexec⟩ := exec_command hw
  exact (hexec s).trans (congrArg _ (whenIdle_busy hb _))

theorem writeReg_busy {s : State} (hb : s.status.busy = true) (r : Reg) (v : Word) : writeReg r v s = s := if_pos hb

/-- A register write while a command runs is ignored (R102). -/
theorem hostAccess_regWrite_busy {s : State} (hb : s.status.busy = true) (r : Reg) (v : Word) :
    hostAccess exec (.regWrite .w32 r.offset v) s = .next s := by
  by_cases hr : r = .cmd
  · subst hr
    exact writeCmd_busy hb v
  · rw [hostAccess_regWrite hr, writeReg_busy hb]

/-- Settles O7: the write is ignored, and the fields of STATUS are those of a running command. -/
theorem busyRegisterWritesIgnored : Obligations.BusyRegisterWritesIgnored := by
  intro s v rest hb
  refine ⟨fun r _ h => ?_, fun hinv => ?_⟩
  · rw [step_host h]
    exact hostAccess_regWrite_busy (s := { s with inputs := rest }) hb r v
  · obtain ⟨herr, hlen, _⟩ := hinv.busyStatus hb
    obtain ⟨hbusy, hdone, _, hcode, hcodec, _⟩ := statusWord_fields s.status
    have hnotDone : s.status.done = false := by
      cases hd : s.status.done with
      | false => rfl
      | true => exact absurd ⟨hb, hd⟩ hinv.busyOrDone
    exact ⟨hbusy.trans hb, hdone.trans hnotDone, hcode.trans (by rw [herr]; rfl), hlen, hcodec, rfl⟩

/-! ### Artifact names -/

/-- The last dot of a name is the one before an extension without a dot (R108, R109). -/
theorem splitName_dot {ext : List Char} (h : splitName ext = none) (path : List Char) :
    splitName (path ++ '.' :: ext) = some (path, ext) := by
  induction path with
  | nil => simp [splitName, h]
  | cons c path ih => simp [splitName, ih]

/-- No extension holds a dot (R89). -/
theorem splitName_artifactName {c : CodecId} (hc : c ≠ .unset) (path : List Char) :
    splitName (artifactName path c) = some (path, extension c) := by
  cases c with
  | unset => exact absurd rfl hc
  | rle | lz77 | huffman => exact splitName_dot rfl path

/-- Settles O11 by `splitName_artifactName`; each codec's tag is its id. -/
theorem artifactNameGivesTagAndPath : Obligations.ArtifactNameGivesTagAndPath := by
  intro path c hc
  have hsplit := splitName_artifactName hc path
  refine ⟨?_, by simp only [destinationName, hsplit]⟩
  simp only [tagOfName, hsplit]
  cases c with
  | unset => exact absurd rfl hc
  | rle | lz77 | huffman => rfl

end Sys2Proof.Machine

/-! ## Every command ends

`State.distance` orders the states of a running command lexicographically: first by how many phases are still to come, then
by the work left in the phase. Each engine step completes the command or comes closer to its end. -/

namespace Sys2Proof.Machine

open Sys2Proof

/-! ### The distance to the end of a command -/

/-- How many phases may follow in a command: the Huffman phases follow one another, the others stay (R170, R180). The two
LZ77 phases alternate, so they have one rank. -/
def Phase.rank : Phase → Nat
  | .idle | .rleEncode | .rleDecode | .lzChunk | .lzEncode | .lzDecode => 0
  | .hufCount => 4
  | .hufBuild => 3
  | .hufCodes => 2
  | .hufTree => 1
  | .hufBody => 0
  | .hufHeader => 3
  | .hufParse => 2
  | .hufExtent => 1
  | .hufWalk => 0

/-- A bound on the visits of nodes still to come when these nodes are to be visited: a node's children stand below it in the
arena (R47), so the subtree at `i` has fewer than `3 ^ i` nodes left after its root. -/
def visitBound (todo : List Nat) : Nat := (todo.map (3 ^ ·)).sum

/-- The work left in a phase. A chunk of LZ77 is read at its start and left at its end, each without moving `in_pos`. -/
def State.work (s : State) : Nat :=
  match s.phase with
  | .idle | .hufHeader | .hufExtent => 0
  | .rleEncode | .rleDecode | .lzDecode | .hufCount | .hufBody => s.srcCount - s.inPos
  | .lzChunk => 3 * (s.srcCount - s.inPos) + 1
  | .lzEncode => 3 * (s.srcCount - s.inPos) + if s.lz.look = [] then 2 else 0
  | .hufBuild => s.huf.queue.length
  | .hufCodes => visitBound (s.huf.codeTodo.map Prod.fst)
  | .hufTree => visitBound s.huf.treeTodo
  | .hufParse => nodeMax - s.huf.nodes
  | .hufWalk => s.huf.bitsLeft

/-- The distance of a running command from its end. -/
def State.distance (s : State) : ℕ ×ₗ ℕ := toLex (s.phase.rank, s.work)

/-- The command of `s` still runs in `t`, closer to its end. -/
def Closer (s t : State) : Prop := t.phase ≠ .idle ∧ t.distance < s.distance

/-- A step from `s` to `t` completes the command or comes closer to its end. -/
def Advances (s t : State) : Prop := (t.status.busy = false ∧ t.status.done = true) ∨ Closer s t

/-- A later phase is entered. -/
theorem Advances.enter {s t : State} {p : Phase} (q : Phase) (hp : s.phase = p) (hq : t.phase = q)
    (h : q ≠ .idle ∧ q.rank < p.rank) : Advances s t := by
  subst hp hq
  exact .inr ⟨h.1, Prod.Lex.toLex_lt_toLex.mpr (.inl h.2)⟩

/-- The same phase, or one of the same rank, with less work. -/
theorem Advances.of_work {s t : State} (hi : t.phase ≠ .idle) (hr : t.phase.rank = s.phase.rank)
    (hw : t.work < s.work) : Advances s t :=
  .inr ⟨hi, Prod.Lex.toLex_lt_toLex.mpr (.inr ⟨hr, hw⟩)⟩

theorem advances_complete (s u : State) (e : ErrCode) : Advances s (complete e u) := .inl (by simp)

/-- The phases whose work is the input still to be read. -/
def Phase.ReadsOn (ph : Phase) : Prop :=
  ph = .rleEncode ∨ ph = .rleDecode ∨ ph = .lzDecode ∨ ph = .hufCount ∨ ph = .hufBody

theorem work_of_readsOn {s : State} (h : s.phase.ReadsOn) : s.work = s.srcCount - s.inPos := by
  rcases h with h | h | h | h | h <;> simp only [State.work, h]

/-- In those phases the command comes closer when `in_pos` moves on (R31). -/
theorem Advances.of_input {s t : State} (h : s.phase.ReadsOn) (hp : t.phase = s.phase) (hn : t.srcCount = s.srcCount)
    (hlt : s.inPos < s.srcCount) (hi : s.inPos < t.inPos) : Advances s t := by
  have hidle : s.phase ≠ .idle := by rcases h with h | h | h | h | h <;> simp [h]
  refine .of_work (hp ▸ hidle) (congrArg _ hp) ?_
  rw [work_of_readsOn h, work_of_readsOn (hp ▸ h), hn]
  omega

/-- What an engine step from `s` answers completes the command or comes closer to its end. -/
def StepAdvances (s : State) (o : Host.Outcome State Fault Refusal) : Prop := ∀ t, o = .next t → Advances s t

theorem stepAdvances_next {s t : State} (h : Advances s t) : StepAdvances s (.next t) := by
  intro u hu
  cases hu
  exact h

theorem stepAdvances_fault (s : State) (f : Fault) : StepAdvances s (.fault f) := by
  intro t ht
  cases ht

theorem stepAdvances_complete (s u : State) (e : ErrCode) : StepAdvances s (.next (complete e u)) :=
  stepAdvances_next (advances_complete s u e)

theorem stepAdvances_settle {s : State} {x : Body Unit} (h : x.Ensures fun _ t => Advances s t) :
    StepAdvances s (.next (settle x)) := by
  cases x with
  | done u t => exact stepAdvances_next h
  | raised e t => exact stepAdvances_complete s t e

/-- A postcondition may use that the piece answered. -/
theorem Body.Ensures.answered {α : Type} {x : Body α} {P : α → State → Prop} (h : x.Ensures P) :
    x.Ensures fun a t => P a t ∧ x = .done a t := by
  cases x with
  | done a t => exact ⟨h, rfl⟩
  | raised e t => exact h

/-! ### The decompressors' fetches move on -/

theorem runFetched_advances {s : State} {x : Body Code}
    (h : x.Ensures fun c t => ∀ i, decode c = .ok i → StepAdvances s (exec i t)) :
    StepAdvances s (runFetched exec x) := by
  cases x with
  | raised e t => exact stepAdvances_complete s t e
  | done c t =>
    simp only [runFetched]
    split
    next i hi => exact h i hi
    · intro t ht
      cases ht

theorem runWhileInput_advances {s : State} {fetch : State → Body Code}
    (hf : s.inPos < s.srcCount → StepAdvances s (runFetched exec (fetch s))) :
    StepAdvances s (runWhileInput exec fetch s) := by
  unfold runWhileInput
  split
  next hlt => exact hf hlt
  · exact stepAdvances_complete s s _

theorem fetchRle_inPos {s t : State} {c : Code} (h : fetchRle s = .done c t) : s.inPos < t.inPos := by
  obtain ⟨bs, s1, h1, h2⟩ := Body.bind_eq_done.mp h
  cases h2
  obtain ⟨_, hf, _⟩ := nextBytes_done h1
  rw [hf]
  exact Nat.lt_add_of_pos_right (by decide)

theorem fetchLz77_inPos {s t : State} {c : Code} (h : fetchLz77 s = .done c t) : s.inPos < t.inPos := by
  obtain ⟨flag, s1, h1, h2⟩ := Body.bind_eq_done.mp h
  obtain ⟨rest, s2, h3, h4⟩ := Body.bind_eq_done.mp h2
  cases h4
  obtain ⟨_, hf1⟩ := nextByte_done h1
  obtain ⟨_, hf2, _⟩ := nextBytes_done h3
  rw [hf2, hf1]
  exact Nat.lt_of_lt_of_le (Nat.lt_succ_self _) (Nat.le_add_right _ _)

/-- An element that writes OUT after its fetch has moved `in_pos`. -/
theorem stepAdvances_element {s s1 : State} {x : Body Unit} (hp : s.phase.ReadsOn) (hlt : s.inPos < s.srcCount)
    (h1 : Continues s s1) (hi : s.inPos < s1.inPos) (hx : x.Ensures fun _ t => ContinuesAt s1 t) :
    StepAdvances s (.next (settle x)) := by
  refine stepAdvances_settle (hx.mono fun _ t h2 => ?_)
  refine .of_input hp (h2.frame.phase.trans h1.frame.phase) (h2.frame.srcCount.trans h1.frame.srcCount) hlt ?_
  rw [h2.inPos]
  exact hi

theorem rleDecode_advances {s : State} (h : Running s) (hp : s.phase = .rleDecode) :
    StepAdvances s (runWhileInput exec fetchRle s) := by
  refine runWhileInput_advances fun hlt => runFetched_advances ((fetchRle_ensures h hp).answered.mono ?_)
  rintro c t ⟨⟨h1, bs, rfl⟩, hfetch⟩ i hi
  obtain ⟨n, c, rfl⟩ := decodeRle_ok hi
  exact stepAdvances_element (.inr (.inl hp)) hlt h1 (fetchRle_inPos hfetch) (emitRepeat_continues h1.running c n.toNat)

theorem lzDecode_advances {s : State} (h : Running s) (hp : s.phase = .lzDecode) :
    StepAdvances s (runWhileInput exec fetchLz77 s) := by
  refine runWhileInput_advances fun hlt => runFetched_advances ((fetchLz77_ensures h hp).answered.mono ?_)
  rintro c t ⟨⟨h1, bs, rfl⟩, hfetch⟩ i hi
  have element : ∀ {x : Body Unit}, (x.Ensures fun _ u => ContinuesAt t u) → StepAdvances s (.next (settle x)) :=
    stepAdvances_element (.inr (.inr (.inl hp))) hlt h1 (fetchLz77_inPos hfetch)
  rcases decodeLz77_ok hi with ⟨c, rfl⟩ | ⟨o, l, rfl⟩ | ⟨f, rfl⟩
  · exact element (emit_continues h1.running c)
  · exact element (copyMatch_continues h1.running o.toNat l.toNat)
  · exact stepAdvances_complete s t _

/-! ### RLE and LZ77 compressors -/

/-- The run that is counted does not shrink. -/
theorem countRun_le {c : Byte} {k more run r : Nat} {s t : State} (h : countRun c k more run s = .done r t) :
    run ≤ r := by
  induction more generalizing run s with
  | zero =>
    cases h
    exact Nat.le_refl _
  | succ more ih =>
    unfold countRun at h
    split at h
    · obtain ⟨b, s1, _, h2⟩ := Body.bind_eq_done.mp h
      split at h2
      · exact Nat.le_of_succ_le (ih h2)
      · cases h2
        exact Nat.le_refl _
    · cases h
      exact Nat.le_refl _

theorem rleEncodeStep_advances {s : State} (h : Running s) (hp : s.phase = .rleEncode) :
    (rleEncodeStep s).Ensures fun _ t => Advances s t := by
  unfold rleEncodeStep
  split
  next hlt =>
    refine (inByte_ensures h _).bind fun c s1 ⟨h1, _⟩ => ?_
    refine (countRun_ensures h1.running c s.inPos 254 1 (h1.frame.srcCount ▸ hlt)).answered.bind
      fun run s2 ⟨⟨h2, _⟩, hrun⟩ => ?_
    refine (emitElement_continues h2.running _).bind fun _ s3 h3 => ?_
    have h03 : ContinuesAt s s3 := (h1.trans h2).trans h3
    have hpos : s.inPos < s3.inPos + run := by
      have := countRun_le hrun
      rw [h03.inPos]
      omega
    exact Advances.of_input (.inl hp) h03.frame.phase h03.frame.srcCount hlt hpos
  · exact advances_complete s s _

/-- A chunk of at least one symbol is read (R10, R111). -/
theorem lzChunkStep_advances {s : State} (h : Running s) (hp : s.phase = .lzChunk) :
    (lzChunkStep s).Ensures fun _ t => Advances s t := by
  unfold lzChunkStep
  split
  next hlt =>
    refine (readChunk_ensures h _ _).bind fun chunk s1 ⟨h1, hlen⟩ => ?_
    obtain ⟨_, _, hl, _⟩ := h.lz (.inl hp)
    have hne : chunk ≠ [] := List.ne_nil_of_length_pos (by omega)
    refine .of_work nofun (by rw [hp]; rfl) ?_
    have hn : s1.latch.n.toNat = s.latch.n.toNat := h1.frame.srcCount
    simp [State.work, State.srcCount, hp, hn, h1.inPos, LzWork.look, hne]
  · exact advances_complete s s _

theorem tokenLength_pos (m : Match) : 0 < tokenLength m := by
  unfold tokenLength
  split
  · omega
  · exact Nat.one_pos

theorem lzEncodeStep_advances {s : State} (h : Running s) (hp : s.phase = .lzEncode) :
    (lzEncodeStep s).Ensures fun _ t => Advances s t := by
  have hrank : Phase.lzEncode.rank = s.phase.rank := by rw [hp]
  unfold lzEncodeStep
  split
  next hlook =>
    refine .of_work nofun hrank ?_
    simp [State.work, State.srcCount, hp, hlook]
  next c cs hlook =>
    refine (emitElement_continues h _).bind fun _ s1 h1 => ?_
    have hp1 : s1.phase = .lzEncode := h1.frame.phase.trans hp
    refine .of_work (by simp [hp1]) (by rw [h1.frame.phase]) ?_
    have hn : s1.latch.n.toNat = s.latch.n.toNat := h1.frame.srcCount
    have hinside : s.inPos < s.srcCount := by
      obtain ⟨_, _, _, _, hchunk⟩ := h.lz (.inr hp)
      obtain ⟨_, _, hend⟩ := hchunk hp
      have hpos := congrArg List.length hlook
      rw [look_length, List.length_cons] at hpos
      omega
    have htok := tokenLength_pos (findMatch s.lz.win.view (c :: cs))
    have hend : ∀ z : List Byte, (if z = [] then 2 else 0) ≤ 2 := fun z => by split <;> decide
    have hless := hend (s1.lz.consume (tokenLength (findMatch s.lz.win.view (c :: cs)))).look
    simp only [State.srcCount] at hinside
    simp only [State.work, State.srcCount, hp, hp1, hn, h1.inPos, hlook, List.cons_ne_nil, if_false]
    omega

/-! ### The Huffman compressor -/

theorem hufCountStep_advances {s : State} (h : Running s) (hp : s.phase = .hufCount) :
    (hufCountStep s).Ensures fun _ t => Advances s t := by
  unfold hufCountStep
  split
  next hlt =>
    refine (inByte_ensures h _).bind fun c s1 ⟨h1, _⟩ => ?_
    refine .of_input (.inr (.inr (.inr (.inl hp)))) h1.frame.phase h1.frame.srcCount hlt ?_
    rw [h1.inPos]
    exact Nat.lt_succ_self _
  · split
    · exact advances_complete s s _
    · exact (singleSymbol_continues h _ _).bind fun _ s1 _ => advances_complete s s1 _
    · exact .enter .hufBuild hp rfl (by decide)

/-- A merge takes two entries from the queue and adds one (R175). -/
theorem hufBuildStep_advances {s : State} (hp : s.phase = .hufBuild) : StepAdvances s (hufBuildStep s) := by
  unfold hufBuildStep
  split
  · exact stepAdvances_fault s _
  · exact stepAdvances_next (.enter .hufCodes hp rfl (by decide))
  next a q _ hmin =>
    split
    · exact stepAdvances_fault s _
    next b q' hmin' =>
      split
      next na nb _ _ =>
        refine stepAdvances_next (.of_work (by simp [hp]) rfl ?_)
        have hq := (extractMin_perm hmin).length_eq
        have hq' := (extractMin_perm hmin').length_eq
        simp only [List.length_cons] at hq hq'
        simp only [State.work, hp, mergeNodes, List.length_append, List.length_singleton]
        omega
      · exact stepAdvances_fault s _

theorem visitBound_cons (i : Nat) (todo : List Nat) : visitBound (i :: todo) = 3 ^ i + visitBound todo := by
  simp [visitBound]

/-- A node visited leaves less to visit. -/
theorem visitBound_leaf (i : Nat) (todo : List Nat) : visitBound todo < visitBound (i :: todo) := by
  rw [visitBound_cons]
  exact Nat.lt_add_of_pos_left (Nat.pow_pos (by decide))

/-- The children of a node leave less to visit than the node (R47). -/
theorem visitBound_children {i l r : Nat} (hl : l < i) (hr : r < i) (todo : List Nat) :
    visitBound (l :: r :: todo) < visitBound (i :: todo) := by
  obtain ⟨k, rfl⟩ : ∃ k, i = k + 1 := ⟨i - 1, by omega⟩
  have hl3 : 3 ^ l ≤ 3 ^ k := Nat.pow_le_pow_right (by decide) (Nat.le_of_lt_succ hl)
  have hr3 : 3 ^ r ≤ 3 ^ k := Nat.pow_le_pow_right (by decide) (Nat.le_of_lt_succ hr)
  have hk : 0 < 3 ^ k := Nat.pow_pos (by decide)
  simp only [visitBound_cons, Nat.pow_succ]
  omega

/-- The tree flag ends `GenCodes` (R170). -/
theorem startTree_advances {s : State} (h : Running s) (hp : s.phase = .hufCodes) :
    (startTree s).Ensures fun _ t => Advances s t :=
  (emitElement_continues h _).bind fun _ _ _ => .enter .hufTree hp rfl (by decide)

theorem hufCodesStep_advances {s : State} (h : Running s) (hp : s.phase = .hufCodes) :
    StepAdvances s (hufCodesStep s) := by
  unfold hufCodesStep
  split
  · exact stepAdvances_settle (startTree_advances h hp)
  next i code todo htodo =>
    split
    · exact stepAdvances_fault s _
    · refine stepAdvances_next (.of_work (by simp [hp]) rfl ?_)
      simpa only [State.work, hp, htodo, List.map_cons] using visitBound_leaf i _
    next l r _ hnode =>
      obtain ⟨hl, hr⟩ := h.tables.arena _ _ _ _ _ hnode
      refine stepAdvances_next (.of_work (by simp [hp]) rfl ?_)
      simpa only [State.work, hp, htodo, List.map_cons] using visitBound_children hl hr _

theorem hufTreeStep_advances {s : State} (h : Running s) (hp : s.phase = .hufTree) :
    StepAdvances s (hufTreeStep s) := by
  obtain ⟨hroot, htodo⟩ := h.indicesAt hp
  have visit : ∀ (e : Instr) (todo : List Nat), (∀ i ∈ todo, i < s.huf.arena.length) →
      visitBound todo < visitBound s.huf.treeTodo →
      StepAdvances s (.next (settle (emitElement e { s with huf := { s.huf with treeTodo := todo } }))) := by
    intro e todo hin hless
    have visited := h.withHuf hp { s.huf with treeTodo := todo } (by decide) h.tables ⟨hroot, hin⟩
    refine stepAdvances_settle ((emitElement_continues visited e).mono fun _ t h1 => ?_)
    have hp1 : t.phase = .hufTree := h1.frame.phase.trans hp
    refine .of_work (by simp [hp1]) (by rw [h1.frame.phase]) ?_
    simpa only [State.work, hp1, hp, h1.frame.huf] using hless
  unfold hufTreeStep
  split
  · exact stepAdvances_settle ((flushBits_continues h).bind fun _ _ _ => .enter .hufBody hp rfl (by decide))
  next i todo hcons =>
    have hrest : ∀ i ∈ todo, i < s.huf.arena.length := fun i hmem => htodo i (hcons ▸ List.mem_cons_of_mem _ hmem)
    split
    · exact stepAdvances_fault s _
    · exact visit _ _ hrest (hcons ▸ visitBound_leaf i todo)
    next l r _ hnode =>
      obtain ⟨hl, hr⟩ := h.tables.arena _ _ _ _ _ hnode
      obtain ⟨hla, hra⟩ := arenaWf_children h.tables.arena hnode
      exact visit _ _ (List.forall_mem_cons.mpr ⟨hla, List.forall_mem_cons.mpr ⟨hra, hrest⟩⟩)
        (hcons ▸ visitBound_children hl hr todo)

theorem hufBodyStep_advances {s : State} (h : Running s) (hp : s.phase = .hufBody) :
    (hufBodyStep s).Ensures fun _ t => Advances s t := by
  unfold hufBodyStep
  split
  next hlt =>
    refine (inByte_ensures h _).bind fun c s1 ⟨h1, _⟩ => ?_
    have h2 := codeOf_continues h1.running c
    refine (putBits_continues h2.running _).bind fun _ s3 h3 => ?_
    have h03 : ContinuesAt s s3 := (h1.trans h2).trans h3
    refine .of_input (.inr (.inr (.inr (.inr hp)))) h03.frame.phase h03.frame.srcCount hlt ?_
    rw [h03.inPos]
    exact Nat.lt_succ_self _
  · refine (flushBits_continues h).bind fun sig s1 h1 => ?_
    exact (emitElement_continues h1.running _).bind fun _ s2 _ => advances_complete s s2 _

/-! ### The Huffman decompressor -/

theorem hufHeader_advances {s : State} (h : Running s) (hp : s.phase = .hufHeader) :
    StepAdvances s (runWhileInput exec fetchHufHeader s) := by
  refine runWhileInput_advances fun _ => runFetched_advances ((fetchHufHeader_ensures h hp).mono ?_)
  rintro c t ⟨h1, bs, rfl⟩ i hi
  rcases decodeHufHeader_ok hi with ⟨high, c, n, rfl⟩ | rfl | ⟨f, rfl⟩
  · refine stepAdvances_settle ?_
    unfold repeatSymbol
    split
    · exact h1.running.spaces
    · split
      · exact h1.running.spaces
      · exact (emitRepeat_continues h1.running _ _).bind fun _ u _ => advances_complete s u _
  · exact stepAdvances_next (.enter .hufParse hp rfl (by decide))
  · exact stepAdvances_complete s t _

/-- A node is counted before it is parsed (R182). -/
theorem fetchHufNode_nodes {s t : State} {c : Code} (hr : s.reader.rbit < 8) (h : fetchHufNode s = .done c t) :
    s.huf.nodes < nodeMax ∧ t.huf.nodes = s.huf.nodes + 1 := by
  unfold fetchHufNode at h
  split at h
  · cases h
  next hmax =>
    obtain ⟨tag, s1, h1, h2⟩ := Body.bind_eq_done.mp h
    obtain ⟨rest, s2, h3, h4⟩ := Body.bind_eq_done.mp h2
    cases h4
    obtain ⟨hf1, _, hr1⟩ := readBit_done h1 hr
    obtain ⟨_, hf2, _⟩ := readBits_done h3 hr1
    refine ⟨Nat.not_le.mp hmax, ?_⟩
    rw [hf2, countNode, hf1]

/-- A subtree that returns to its parents counts no node. -/
theorem returnNode_nodes (fs : List Frame) (i : Nat) (w : HufWork) : (returnNode fs i w).1.nodes = w.nodes := by
  induction fs generalizing i w with
  | nil => rfl
  | cons f fs ih =>
    cases f with
    | wantLeft => rfl
    | wantRight l => exact ih _ _

theorem hufParse_advances {s : State} (h : Running s) (hp : s.phase = .hufParse) :
    StepAdvances s (runFetched exec (fetchHufNode s)) := by
  refine runFetched_advances ((fetchHufNode_ensures h hp).answered.mono ?_)
  rintro c t ⟨⟨⟨_, hp1⟩, bits, rfl⟩, hfetch⟩ i hi
  obtain ⟨hmax, hnodes⟩ := fetchHufNode_nodes h.bits.2 hfetch
  have parsed : ∀ w : HufWork, w.nodes = t.huf.nodes → Advances s { t with huf := w } := by
    intro w hw
    refine .of_work (by simp [hp1]) (by rw [hp, hp1]) ?_
    simp only [State.work, hp, hp1, hw, hnodes]
    omega
  rcases decodeHufNode_ok hi with ⟨x, rfl⟩ | rfl
  · refine stepAdvances_next ?_
    split
    · exact advances_complete s t _
    · unfold afterNode
      split
      · exact .enter .hufExtent hp rfl (by decide)
      · exact parsed _ (returnNode_nodes _ _ _)
  · exact stepAdvances_next (parsed _ rfl)

theorem hufExtent_advances {s : State} (h : Running s) (hp : s.phase = .hufExtent) :
    StepAdvances s (runFetched exec (fetchHufTrailing s)) := by
  refine runFetched_advances ((fetchHufTrailing_ensures h).mono ?_)
  rintro c t ⟨_, bs, rfl⟩ i hi
  obtain ⟨sig, rfl⟩ := decodeHufTrailing_ok hi
  refine stepAdvances_next ?_
  split
  · exact advances_complete s t _
  · split
    · exact advances_complete s t _
    · exact .enter .hufWalk hp rfl (by decide)

/-- The walk with fewer bits left (R184). -/
theorem Advances.of_walk {s t : State} (hp : s.phase = .hufWalk) (hp1 : t.phase = .hufWalk)
    (hb : t.huf.bitsLeft < s.huf.bitsLeft) : Advances s t := by
  refine .of_work (by simp [hp1]) (by rw [hp, hp1]) ?_
  simpa only [State.work, hp, hp1] using hb

theorem arriveAt_advances {s t : State} (ht : Running t) (hp : s.phase = .hufWalk) (hp1 : t.phase = .hufWalk)
    (hb : t.huf.bitsLeft < s.huf.bitsLeft) (i : Nat) : StepAdvances s (arriveAt i t) := by
  unfold arriveAt
  split
  · exact stepAdvances_fault s _
  · refine stepAdvances_settle ((emit_continues ht _).bind fun _ u h1 => ?_)
    refine Advances.of_walk hp (h1.frame.phase.trans hp1) ?_
    simpa only [h1.frame.huf] using hb
  · exact stepAdvances_next (.of_walk hp hp1 hb)

theorem takeBit_advances {s t : State} (ht : Running t) (hp : s.phase = .hufWalk) (hp1 : t.phase = .hufWalk)
    (hb : t.huf.bitsLeft < s.huf.bitsLeft) (b : Bool) : StepAdvances s (takeBit b t) := by
  unfold takeBit
  split
  · exact stepAdvances_fault s _
  · exact stepAdvances_complete s t _
  · exact arriveAt_advances ht hp hp1 hb _

theorem hufWalkStep_advances {s : State} (h : Running s) (hp : s.phase = .hufWalk) : StepAdvances s (hufWalkStep s) := by
  have hread := readBit_ensures h (by simp [hp])
  unfold hufWalkStep
  split
  · exact stepAdvances_complete s s _
  next hleft =>
    split
    next e s1 _ => exact stepAdvances_complete s s1 e
    next b s1 hx =>
      rw [hx] at hread
      have hp1 : s1.phase = .hufWalk := hread.frame.phase.trans hp
      have counted := hread.running.withHuf hp1 { s1.huf with bitsLeft := s1.huf.bitsLeft - 1 } (by decide)
        hread.running.tables (hread.running.indicesAt hp1)
      refine takeBit_advances counted hp hp1 ?_ b
      simp only [hread.frame.huf]
      omega

/-! ### Every command -/

theorem runPhase_advances {s : State} (h : Running s) : StepAdvances s (runPhase exec s) := by
  unfold runPhase
  split
  next => exact stepAdvances_fault s _
  next hp => exact stepAdvances_settle (rleEncodeStep_advances h hp)
  next hp => exact rleDecode_advances h hp
  next hp => exact stepAdvances_settle (lzChunkStep_advances h hp)
  next hp => exact stepAdvances_settle (lzEncodeStep_advances h hp)
  next hp => exact lzDecode_advances h hp
  next hp => exact stepAdvances_settle (hufCountStep_advances h hp)
  next hp => exact hufBuildStep_advances hp
  next hp => exact hufCodesStep_advances h hp
  next hp => exact hufTreeStep_advances h hp
  next hp => exact stepAdvances_settle (hufBodyStep_advances h hp)
  next hp => exact hufHeader_advances h hp
  next hp => exact hufParse_advances h hp
  next hp => exact hufExtent_advances h hp
  next hp => exact hufWalkStep_advances h hp

theorem Runs.refl (s : State) : Runs s s := ⟨0, rfl⟩

/-- A run whose first step is known. -/
theorem Runs.of_step {s t u : State} (h : step s = .next t) (hr : Runs t u) : Runs s u := by
  obtain ⟨n, hn⟩ := hr
  exact ⟨n + 1, (runSteps_succ h n).trans hn⟩

/-- With no input pending, the step of a running command is its phase's (R267). -/
theorem step_running {s : State} (hin : s.inputs = []) (hb : s.status.busy = true) : step s = runPhase exec s := by
  rw [step_engine hin, engineStep, if_pos hb]

/-- A running command reaches its completion and keeps its CODEC, by induction on the distance. -/
theorem running_completes (s : State) (h : Inv s) (hin : s.inputs = []) (hb : s.status.busy = true) :
    ∃ t, Runs s t ∧ t.status.busy = false ∧ t.status.done = true ∧ t.status.codec = s.status.codec := by
  generalize hd : s.distance = d
  induction d using WellFoundedLT.induction generalizing s with
  | ind d ih =>
    obtain ⟨t, hstep⟩ := runPhase_proceeds (h.running hb)
    have hadv : Advances s t := runPhase_advances (h.running hb) t hstep
    rw [← step_running hin hb] at hstep
    have hinv : Inv t := everyStepKeepsInvariant s t h hstep
    obtain ⟨_, _, _, _, _, _, _, hcodec, hin1, _⟩ := engineKeepsInAndOperands s t hin hstep
    rcases hadv with ⟨hfree, hdone⟩ | ⟨hphase, hless⟩
    · exact ⟨t, .of_step hstep (.refl t), hfree, hdone, hcodec⟩
    · obtain ⟨u, hrun, hfree, hdone, hc⟩ :=
        ih _ (hd ▸ hless) t hinv (hin1.trans hin) (hinv.registers.busyPhase.mpr hphase) rfl
      exact ⟨u, .of_step hstep hrun, hfree, hdone, hc.trans hcodec⟩

/-- After issue from `s` the host's inputs are still to come, and the command runs or is complete (R100). -/
def Issues (s t : State) : Prop := t.inputs = s.inputs ∧ (t.status.busy = false → t.status.done = true)

theorem complete_issues (e : ErrCode) (s : State) : Issues s (complete e s) := by
  simp [Issues]

theorem launch_issues (c : CodecId) (w : LzPair) (ph : Phase) (s : State) : Issues s (launch c w ph s) := by
  simp only [launch]
  split
  · exact complete_issues _ _
  · exact ⟨rfl, nofun⟩

theorem issueStart_issues {start : State → State} (h : IssueStart start) (s : State) : Issues s (start s) := by
  cases h with
  | illegal => exact complete_issues _ s
  | direct c ph => exact launch_issues c _ ph s
  | lz77 =>
    unfold startLz77
    split
    · exact complete_issues _ s
    · exact launch_issues _ _ _ s
  | tier =>
    unfold startTier
    split
    · exact launch_issues _ _ _ s
    · exact launch_issues _ _ _ s
  | tagged =>
    unfold startTagged
    split
    next c _ =>
      cases c with
      | rle | lz77 | huffman => exact launch_issues _ _ _ s
      | unset => exact complete_issues _ s
    · exact complete_issues _ s

/-- Settles O57: a running command by `running_completes`; a command word is complete at its issue, or runs after it. -/
theorem everyCommandCompletes : Obligations.EveryCommandCompletes := by
  refine ⟨running_completes, fun i w s hw h hin hb => ?_⟩
  obtain ⟨op, start, hstart, hexec⟩ := exec_command hw
  have hnext : exec i s = .next (start (accept op s)) := by rw [hexec, whenIdle_idle hb]
  have hinv : Inv (start (accept op s)) := exec_command_inv hw h hnext
  obtain ⟨hin1, hends⟩ := issueStart_issues hstart (accept op s)
  refine ⟨start (accept op s), ?_⟩
  cases hb1 : (start (accept op s)).status.busy with
  | false => exact ⟨_, hnext, .refl _, hb1, hends hb1⟩
  | true =>
    obtain ⟨u, hrun, hfree, hdone, _⟩ := running_completes _ hinv (hin1.trans hin) hb1
    exact ⟨u, hnext, hrun, hfree, hdone⟩

end Sys2Proof.Machine

/-! ## Runs of a codec where no access fails

A running command is followed from the state `t` in which its body stands at its start: what is left of IN (`State.rest`), what has
been written to OUT (`Wrote`), and a run to the end (`Ends`). -/

namespace Sys2Proof.Machine

open Sys2Proof

/-! ### Bytes written one after another -/

theorem Memory.writeAll_append (m : List Host.Cell) (k : Nat) (xs ys : List Byte) :
    Memory.writeAll m k (xs ++ ys) = Memory.writeAll (Memory.writeAll m k xs) (k + xs.length) ys := by
  induction xs generalizing m k with
  | nil => rfl
  | cons x xs ih =>
    rw [List.cons_append, Memory.writeAll, ih, Memory.writeAll, List.length_cons, Nat.add_assoc, Nat.add_comm 1]

theorem Memory.read_writeAll_outside {ys : List Byte} {k a : Nat} (m : List Host.Cell) (h : a < k ∨ k + ys.length ≤ a) :
    Memory.read (Memory.writeAll m k ys) a = Memory.read m a := by
  induction ys generalizing m k with
  | nil => rfl
  | cons y ys ih =>
    rw [List.length_cons] at h
    rw [Memory.writeAll, ih _ (by omega), Memory.read_write_other _ _ _ _ (by omega)]

theorem Memory.read_writeAll_inside {ys : List Byte} {j : Nat} (m : List Host.Cell) (k : Nat) (h : j < ys.length) :
    Memory.read (Memory.writeAll m k ys) (k + j) = some (ys.getD j 0#8) := by
  induction ys generalizing m k j with
  | nil => cases h
  | cons y ys ih =>
    rw [Memory.writeAll]
    cases j with
    | zero =>
      rw [Memory.read_writeAll_outside _ (by omega), Nat.add_zero, Memory.read_write_same]
      rfl
    | succ j =>
      rw [Nat.add_comm j, ← Nat.add_assoc, ih _ _ (by simpa using h), Nat.add_comm 1, List.getD_cons_succ]

/-! ### A command and its output -/

/-- The body stands at its start: a command runs, nothing is read or written, no input is pending, no access fails. -/
structure Started (t : State) : Prop where
  busy : t.status.busy = true
  inputs : t.inputs = []
  hazards : t.hazards = []
  quiet : t.Quiet
  inPos : t.inPos = 0
  outPos : t.outPos = 0

/-- `s` is a state of the command that runs in `t`: the cursors, OUT, the draws and the work are its own. -/
def SameCommand (t s : State) : Prop :=
  s = { t with
        inPos := s.inPos, outMem := s.outMem, outPos := s.outPos, phase := s.phase, lz := s.lz, huf := s.huf
        writer := s.writer, reader := s.reader, env := s.env, freeCount := s.freeCount }

theorem SameCommand.refl (t : State) : SameCommand t t := rfl

theorem SameCommand.trans {t s u : State} (h1 : SameCommand t s) (h2 : SameCommand s u) : SameCommand t u := by
  unfold SameCommand at *
  rw [h2, h1]

theorem BodyFrame.sameCommand {s u : State} (h : BodyFrame s u) : SameCommand s u := by
  unfold BodyFrame at h
  unfold SameCommand
  rw [h]

theorem SameCommand.params {t s : State} (h : SameCommand t s) : s.params = t.params := (congrArg State.params h :)
theorem SameCommand.status {t s : State} (h : SameCommand t s) : s.status = t.status := (congrArg State.status h :)
theorem SameCommand.inputs {t s : State} (h : SameCommand t s) : s.inputs = t.inputs := (congrArg State.inputs h :)
theorem SameCommand.hazards {t s : State} (h : SameCommand t s) : s.hazards = t.hazards := (congrArg State.hazards h :)
theorem SameCommand.srcCount {t s : State} (h : SameCommand t s) : s.srcCount = t.srcCount :=
  (congrArg State.srcCount h :)

/-- An error ends the command with OUT any value, wherever it has got to (R76, R101, R238). -/
theorem SameCommand.failed {t s : State} (h : SameCommand t s) (hb : t.status.busy = true) {e : ErrCode}
    (he : e ≠ .success) : FailedInBody e t (complete e s) := by
  have hfail : FailedInBody e s (complete e s) := complete_failedInBody he (h.status ▸ hb)
  unfold SameCommand at h
  rw [h] at hfail ⊢
  exact hfail

/-- The command that runs in `t` has written `ys` in `s`, with every draw false so far. -/
structure Wrote (t : State) (ys : List Byte) (s : State) : Prop where
  command : SameCommand t s
  mem : s.outMem = Memory.writeAll t.outMem 0 ys
  cursor : s.outPos = ys.length
  room : ys.length ≤ t.params.outSize
  quiet : s.Quiet

theorem Started.wrote {t : State} (h : Started t) : Wrote t [] t :=
  ⟨.refl t, rfl, h.outPos, Nat.zero_le _, h.quiet⟩

/-- The command goes on with the same output. -/
theorem Wrote.goes {t s u : State} {ys : List Byte} (h : Wrote t ys s) (hc : SameCommand s u)
    (ho : u.outMem = s.outMem ∧ u.outPos = s.outPos) (hq : u.Quiet) : Wrote t ys u :=
  ⟨h.command.trans hc, ho.1.trans h.mem, ho.2.trans h.cursor, h.room, hq⟩

theorem Wrote.outByteAt_inside {t s : State} {ys : List Byte} (h : Wrote t ys s) {j : Nat} (hj : j < ys.length) :
    s.outByteAt j = ys.getD j 0#8 := by
  have hread := Memory.read_writeAll_inside t.outMem 0 hj
  rw [Nat.zero_add] at hread
  rw [State.outByteAt, h.mem, hread, Option.getD_some]

theorem Wrote.outByteAt_outside {t s : State} {ys : List Byte} (h : Wrote t ys s) {a : Nat} (ha : ys.length ≤ a) :
    s.outByteAt a = t.outByteAt a := by
  have hepoch : s.outEpoch = t.outEpoch := (congrArg State.outEpoch h.command :)
  rw [State.outByteAt, h.mem, hepoch, Memory.read_writeAll_outside _ (by omega), State.outByteAt]

/-- A success leaves what was written in OUT (R76, R101). -/
theorem Wrote.succeeded {t s : State} {ys : List Byte} (h : Wrote t ys s) :
    Succeeded t.status.codec ys t (complete .success s) := by
  have hout : ∀ a, (complete .success s).outByteAt a = s.outByteAt a := complete_outByteAt (.inl rfl)
  have hbytes : (complete .success s).outBytes ys.length = ys := by
    refine List.ext_getElem (by simp [State.outBytes]) fun j h1 h2 => ?_
    simp [State.outBytes, hout, h.outByteAt_inside h2, h2]
  have hoperands := h.command
  unfold SameCommand at hoperands
  refine ⟨by simp [h.command.status], by simp [h.cursor], hbytes, by simp,
    fun a ha => (hout a).trans (h.outByteAt_outside ha), ?_, ?_, ?_, ?_, ?_⟩
  all_goals
    rw [hoperands]
    simp

/-! ### Writes -/

/-- The piece `x`, run in `s`, brings what the command of `t` has written to `zs`, or finds OUT too small for it (R63). -/
def Writes (t : State) (zs : List Byte) (s : State) (x : Body Unit) : Prop :=
  (zs.length ≤ t.params.outSize → ∃ u, x = .done () u ∧ EmitFrame s u ∧ Wrote t zs u)
    ∧ (t.params.outSize < zs.length → ∃ u, x = .raised .ioFailure u ∧ EmitFrame s u)

theorem Writes.nothing {t s : State} {ys : List Byte} (h : Wrote t ys s) : Writes t ys s (.done () s) :=
  ⟨fun _ => ⟨s, rfl, rfl, h⟩, fun hfull => absurd h.room (Nat.not_le.mpr hfull)⟩

theorem Writes.bind {t s : State} {zs ws : List Byte} {x : Body Unit} {f : Unit → State → Body Unit}
    (hx : Writes t zs s x) (hle : zs.length ≤ ws.length)
    (hf : ∀ u, EmitFrame s u → Wrote t zs u → Writes t ws u (f () u)) : Writes t ws s (x.bind f) := by
  rcases Nat.lt_or_ge t.params.outSize zs.length with hfull | hroom
  · obtain ⟨u, hu, frame⟩ := hx.2 hfull
    refine ⟨fun hw => absurd (hle.trans hw) (Nat.not_le.mpr hfull), fun _ => ⟨u, ?_, frame⟩⟩
    rw [hu, Body.bind_raised]
  · obtain ⟨u, hu, frame, wrote⟩ := hx.1 hroom
    obtain ⟨hfits, hfull⟩ := hf u frame wrote
    rw [hu, Body.bind_done]
    refine ⟨fun hw => ?_, fun hw => ?_⟩
    · obtain ⟨v, hv, frame', wrote'⟩ := hfits hw
      exact ⟨v, hv, frame.trans frame', wrote'⟩
    · obtain ⟨v, hv, frame'⟩ := hfull hw
      exact ⟨v, hv, frame.trans frame'⟩

theorem emit_writes {t s : State} {ys : List Byte} (h : Wrote t ys s) (b : Byte) :
    Writes t (ys ++ [b]) s (emit b s) := by
  rw [Writes, List.length_append, List.length_singleton]
  refine ⟨fun hroom => ?_, fun hfull => ⟨s, emit_full ?_, rfl⟩⟩
  · obtain ⟨e, hemit, hq⟩ := emit_quiet (b := b) h.quiet (by rw [h.cursor, h.command.params]; omega)
    obtain ⟨_, frame, cursor, mem⟩ := emit_done hemit
    refine ⟨_, hemit, frame, h.command.trans frame.bodyFrame.sameCommand, ?_, ?_, by simpa using hroom, hq⟩
    · rw [mem, h.mem, h.cursor, Memory.writeAll_append, Nat.zero_add]
      rfl
    · rw [cursor, h.cursor, List.length_append, List.length_singleton]
  · rw [h.cursor, h.command.params]
    omega

theorem emitAll_writes {t s : State} {ys : List Byte} (h : Wrote t ys s) (bs : List Byte) :
    Writes t (ys ++ bs) s (emitAll bs s) := by
  induction bs generalizing s ys with
  | nil =>
    rw [List.append_nil]
    exact .nothing h
  | cons b bs ih =>
    refine (emit_writes h b).bind (by simp) fun u _ hu => ?_
    simpa using ih hu

/-! ### What is left of IN -/

/-- The input bytes from offset `k` on (R31, R40). -/
def State.inputFrom (s : State) (k : Nat) : List Byte := (s.inBytes s.srcCount).drop k

/-- The input not yet read. -/
def State.rest (s : State) : List Byte := s.inputFrom s.inPos

theorem inputFrom_length (s : State) (k : Nat) : (s.inputFrom k).length = s.srcCount - k := by
  simp [State.inputFrom, State.inBytes]

theorem inputFrom_getElem {s : State} {k j : Nat} (h : j < (s.inputFrom k).length) :
    (s.inputFrom k)[j] = s.inByteAt (k + j) := by
  simp [State.inputFrom, State.inBytes]

theorem inputFrom_drop (s : State) (k n : Nat) : (s.inputFrom k).drop n = s.inputFrom (k + n) := List.drop_drop

theorem inputFrom_cons {s : State} {k : Nat} {b : Byte} {bs : List Byte} (h : s.inputFrom k = b :: bs) :
    k < s.srcCount ∧ s.inByteAt k = b ∧ s.inputFrom (k + 1) = bs := by
  have hlen := inputFrom_length s k
  rw [h, List.length_cons] at hlen
  refine ⟨by omega, ?_, ?_⟩
  · have hfirst := inputFrom_getElem (s := s) (k := k) (j := 0) (by simp [h])
    simpa [h] using hfirst.symm
  · rw [← inputFrom_drop, h]
    rfl

theorem inputFrom_nil {s : State} {k : Nat} (h : s.inputFrom k = []) : s.srcCount ≤ k := by
  have hlen := inputFrom_length s k
  rw [h, List.length_nil] at hlen
  omega

/-- A command reads its own input throughout. -/
theorem SameCommand.inputFrom {t s : State} (h : SameCommand t s) (k : Nat) : s.inputFrom k = t.inputFrom k :=
  (congrArg (State.inputFrom · k) h :)

/-- The cursor moves over the input. -/
theorem SameCommand.rest_move {s u : State} (h : SameCommand s u) {n : Nat} (hi : u.inPos = s.inPos + n) :
    u.rest = s.rest.drop n := by
  rw [State.rest, h.inputFrom, hi, ← inputFrom_drop, State.rest]

/-! ### Reads -/

theorem inByte_inputFrom {s : State} {k : Nat} {b : Byte} {bs : List Byte} (hq : s.Quiet) (hz : s.hazards = [])
    (h : s.inputFrom k = b :: bs) :
    ∃ e, inByte k s = .done b { s with env := e } ∧ ({ s with env := e } : State).Quiet := by
  obtain ⟨hk, hb, _⟩ := inputFrom_cons h
  obtain ⟨e, hread, hqe⟩ := inByte_quiet hq hk (by simp [hz])
  exact ⟨e, hb ▸ hread, hqe⟩

/-- A read in a quiet environment leaves it quiet. -/
theorem inByte_stays_quiet {k : Nat} {s t : State} {b : Byte} (h : inByte k s = .done b t) (hq : s.Quiet) : t.Quiet := by
  obtain ⟨e, hd, hqe⟩ := drawRead_quiet k s hq
  rw [inByte_of_lt (inByte_done h).1, hd] at h
  cases h
  rw [(fetchIn_frame k _).1]
  exact hqe

theorem nextByte_stays_quiet {s t : State} {b : Byte} (h : nextByte s = .done b t) (hq : s.Quiet) : t.Quiet := by
  obtain ⟨b1, s1, h1, h2⟩ := Body.bind_eq_done.mp h
  have hq1 : s1.Quiet := inByte_stays_quiet h1 hq
  cases h2
  exact hq1

theorem nextBytes_stays_quiet {n : Nat} {s t : State} {bs : List Byte} (h : nextBytes n s = .done bs t)
    (hq : s.Quiet) : t.Quiet := by
  induction n generalizing s bs with
  | zero =>
    cases h
    exact hq
  | succ n ih =>
    obtain ⟨b, s1, h1, h2⟩ := Body.bind_eq_done.mp h
    obtain ⟨bs1, s2, h3, h4⟩ := Body.bind_eq_done.mp h2
    cases h4
    exact ih h3 (nextByte_stays_quiet h1 hq)

/-- An element whose bytes are not all there is truncated (R62, R232). -/
theorem nextBytes_short {n : Nat} {s : State} (hq : s.Quiet) (hz : s.hazards = []) (h : s.rest.length < n) :
    ∃ u, nextBytes n s = .raised .ioFailure u ∧ BodyFrame s u := by
  induction n generalizing s with
  | zero => cases h
  | succ n ih =>
    cases hrest : s.rest with
    | nil =>
      refine ⟨s, ?_, rfl⟩
      rw [nextBytes, nextByte, inByte_truncated (inputFrom_nil hrest), Body.bind_raised, Body.bind_raised]
    | cons b bs =>
      obtain ⟨e, hread, hqe⟩ := inByte_inputFrom hq hz hrest
      have hnext : nextByte s = .done b { s with env := e, inPos := s.inPos + 1 } := by
        rw [nextByte, hread, Body.bind_done]
      have hmoved : ({ s with env := e, inPos := s.inPos + 1 } : State).rest = bs := (inputFrom_cons hrest).2.2
      rw [hrest, List.length_cons] at h
      obtain ⟨u, hu, frame⟩ := ih (s := { s with env := e, inPos := s.inPos + 1 }) hqe hz (by rw [hmoved]; omega)
      refine ⟨u, ?_, BodyFrame.trans (t := { s with env := e, inPos := s.inPos + 1 }) rfl frame⟩
      rw [nextBytes, hnext, Body.bind_done, hu, Body.bind_raised]

/-! ### Where a command stands -/

/-- The command that runs in `t` stands in phase `ph` in `s`, with `ys` written and `bs` left of the input. -/
structure Stage (ph : Phase) (t : State) (ys bs : List Byte) (s : State) : Prop where
  phase : s.phase = ph
  wrote : Wrote t ys s
  cursor : s.inPos ≤ s.srcCount
  rest : s.rest = bs

theorem Started.stage {t : State} {ph : Phase} (h : Started t) (hp : t.phase = ph) : Stage ph t [] t.rest t :=
  ⟨hp, h.wrote, h.inPos ▸ Nat.zero_le _, rfl⟩

/-- The command moves on over `n` bytes of its input. -/
theorem Stage.move {p q : Phase} {t s u : State} {ys zs bs : List Byte} {n : Nat} (h : Stage p t ys bs s)
    (hp : u.phase = q) (hw : Wrote t zs u) (hc : SameCommand s u) (hi : u.inPos = s.inPos + n) (hn : n ≤ bs.length) :
    Stage q t zs (bs.drop n) u := by
  have hlen := inputFrom_length s s.inPos
  have hrest : s.inputFrom s.inPos = bs := h.rest
  rw [hrest] at hlen
  have hcursor := h.cursor
  refine ⟨hp, hw, ?_, by rw [hc.rest_move hi, h.rest]⟩
  rw [hi, hc.srcCount]
  omega

theorem Stage.ended {ph : Phase} {t s : State} {ys : List Byte} (h : Stage ph t ys [] s) : ¬ s.inPos < s.srcCount :=
  Nat.not_lt.mpr (inputFrom_nil h.rest)

theorem Stage.inPos_lt {ph : Phase} {t s : State} {ys bs : List Byte} {b : Byte} (h : Stage ph t ys (b :: bs) s) :
    s.inPos < s.srcCount :=
  (inputFrom_cons h.rest).1

/-- What is left starts with the bytes that stand at `in_pos`. -/
theorem Stage.holdsNext {ph : Phase} {t s : State} {ys bs more : List Byte} (h : Stage ph t ys (bs ++ more) s) :
    s.HoldsNext bs := by
  have hlen := inputFrom_length s s.inPos
  have hrest : s.inputFrom s.inPos = bs ++ more := h.rest
  have hcursor := h.cursor
  rw [hrest, List.length_append] at hlen
  refine ⟨by omega, fun k hk => ?_⟩
  have hbyte := inputFrom_getElem (s := s) (k := s.inPos) (j := k) (by rw [hrest, List.length_append]; omega)
  rw [← hbyte]
  simp [hrest, List.getElem_append_left hk, hk]

/-- The command has fetched an element of the bytes `bs` and runs it. -/
theorem Stage.fetched {ph : Phase} {t s : State} {ys bs more : List Byte} {e : Env} (h : Stage ph t ys (bs ++ more) s)
    (hq : ({ s with env := e, inPos := s.inPos + bs.length } : State).Quiet) :
    Stage ph t ys more { s with env := e, inPos := s.inPos + bs.length } := by
  have hmoved := h.move (u := { s with env := e, inPos := s.inPos + bs.length }) h.phase
    (h.wrote.goes rfl ⟨rfl, rfl⟩ hq) rfl rfl (by simp)
  rwa [List.drop_left] at hmoved

/-- The command has written, and nothing else. -/
theorem Stage.emitted {ph : Phase} {t s u : State} {ys zs bs : List Byte} (h : Stage ph t ys bs s)
    (frame : EmitFrame s u) (hw : Wrote t zs u) : Stage ph t zs bs u :=
  h.move (n := 0) ((congrArg State.phase frame :).trans h.phase) hw frame.bodyFrame.sameCommand
    (congrArg State.inPos frame :) (Nat.zero_le _)

theorem Stage.untouched {ph : Phase} {t s : State} {ys bs : List Byte} (h : Stage ph t ys bs s) (ht : Started t) :
    s.hazards = [] :=
  h.wrote.command.hazards.trans ht.hazards

/-! ### Runs to the end -/

/-- A run from `s` ends in a state with the property. -/
def Ends (P : State → Prop) (s : State) : Prop := ∃ u, Runs s u ∧ P u

theorem Ends.of_step {P : State → Prop} {s t : State} (h : step s = .next t) (ht : Ends P t) : Ends P s := by
  obtain ⟨u, hrun, hu⟩ := ht
  exact ⟨u, .of_step h hrun, hu⟩

theorem Ends.now {P : State → Prop} {s u : State} (h : step s = .next u) (hu : P u) : Ends P s :=
  ⟨u, .of_step h (.refl u), hu⟩

/-- The engine's step where a command stands. -/
theorem Stage.step_phase {ph : Phase} {t s : State} {ys bs : List Byte} (h : Stage ph t ys bs s) (ht : Started t) :
    step s = runPhase exec s :=
  step_running (h.wrote.command.inputs.trans ht.inputs)
    ((congrArg Status.busy h.wrote.command.status).trans ht.busy)

/-- One step that writes: it goes on where OUT has room, and ends the command where it has none. -/
theorem Ends.of_writes {P : State → Prop} {t s s1 : State} {zs : List Byte} {x : Body Unit} {f : State → State}
    (ht : Started t) (h1 : SameCommand t s1) (hx : Writes t zs s1 x)
    (hstep : step s = .next (settle (x.bind fun _ u => .done () (f u))))
    (hfull : t.params.outSize < zs.length → ∀ u, FailedInBody .ioFailure t u → P u)
    (hnext : ∀ u, EmitFrame s1 u → Wrote t zs u → Ends P (f u)) : Ends P s := by
  rcases Nat.lt_or_ge t.params.outSize zs.length with hlt | hroom
  · obtain ⟨u, hu, frame⟩ := hx.2 hlt
    rw [hu, Body.bind_raised, settle_raised] at hstep
    have failed := (h1.trans frame.bodyFrame.sameCommand).failed ht.busy (e := .ioFailure) (by decide)
    exact .now hstep (hfull hlt _ failed)
  · obtain ⟨u, hu, frame, wrote⟩ := hx.1 hroom
    rw [hu, Body.bind_done, settle_done] at hstep
    exact .of_step hstep (hnext u frame wrote)

theorem Body.bind_done_unit (x : Body Unit) : (x.bind fun _ u => .done () u) = x := by
  cases x <;> rfl

/-- The same for a step that only writes: one element of a decompressor. -/
theorem Ends.of_element {P : State → Prop} {t s s1 : State} {zs : List Byte} {x : Body Unit} (ht : Started t)
    (h1 : SameCommand t s1) (hx : Writes t zs s1 x) (hstep : step s = .next (settle x))
    (hfull : t.params.outSize < zs.length → ∀ u, FailedInBody .ioFailure t u → P u)
    (hnext : ∀ u, EmitFrame s1 u → Wrote t zs u → Ends P u) : Ends P s :=
  .of_writes (f := fun u => u) ht h1 hx (by rw [hstep, Body.bind_done_unit]) hfull hnext

/-! ### What a run of a compressor or a decompressor ends with -/

theorem EncodesTo.of_wrote {t s : State} {art : List Byte} (h : Wrote t art s) :
    EncodesTo t.status.codec art t t (complete .success s) :=
  ⟨fun _ => h.succeeded, fun hfull => absurd h.room (Nat.not_le.mpr hfull)⟩

/-- Already a part of the artifact does not fit. -/
theorem EncodesTo.of_full {c : CodecId} {t u : State} {zs art : List Byte} (hz : zs <+: art)
    (hfull : t.params.outSize < zs.length) (h : FailedInBody .ioFailure t u) : EncodesTo c art t t u := by
  have hlen : t.params.outSize < art.length := hfull.trans_le hz.length_le
  exact ⟨fun hroom => absurd hroom (Nat.not_le.mpr hlen), fun _ => h⟩

theorem DecodesTo.of_wrote {t s : State} {ys : List Byte} (h : Wrote t ys s) :
    DecodesTo t.status.codec { out := ys, err := .success } t t (complete .success s) :=
  ⟨fun _ _ => h.succeeded, fun _ hne => absurd rfl hne, fun hfull => absurd h.room (Nat.not_le.mpr hfull)⟩

/-- The decompression ends with an error after the symbols `ys`. -/
theorem DecodesTo.of_error {c : CodecId} {t u : State} {ys : List Byte} {e : ErrCode} (he : e ≠ .success)
    (hroom : ys.length ≤ t.params.outSize) (h : FailedInBody e t u) : DecodesTo c { out := ys, err := e } t t u :=
  ⟨fun _ hs => absurd hs he, fun _ _ => h, fun hfull => absurd hroom (Nat.not_le.mpr hfull)⟩

/-- Already a part of the symbols does not fit. -/
theorem DecodesTo.of_full {c : CodecId} {t u : State} {zs : List Byte} {d : Reference.Decoded} (hz : zs <+: d.out)
    (hfull : t.params.outSize < zs.length) (h : FailedInBody .ioFailure t u) : DecodesTo c d t t u := by
  have hlen : t.params.outSize < d.out.length := hfull.trans_le hz.length_le
  exact ⟨fun hroom => absurd hroom (Nat.not_le.mpr hlen), fun hroom => absurd hroom (Nat.not_le.mpr hlen), fun _ => h⟩

/-! ### From issue to the run -/

/-- A body issued with no input pending and no access failing (R100, R262). -/
theorem IssuedBody.started {op : BitVec 4} {c : CodecId} {w : LzPair} {ph : Phase} {s t : State}
    (h : IssuedBody op c w ph s t) (hq : s.Quiet) (hin : s.inputs = []) : Started t := by
  obtain ⟨hstatus, _, _, ⟨_, hi, ho⟩, _, _, _, _, _, hz, _, _, _, _, _, _, _, henv, _, hinputs, _⟩ := h
  refine ⟨by rw [hstatus], hinputs.trans hin, hz, ?_, hi, ho⟩
  rw [State.Quiet, henv]
  exact hq

/-- The latched length is SRC_LEN, and the input is what IN held at issue. -/
theorem IssuedBody.rest {op : BitVec 4} {c : CodecId} {w : LzPair} {ph : Phase} {s t : State}
    (h : IssuedBody op c w ph s t) : t.rest = s.inBytes s.srcLen.toNat := by
  obtain ⟨_, _, _, ⟨hlatch, hi, _⟩, _, _, _, _, _, _, _, _, _, _, hmem, _⟩ := h
  simp [State.rest, State.inputFrom, State.inBytes, State.inByteAt, State.srcCount, hi, hlatch, hmem]

/-- What issue leaves unchanged, a success compared with the issued state says of the state before issue (R76). -/
theorem Succeeded.of_issued {op : BitVec 4} {c : CodecId} {w : LzPair} {ph : Phase} {s t u : State} {ys : List Byte}
    (hi : IssuedBody op c w ph s t) (h : Succeeded c ys t u) : Succeeded c ys s u := by
  obtain ⟨_, _, _, _, _, _, _, _, _, _, hp, hs, hl, hd, hm, hom, hoe, _⟩ := hi
  obtain ⟨hstatus, hlen, hbytes, hphase, hout, hmem, hparams, hsrc, hcfg, htag⟩ := h
  refine ⟨hstatus, hlen, hbytes, hphase, fun a ha => (hout a ha).trans ?_, hmem.trans hm, hparams.trans hp,
    hsrc.trans hs, hcfg.trans hl, htag.trans hd⟩
  rw [State.outByteAt, hom, hoe, State.outByteAt]

theorem IssuedBody.params {op : BitVec 4} {c : CodecId} {w : LzPair} {ph : Phase} {s t : State}
    (h : IssuedBody op c w ph s t) : t.params = s.params := by
  obtain ⟨_, _, _, _, _, _, _, _, _, _, hp, _⟩ := h
  exact hp

/-- A compressor that is launched runs to its end as its body does. -/
theorem Launches.encodes {i : Instr} {op : BitVec 4} {c : CodecId} {w : LzPair} {ph : Phase} {s : State}
    {art : List Byte} (h : Launches i op c w ph s) (hb : s.status.busy = false) (hq : s.Quiet) (hin : s.inputs = [])
    (hn : s.srcLen.toNat ≤ s.params.inSize)
    (hbody : ∀ t, Started t → IssuedBody op c w ph s t → Ends (EncodesTo t.status.codec art t t) t) :
    ∃ t u, exec i s = .next t ∧ IssuedBody op c w ph s t ∧ Runs t u ∧ EncodesTo c art s t u := by
  obtain ⟨t, hexec, hissued⟩ := h.issued hb hn
  obtain ⟨u, hrun, hfits, hfull⟩ := hbody t (hissued.started hq hin) hissued
  have hcodec : t.status.codec = c := by rw [hissued.1]
  rw [hcodec, hissued.params] at hfits
  rw [hissued.params] at hfull
  exact ⟨t, u, hexec, hissued, hrun, fun hroom => (hfits hroom).of_issued hissued, hfull⟩

/-- A decompressor that is launched runs to its end as its body does. -/
theorem Launches.decodes {i : Instr} {op : BitVec 4} {c : CodecId} {w : LzPair} {ph : Phase} {s : State}
    {d : Reference.Decoded} (h : Launches i op c w ph s) (hb : s.status.busy = false) (hq : s.Quiet)
    (hin : s.inputs = []) (hn : s.srcLen.toNat ≤ s.params.inSize)
    (hbody : ∀ t, Started t → IssuedBody op c w ph s t → Ends (DecodesTo t.status.codec d t t) t) :
    ∃ t u, exec i s = .next t ∧ IssuedBody op c w ph s t ∧ Runs t u ∧ DecodesTo c d s t u := by
  obtain ⟨t, hexec, hissued⟩ := h.issued hb hn
  obtain ⟨u, hrun, hsuccess, herror, hfull⟩ := hbody t (hissued.started hq hin) hissued
  have hcodec : t.status.codec = c := by rw [hissued.1]
  rw [hcodec, hissued.params] at hsuccess
  rw [hissued.params] at herror hfull
  exact ⟨t, u, hexec, hissued, hrun, fun hroom hs => (hsuccess hroom hs).of_issued hissued, herror, hfull⟩

end Sys2Proof.Machine

/-! ## RLE: the reference codec, one pair at a time -/

namespace Sys2Proof.Reference

open Sys2Proof Sys2Proof.Machine

/-- How many times `c` stands at the front of a list. -/
def leading (c : Byte) (cs : List Byte) : Nat := (cs.takeWhile (· = c)).length

@[simp] theorem leading_nil (c : Byte) : leading c [] = 0 := rfl

theorem leading_cons (c d : Byte) (ds : List Byte) : leading c (d :: ds) = if d = c then leading c ds + 1 else 0 := by
  by_cases h : d = c <;> simp [leading, h]

theorem take_leading {c : Byte} {cs : List Byte} {n : Nat} (h : n ≤ leading c cs) : cs.take n = List.replicate n c := by
  induction cs generalizing n with
  | nil =>
    obtain rfl : n = 0 := Nat.le_zero.mp h
    rfl
  | cons d ds ih =>
    cases n with
    | zero => rfl
    | succ n =>
      rw [leading_cons] at h
      split at h
      next hd => rw [List.take_succ_cons, ih (by omega), hd, List.replicate_succ]
      · omega

/-- Inside the front run another symbol of it comes next. -/
theorem drop_leading {c : Byte} {cs : List Byte} {n : Nat} (h : n < leading c cs) :
    cs.drop n = c :: cs.drop (n + 1) ∧ leading c (cs.drop (n + 1)) + (n + 1) = leading c cs := by
  induction cs generalizing n with
  | nil => cases h
  | cons d ds ih =>
    rw [leading_cons] at h ⊢
    split at h
    next hd =>
      rw [if_pos hd]
      cases n with
      | zero => simp [hd]
      | succ n =>
        obtain ⟨hdrop, hlen⟩ := ih (n := n) (by omega)
        exact ⟨by simpa using hdrop, by simp only [List.drop_succ_cons]; omega⟩
    · cases h

/-- The first maximal run of a list is the run at its front (R210). -/
theorem runs_cons (c : Byte) (cs : List Byte) :
    runs (c :: cs) = (leading c cs + 1, c) :: runs (cs.drop (leading c cs)) := by
  induction cs generalizing c with
  | nil => rfl
  | cons d ds ih =>
    rw [runs, ih d, leading_cons]
    by_cases h : d = c
    · simp [h]
    · simp [h, Ne.symm h, ih d]

/-- A run of 255 or less is one pair (R211). -/
theorem cutRun_short {r : Nat} (h1 : 1 ≤ r) (h2 : r ≤ 255) (c : Byte) : cutRun (r, c) = [BitVec.ofNat 8 r, c] := by
  rcases Nat.lt_or_eq_of_le h2 with hlt | rfl
  · simp [cutRun, Nat.div_eq_of_lt hlt, Nat.mod_eq_of_lt hlt, Nat.one_le_iff_ne_zero.mp h1]
  · simp [cutRun]

/-- A longer run starts with a pair of 255 (R211). -/
theorem cutRun_long (r : Nat) (c : Byte) : cutRun (r + 255, c) = [255#8, c] ++ cutRun (r, c) := by
  have hdiv : (r + 255) / 255 = r / 255 + 1 := by omega
  have hmod : (r + 255) % 255 = r % 255 := by omega
  simp only [cutRun, hdiv, hmod, List.replicate_succ, List.flatten_cons, List.append_assoc]

/-- The symbols that the first pair stands for (R211). -/
def firstRun (c : Byte) (cs : List Byte) : Nat := min 254 (leading c cs) + 1

/-- The artifact is the first pair and the artifact of what follows its symbols. -/
theorem rleEncode_cons (c : Byte) (cs : List Byte) :
    rleEncode (c :: cs) = [BitVec.ofNat 8 (firstRun c cs), c] ++ rleEncode ((c :: cs).drop (firstRun c cs)) := by
  have hruns : ∀ ds, rleEncode (c :: ds) = cutRun (leading c ds + 1, c) ++ rleEncode (ds.drop (leading c ds)) := by
    intro ds
    simp only [rleEncode, runs_cons, List.flatMap_cons]
  rcases Nat.lt_or_ge 254 (leading c cs) with hlong | hshort
  · obtain ⟨hnext, hlen⟩ := drop_leading hlong
    have hfirst : firstRun c cs = 255 := by
      rw [firstRun, Nat.min_eq_left hlong.le]
    simp only [Nat.reduceAdd] at hnext hlen
    have hrun : leading c cs + 1 = (leading c (cs.drop 255) + 1) + 255 := by omega
    have hrest : cs.drop (leading c cs) = (cs.drop 255).drop (leading c (cs.drop 255)) := by
      rw [List.drop_drop, Nat.add_comm, hlen]
    rw [hruns cs, hrun, cutRun_long, hrest, List.append_assoc, ← hruns (cs.drop 255), hfirst, List.drop_succ_cons, hnext]
  · have hfirst : firstRun c cs = leading c cs + 1 := by rw [firstRun, Nat.min_eq_right hshort]
    rw [hruns cs, cutRun_short (by omega) (by omega), hfirst, List.drop_succ_cons]

/-- The symbols of the first pair are those at the front. -/
theorem replicate_firstRun (c : Byte) (cs : List Byte) :
    List.replicate (firstRun c cs) c ++ (c :: cs).drop (firstRun c cs) = c :: cs := by
  have htake : (c :: cs).take (firstRun c cs) = List.replicate (firstRun c cs) c := by
    rw [firstRun, List.take_succ_cons, take_leading (Nat.min_le_right _ _), List.replicate_succ]
  rw [← htake, List.take_append_drop]

theorem firstRun_lt (c : Byte) (cs : List Byte) : firstRun c cs < 256 := by
  unfold firstRun
  omega

theorem firstRun_le (c : Byte) (cs : List Byte) : firstRun c cs ≤ (c :: cs).length := by
  have hle : leading c cs ≤ cs.length := (List.takeWhile_sublist _).length_le
  rw [firstRun, List.length_cons]
  omega

/-- The list is shorter past its first pair's symbols. -/
theorem length_drop_firstRun (c : Byte) (cs : List Byte) : ((c :: cs).drop (firstRun c cs)).length < (c :: cs).length := by
  simp [firstRun]

/-- The reference RLE codec gives the input back (R212). -/
theorem rleDecode_rleEncode (xs : List Byte) : rleDecode (rleEncode xs) = { out := xs, err := .success } := by
  induction hn : xs.length using Nat.strong_induction_on generalizing xs with
  | _ n ih =>
    cases xs with
    | nil => rfl
    | cons c cs =>
      have hcount : (BitVec.ofNat 8 (firstRun c cs)).toNat = firstRun c cs := Nat.mod_eq_of_lt (firstRun_lt c cs)
      rw [rleEncode_cons, List.cons_append, List.cons_append, List.nil_append, rleDecode_pair,
        ih _ (hn ▸ length_drop_firstRun c cs) _ rfl, hcount, Decoded.after, replicate_firstRun]

end Sys2Proof.Reference

/-! ## RLE: the runs of the machine -/

namespace Sys2Proof.Machine

open Sys2Proof Sys2Proof.Reference

/-- The counted run is what stands at the front of the input, as far as it is counted (R210). -/
theorem countRun_quiet (c : Byte) (k more run : Nat) {s : State} (hq : s.Quiet) (hz : s.hazards = []) :
    ∃ e, countRun c k more run s = .done (min more (leading c (s.inputFrom (k + run))) + run) { s with env := e }
      ∧ ({ s with env := e } : State).Quiet := by
  induction more generalizing run s with
  | zero => exact ⟨s.env, by rw [countRun, Nat.zero_min, Nat.zero_add], hq⟩
  | succ more ih =>
    unfold countRun
    cases hin : s.inputFrom (k + run) with
    | nil =>
      rw [if_neg (Nat.not_lt.mpr (inputFrom_nil hin))]
      exact ⟨s.env, by rw [leading_nil, Nat.min_zero, Nat.zero_add], hq⟩
    | cons b bs =>
      obtain ⟨hlt, _, hnext⟩ := inputFrom_cons hin
      obtain ⟨e, hread, hqe⟩ := inByte_inputFrom hq hz hin
      rw [if_pos hlt, hread, Body.bind_done, leading_cons]
      split
      · obtain ⟨e', hcount, hqe'⟩ := ih (run + 1) (s := { s with env := e }) hqe hz
        have hbs : ({ s with env := e } : State).inputFrom (k + (run + 1)) = bs := hnext
        refine ⟨e', ?_, hqe'⟩
        rw [hcount, hbs, Nat.add_min_add_right, Nat.add_assoc, Nat.add_comm 1]
      · exact ⟨e, by rw [Nat.min_zero, Nat.zero_add], hqe⟩

/-- One turn of the compressor is the write of the first pair (R210). -/
theorem rleEncodeStep_pair {s : State} {c : Byte} {cs : List Byte} (hq : s.Quiet) (hz : s.hazards = [])
    (h : s.rest = c :: cs) :
    ∃ e, ({ s with env := e } : State).Quiet
      ∧ rleEncodeStep s = (emitAll [BitVec.ofNat 8 (firstRun c cs), c] { s with env := e }).bind
          fun _ u => .done () { u with inPos := u.inPos + firstRun c cs } := by
  obtain ⟨hlt, _, hnext⟩ := inputFrom_cons h
  obtain ⟨e, hread, hqe⟩ := inByte_inputFrom hq hz h
  obtain ⟨e', hcount, hqe'⟩ := countRun_quiet c s.inPos 254 1 (s := { s with env := e }) hqe hz
  have hcs : ({ s with env := e } : State).inputFrom (s.inPos + 1) = cs := hnext
  refine ⟨e', hqe', ?_⟩
  rw [rleEncodeStep, if_pos hlt, hread, Body.bind_done, hcount, Body.bind_done, hcs]
  rfl

theorem runPhase_rleEncode {s : State} (hp : s.phase = .rleEncode) :
    runPhase exec s = .next (settle (rleEncodeStep s)) := by
  simp only [runPhase, hp]

theorem runPhase_rleDecode {s : State} (hp : s.phase = .rleDecode) :
    runPhase exec s = runWhileInput exec fetchRle s := by
  simp only [runPhase, hp]

/-- The compressor's run from any point: what is written and the artifact of the rest (R210, R211). -/
theorem rleEncode_ends {t s : State} {ys xs : List Byte} (ht : Started t) (h : Stage .rleEncode t ys xs s) :
    Ends (EncodesTo t.status.codec (ys ++ rleEncode xs) t t) s := by
  induction hn : xs.length using Nat.strong_induction_on generalizing s ys xs with
  | _ n ih =>
    have hstep : step s = .next (settle (rleEncodeStep s)) := (h.step_phase ht).trans (runPhase_rleEncode h.phase)
    cases xs with
    | nil =>
      rw [rleEncodeStep, if_neg h.ended] at hstep
      refine .now hstep ?_
      rw [show rleEncode [] = [] from rfl, List.append_nil]
      exact .of_wrote h.wrote
    | cons c cs =>
      obtain ⟨e, hqe, hturn⟩ := rleEncodeStep_pair h.wrote.quiet (h.untouched ht) h.rest
      rw [hturn] at hstep
      have hread : Stage .rleEncode t ys (c :: cs) { s with env := e } :=
        h.move (n := 0) h.phase (h.wrote.goes rfl ⟨rfl, rfl⟩ hqe) rfl rfl (Nat.zero_le _)
      rw [rleEncode_cons, ← List.append_assoc]
      refine .of_writes ht hread.wrote.command (emitAll_writes hread.wrote _) hstep
        (fun hfull _ hu => .of_full (List.prefix_append _ _) hfull hu) fun u frame hu => ?_
      have hpair := hread.emitted frame hu
      have hless := length_drop_firstRun c cs
      refine ih _ (hn ▸ hless) (hpair.move hpair.phase (hu.goes rfl ⟨rfl, rfl⟩ hu.quiet) rfl rfl ?_) rfl
      exact firstRun_le c cs

/-- An RLE pair that stands next is fetched and run (R213). -/
theorem rleDecode_step {t s : State} {ys more : List Byte} {n c : Byte} (ht : Started t)
    (h : Stage .rleDecode t ys (n :: c :: more) s) :
    ∃ s1, Stage .rleDecode t ys more s1
      ∧ step s = .next (settle (emitAll (List.replicate n.toNat c) s1)) := by
  have hpair : Stage .rleDecode t ys ([n, c] ++ more) s := h
  obtain ⟨e, hfetch⟩ := fetchRle_quiet rfl h.wrote.quiet (h.untouched ht) hpair.holdsNext
  have hq : ({ s with env := e, inPos := s.inPos + [n, c].length } : State).Quiet := by
    obtain ⟨bs, s1, h1, h2⟩ := Body.bind_eq_done.mp hfetch
    cases h2
    exact nextBytes_stays_quiet h1 h.wrote.quiet
  refine ⟨_, hpair.fetched hq, ?_⟩
  rw [h.step_phase ht, runPhase_rleDecode h.phase, runWhileInput, if_pos h.inPos_lt, hfetch, ← emitRepeat_eq_emitAll]
  rfl

/-- The decompressor's run from any point: what is written and the expansion of the rest (R213). -/
theorem rleDecode_ends {t s : State} {ys bs : List Byte} (ht : Started t) (h : Stage .rleDecode t ys bs s) :
    Ends (DecodesTo t.status.codec ((rleDecode bs).after ys) t t) s := by
  induction bs using rleDecode.induct generalizing s ys with
  | case1 =>
    have hend : step s = .next (complete .success s) := by
      rw [h.step_phase ht, runPhase_rleDecode h.phase, runWhileInput, if_neg h.ended]
    refine .now hend ?_
    rw [rleDecode, Decoded.after, List.append_nil]
    exact .of_wrote h.wrote
  | case2 n =>
    obtain ⟨u, hu, frame⟩ := nextBytes_short (n := 2) h.wrote.quiet (h.untouched ht) (by simp [h.rest])
    have hend : step s = .next (complete .ioFailure u) := by
      rw [h.step_phase ht, runPhase_rleDecode h.phase, runWhileInput, if_pos h.inPos_lt, fetchRle, hu, Body.bind_raised]
      rfl
    refine .now hend ?_
    rw [rleDecode, Decoded.after, List.append_nil]
    exact .of_error (by decide) h.wrote.room
      ((h.wrote.command.trans frame.sameCommand).failed ht.busy (by decide))
  | case3 n c more ih =>
    obtain ⟨s1, h1, hstep⟩ := rleDecode_step ht h
    rw [rleDecode_pair, Decoded.after_after]
    exact .of_element ht h1.wrote.command (emitAll_writes h1.wrote _) hstep
      (fun hfull _ hu => .of_full (List.prefix_append _ _) hfull hu) fun u frame hu => ih (h1.emitted frame hu)

/-- A compressor of RLE, whichever command launched it (R103, R107, R210). -/
theorem Launches.rleEncodes {i : Instr} {op : BitVec 4} {s : State} (h : Launches i op .rle noPair .rleEncode s)
    (hb : s.status.busy = false) (hq : s.Quiet) (hin : s.inputs = []) (hn : s.srcLen.toNat ≤ s.params.inSize) :
    ∃ t u, exec i s = .next t ∧ IssuedBody op .rle noPair .rleEncode s t ∧ Runs t u
      ∧ EncodesTo .rle (rleEncode (s.inBytes s.srcLen.toNat)) s t u := by
  refine h.encodes hb hq hin hn fun t ht hissued => ?_
  obtain ⟨_, _, _, _, hp, _⟩ := id hissued
  exact hissued.rest ▸ rleEncode_ends ht (ht.stage hp)

/-- A decompressor of RLE, whichever command launched it (R105, R107, R213). -/
theorem Launches.rleDecodes {i : Instr} {op : BitVec 4} {s : State} (h : Launches i op .rle noPair .rleDecode s)
    (hb : s.status.busy = false) (hq : s.Quiet) (hin : s.inputs = []) (hn : s.srcLen.toNat ≤ s.params.inSize) :
    ∃ t u, exec i s = .next t ∧ IssuedBody op .rle noPair .rleDecode s t ∧ Runs t u
      ∧ DecodesTo .rle (rleDecode (s.inBytes s.srcLen.toNat)) s t u := by
  refine h.decodes hb hq hin hn fun t ht hissued => ?_
  obtain ⟨_, _, _, _, hp, _⟩ := id hissued
  exact hissued.rest ▸ rleDecode_ends ht (ht.stage hp)

end Sys2Proof.Machine

/-! ## LZ77: the reference codec, one token at a time -/

namespace Sys2Proof.Reference

open Sys2Proof Sys2Proof.Machine

/-! ### The window of the last symbols -/

theorem lastN_length_le {α : Type} (w : Nat) (xs : List α) : (lastN w xs).length ≤ w ∧ (lastN w xs).length ≤ xs.length := by
  simp only [lastN, List.length_drop]
  omega

/-- Symbols that fall out of the window before an append are not in it after the append (R45, R116). -/
theorem lastN_append {α : Type} (w : Nat) (xs ys : List α) : lastN w (lastN w xs ++ ys) = lastN w (xs ++ ys) := by
  rcases Nat.lt_or_ge w xs.length with hlt | hle
  · have hfront : lastN w xs ++ ys = (xs ++ ys).drop (xs.length - w) := by
      rw [lastN, List.drop_append_of_le_length (Nat.sub_le _ _)]
    rw [hfront, lastN, List.drop_drop, lastN, List.length_drop, List.length_append]
    congr 1
    omega
  · rw [lastN_of_le hle]

/-- The end of the window is the end of what it is the last of. -/
theorem lastN_drop {α : Type} {w n : Nat} {xs : List α} (h : n ≤ (lastN w xs).length) :
    (lastN w xs).drop ((lastN w xs).length - n) = xs.drop (xs.length - n) := by
  simp only [lastN, List.length_drop] at h ⊢
  rw [List.drop_drop]
  congr 1
  omega

/-! ### The match that is found -/

/-- The match lies in the window, and its symbols are the first of the lookahead (R113, R118). -/
def MatchesAt (win look : List Byte) (m : Match) : Prop :=
  m.offset ≤ win.length ∧ m.length ≤ commonPrefix (win.drop (win.length - m.offset)) look

theorem scanWindow_matchesAt {win look : List Byte} {best : Match} (hb : MatchesAt win look best) {ws : List Byte}
    (hw : ws <:+ win) : MatchesAt win look (scanWindow ws look best) := by
  induction ws generalizing best with
  | nil => exact hb
  | cons w ws ih =>
    refine ih ?_ ((List.suffix_cons w ws).trans hw)
    split
    · exact ⟨hw.length_le, by rw [← List.suffix_iff_eq_drop.mp hw]⟩
    · exact hb

theorem findMatch_matchesAt (win look : List Byte) : MatchesAt win look (findMatch win look) :=
  scanWindow_matchesAt ⟨Nat.zero_le _, Nat.zero_le _⟩ List.suffix_rfl

/-- A match is no longer than its offset (R118). -/
theorem MatchesAt.length_le_offset {win look : List Byte} {m : Match} (h : MatchesAt win look m) :
    m.length ≤ m.offset := by
  have hle := h.2.trans (commonPrefix_le _ _).1
  rw [List.length_drop] at hle
  omega

theorem MatchesAt.take_eq {win look : List Byte} {m : Match} (h : MatchesAt win look m) :
    (win.drop (win.length - m.offset)).take m.length = look.take m.length := by
  obtain ⟨_, _, hsame⟩ := (le_commonPrefix_iff _ _ _).mp h.2
  refine List.ext_getElem? fun j => ?_
  rw [List.getElem?_take, List.getElem?_take]
  split
  next hj => exact hsame j hj
  · rfl

/-! ### The decoder on one token -/

/-- A match no longer than its offset copies symbols that stand in the output already (R125). -/
theorem copyBack_eq {offset n : Nat} {out : List Byte} (hn : n ≤ offset) (ho : offset ≤ out.length) :
    copyBack offset n out = out ++ (out.drop (out.length - offset)).take n := by
  induction n generalizing out with
  | zero => simp [copyBack]
  | succ n ih =>
    have hlt : out.length - offset < out.length := by omega
    have hnext : out.drop (out.length - offset) = out[out.length - offset] :: out.drop (out.length + 1 - offset) := by
      rw [List.drop_eq_getElem_cons hlt]
      congr 2
      omega
    rw [copyBack, ih (by omega) (by simp; omega), List.getD_eq_getElem _ _ hlt, hnext, List.take_succ_cons,
      List.length_append, List.length_singleton, List.drop_append_of_le_length (by omega),
      List.take_append_of_le_length (by rw [List.length_drop]; omega), List.append_assoc]
    rfl

theorem lzDecodeFrom_nil (out : List Byte) : lzDecodeFrom out [] = { out := out, err := .success } := by
  rw [lzDecodeFrom]

theorem lzDecodeFrom_literal (out : List Byte) (c : Byte) (more : List Byte) :
    lzDecodeFrom out (0#8 :: c :: more) = lzDecodeFrom (out ++ [c]) more := by
  rw [lzDecodeFrom, if_pos rfl]

theorem lzDecodeFrom_match (out : List Byte) (o1 o0 l1 l0 : Byte) (more : List Byte) :
    lzDecodeFrom out (1#8 :: o1 :: o0 :: l1 :: l0 :: more) =
      if (halfOf o1 o0).toNat = 0 ∨ out.length < (halfOf o1 o0).toNat then { out := out, err := .corruptStream }
      else lzDecodeFrom (copyBack (halfOf o1 o0).toNat (halfOf l1 l0).toNat out) more := by
  rw [lzDecodeFrom, if_neg (by decide), if_pos rfl]

/-- A decoder keeps the symbols it has emitted. -/
theorem isPrefix_copyBack (offset n : Nat) (out : List Byte) : out <+: copyBack offset n out := by
  induction n generalizing out with
  | zero => exact List.prefix_rfl
  | succ n ih => exact (List.prefix_append _ _).trans (ih _)

theorem isPrefix_lzDecodeFrom (out bs : List Byte) : out <+: (lzDecodeFrom out bs).out := by
  fun_induction lzDecodeFrom out bs with
  | case2 out c more ih => exact (List.prefix_append _ _).trans ih
  | case5 out o1 o0 l1 l0 more _ _ ih => exact (isPrefix_copyBack _ _ _).trans ih
  | _ => exact List.prefix_rfl

/-- The token that the compressor chooses decodes to the symbols it consumes (R115, R118, R124). -/
theorem lzDecodeFrom_token {w : Nat} (hw : w < 2 ^ 16) {c : Byte} {cs : List Byte} (hl : (c :: cs).length < 2 ^ 16)
    (out more : List Byte) :
    lzDecodeFrom out (elementBytes (chooseToken (findMatch (lastN w out) (c :: cs)) c) ++ more)
      = lzDecodeFrom (out ++ (c :: cs).take (tokenLength (findMatch (lastN w out) (c :: cs)))) more := by
  have hmatch := findMatch_matchesAt (lastN w out) (c :: cs)
  have hlook := findMatch_length_le (lastN w out) (c :: cs)
  generalize findMatch (lastN w out) (c :: cs) = m at hmatch hlook
  unfold chooseToken tokenLength
  split
  next hlong =>
    obtain ⟨hwin, hout⟩ := lastN_length_le w out
    have hle := hmatch.length_le_offset
    have hinside : m.offset ≤ (lastN w out).length := hmatch.1
    have hoffset : (BitVec.ofNat 16 m.offset).toNat = m.offset := Nat.mod_eq_of_lt (by omega)
    have hlength : (BitVec.ofNat 16 m.length).toNat = m.length := Nat.mod_eq_of_lt (by omega)
    have hcopy : copyBack m.offset m.length out = out ++ (c :: cs).take m.length := by
      rw [copyBack_eq hle (by omega), ← lastN_drop hinside, hmatch.take_eq]
    show lzDecodeFrom out (1#8 :: hiByte _ :: loByte _ :: hiByte _ :: loByte _ :: more) = _
    rw [lzDecodeFrom_match, halfOf_hiByte_loByte, halfOf_hiByte_loByte, hoffset, hlength, if_neg (by omega), hcopy]
  · exact lzDecodeFrom_literal out c more

/-! ### The round trip of the reference codec -/

/-- The bytes of a token stream (R120). -/
def tokenBytes (toks : List Instr) : List Byte := toks.flatMap elementBytes

theorem tokenBytes_cons (i : Instr) (toks : List Instr) : tokenBytes (i :: toks) = elementBytes i ++ tokenBytes toks :=
  List.flatMap_cons

theorem tokenBytes_append (xs ys : List Instr) : tokenBytes (xs ++ ys) = tokenBytes xs ++ tokenBytes ys :=
  List.flatMap_append

@[simp] theorem chunkTokens_nil (w fuel : Nat) (win : List Byte) : chunkTokens w fuel win [] = ([], win) := by
  cases fuel <;> rfl

/-- The tokens of a lookahead with a symbol (R115, R116). -/
theorem chunkTokens_cons (w fuel : Nat) (win : List Byte) (c : Byte) (cs : List Byte) :
    chunkTokens w (fuel + 1) win (c :: cs) =
      (chooseToken (findMatch win (c :: cs)) c
          :: (chunkTokens w fuel (lastN w (win ++ (c :: cs).take (tokenLength (findMatch win (c :: cs)))))
              ((c :: cs).drop (tokenLength (findMatch win (c :: cs))))).1,
        (chunkTokens w fuel (lastN w (win ++ (c :: cs).take (tokenLength (findMatch win (c :: cs)))))
            ((c :: cs).drop (tokenLength (findMatch win (c :: cs))))).2) :=
  rfl

/-- A token leaves less of the lookahead. -/
theorem length_drop_token {win cs : List Byte} {c : Byte} {fuel : Nat} (h : (c :: cs).length ≤ fuel + 1) :
    ((c :: cs).drop (tokenLength (findMatch win (c :: cs)))).length ≤ fuel := by
  have htok := tokenLength_pos (findMatch win (c :: cs))
  rw [List.length_drop]
  omega

/-- A chunk's tokens decode to the chunk, and the window then holds the last symbols of the output (R116, R124). -/
theorem lzDecodeFrom_chunk {w : Nat} (hw : w < 2 ^ 16) {fuel : Nat} {look : List Byte} (hl : look.length < 2 ^ 16)
    (hf : look.length ≤ fuel) (out more : List Byte) :
    lzDecodeFrom out (tokenBytes (chunkTokens w fuel (lastN w out) look).1 ++ more) = lzDecodeFrom (out ++ look) more
      ∧ (chunkTokens w fuel (lastN w out) look).2 = lastN w (out ++ look) := by
  induction fuel generalizing look out with
  | zero =>
    obtain rfl : look = [] := List.eq_nil_of_length_eq_zero (Nat.le_zero.mp hf)
    rw [List.append_nil]
    exact ⟨rfl, rfl⟩
  | succ fuel ih =>
    cases look with
    | nil =>
      rw [List.append_nil]
      exact ⟨rfl, rfl⟩
    | cons c cs =>
      have hdrop := length_drop_token (win := lastN w out) hf
      have hshort : ((c :: cs).drop (tokenLength (findMatch (lastN w out) (c :: cs)))).length < 2 ^ 16 := by
        rw [List.length_drop]
        omega
      obtain ⟨hbytes, hwin⟩ :=
        ih hshort hdrop (out ++ (c :: cs).take (tokenLength (findMatch (lastN w out) (c :: cs))))
      rw [List.append_assoc, List.take_append_drop] at hbytes hwin
      rw [chunkTokens_cons, lastN_append, tokenBytes_cons, List.append_assoc, lzDecodeFrom_token hw hl]
      exact ⟨hbytes, hwin⟩

/-- The tokens of an input that is not empty (R111, R120). -/
theorem inputTokens_cons (w l fuel : Nat) (win : List Byte) (x : Byte) (xs : List Byte) :
    inputTokens w l (fuel + 1) win (x :: xs) =
      (chunkTokens w ((x :: xs).take l).length win ((x :: xs).take l)).1
        ++ inputTokens w l fuel (chunkTokens w ((x :: xs).take l).length win ((x :: xs).take l)).2 ((x :: xs).drop l) :=
  rfl

theorem lzDecodeFrom_input {w l : Nat} (hw : w < 2 ^ 16) (hl1 : 1 ≤ l) (hl2 : l < 2 ^ 16) {fuel : Nat} {xs : List Byte}
    (hf : xs.length ≤ fuel) (out : List Byte) :
    lzDecodeFrom out (tokenBytes (inputTokens w l fuel (lastN w out) xs)) = { out := out ++ xs, err := .success } := by
  induction fuel generalizing xs out with
  | zero =>
    obtain rfl : xs = [] := List.eq_nil_of_length_eq_zero (Nat.le_zero.mp hf)
    rw [List.append_nil]
    exact lzDecodeFrom_nil out
  | succ fuel ih =>
    cases xs with
    | nil =>
      rw [List.append_nil]
      exact lzDecodeFrom_nil out
    | cons x xs =>
      have hchunk : ((x :: xs).take l).length < 2 ^ 16 := (List.length_take_le l _).trans_lt hl2
      have hrest : ((x :: xs).drop l).length ≤ fuel := by
        rw [List.length_drop]
        omega
      obtain ⟨hbytes, hwin⟩ := lzDecodeFrom_chunk hw hchunk (Nat.le_refl _) out
        (tokenBytes (inputTokens w l fuel (lastN w (out ++ (x :: xs).take l)) ((x :: xs).drop l)))
      rw [inputTokens_cons, tokenBytes_append, hwin, hbytes, ih hrest, List.append_assoc, List.take_append_drop]

/-- The reference LZ77 codec gives the input back, for every legal pair (R126). -/
theorem lzDecode_lzEncode {w l : Nat} (hw : w < 2 ^ 16) (hl1 : 1 ≤ l) (hl2 : l < 2 ^ 16) (xs : List Byte) :
    lzDecode (lzEncode w l xs) = { out := xs, err := .success } := by
  have h := lzDecodeFrom_input hw hl1 hl2 (Nat.le_refl xs.length) []
  rw [lastN_of_le (Nat.zero_le w)] at h
  exact h

end Sys2Proof.Reference

/-! ## LZ77: the runs of the machine -/

namespace Sys2Proof.Machine

open Sys2Proof Sys2Proof.Reference

/-! ### The compressor -/

/-- The ring after several appends holds the last `W` symbols (R45). -/
theorem Ring.view_appendAll {r : Ring} (h : r.Wf) (cs : List Byte) :
    (r.appendAll cs).view = lastN r.cap (r.view ++ cs) := by
  induction cs generalizing r with
  | nil =>
    rw [List.append_nil, lastN_of_le (by simpa using h.within)]
    rfl
  | cons c cs ih =>
    obtain ⟨hwf, hcap, hview⟩ := ringAppendKeepsLastSymbols r c h
    have happend : (r.appendAll (c :: cs)).view = ((r.append c).appendAll cs).view := rfl
    rw [happend, ih hwf, hcap, hview, lastN_append, List.append_assoc]
    rfl

/-- The compressor's work with window size `w` and lookahead size `l` holds the window `win`. -/
structure HoldsWindow (w l : Nat) (win : List Byte) (z : LzWork) : Prop where
  ring : z.win.Wf
  cap : z.win.cap = w
  view : z.win.view = win
  lookahead : z.lookahead = l

/-- A body starts with an empty window (R116, R262). -/
theorem holdsWindow_start (w : LzPair) :
    HoldsWindow w.window.toNat w.lookahead.toNat []
      { LzWork.init with win := Ring.empty w.window.toNat, lookahead := w.lookahead.toNat } :=
  ⟨ringWf_empty _, rfl, rfl, rfl⟩

theorem HoldsWindow.consume {w l : Nat} {win : List Byte} {z : LzWork} (h : HoldsWindow w l win z) (n : Nat) :
    HoldsWindow w l (lastN w (win ++ z.look.take n)) (z.consume n) := by
  refine ⟨Ring.appendAll_wf h.ring _, (Ring.appendAll_cap _ _).trans h.cap, ?_, h.lookahead⟩
  rw [LzWork.consume, Ring.view_appendAll h.ring, h.cap, h.view]

theorem look_consume (z : LzWork) (n : Nat) : (z.consume n).look = z.look.drop n := by
  simp [LzWork.consume, LzWork.look, List.drop_drop]

theorem readChunk_quiet {n k : Nat} {s : State} (hq : s.Quiet) (hz : s.hazards = [])
    (hn : n ≤ (s.inputFrom k).length) :
    ∃ e, readChunk k n s = .done ((s.inputFrom k).take n) { s with env := e }
      ∧ ({ s with env := e } : State).Quiet := by
  induction n generalizing s k with
  | zero => exact ⟨s.env, rfl, hq⟩
  | succ n ih =>
    cases hin : s.inputFrom k with
    | nil =>
      rw [hin] at hn
      cases hn
    | cons b bs =>
      obtain ⟨e, hread, hqe⟩ := inByte_inputFrom hq hz hin
      have hnext : ({ s with env := e } : State).inputFrom (k + 1) = bs := (inputFrom_cons hin).2.2
      rw [hin, List.length_cons] at hn
      obtain ⟨e', hchunk, hqe'⟩ := ih (k := k + 1) (s := { s with env := e }) hqe hz (by rw [hnext]; omega)
      refine ⟨e', ?_, hqe'⟩
      rw [readChunk, hread, Body.bind_done, hchunk, Body.bind_done, hnext]
      rfl

theorem runPhase_lzChunk {s : State} (hp : s.phase = .lzChunk) : runPhase exec s = .next (settle (lzChunkStep s)) := by
  simp only [runPhase, hp]

theorem runPhase_lzEncode {s : State} (hp : s.phase = .lzEncode) : runPhase exec s = .next (settle (lzEncodeStep s)) := by
  simp only [runPhase, hp]

theorem runPhase_lzDecode {s : State} (hp : s.phase = .lzDecode) :
    runPhase exec s = runWhileInput exec fetchLz77 s := by
  simp only [runPhase, hp]

/-- The head of the outer loop reads the next chunk (R111, R120). -/
theorem lzChunk_step {t s : State} {ys xs : List Byte} {x : Byte} (ht : Started t)
    (h : Stage .lzChunk t ys (x :: xs) s) :
    ∃ s1, step s = .next s1 ∧ Stage .lzEncode t ys (x :: xs) s1
      ∧ s1.lz = { s.lz with chunk := (x :: xs).take s.lz.lookahead, pos := 0 } := by
  have hrest : s.inputFrom s.inPos = x :: xs := h.rest
  have hlen : s.srcCount - s.inPos = (x :: xs).length := by rw [← inputFrom_length, hrest]
  obtain ⟨e, hread, hqe⟩ :=
    readChunk_quiet (n := min s.lz.lookahead (s.srcCount - s.inPos)) h.wrote.quiet (h.untouched ht)
      (by rw [inputFrom_length]; exact Nat.min_le_right _ _)
  have htake : (s.inputFrom s.inPos).take (min s.lz.lookahead (s.srcCount - s.inPos)) = (x :: xs).take s.lz.lookahead := by
    rw [hrest, hlen, ← List.take_take, List.take_length]
  have hstep : step s = .next { s with
      env := e, phase := .lzEncode, lz := { s.lz with chunk := (x :: xs).take s.lz.lookahead, pos := 0 } } := by
    rw [h.step_phase ht, runPhase_lzChunk h.phase, lzChunkStep, if_pos h.inPos_lt, hread, htake]
    rfl
  exact ⟨_, hstep, h.move (n := 0) rfl (h.wrote.goes (u := { s with env := e, phase := _, lz := _ }) rfl ⟨rfl, rfl⟩ hqe)
    rfl rfl (Nat.zero_le _), rfl⟩

/-- At the end of a chunk the outer loop goes on (R120). -/
theorem lzEncode_leave {t s : State} {ys more : List Byte} (ht : Started t) (h : Stage .lzEncode t ys more s)
    (hlook : s.lz.look = []) :
    ∃ s1, step s = .next s1 ∧ Stage .lzChunk t ys more s1 ∧ s1.lz = s.lz := by
  have hstep : step s = .next { s with phase := .lzChunk } := by
    rw [h.step_phase ht, runPhase_lzEncode h.phase]
    simp only [lzEncodeStep, hlook]
    rfl
  exact ⟨_, hstep, h.move (n := 0) rfl (h.wrote.goes (u := { s with phase := .lzChunk }) rfl ⟨rfl, rfl⟩ h.wrote.quiet)
    rfl rfl (Nat.zero_le _), rfl⟩

/-- The token chosen is written byte by byte (R82, R83). -/
theorem emitElement_chooseToken (m : Match) (c : Byte) (s : State) :
    emitElement (chooseToken m c) s = emitAll (elementBytes (chooseToken m c)) s := by
  unfold chooseToken
  split <;> rfl

/-- The compressor past a token of `n` symbols (R116). -/
def pastToken (n : Nat) (s : State) : State := { s with lz := s.lz.consume n, inPos := s.inPos + n }

/-- One turn of the inner loop is the write of one token (R115, R120). -/
theorem lzEncode_turn {t s : State} {ys bs cs : List Byte} {c : Byte} (ht : Started t)
    (h : Stage .lzEncode t ys bs s) (hlook : s.lz.look = c :: cs) :
    step s = .next (settle
      ((emitAll (elementBytes (chooseToken (findMatch s.lz.win.view (c :: cs)) c)) s).bind
        fun _ u => .done () (pastToken (tokenLength (findMatch s.lz.win.view (c :: cs))) u))) := by
  rw [h.step_phase ht, runPhase_lzEncode h.phase, ← emitElement_chooseToken]
  simp only [lzEncodeStep, hlook]
  rfl

/-- The run over the rest of a chunk: its tokens are written, and the outer loop goes on (R113 to R116, R120). -/
theorem lzEncode_chunk_ends {P : State → Prop} {t : State} (ht : Started t) {w l fuel : Nat} {art more : List Byte}
    (hP : ∀ zs, zs <+: art → t.params.outSize < zs.length → ∀ u, FailedInBody .ioFailure t u → P u)
    {s : State} {ys look win : List Byte} (h : Stage .lzEncode t ys (look ++ more) s) (hwin : HoldsWindow w l win s.lz)
    (hlook : s.lz.look = look) (hf : look.length ≤ fuel)
    (hart : ys ++ tokenBytes (chunkTokens w fuel win look).1 <+: art)
    (hnext : ∀ s1, Stage .lzChunk t (ys ++ tokenBytes (chunkTokens w fuel win look).1) more s1 →
      HoldsWindow w l (chunkTokens w fuel win look).2 s1.lz → Ends P s1) : Ends P s := by
  induction fuel generalizing s ys look win with
  | zero =>
    obtain rfl : look = [] := List.eq_nil_of_length_eq_zero (Nat.le_zero.mp hf)
    obtain ⟨s1, hstep, h1, hlz⟩ := lzEncode_leave ht h hlook
    exact .of_step hstep (hnext s1 (by simpa [tokenBytes] using h1) (by simpa [hlz] using hwin))
  | succ fuel ih =>
    cases look with
    | nil =>
      obtain ⟨s1, hstep, h1, hlz⟩ := lzEncode_leave ht h hlook
      exact .of_step hstep (hnext s1 (by simpa [tokenBytes] using h1) (by simpa [hlz] using hwin))
    | cons c cs =>
      have hstep := lzEncode_turn ht h hlook
      have hdrop := length_drop_token (win := win) hf
      have hle := tokenLength_le win c cs
      rw [hwin.view] at hstep
      rw [chunkTokens_cons, tokenBytes_cons, ← List.append_assoc] at hart hnext
      refine .of_writes ht h.wrote.command (emitAll_writes h.wrote _) hstep
        (hP _ ((List.prefix_append _ _).trans hart)) fun u frame hu => ?_
      have hlz : u.lz = s.lz := (congrArg State.lz frame :)
      have htoken := h.emitted frame hu
      have hpast := htoken.move (u := pastToken (tokenLength (findMatch win (c :: cs))) u) htoken.phase
        (hu.goes rfl ⟨rfl, rfl⟩ hu.quiet) rfl rfl (by rw [List.length_append]; omega)
      rw [List.drop_append_of_le_length hle] at hpast
      have hconsumed : HoldsWindow w l (lastN w (win ++ (c :: cs).take (tokenLength (findMatch win (c :: cs)))))
          (pastToken (tokenLength (findMatch win (c :: cs))) u).lz := by
        have := hwin.consume (tokenLength (findMatch win (c :: cs)))
        rwa [hlook, ← hlz] at this
      have hleft : (pastToken (tokenLength (findMatch win (c :: cs))) u).lz.look
          = (c :: cs).drop (tokenLength (findMatch win (c :: cs))) := by
        rw [pastToken, look_consume, hlz, hlook]
      exact ih hpast hconsumed hleft hdrop hart hnext

/-- The compressor's run from the head of the outer loop: what is written and the tokens of the rest (R111, R120). -/
theorem lzEncode_ends {t : State} (ht : Started t) {w l fuel : Nat} (hl : 1 ≤ l) {s : State} {ys xs win : List Byte}
    (h : Stage .lzChunk t ys xs s) (hwin : HoldsWindow w l win s.lz) (hf : xs.length ≤ fuel) :
    Ends (EncodesTo t.status.codec (ys ++ tokenBytes (inputTokens w l fuel win xs)) t t) s := by
  have done : ∀ {s : State} {ys : List Byte}, Stage .lzChunk t ys [] s →
      Ends (EncodesTo t.status.codec (ys ++ []) t t) s := by
    intro s ys h
    have hend : step s = .next (complete .success s) := by
      rw [h.step_phase ht, runPhase_lzChunk h.phase, lzChunkStep, if_neg h.ended]
      rfl
    exact .now hend (by rw [List.append_nil]; exact .of_wrote h.wrote)
  induction fuel generalizing s ys xs win with
  | zero =>
    obtain rfl : xs = [] := List.eq_nil_of_length_eq_zero (Nat.le_zero.mp hf)
    exact done h
  | succ fuel ih =>
    cases xs with
    | nil => exact done h
    | cons x xs =>
      obtain ⟨s1, hstep, h1, hlz⟩ := lzChunk_step ht h
      rw [hwin.lookahead] at hlz
      have hwin1 : HoldsWindow w l win s1.lz := by
        rw [hlz]
        exact ⟨hwin.ring, hwin.cap, hwin.view, hwin.lookahead⟩
      have hlook : s1.lz.look = (x :: xs).take l := by rw [hlz, LzWork.look, List.drop_zero]
      have hrest : ((x :: xs).drop l).length ≤ fuel := by
        rw [List.length_drop]
        omega
      rw [← List.take_append_drop l (x :: xs)] at h1
      rw [inputTokens_cons, tokenBytes_append, ← List.append_assoc]
      exact .of_step hstep (lzEncode_chunk_ends ht (fun zs hz hfull u hu => .of_full hz hfull hu) h1 hwin1 hlook
        (Nat.le_refl _) (List.prefix_append _ _) fun s2 h2 hwin2 => ih h2 hwin2 hrest)

/-- A compressor of LZ77, whichever command launched it (R103, R107, R120). -/
theorem Launches.lzEncodes {i : Instr} {op : BitVec 4} {w : LzPair} {s : State}
    (h : Launches i op .lz77 w .lzChunk s) (hl : w.lookahead ≠ 0#16) (hb : s.status.busy = false) (hq : s.Quiet)
    (hin : s.inputs = []) (hn : s.srcLen.toNat ≤ s.params.inSize) :
    ∃ t u, exec i s = .next t ∧ IssuedBody op .lz77 w .lzChunk s t ∧ Runs t u
      ∧ EncodesTo .lz77 (lzEncode w.window.toNat w.lookahead.toNat (s.inBytes s.srcLen.toNat)) s t u := by
  refine h.encodes hb hq hin hn fun t ht hissued => ?_
  obtain ⟨_, _, _, _, hp, hlz, _⟩ := id hissued
  have hwin : HoldsWindow w.window.toNat w.lookahead.toNat [] t.lz := hlz ▸ holdsWindow_start w
  exact hissued.rest ▸ lzEncode_ends ht (one_le_toNat_of_ne_zero hl) (ht.stage hp) hwin (Nat.le_refl _)

/-- Settles O37: R115 is the definition of the token; both commands launch the same compressor with their pairs. -/
theorem lz77CompressRunWritesTokens : Obligations.Lz77CompressRunWritesTokens := by
  refine ⟨fun m c => ⟨fun h => ⟨if_pos h, if_pos h⟩, fun h => ⟨if_neg (by omega), if_neg (by omega)⟩⟩,
    fun s hb hq hin hn => ⟨fun hl => (launches_lz77Compress hl).lzEncodes hl hb hq hin hn, fun hwf hr => ?_⟩⟩
  exact (launches_selCompress_lz77 hr).lzEncodes (tier_lookahead_ne_zero hwf _) hb hq hin hn

/-! ### The decompressor -/

theorem fetchLz77_stays_quiet {s t : State} {c : Code} (h : fetchLz77 s = .done c t) (hq : s.Quiet) : t.Quiet := by
  obtain ⟨flag, s1, h1, h2⟩ := Body.bind_eq_done.mp h
  obtain ⟨rest, s2, h3, h4⟩ := Body.bind_eq_done.mp h2
  cases h4
  exact nextBytes_stays_quiet h3 (nextByte_stays_quiet h1 hq)

/-- A token that stands next is fetched and run (R81, R124). -/
theorem lzDecode_step {t s : State} {ys bs more : List Byte} {i : Instr} (ht : Started t)
    (h : Stage .lzDecode t ys (bs ++ more) s) (hd : decodeLz77 bs = .ok i) :
    ∃ s1, Stage .lzDecode t ys more s1 ∧ step s = exec i s1 := by
  obtain ⟨e, hfetch⟩ := fetchLz77_quiet hd h.wrote.quiet (h.untouched ht) h.holdsNext
  refine ⟨_, h.fetched (fetchLz77_stays_quiet hfetch h.wrote.quiet), ?_⟩
  have hlt : s.inPos < s.srcCount := by
    cases bs with
    | nil => cases hd
    | cons flag rest => exact Stage.inPos_lt (bs := rest ++ more) h
  rw [h.step_phase ht, runPhase_lzDecode h.phase, runWhileInput, if_pos hlt, hfetch]
  simp only [runFetched, decode, hd]

/-- A token whose bytes are not all there ends the command (R232). -/
theorem lzDecode_truncated {t s : State} {ys rest : List Byte} {flag : Byte} (ht : Started t)
    (h : Stage .lzDecode t ys (flag :: rest) s) (hshort : rest.length < lz77Rest flag) :
    Ends (DecodesTo t.status.codec { out := ys, err := .ioFailure } t t) s := by
  have hz := h.untouched ht
  obtain ⟨e, hflag, hqe⟩ := nextByte_quiet h.wrote.quiet hz (Stage.holdsNext (bs := [flag]) h)
  have hrest : ({ s with env := e, inPos := s.inPos + 1 } : State).rest = rest := (inputFrom_cons h.rest).2.2
  obtain ⟨u, hu, frame⟩ := nextBytes_short (s := { s with env := e, inPos := s.inPos + 1 }) hqe hz
    (hrest.symm ▸ hshort)
  have hend : step s = .next (complete .ioFailure u) := by
    rw [h.step_phase ht, runPhase_lzDecode h.phase, runWhileInput, if_pos h.inPos_lt, fetchLz77, hflag, Body.bind_done,
      hu, Body.bind_raised]
    rfl
  have hcommand : SameCommand t u :=
    h.wrote.command.trans (SameCommand.trans (s := { s with env := e, inPos := s.inPos + 1 }) rfl frame.sameCommand)
  exact .now hend (.of_error (by decide) h.wrote.room (hcommand.failed ht.busy (by decide)))

/-- The match copy, symbol by symbol, is the reference's (R125). -/
theorem copyOut_writes {t s : State} {ys : List Byte} (h : Wrote t ys s) {offset : Nat} (h1 : 1 ≤ offset)
    (ho : offset ≤ ys.length) (n : Nat) : Writes t (copyBack offset n ys) s (copyOut (ys.length - offset) n s) := by
  induction n generalizing s ys with
  | zero => exact .nothing h
  | succ n ih =>
    have hbyte : outByte (ys.length - offset) s = ys.getD (ys.length - offset) 0#8 :=
      h.outByteAt_inside (by omega)
    rw [copyOut, hbyte, copyBack]
    refine (emit_writes h _).bind (isPrefix_copyBack _ _ _).length_le fun u _ hu => ?_
    have hcopied := ih hu (by rw [List.length_append]; omega)
    rwa [List.length_append, List.length_singleton, Nat.sub_add_comm ho] at hcopied

/-- A corrupt token ends the command with what is written before it (R84, R124). -/
theorem lzDecode_corrupt {t s s1 : State} {ys more : List Byte} (ht : Started t) (h1 : Stage .lzDecode t ys more s1)
    (hstep : step s = .next (complete .corruptStream s1)) :
    Ends (DecodesTo t.status.codec { out := ys, err := .corruptStream } t t) s :=
  .now hstep (.of_error (by decide) h1.wrote.room (h1.wrote.command.failed ht.busy (by decide)))

/-- Fewer than four bytes follow the flag of a match. -/
theorem length_lt_of_no_match {rest : List Byte}
    (h : ∀ o1 o0 l1 l0 more, rest = o1 :: o0 :: l1 :: l0 :: more → False) : rest.length < 4 := by
  match rest, h with
  | [], _ | [_], _ | [_, _], _ | [_, _, _], _ => simp
  | o1 :: o0 :: l1 :: l0 :: more, h => exact (h o1 o0 l1 l0 more rfl).elim

/-- The decompressor's run from any point: the decoding of the rest after what is written (R124, R237). -/
theorem lzDecode_ends {t s : State} {out bs : List Byte} (ht : Started t) (h : Stage .lzDecode t out bs s) :
    Ends (DecodesTo t.status.codec (lzDecodeFrom out bs) t t) s := by
  fun_induction lzDecodeFrom out bs generalizing s with
  | case1 out =>
    have hend : step s = .next (complete .success s) := by
      rw [h.step_phase ht, runPhase_lzDecode h.phase, runWhileInput, if_neg h.ended]
    exact .now hend (.of_wrote h.wrote)
  | case2 out c more ih =>
    obtain ⟨s1, h1, hstep⟩ := lzDecode_step ht (bs := [0#8, c]) h (decodeLz77_literal c)
    exact .of_element ht h1.wrote.command (emit_writes h1.wrote c) hstep
      (fun hfull _ hu => .of_full (isPrefix_lzDecodeFrom _ _) hfull hu) fun u frame hu => ih (h1.emitted frame hu)
  | case3 out => exact lzDecode_truncated ht h (by decide)
  | case4 out o1 o0 l1 l0 more hbad =>
    obtain ⟨s1, h1, hstep⟩ := lzDecode_step ht (bs := [1#8, o1, o0, l1, l0]) h (decodeLz77_match o1 o0 l1 l0)
    rw [← h1.wrote.cursor] at hbad
    refine lzDecode_corrupt ht h1 ?_
    simp only [hstep, exec, execLz77Match, copyMatch_corrupt hbad, settle_raised]
  | case5 out o1 o0 l1 l0 more hgood _ ih =>
    obtain ⟨s1, h1, hstep⟩ := lzDecode_step ht (bs := [1#8, o1, o0, l1, l0]) h (decodeLz77_match o1 o0 l1 l0)
    have hcopy : copyMatch (halfOf o1 o0).toNat (halfOf l1 l0).toNat s1
        = copyOut (out.length - (halfOf o1 o0).toNat) (halfOf l1 l0).toNat s1 := by
      rw [copyMatch, h1.wrote.cursor, if_neg (by omega), if_neg (by omega)]
    have hwrites := copyOut_writes h1.wrote (offset := (halfOf o1 o0).toNat) (by omega) (by omega) (halfOf l1 l0).toNat
    rw [← hcopy] at hwrites
    exact .of_element ht h1.wrote.command hwrites hstep
      (fun hfull _ hu => .of_full (isPrefix_lzDecodeFrom _ _) hfull hu) fun u frame hu => ih (h1.emitted frame hu)
  | case6 out rest hshape => exact lzDecode_truncated ht h (length_lt_of_no_match hshape)
  | case7 out flag rest h0 h1 =>
    have hreserved : reservedFlag flag = true := ((flag_cases flag).resolve_left h0).resolve_left h1
    obtain ⟨s1, h1, hstep⟩ := lzDecode_step ht (bs := [flag]) h (decodeLz77_reserved hreserved)
    exact lzDecode_corrupt ht h1 hstep

/-- A decompressor of LZ77, whichever command launched it (R105, R107, R124). -/
theorem Launches.lzDecodes {i : Instr} {op : BitVec 4} {s : State} (h : Launches i op .lz77 noPair .lzDecode s)
    (hb : s.status.busy = false) (hq : s.Quiet) (hin : s.inputs = []) (hn : s.srcLen.toNat ≤ s.params.inSize) :
    ∃ t u, exec i s = .next t ∧ IssuedBody op .lz77 noPair .lzDecode s t ∧ Runs t u
      ∧ DecodesTo .lz77 (lzDecode (s.inBytes s.srcLen.toNat)) s t u := by
  refine h.decodes hb hq hin hn fun t ht hissued => ?_
  obtain ⟨_, _, _, _, hp, _⟩ := id hissued
  exact hissued.rest ▸ lzDecode_ends ht (ht.stage hp)

end Sys2Proof.Machine

/-! ## The Strategy Selector's round trip -/

namespace Sys2Proof.Machine

open Sys2Proof Sys2Proof.Reference

/-- A success of at most `2 ^ 32 - 1` bytes is what OUT_LEN bytes of OUT read (R41, R101). -/
theorem Succeeded.output {c : CodecId} {ys : List Byte} {s u : State} (h : Succeeded c ys s u)
    (hlen : ys.length < 2 ^ 32) : u.outLen.toNat = ys.length ∧ u.outBytes u.outLen.toNat = ys := by
  obtain ⟨_, hout, hbytes, _⟩ := h
  have hcount : u.outLen.toNat = ys.length := by rw [hout, BitVec.toNat_ofNat, Nat.mod_eq_of_lt hlen]
  exact ⟨hcount, hcount ▸ hbytes⟩

theorem inBytes_length (s : State) (n : Nat) : (s.inBytes n).length = n := by
  simp [State.inBytes]

/-- `SEL_DECOMPRESS` with the tag of codec `c` decompresses the artifact `art` to `xs`, wherever IN holds it (R105). -/
def DecompressesTo (c : CodecId) (art xs : List Byte) : Prop :=
  ∀ v : State, v.status.busy = false → v.Quiet → v.inputs = [] → v.decTag = c.code.setWidth 8 →
    v.srcLen.toNat ≤ v.params.inSize → v.inBytes v.srcLen.toNat = art →
    ∃ t w, exec .selDecompress v = .next t ∧ Runs t w ∧ DecodesTo c { out := xs, err := .success } v t w

theorem rleEncode_decompressesTo (xs : List Byte) : DecompressesTo .rle (rleEncode xs) xs := by
  intro v hb hq hin htag hn hart
  have hlaunch : Launches .selDecompress 2#4 .rle noPair .rleDecode v := launches_selDecompress (by rw [htag]; rfl)
  obtain ⟨t, w, hexec, _, hrun, hdecodes⟩ := hlaunch.rleDecodes hb hq hin hn
  rw [hart, rleDecode_rleEncode] at hdecodes
  exact ⟨t, w, hexec, hrun, hdecodes⟩

theorem lzEncode_decompressesTo {p : LzPair} (hl : p.lookahead ≠ 0#16) (xs : List Byte) :
    DecompressesTo .lz77 (lzEncode p.window.toNat p.lookahead.toNat xs) xs := by
  intro v hb hq hin htag hn hart
  have hlaunch : Launches .selDecompress 2#4 .lz77 noPair .lzDecode v := launches_selDecompress (by rw [htag]; rfl)
  obtain ⟨t, w, hexec, _, hrun, hdecodes⟩ := hlaunch.lzDecodes hb hq hin hn
  rw [hart, lzDecode_lzEncode p.window.isLt (one_le_toNat_of_ne_zero hl) p.lookahead.isLt] at hdecodes
  exact ⟨t, w, hexec, hrun, hdecodes⟩

/-- The selector's compress writes its artifact with a codec whose decompressor gives the input back (R103, R110). -/
theorem selCompress_encodes {s : State} (hwf : s.params.wf) (hb : s.status.busy = false) (hq : s.Quiet)
    (hin : s.inputs = []) (hn : s.srcLen.toNat ≤ s.params.inSize) :
    ∃ t u c, exec .selCompress s = .next t ∧ Runs t u
      ∧ EncodesTo c (selArtifact s.params (s.inBytes s.srcLen.toNat)) s t u
      ∧ DecompressesTo c (selArtifact s.params (s.inBytes s.srcLen.toNat)) (s.inBytes s.srcLen.toNat) := by
  have hlen := inBytes_length s s.srcLen.toNat
  rcases Nat.lt_or_ge s.params.rleMax s.srcLen.toNat with hr | hr
  · have hl := tier_lookahead_ne_zero hwf s.srcLen.toNat
    obtain ⟨t, u, hexec, _, hrun, hencodes⟩ := (launches_selCompress_lz77 hr).lzEncodes hl hb hq hin hn
    rw [selArtifact, hlen, if_neg (Nat.not_le.mpr hr)]
    exact ⟨t, u, .lz77, hexec, hrun, hencodes, lzEncode_decompressesTo hl _⟩
  · obtain ⟨t, u, hexec, _, hrun, hencodes⟩ := (launches_selCompress_rle hr).rleEncodes hb hq hin hn
    rw [selArtifact, hlen, if_pos hr]
    exact ⟨t, u, .rle, hexec, hrun, hencodes, rleEncode_decompressesTo _⟩

/-- Settles O40: the artifact fits OUT, OUT_LEN counts it, and the machine that carries it has the same sizes. -/
theorem selectorRoundTrip : Obligations.SelectorRoundTrip := by
  intro s hwf hb hq hin hn hroom hfits hcarries
  obtain ⟨t, u, c, hexec, hrun, hencodes, hdecompresses⟩ := selCompress_encodes hwf hb hq hin hn
  have hsucceeded := hencodes.1 hfits
  refine ⟨t, u, c, hexec, hrun, hsucceeded, fun v hparams hbv hqv hinv htag hsrc hbytes => ?_⟩
  obtain ⟨_, _, _, hout, _⟩ := hwf
  obtain ⟨hcount, hart⟩ := hsucceeded.output (hfits.trans_lt hout)
  obtain ⟨t', w, hexec', hrun', hdecodes⟩ := hdecompresses v hbv hqv hinv htag
    (by rw [hsrc, hcount, hparams]; exact hcarries) (by rw [hsrc, hbytes, hart])
  refine ⟨t', w, hexec', hrun', hdecodes.1 ?_ rfl⟩
  rw [inBytes_length, hparams]
  exact hroom

end Sys2Proof.Machine

/-! ## LZ77: the match finder -/

namespace Sys2Proof.Machine

open Sys2Proof

/-- The best match after the candidate `ws` is looked at (R114). -/
def Match.orLonger (best : Match) (ws look : List Byte) : Match :=
  if best.length < commonPrefix ws look then { offset := ws.length, length := commonPrefix ws look } else best

theorem scanWindow_cons (w : Byte) (ws look : List Byte) (best : Match) :
    scanWindow (w :: ws) look best = scanWindow ws look (best.orLonger (w :: ws) look) := rfl

theorem Match.orLonger_kept_or_replaced (best : Match) (ws look : List Byte) :
    best.orLonger ws look = best
      ∨ best.length < (best.orLonger ws look).length ∧ (best.orLonger ws look).offset = ws.length := by
  unfold Match.orLonger
  split
  next hlonger => exact .inr ⟨hlonger, rfl⟩
  · exact .inl rfl

theorem Match.commonPrefix_le_orLonger (best : Match) (ws look : List Byte) :
    commonPrefix ws look ≤ (best.orLonger ws look).length := by
  unfold Match.orLonger
  split
  · exact Nat.le_refl _
  next hle => exact Nat.not_lt.mp hle

/-- The best match so far is kept until a strictly longer one is found (R114). -/
theorem scanWindow_kept_or_longer (ws look : List Byte) (best : Match) :
    scanWindow ws look best = best ∨ best.length < (scanWindow ws look best).length := by
  induction ws generalizing best with
  | nil => exact .inl rfl
  | cons w ws ih =>
    rw [scanWindow_cons]
    rcases best.orLonger_kept_or_replaced (w :: ws) look with hkept | ⟨hlonger, _⟩
    · rw [hkept]
      exact ih best
    · rcases ih (best.orLonger (w :: ws) look) with hsame | hlt
      · exact .inr (hsame.symm ▸ hlonger)
      · exact .inr (hlonger.trans hlt)

theorem length_le_scanWindow (ws look : List Byte) (best : Match) :
    best.length ≤ (scanWindow ws look best).length := by
  rcases scanWindow_kept_or_longer ws look best with hkept | hlt
  · rw [hkept]
  · exact hlt.le

/-- No candidate that is scanned is longer than the match found (R113). -/
theorem commonPrefix_le_scanWindow {ws look : List Byte} {i : Nat} (hi : i < ws.length) (best : Match) :
    commonPrefix (ws.drop i) look ≤ (scanWindow ws look best).length := by
  induction ws generalizing best i with
  | nil => cases hi
  | cons w ws ih =>
    rw [scanWindow_cons]
    cases i with
    | zero => exact (best.commonPrefix_le_orLonger _ _).trans (length_le_scanWindow ws look _)
    | succ i => exact ih (Nat.lt_of_succ_lt_succ hi) _

/-- A candidate older than the match that replaced the best one is strictly shorter than it (R114). -/
theorem commonPrefix_lt_scanWindow {ws look : List Byte} {best : Match} {i : Nat}
    (hlonger : best.length < (scanWindow ws look best).length)
    (hi : i < ws.length - (scanWindow ws look best).offset) :
    commonPrefix (ws.drop i) look < (scanWindow ws look best).length := by
  induction ws generalizing best i with
  | nil => simp at hi
  | cons w ws ih =>
    rw [scanWindow_cons] at hlonger hi ⊢
    have hlt : (best.orLonger (w :: ws) look).length
        < (scanWindow ws look (best.orLonger (w :: ws) look)).length := by
      refine (scanWindow_kept_or_longer ws look _).resolve_left fun hsame => ?_
      rw [hsame] at hlonger hi
      rcases best.orLonger_kept_or_replaced (w :: ws) look with hkept | ⟨_, hoffset⟩
      · exact Nat.lt_irrefl _ (hkept ▸ hlonger)
      · omega
    cases i with
    | zero => exact (best.commonPrefix_le_orLonger _ _).trans_lt hlt
    | succ i =>
      rw [List.length_cons] at hi
      exact ih hlt (by omega)

/-- With no common symbol the match is offset 0, length 0 (R113). -/
theorem findMatch_none_or_some (win look : List Byte) :
    findMatch win look = { offset := 0, length := 0 } ∨ 0 < (findMatch win look).length :=
  scanWindow_kept_or_longer win look _

/-- What the window from a position on and the lookahead have in common is no longer than the match (R113). -/
theorem commonPrefix_le_findMatch {win look : List Byte} {i : Nat} (hi : i ≤ win.length) :
    commonPrefix (win.drop i) look ≤ (findMatch win look).length := by
  rcases Nat.lt_or_eq_of_le hi with hlt | rfl
  · exact commonPrefix_le_scanWindow hlt _
  · rw [List.drop_length]
    exact (commonPrefix_le [] look).1.trans (Nat.zero_le _)

/-- Symbols of the window that agree with the lookahead are counted in the candidate there (R113). -/
theorem le_commonPrefix_drop {win look : List Byte} {i k : Nat} (hw : i + k ≤ win.length) (hl : k ≤ look.length)
    (hsame : ∀ j, j < k → win[i + j]? = look[j]?) : k ≤ commonPrefix (win.drop i) look := by
  refine (le_commonPrefix_iff _ _ _).mpr ⟨by rw [List.length_drop]; omega, hl, fun j hj => ?_⟩
  rw [List.getElem?_drop]
  exact hsame j hj

/-- Settles O32: a match replaces the best one only when it is strictly longer. -/
theorem findMatchIsLongestAndOldest : Obligations.FindMatchIsLongestAndOldest := by
  intro win look
  have hmatch := Reference.findMatch_matchesAt win look
  have hoffset := hmatch.length_le_offset
  have older : 0 < (findMatch win look).length → ∀ i, i < win.length - (findMatch win look).offset →
      commonPrefix (win.drop i) look < (findMatch win look).length :=
    fun hpos i hi => commonPrefix_lt_scanWindow hpos hi
  refine ⟨fun j hj => ?_, fun i k hw hl hsame => ?_, fun hzero => ?_, fun i hi => commonPrefix_le_findMatch hi.le,
    fun hpos => ⟨hpos.trans_le hoffset, ?_, older hpos⟩, findMatch_length_le win look, hmatch.1, hoffset⟩
  · obtain ⟨_, _, hagree⟩ := (le_commonPrefix_iff _ _ _).mp hmatch.2
    rw [← List.getElem?_drop]
    exact hagree j hj
  · have hcommon := le_commonPrefix_drop hw hl hsame
    exact ⟨hcommon.trans (commonPrefix_le_findMatch (by omega)), fun hpos hi => hcommon.trans_lt (older hpos i hi)⟩
  · rcases findMatch_none_or_some win look with hnone | hpos
    · rw [hnone]
    · omega
  · exact Nat.le_antisymm (commonPrefix_le_findMatch (Nat.sub_le _ _)) hmatch.2

end Sys2Proof.Machine

/-! ## LZ77: the decompressor's tokens -/

namespace Sys2Proof.Machine

open Sys2Proof

/-- Settles O33: the literal is one `Emit`. -/
theorem lz77LiteralEmitsSymbol : Obligations.Lz77LiteralEmitsSymbol := by
  intro c s hq hroom
  obtain ⟨e, hemit, _⟩ := emit_quiet (b := c) hq hroom
  obtain ⟨_, frame, cursor, _⟩ := emit_done hemit
  obtain ⟨hbyte, hother⟩ := emit_done_reads hemit
  refine ⟨_, ?_, frame, cursor, hbyte, hother⟩
  simp only [exec, execLz77Literal, hemit, settle_done]

/-- The match copy in a quiet environment with room in OUT goes on. -/
theorem copyOut_quiet (j n : Nat) {s : State} (hq : s.Quiet) (hroom : s.outPos + n ≤ s.params.outSize) :
    ∃ t, copyOut j n s = .done () t := by
  induction n generalizing j s with
  | zero => exact ⟨s, rfl⟩
  | succ n ih =>
    obtain ⟨e, hemit, hqe⟩ := emit_quiet (b := outByte j s) hq (by omega)
    obtain ⟨t, hcopy⟩ := ih (j + 1) hqe (by simp only [putOut_outPos, putOut_params]; omega)
    exact ⟨t, by rw [copyOut, hemit, Body.bind_done, hcopy]⟩

/-- After the copy each symbol equals the one at its source, which the copy does not write again (R125). -/
theorem copyOut_reads {j n : Nat} {s t : State} {u : Unit} (h : copyOut j n s = .done u t) (hj : j < s.outPos)
    {i : Nat} (hi : i < n) : t.outByteAt (s.outPos + i) = t.outByteAt (j + i) := by
  induction n generalizing j s i with
  | zero => cases hi
  | succ n ih =>
    obtain ⟨_, s1, hemit, hcopy⟩ := Body.bind_eq_done.mp h
    obtain ⟨_, _, cursor, _⟩ := emit_done hemit
    obtain ⟨hbyte, hother⟩ := emit_done_reads hemit
    obtain ⟨_, _, hkept⟩ := copyOut_done hcopy
    cases i with
    | zero =>
      calc t.outByteAt s.outPos = s1.outByteAt s.outPos := hkept _ (.inl (by omega))
        _ = s.outByteAt j := hbyte
        _ = s1.outByteAt j := (hother j (by omega)).symm
        _ = t.outByteAt j := (hkept j (.inl (by omega))).symm
    | succ i =>
      have hnext := ih hcopy (by omega) (Nat.lt_of_succ_lt_succ hi)
      rwa [cursor, Nat.add_assoc, Nat.add_assoc, Nat.add_comm 1] at hnext

/-- Symbols that each equal the one `offset` before repeat the last `offset` symbols before them (R125). -/
theorem periodic_of_eq_offset_back {α : Type} {f : Nat → α} {p offset n : Nat} (h1 : 1 ≤ offset) (ho : offset ≤ p)
    (h : ∀ i, i < n → f (p + i) = f (p - offset + i)) {i : Nat} (hi : i < n) :
    f (p + i) = f (p - offset + i % offset) := by
  induction i using Nat.strong_induction_on with
  | _ i ih =>
    rw [h i hi]
    rcases Nat.lt_or_ge i offset with hlt | hge
    · rw [Nat.mod_eq_of_lt hlt]
    · rw [Nat.mod_eq_sub_mod hge, ← ih (i - offset) (by omega) (by omega)]
      congr 1
      omega

/-- Settles O34: the copied symbols are each the one `offset` before. -/
theorem lz77MatchCopiesPeriodically : Obligations.Lz77MatchCopiesPeriodically := by
  intro offset length s hq h1 ho hroom
  obtain ⟨t, hcopy⟩ := copyOut_quiet (s.outPos - offset.toNat) length.toNat hq hroom
  obtain ⟨frame, cursor, hkept⟩ := copyOut_done hcopy
  have hmatch : copyMatch offset.toNat length.toNat s = .done () t := by
    rw [copyMatch, if_neg (by omega), if_neg (by omega), hcopy]
  refine ⟨t, ?_, frame, cursor, fun j hj => ?_, hkept⟩
  · simp only [exec, execLz77Match, hmatch, settle_done]
  · have hmod : j % offset.toNat < offset.toNat := Nat.mod_lt _ h1
    rw [periodic_of_eq_offset_back h1 ho (fun i hi => copyOut_reads hcopy (by omega) hi) hj, hkept _ (.inl (by omega))]

end Sys2Proof.Machine

/-! ## LZ77: a run of the decompressor, and the round trip -/

namespace Sys2Proof.Machine

open Sys2Proof Sys2Proof.Reference

/-- Settles O38: both commands launch the same decompressor. -/
theorem lz77DecompressRunDecodesTokens : Obligations.Lz77DecompressRunDecodesTokens := by
  intro s hb hq hin hn
  have direct : Launches .lz77Decompress 6#4 .lz77 noPair .lzDecode s := launches_direct rfl
  refine ⟨direct.lzDecodes hb hq hin hn, fun htag => ?_⟩
  have tagged : Launches .selDecompress 2#4 .lz77 noPair .lzDecode s := launches_selDecompress (by rw [htag]; rfl)
  exact tagged.lzDecodes hb hq hin hn

/-- Settles O39: OUT_LEN counts the artifact, so the machine that carries it decompresses exactly the artifact. -/
theorem lz77RoundTrip : Obligations.Lz77RoundTrip := by
  refine ⟨fun xs w l hw hl1 hl2 => lzDecode_lzEncode hw hl1 hl2 xs, ?_⟩
  rintro s art hwf hb hq hin hn hl rfl hfits
  obtain ⟨t, u, hexec, _, hrun, hencodes⟩ := (launches_lz77Compress hl).lzEncodes hl hb hq hin hn
  have hsucceeded := hencodes.1 hfits
  refine ⟨t, u, hexec, hrun, hsucceeded, ?_⟩
  rintro v ⟨hbv, hqv, hinv, hsrc, hnv, hbytes⟩ hroom
  obtain ⟨_, _, _, hout, _⟩ := hwf
  obtain ⟨_, hart⟩ := hsucceeded.output (hfits.trans_lt hout)
  have direct : Launches .lz77Decompress 6#4 .lz77 noPair .lzDecode v := launches_direct rfl
  obtain ⟨t', w, hexec', _, hrun', hdecodes⟩ := direct.lzDecodes hbv hqv hinv hnv
  have hdecoded : lzDecode (v.inBytes v.srcLen.toNat) = { out := s.inBytes s.srcLen.toNat, err := .success } := by
    rw [hsrc, hbytes, hart]
    exact lzDecode_lzEncode (windowField s.lzCfg).isLt (one_le_toNat_of_ne_zero hl) (lookaheadField s.lzCfg).isLt _
  rw [hdecoded] at hdecodes
  exact ⟨t', w, hexec', hrun', hdecodes.1 (by rwa [inBytes_length]) rfl⟩

end Sys2Proof.Machine

/-! ## LZ77: the compressor's window at every step

`LzTrace` speaks of the two phases of the LZ77 compressor alone. So a step from another phase keeps it by not entering the
compressor; a step of the compressor consumes symbols, which move from the lookahead to the window's end. -/

namespace Sys2Proof.Machine

open Sys2Proof Sys2Proof.Reference

/-! ### The input before and after `in_pos` -/

/-- The `n` bytes of IN from offset `i` on. -/
def State.inSlice (s : State) (i n : Nat) : List Byte := (List.range n).map fun k => s.inByteAt (i + k)

/-- The input consumed, and the next symbols of it. -/
theorem inBytes_add (s : State) (i n : Nat) : s.inBytes (i + n) = s.inBytes i ++ s.inSlice i n := by
  simp [State.inBytes, State.inSlice, List.range_add, Function.comp_def]

theorem inSlice_take (s : State) (i : Nat) {k n : Nat} (h : k ≤ n) : (s.inSlice i n).take k = s.inSlice i k := by
  rw [State.inSlice, ← List.map_take, List.take_range, Nat.min_eq_left h, State.inSlice]

theorem inSlice_drop (s : State) (i k n : Nat) : (s.inSlice i n).drop k = s.inSlice (i + k) (n - k) := by
  refine List.ext_getElem (by simp [State.inSlice]) fun j _ _ => ?_
  simp [State.inSlice, Nat.add_assoc]

theorem inSlice_succ (s : State) (i n : Nat) : s.inSlice i (n + 1) = s.inByteAt i :: s.inSlice (i + 1) n := by
  simp [State.inSlice, List.range_succ_eq_map, Function.comp_def, Nat.add_assoc, Nat.add_comm 1]

theorem BodyFrame.inBytes {s t : State} (h : BodyFrame s t) (n : Nat) : t.inBytes n = s.inBytes n :=
  (congrArg (State.inBytes · n) h :)

theorem BodyFrame.inSlice {s t : State} (h : BodyFrame s t) (i n : Nat) : t.inSlice i n = s.inSlice i n :=
  (congrArg (State.inSlice · i n) h :)

/-- A chunk read with no hazard is what IN holds (R111). -/
theorem readChunk_reads {k n : Nat} {s t : State} {bs : List Byte} (h : readChunk k n s = .done bs t)
    (hz : s.hazards = []) : bs = s.inSlice k n := by
  induction n generalizing k s bs with
  | zero =>
    cases h
    rfl
  | succ n ih =>
    obtain ⟨b, s1, h1, h2⟩ := Body.bind_eq_done.mp h
    obtain ⟨cs, s2, h3, h4⟩ := Body.bind_eq_done.mp h2
    cases h4
    obtain ⟨_, frame, hbyte⟩ := inByte_done h1
    have hz1 : s1.hazards = [] := (congrArg State.hazards frame :).trans hz
    have hsame : s1.inSlice (k + 1) n = s.inSlice (k + 1) n := (congrArg (State.inSlice · (k + 1) n) frame :)
    rw [(hbyte (by rw [hz]; rfl)).1, ih h3 hz1, hsame, inSlice_succ]

/-! ### The two parts of the trace -/

/-- The window is the last `W` symbols consumed (R116). -/
def WindowTrace (s : State) : Prop := s.lz.win.view = lastN s.lz.win.cap (s.inBytes s.inPos)

/-- The lookahead is the input from `in_pos` on (R112). -/
def LookTrace (s : State) : Prop := s.lz.look = s.inSlice s.inPos (s.lz.chunk.length - s.lz.pos)

theorem lzTrace_iff (s : State) :
    LzTrace s ↔ (s.phase = .lzChunk ∨ s.phase = .lzEncode → WindowTrace s ∧ (s.phase = .lzEncode → LookTrace s)) :=
  .rfl

/-- A phase outside the LZ77 compressor. -/
abbrev Phase.OutsideLz (ph : Phase) : Prop := ph ≠ .lzChunk ∧ ph ≠ .lzEncode

theorem lzTrace_of_phase {t : State} {ph : Phase} (hp : t.phase = ph) (h : ph.OutsideLz := by decide) : LzTrace t := by
  subst hp
  exact fun hor => hor.elim (absurd · h.1) (absurd · h.2)

theorem lzTrace_complete (e : ErrCode) (s : State) : LzTrace (complete e s) :=
  lzTrace_of_phase (ph := .idle) (by simp)

/-- The symbols of a token move from the lookahead to the window's end (R116). -/
theorem WindowTrace.consume {s : State} (h : WindowTrace s) (hring : s.lz.win.Wf) (hlook : LookTrace s) {n : Nat}
    (hn : n ≤ s.lz.chunk.length - s.lz.pos) : WindowTrace (pastToken n s) := by
  have hview : (s.lz.consume n).win.view = lastN s.lz.win.cap (s.lz.win.view ++ s.lz.look.take n) :=
    Ring.view_appendAll hring _
  have hcap : (s.lz.consume n).win.cap = s.lz.win.cap := Ring.appendAll_cap _ _
  show (s.lz.consume n).win.view = lastN (s.lz.consume n).win.cap (s.inBytes (s.inPos + n))
  rw [hview, hcap, h, hlook, inSlice_take s _ hn, lastN_append, inBytes_add]

theorem LookTrace.consume {s : State} (h : LookTrace s) (n : Nat) : LookTrace (pastToken n s) := by
  show (s.lz.consume n).look = s.inSlice (s.inPos + n) (s.lz.chunk.length - (s.lz.pos + n))
  rw [look_consume, h, inSlice_drop, Nat.sub_sub]

/-- A piece of a body that does not move `in_pos` keeps both parts. -/
theorem ContinuesAt.windowTrace {s t : State} (h : ContinuesAt s t) (hw : WindowTrace s) : WindowTrace t := by
  rw [WindowTrace, h.frame.lz, h.inPos, h.frame.inBytes]
  exact hw

theorem ContinuesAt.lookTrace {s t : State} (h : ContinuesAt s t) (hl : LookTrace s) : LookTrace t := by
  rw [LookTrace, h.frame.lz, h.inPos, h.frame.inSlice]
  exact hl

/-! ### The compressor's steps -/

theorem lzChunkStep_traces {s : State} (h : Running s) (hz : s.hazards = []) (hp : s.phase = .lzChunk)
    (htrace : LzTrace s) : (lzChunkStep s).Ensures fun _ t => LzTrace t := by
  obtain ⟨hwin, _⟩ := (lzTrace_iff s).mp htrace (.inl hp)
  unfold lzChunkStep
  split
  · refine (readChunk_ensures h _ _).answered.bind fun chunk s1 ⟨⟨h1, hlen⟩, hread⟩ => ?_
    refine (lzTrace_iff _).mpr fun _ => ⟨h1.windowTrace hwin, fun _ => ?_⟩
    show chunk = s1.inSlice s1.inPos chunk.length
    rw [h1.inPos, h1.frame.inSlice, hlen]
    exact readChunk_reads hread hz
  · exact lzTrace_complete _ s

theorem lzEncodeStep_traces {s : State} (h : Running s) (hp : s.phase = .lzEncode) (htrace : LzTrace s) :
    (lzEncodeStep s).Ensures fun _ t => LzTrace t := by
  obtain ⟨hwin, hlook⟩ := (lzTrace_iff s).mp htrace (.inr hp)
  unfold lzEncodeStep
  split
  · exact (lzTrace_iff _).mpr fun _ => ⟨hwin, nofun⟩
  next c cs hcons =>
    refine (emitElement_continues h _).bind fun _ s1 h1 => ?_
    obtain ⟨hring, _⟩ := h1.running.lz (.inr (h1.frame.phase.trans hp))
    have hle : tokenLength (findMatch s.lz.win.view (c :: cs)) ≤ s1.lz.chunk.length - s1.lz.pos := by
      rw [h1.frame.lz, ← look_length, hcons]
      exact tokenLength_le _ c cs
    have hlook1 := h1.lookTrace (hlook hp)
    exact (lzTrace_iff _).mpr fun _ => ⟨(h1.windowTrace hwin).consume hring hlook1 hle, fun _ => hlook1.consume _⟩

/-! ### The steps of the other codecs stay outside the compressor -/

/-- What a step answers has the trace. -/
def StepTraces (o : Host.Outcome State Fault Refusal) : Prop := ∀ t, o = .next t → LzTrace t

theorem stepTraces_next {t : State} (h : LzTrace t) : StepTraces (.next t) := by
  intro u hu
  cases hu
  exact h

theorem stepTraces_fault (f : Fault) : StepTraces (.fault f) := by
  intro t ht
  cases ht

theorem stepTraces_complete (e : ErrCode) (s : State) : StepTraces (.next (complete e s)) :=
  stepTraces_next (lzTrace_complete e s)

theorem stepTraces_settle {x : Body Unit} (h : x.Ensures fun _ t => LzTrace t) : StepTraces (.next (settle x)) := by
  cases x with
  | done u t => exact stepTraces_next h
  | raised e t => exact stepTraces_complete e t

/-- A step that enters, or stays in, a phase outside the compressor. -/
theorem stepTraces_phase {t : State} {ph : Phase} (hp : t.phase = ph) (h : ph.OutsideLz := by decide) :
    StepTraces (.next t) :=
  stepTraces_next (lzTrace_of_phase hp h)

/-- A piece of a body that goes on outside the compressor. -/
theorem stepTraces_continues {s : State} {x : Body Unit} {ph : Phase} (hx : x.Ensures fun _ t => ContinuesAt s t)
    (hp : s.phase = ph) (h : ph.OutsideLz := by decide) : StepTraces (.next (settle x)) :=
  stepTraces_settle (hx.mono fun _ _ h1 => lzTrace_of_phase (h1.frame.phase.trans hp) h)

theorem runFetched_traces {x : Body Code}
    (h : x.Ensures fun c t => ∀ i, decode c = .ok i → StepTraces (exec i t)) : StepTraces (runFetched exec x) := by
  cases x with
  | raised e t => exact stepTraces_complete e t
  | done c t =>
    simp only [runFetched]
    split
    next i hi => exact h i hi
    · intro u hu
      cases hu

theorem runWhileInput_traces {s : State} {fetch : State → Body Code} (hf : StepTraces (runFetched exec (fetch s))) :
    StepTraces (runWhileInput exec fetch s) := by
  unfold runWhileInput
  split
  · exact hf
  · exact stepTraces_complete _ s

theorem rleEncodeStep_traces {s : State} (h : Running s) (hp : s.phase = .rleEncode) :
    (rleEncodeStep s).Ensures fun _ t => LzTrace t := by
  unfold rleEncodeStep
  split
  next hlt =>
    refine (inByte_ensures h _).bind fun c s1 ⟨h1, _⟩ => ?_
    refine (countRun_ensures h1.running c s.inPos 254 1 (h1.frame.srcCount ▸ hlt)).bind fun run s2 ⟨h2, _⟩ => ?_
    refine (emitElement_continues h2.running _).bind fun _ s3 h3 => ?_
    exact lzTrace_of_phase (((h1.trans h2).trans h3).frame.phase.trans hp)
  · exact lzTrace_complete _ s

theorem rleDecode_traces {s : State} (h : Running s) (hp : s.phase = .rleDecode) :
    StepTraces (runWhileInput exec fetchRle s) := by
  refine runWhileInput_traces (runFetched_traces ((fetchRle_ensures h hp).mono ?_))
  rintro c t ⟨h1, bs, rfl⟩ i hi
  obtain ⟨n, c, rfl⟩ := decodeRle_ok hi
  exact stepTraces_continues (emitRepeat_continues h1.running c n.toNat) (h1.frame.phase.trans hp)

theorem lzDecode_traces {s : State} (h : Running s) (hp : s.phase = .lzDecode) :
    StepTraces (runWhileInput exec fetchLz77 s) := by
  refine runWhileInput_traces (runFetched_traces ((fetchLz77_ensures h hp).mono ?_))
  rintro c t ⟨h1, bs, rfl⟩ i hi
  have hp1 : t.phase = .lzDecode := h1.frame.phase.trans hp
  rcases decodeLz77_ok hi with ⟨c, rfl⟩ | ⟨o, l, rfl⟩ | ⟨f, rfl⟩
  · exact stepTraces_continues (emit_continues h1.running c) hp1
  · exact stepTraces_continues (copyMatch_continues h1.running o.toNat l.toNat) hp1
  · exact stepTraces_complete _ t

theorem hufCountStep_traces {s : State} (h : Running s) (hp : s.phase = .hufCount) :
    (hufCountStep s).Ensures fun _ t => LzTrace t := by
  unfold hufCountStep
  split
  · refine (inByte_ensures h _).bind fun c s1 ⟨h1, _⟩ => ?_
    exact lzTrace_of_phase (h1.frame.phase.trans hp)
  · split
    · exact lzTrace_complete _ s
    · exact (singleSymbol_continues h _ _).bind fun _ s1 _ => lzTrace_complete _ s1
    · exact lzTrace_of_phase (ph := .hufBuild) rfl

theorem hufBuildStep_traces {s : State} (hp : s.phase = .hufBuild) : StepTraces (hufBuildStep s) := by
  unfold hufBuildStep
  split
  · exact stepTraces_fault _
  · exact stepTraces_phase (ph := .hufCodes) rfl
  · split
    · exact stepTraces_fault _
    · split
      · exact stepTraces_phase hp
      · exact stepTraces_fault _

theorem hufCodesStep_traces {s : State} (h : Running s) (hp : s.phase = .hufCodes) : StepTraces (hufCodesStep s) := by
  unfold hufCodesStep
  split
  · refine stepTraces_settle ((emitElement_continues h _).bind fun _ _ _ => ?_)
    exact lzTrace_of_phase (ph := .hufTree) rfl
  · split
    · exact stepTraces_fault _
    · exact stepTraces_phase hp
    · exact stepTraces_phase hp

theorem hufTreeStep_traces {s : State} (h : Running s) (hp : s.phase = .hufTree) : StepTraces (hufTreeStep s) := by
  obtain ⟨hroot, htodo⟩ := h.indicesAt hp
  have visit : ∀ (e : Instr) (todo : List Nat), (∀ i ∈ todo, i < s.huf.arena.length) →
      StepTraces (.next (settle (emitElement e { s with huf := { s.huf with treeTodo := todo } }))) := by
    intro e todo hin
    have visited := h.withHuf hp { s.huf with treeTodo := todo } (by decide) h.tables ⟨hroot, hin⟩
    exact stepTraces_continues (emitElement_continues visited e) hp
  unfold hufTreeStep
  split
  · exact stepTraces_settle ((flushBits_continues h).bind fun _ _ _ => lzTrace_of_phase (ph := .hufBody) rfl)
  next i todo hcons =>
    have hrest : ∀ i ∈ todo, i < s.huf.arena.length := fun i hmem => htodo i (hcons ▸ List.mem_cons_of_mem _ hmem)
    split
    · exact stepTraces_fault _
    · exact visit _ _ hrest
    next l r _ hnode =>
      obtain ⟨hl, hr⟩ := arenaWf_children h.tables.arena hnode
      exact visit _ _ (List.forall_mem_cons.mpr ⟨hl, List.forall_mem_cons.mpr ⟨hr, hrest⟩⟩)

theorem hufBodyStep_traces {s : State} (h : Running s) (hp : s.phase = .hufBody) :
    (hufBodyStep s).Ensures fun _ t => LzTrace t := by
  unfold hufBodyStep
  split
  · refine (inByte_ensures h _).bind fun c s1 ⟨h1, _⟩ => ?_
    have h2 := codeOf_continues h1.running c
    refine (putBits_continues h2.running _).bind fun _ s3 h3 => ?_
    exact lzTrace_of_phase (((h1.trans h2).trans h3).frame.phase.trans hp)
  · refine (flushBits_continues h).bind fun sig s1 h1 => ?_
    exact (emitElement_continues h1.running _).bind fun _ s2 _ => lzTrace_complete _ s2

theorem hufHeader_traces {s : State} (h : Running s) (hp : s.phase = .hufHeader) :
    StepTraces (runWhileInput exec fetchHufHeader s) := by
  refine runWhileInput_traces (runFetched_traces ((fetchHufHeader_ensures h hp).mono ?_))
  rintro c t ⟨h1, bs, rfl⟩ i hi
  rcases decodeHufHeader_ok hi with ⟨high, c, n, rfl⟩ | rfl | ⟨f, rfl⟩
  · refine stepTraces_settle ?_
    unfold repeatSymbol
    split
    · exact h1.running.spaces
    · split
      · exact h1.running.spaces
      · exact (emitRepeat_continues h1.running _ _).bind fun _ u _ => lzTrace_complete _ u
  · exact stepTraces_phase (ph := .hufParse) rfl
  · exact stepTraces_complete _ t

theorem hufParse_traces {s : State} (h : Running s) (hp : s.phase = .hufParse) :
    StepTraces (runFetched exec (fetchHufNode s)) := by
  refine runFetched_traces ((fetchHufNode_ensures h hp).mono ?_)
  rintro c t ⟨⟨_, hp1⟩, bits, rfl⟩ i hi
  rcases decodeHufNode_ok hi with ⟨x, rfl⟩ | rfl
  · refine stepTraces_next ?_
    split
    · exact lzTrace_complete _ t
    · unfold afterNode
      split
      · exact lzTrace_of_phase (ph := .hufExtent) rfl
      · exact lzTrace_of_phase hp1
  · exact stepTraces_phase hp1

theorem hufExtent_traces {s : State} (h : Running s) : StepTraces (runFetched exec (fetchHufTrailing s)) := by
  refine runFetched_traces ((fetchHufTrailing_ensures h).mono ?_)
  rintro c t ⟨_, bs, rfl⟩ i hi
  obtain ⟨sig, rfl⟩ := decodeHufTrailing_ok hi
  refine stepTraces_next ?_
  split
  · exact lzTrace_complete _ t
  · split
    · exact lzTrace_complete _ t
    · exact lzTrace_of_phase (ph := .hufWalk) rfl

theorem arriveAt_traces {s : State} (h : Running s) (hp : s.phase = .hufWalk) (i : Nat) : StepTraces (arriveAt i s) := by
  unfold arriveAt
  split
  · exact stepTraces_fault _
  · exact stepTraces_settle ((emit_continues h _).bind fun _ _ h1 => lzTrace_of_phase (h1.frame.phase.trans hp))
  · exact stepTraces_phase hp

theorem takeBit_traces {s : State} (h : Running s) (hp : s.phase = .hufWalk) (b : Bool) : StepTraces (takeBit b s) := by
  unfold takeBit
  split
  · exact stepTraces_fault _
  · exact stepTraces_complete _ s
  · exact arriveAt_traces h hp _

theorem hufWalkStep_traces {s : State} (h : Running s) (hp : s.phase = .hufWalk) : StepTraces (hufWalkStep s) := by
  have hread := readBit_ensures h (by simp [hp])
  unfold hufWalkStep
  split
  · exact stepTraces_complete _ s
  · split
    next e s1 _ => exact stepTraces_complete e s1
    next b s1 hx =>
      rw [hx] at hread
      have hp1 : s1.phase = .hufWalk := hread.frame.phase.trans hp
      have counted := hread.running.withHuf hp1 { s1.huf with bitsLeft := s1.huf.bitsLeft - 1 } (by decide)
        hread.running.tables (hread.running.indicesAt hp1)
      exact takeBit_traces counted hp1 b

/-! ### Every step -/

theorem runPhase_traces {s : State} (h : Running s) (hz : s.hazards = []) (htrace : LzTrace s) :
    StepTraces (runPhase exec s) := by
  unfold runPhase
  split
  next => exact stepTraces_fault _
  next hp => exact stepTraces_settle (rleEncodeStep_traces h hp)
  next hp => exact rleDecode_traces h hp
  next hp => exact stepTraces_settle (lzChunkStep_traces h hz hp htrace)
  next hp => exact stepTraces_settle (lzEncodeStep_traces h hp htrace)
  next hp => exact lzDecode_traces h hp
  next hp => exact stepTraces_settle (hufCountStep_traces h hp)
  next hp => exact hufBuildStep_traces hp
  next hp => exact hufCodesStep_traces h hp
  next hp => exact hufTreeStep_traces h hp
  next hp => exact stepTraces_settle (hufBodyStep_traces h hp)
  next hp => exact hufHeader_traces h hp
  next hp => exact hufParse_traces h hp
  next => exact hufExtent_traces h
  next hp => exact hufWalkStep_traces h hp

/-- Settles O36: an idle engine does nothing, and a running command steps as its phase says. -/
theorem windowHoldsLastSymbolsConsumed : Obligations.WindowHoldsLastSymbolsConsumed := by
  intro s t h hin hz htrace
  suffices hstep : StepTraces (step s) from hstep t
  rw [step_engine hin]
  unfold engineStep
  split
  next hb => exact runPhase_traces (h.running hb) hz htrace
  · exact stepTraces_next htrace

end Sys2Proof.Machine

/-! ## The bit writer

The writer holds the bits put since the last whole byte (R50, R151): `BitWriter.holding`. A string written and flushed is
`emitAll` of its packed bytes, so what stands in OUT and what is left unchanged is what `emitAll_done` says. -/

namespace Sys2Proof.Machine

open Sys2Proof

/-! ### Bits packed into a byte -/

/-- The first eight bits as a byte, MSB-first, padded with zero bits (R150). -/
def packByte (bits : List Bool) : Byte := BitVec.ofNat 8 (bitsValue ((bits ++ List.replicate 8 false).take 8))

theorem packBits_succ (n : Nat) (bits : List Bool) :
    packBits (n + 1) bits = packByte bits :: packBits n (bits.drop 8) := rfl

theorem packBits_length (n : Nat) (bits : List Bool) : (packBits n bits).length = n := by
  induction n generalizing bits with
  | zero => rfl
  | succ n ih => rw [packBits_succ, List.length_cons, ih]

/-- The packed bytes of a nonempty string are its first byte and those of the bits after it. -/
theorem packed_of_ne_nil {bits : List Bool} (h : bits ≠ []) :
    Reference.packed bits = packByte bits :: Reference.packed (bits.drop 8) := by
  have hpos := List.length_pos_of_ne_nil h
  have hcount : Reference.byteCount bits = Reference.byteCount (bits.drop 8) + 1 := by
    simp only [Reference.byteCount, List.length_drop]
    omega
  rw [Reference.packed, hcount, packBits_succ, Reference.packed]

theorem packByte_take (bits : List Bool) : packByte (bits.take 8) = packByte bits := by
  rcases Nat.lt_or_ge bits.length 8 with hlt | hge
  · rw [List.take_of_length_le hlt.le]
  · rw [packByte, packByte, List.take_append_of_le_length hge, List.take_append_of_le_length (by simp [hge]),
      List.take_take, Nat.min_self]

theorem bitsValue_append (xs ys : List Bool) : bitsValue (xs ++ ys) = 2 ^ ys.length * bitsValue xs + bitsValue ys := by
  rw [bitsValue, List.foldl_append, foldl_bits, ← bitsValue]

theorem bitsValue_replicate_false (n : Nat) : bitsValue (List.replicate n false) = 0 := by
  induction n with
  | zero => rfl
  | succ n ih => rw [List.replicate_succ, bitsValue_cons, ih, Bool.toNat_false, Nat.mul_zero]

/-- Padding moves the bits up to the top of the byte. -/
theorem packByte_toNat {bits : List Bool} (h : bits.length ≤ 8) :
    (packByte bits).toNat = 2 ^ (8 - bits.length) * bitsValue bits := by
  have hpad : (bits ++ List.replicate 8 false).take 8 = bits ++ List.replicate (8 - bits.length) false := by
    rw [List.take_append, List.take_of_length_le h, List.take_replicate, Nat.min_eq_left (Nat.sub_le _ _)]
  have hvalue : bitsValue (bits ++ List.replicate (8 - bits.length) false) = 2 ^ (8 - bits.length) * bitsValue bits := by
    rw [bitsValue_append, bitsValue_replicate_false, List.length_replicate, Nat.add_zero]
  have hlt := bitsValue_lt (bits ++ List.replicate (8 - bits.length) false)
  rw [List.length_append, List.length_replicate, Nat.add_sub_cancel' h] at hlt
  rw [packByte, hpad, BitVec.toNat_ofNat, Nat.mod_eq_of_lt hlt, hvalue]

/-! ### One bit -/

/-- The writer that holds the bits `p` (R50). -/
def BitWriter.holding (p : List Bool) : BitWriter := { wacc := packByte p, wcount := p.length }

@[simp] theorem BitWriter.holding_wacc (p : List Bool) : (BitWriter.holding p).wacc = packByte p := rfl
@[simp] theorem BitWriter.holding_wcount (p : List Bool) : (BitWriter.holding p).wcount = p.length := rfl
@[simp] theorem BitWriter.holding_nil : BitWriter.holding [] = BitWriter.init := rfl

/-- The bit put is the next lower one of the accumulator, which still is 0 (R151). -/
theorem addBit_holding {p : List Bool} (h : p.length < 8) (b : Bool) :
    addBit b (BitWriter.holding p) = packByte (p ++ [b]) := by
  obtain ⟨k, hk⟩ : ∃ k, 7 - p.length = k := ⟨_, rfl⟩
  have hold : (packByte p).toNat = 2 ^ (k + 1) * bitsValue p := by
    rw [packByte_toNat h.le, show 8 - p.length = k + 1 by omega]
  have hnew : (packByte (p ++ [b])).toNat = 2 ^ (k + 1) * bitsValue p + 2 ^ k * b.toNat := by
    rw [packByte_toNat (by simpa using h), bitsValue_append, List.length_append, List.length_singleton,
      show 8 - (p.length + 1) = k by omega]
    simp only [bitsValue, List.foldl_cons, List.foldl_nil]
    ring
  apply BitVec.eq_of_toNat_eq
  rw [hnew]
  cases b with
  | false => exact hold
  | true =>
    have hbit : (1#8 <<< k).toNat = 2 ^ k := by
      have hlt : 2 ^ k < 2 ^ 8 := Nat.pow_lt_pow_right (by decide) (by omega)
      rw [BitVec.toNat_shiftLeft, Nat.shiftLeft_eq, BitVec.toNat_ofNat, Nat.one_mod, Nat.one_mul, Nat.mod_eq_of_lt hlt]
    rw [addBit, if_pos rfl, BitWriter.holding_wacc, BitWriter.holding_wcount, hk, BitVec.toNat_or, hold, hbit,
      ← Nat.two_pow_add_eq_or_of_lt (Nat.pow_lt_pow_right (by decide) (Nat.lt_succ_self k)), Bool.toNat_true, Nat.mul_one]

/-- A bit that does not fill the byte is held (R151). -/
theorem putBit_held {p : List Bool} {s : State} (hw : s.writer = .holding p) (h : p.length < 7) (b : Bool) :
    putBit b s = .done () { s with writer := .holding (p ++ [b]) } := by
  simp only [putBit, hw, addBit_holding (show p.length < 8 by omega), BitWriter.holding_wcount]
  rw [if_neg (by omega), BitWriter.holding, List.length_append, List.length_singleton]

/-- The bit that fills the byte emits it, and the writer stands at its start (R151). -/
theorem putBit_fills {p : List Bool} {s : State} (hw : s.writer = .holding p) (h : p.length = 7) (b : Bool) :
    putBit b s = (emit (packByte (p ++ [b])) { s with writer := .holding (p ++ [b]) }).bind fun _ s1 =>
      .done () { s1 with writer := BitWriter.init } := by
  simp only [putBit, hw, addBit_holding (show p.length < 8 by omega), BitWriter.holding_wcount]
  rw [if_pos (by omega), BitWriter.holding, List.length_append, List.length_singleton]

/-! ### A string of bits -/

theorem putBits_append (xs ys : List Bool) (s : State) :
    putBits (xs ++ ys) s = (putBits xs s).bind fun _ s1 => putBits ys s1 := by
  induction xs generalizing s with
  | nil => rfl
  | cons x xs ih =>
    rw [List.cons_append, putBits, putBits]
    cases putBit x s with
    | done u s1 => exact ih s1
    | raised e s1 => rfl

/-- Bits that do not fill the byte are held. -/
theorem putBits_held {p bits : List Bool} {s : State} (hw : s.writer = .holding p) (h : p.length + bits.length < 8) :
    putBits bits s = .done () { s with writer := .holding (p ++ bits) } := by
  induction bits generalizing p s with
  | nil => rw [List.append_nil, ← hw, putBits]
  | cons b bits ih =>
    rw [List.length_cons] at h
    rw [putBits, putBit_held hw (by omega), Body.bind_done,
      ih (p := p ++ [b]) rfl (by rw [List.length_append, List.length_singleton]; omega), List.append_assoc,
      List.singleton_append]

theorem drawWrite_withWriter (k : Nat) (s : State) (w : BitWriter) :
    drawWrite k { s with writer := w } = ((drawWrite k s).1, { (drawWrite k s).2 with writer := w }) := by
  cases hs : s.env.writes with
  | cons d ds => rw [drawWrite_listed hs, drawWrite_listed (s := { s with writer := w }) hs]
  | nil =>
    simp only [drawWrite, hs]
    split <;> rfl

/-- `Emit` neither reads nor changes the bit writer. -/
theorem emit_withWriter {c : Byte} {s t : State} {u : Unit} (h : emit c s = .done u t) (w : BitWriter) :
    emit c { s with writer := w } = .done u { t with writer := w } := by
  have hroom : s.outPos < s.params.outSize := (emit_done h).1
  rw [emit_of_lt hroom] at h
  rw [emit_of_lt (s := { s with writer := w }) hroom, drawWrite_withWriter]
  split at h
  · cases h
  next hd =>
    cases h
    exact if_neg hd

theorem EmitFrame.writer {s t : State} (h : EmitFrame s t) : t.writer = s.writer := (congrArg State.writer h :)

theorem EmitFrame.withWriter_eq {s t : State} (h : EmitFrame s t) {w : BitWriter} (hw : s.writer = w) :
    { t with writer := w } = t := by
  rw [← hw, ← h.writer]

/-- Eight bits from the writer's start are one `Emit` of their byte. -/
theorem putBits_byte {bits : List Bool} {s t : State} (hw : s.writer = BitWriter.init) (hl : bits.length = 8)
    (h : emit (packByte bits) s = .done () t) : putBits bits s = .done () t := by
  have hne : bits ≠ [] := List.ne_nil_of_length_pos (by omega)
  obtain ⟨p, b, rfl⟩ : ∃ p b, bits = p ++ [b] := ⟨_, _, (List.dropLast_append_getLast hne).symm⟩
  obtain ⟨_, frame, _⟩ := emit_done h
  have hp : p.length = 7 := by simpa using hl
  have hheld : putBits p s = .done () { s with writer := .holding p } := putBits_held (p := []) hw (by simp [hp])
  have hfull : emit (packByte (p ++ [b])) { s with writer := .holding (p ++ [b]) }
      = .done () { t with writer := .holding (p ++ [b]) } := emit_withWriter h _
  rw [putBits_append, hheld, Body.bind_done, putBits, putBit_fills rfl hp, hfull, Body.bind_done, Body.bind_done, putBits,
    frame.withWriter_eq hw]

/-- With nothing held the flush writes nothing, and the last byte is whole (R152). -/
theorem flushBits_empty {s : State} (hw : s.writer = BitWriter.init) : flushBits s = .done 8 s := by
  have hcount : ¬0 < s.writer.wcount := by rw [hw]; exact Nat.lt_irrefl 0
  rw [flushBits, if_neg hcount, ← hw]

/-- The flush emits the byte of the bits held and answers how many they are (R152). -/
theorem flushBits_held {p : List Bool} {s : State} (hw : s.writer = .holding p) (hp : p ≠ []) :
    flushBits s = (emit (packByte p) s).bind fun _ s1 => .done p.length { s1 with writer := BitWriter.init } := by
  simp only [flushBits, hw, BitWriter.holding_wcount, BitWriter.holding_wacc]
  exact if_pos (List.length_pos_of_ne_nil hp)

/-- Writing a nonempty string and flushing is emitting its packed bytes. -/
theorem putBits_flushBits {bits : List Bool} {s u : State} (hw : s.writer = BitWriter.init) (hne : bits ≠ [])
    (h : emitAll (Reference.packed bits) s = .done () u) :
    ∃ t, putBits bits s = .done () t
      ∧ flushBits t = .done (bits.length - 8 * (Reference.byteCount bits - 1)) u := by
  rw [packed_of_ne_nil hne] at h
  obtain ⟨⟨⟩, s1, hfirst, hmore⟩ := Body.bind_eq_done.mp h
  obtain ⟨_, frame, _⟩ := emit_done hfirst
  rcases Nat.lt_or_ge bits.length 8 with hshort | hbyte
  · rw [List.drop_eq_nil_of_le hshort.le] at hmore
    cases hmore
    have hsig : bits.length - 8 * (Reference.byteCount bits - 1) = bits.length := by
      rw [Reference.byteCount]
      omega
    refine ⟨_, putBits_held (p := []) hw (by simpa using hshort), ?_⟩
    rw [hsig, flushBits_held rfl hne, List.nil_append, emit_withWriter hfirst, Body.bind_done,
      frame.withWriter_eq hw]
  · have hput : putBits (bits.take 8) s = .done () s1 :=
      putBits_byte hw (by simp [hbyte]) (by rw [packByte_take]; exact hfirst)
    have hw1 : s1.writer = BitWriter.init := frame.writer.trans hw
    have hsplit : putBits bits s = putBits (bits.drop 8) s1 := by
      conv_lhs => rw [← List.take_append_drop 8 bits, putBits_append, hput, Body.bind_done]
    rcases Nat.eq_or_lt_of_le hbyte with hone | hmany
    · have hnil : bits.drop 8 = [] := List.drop_eq_nil_of_le hone.ge
      rw [hnil] at hmore hsplit
      cases hmore
      refine ⟨u, hsplit, ?_⟩
      rw [Reference.byteCount, ← hone]
      exact flushBits_empty hw1
    · have hrest : (bits.drop 8).length = bits.length - 8 := List.length_drop
      have hne1 : bits.drop 8 ≠ [] := List.ne_nil_of_length_pos (by omega)
      obtain ⟨t, hput1, hflush⟩ := putBits_flushBits hw1 hne1 hmore
      refine ⟨t, hsplit.trans hput1, hflush.trans ?_⟩
      congr 1
      rw [Reference.byteCount, Reference.byteCount, hrest]
      omega
termination_by bits.length
decreasing_by omega

/-- Settles O41: with no failing access the packed bytes are emitted, and the string is written and flushed as they are. -/
theorem bitWriterPacksMsbFirst : Obligations.BitWriterPacksMsbFirst := by
  intro bits s hq hw hne hroom
  have hlen : (Reference.packed bits).length = (bits.length + 7) / 8 := packBits_length _ _
  obtain ⟨u, hemit, _⟩ := emitAll_quiet (bs := Reference.packed bits) hq (by rwa [hlen])
  obtain ⟨t, hput, hflush⟩ := putBits_flushBits hw hne hemit
  obtain ⟨frame, cursor, written, kept⟩ := emitAll_done hemit
  rw [hlen] at cursor written kept
  exact ⟨t, u, _, hput, hflush, frame, cursor, rfl, written, kept⟩

end Sys2Proof.Machine

/-! ## The bit reader -/

namespace Sys2Proof.Machine

open Sys2Proof

/-- Settles O42: one bit after another, each the one at the cursor. -/
theorem bitReaderReadsStreamOrder : Obligations.BitReaderReadsStreamOrder := by
  intro bits s hq hz hready hb
  obtain ⟨t, hread, past⟩ := readBits_quiet ⟨hq, hz, hready⟩ hb
  exact ⟨t, hread, past.frame, past.reads.ready, past.cursor⟩

end Sys2Proof.Machine

/-! ## Huffman: what a piece of a run writes

A piece of a command's run is described by the bytes it writes from `out_pos` on, wherever that stands: `Emission` says what holds
when they fit OUT and what holds when they do not (R63). A piece of a body, a stretch of engine steps (`Segment`) and a run to the
end of the command (`Finish`) are emissions, and they are put together by `Emission.trans`. -/

namespace Sys2Proof.Machine

open Sys2Proof

theorem Runs.trans {s t u : State} (h1 : Runs s t) (h2 : Runs t u) : Runs s u := by
  obtain ⟨n, hn⟩ := h1
  induction n generalizing s with
  | zero =>
    cases hn
    exact h2
  | succ n ih =>
    rw [runSteps] at hn
    split at hn
    next t1 ht1 => exact .of_step ht1 (ih hn)
    · cases hn
    · cases hn

theorem Runs.step {s t : State} (h : step s = .next t) : Runs s t := .of_step h (.refl t)

/-- The command of `s` goes on in `u`: it has written `zs` at the cursor, and every draw so far was false. -/
structure Appends (zs : List Byte) (s u : State) : Prop where
  command : SameCommand s u
  mem : u.outMem = Memory.writeAll s.outMem s.outPos zs
  cursor : u.outPos = s.outPos + zs.length
  quiet : u.Quiet

/-- The command goes on with OUT as it is. -/
theorem Appends.nothing {s u : State} (hc : SameCommand s u) (hmem : u.outMem = s.outMem) (hpos : u.outPos = s.outPos)
    (hq : u.Quiet) : Appends [] s u := ⟨hc, hmem, hpos, hq⟩

theorem Appends.refl {s : State} (hq : s.Quiet) : Appends [] s s := .nothing (.refl s) rfl rfl hq

theorem Appends.trans {ys zs : List Byte} {s t u : State} (h1 : Appends ys s t) (h2 : Appends zs t u) :
    Appends (ys ++ zs) s u := by
  refine ⟨h1.command.trans h2.command, ?_, ?_, h2.quiet⟩
  · rw [h2.mem, h1.mem, h1.cursor, Memory.writeAll_append]
  · rw [h2.cursor, h1.cursor, List.length_append, Nat.add_assoc]

theorem Appends.outByteAt_inside {zs : List Byte} {s u : State} (h : Appends zs s u) {j : Nat} (hj : j < zs.length) :
    u.outByteAt (s.outPos + j) = zs.getD j 0#8 := by
  rw [State.outByteAt, h.mem, Memory.read_writeAll_inside _ _ hj, Option.getD_some]

theorem Appends.outByteAt_outside {zs : List Byte} {s u : State} (h : Appends zs s u) {a : Nat}
    (ha : a < s.outPos ∨ s.outPos + zs.length ≤ a) : u.outByteAt a = s.outByteAt a := by
  have hepoch : u.outEpoch = s.outEpoch := (congrArg State.outEpoch h.command :)
  rw [State.outByteAt, h.mem, hepoch, Memory.read_writeAll_outside _ ha, State.outByteAt]

/-- From the start of a body, what it appends is what it has written. -/
theorem Appends.wrote {zs : List Byte} {t u : State} (h : Appends zs t u) (ht : Started t)
    (hroom : zs.length ≤ t.params.outSize) : Wrote t zs u := by
  obtain ⟨command, mem, cursor, quiet⟩ := h
  rw [ht.outPos] at mem cursor
  exact ⟨command, mem, by rw [cursor, Nat.zero_add], hroom, quiet⟩

theorem Wrote.appends {zs : List Byte} {t u : State} (h : Wrote t zs u) (ht : Started t) : Appends zs t u :=
  ⟨h.command, by rw [h.mem, ht.outPos], by rw [h.cursor, ht.outPos, Nat.zero_add], h.quiet⟩

/-- The engine runs a command, no input is pending and no access fails. -/
structure Active (s : State) : Prop where
  busy : s.status.busy = true
  inputs : s.inputs = []
  quiet : s.Quiet

theorem Started.active {t : State} (h : Started t) : Active t := ⟨h.busy, h.inputs, h.quiet⟩

theorem Active.of_sameCommand {s u : State} (h : Active s) (hc : SameCommand s u) (hq : u.Quiet) : Active u :=
  ⟨(congrArg Status.busy hc.status).trans h.busy, hc.inputs.trans h.inputs, hq⟩

theorem Appends.active {zs : List Byte} {s u : State} (h : Appends zs s u) (hs : Active s) : Active u :=
  hs.of_sameCommand h.command h.quiet

/-- With a command running and no input pending, the step is that of the phase (R267). -/
theorem Active.step_phase {s : State} (h : Active s) : step s = runPhase exec s := step_running h.inputs h.busy

/-- `zs` is written from `s` on: `Fits` holds where the last byte is written, `Full` when OUT is too small (R63). -/
def Emission (zs : List Byte) (s : State) (Fits : State → Prop) (Full : Prop) : Prop :=
  (s.outPos + zs.length ≤ s.params.outSize → ∃ u, Appends zs s u ∧ Fits u)
    ∧ (s.outPos ≤ s.params.outSize → s.params.outSize < s.outPos + zs.length → Full)

theorem Emission.nothing {s u : State} {F : State → Prop} {A : Prop} (h : Appends [] s u) (hu : F u) :
    Emission [] s F A :=
  ⟨fun _ => ⟨u, h, hu⟩, fun hle hlt => absurd hle (Nat.not_le.mpr hlt)⟩

theorem Emission.mono {zs : List Byte} {s : State} {F G : State → Prop} {A B : Prop} (h : Emission zs s F A)
    (hfits : ∀ u, Appends zs s u → F u → G u) (hfull : A → B) : Emission zs s G B := by
  refine ⟨fun hroom => ?_, fun hle hlt => hfull (h.2 hle hlt)⟩
  obtain ⟨u, hu, hF⟩ := h.1 hroom
  exact ⟨u, hu, hfits u hu hF⟩

theorem Emission.trans {ys zs : List Byte} {s : State} {F G : State → Prop} {A B : Prop} (h : Emission ys s F A)
    (hfull : A → B) (hnext : ∀ u, Appends ys s u → F u → Emission zs u G B) : Emission (ys ++ zs) s G B := by
  rw [Emission, List.length_append]
  have hthen : s.outPos + ys.length ≤ s.params.outSize → ∃ u, Appends ys s u ∧ Emission zs u G B ∧
      u.outPos = s.outPos + ys.length ∧ u.params.outSize = s.params.outSize := fun hroom => by
    obtain ⟨u, hu, hF⟩ := h.1 hroom
    exact ⟨u, hu, hnext u hu hF, hu.cursor, by rw [hu.command.params]⟩
  refine ⟨fun hroom => ?_, fun hle hlt => ?_⟩
  · obtain ⟨u, hu, hmore, hpos, hsize⟩ := hthen (by omega)
    obtain ⟨v, hv, hG⟩ := hmore.1 (by omega)
    exact ⟨v, hu.trans hv, hG⟩
  · rcases Nat.lt_or_ge s.params.outSize (s.outPos + ys.length) with hys | hys
    · exact hfull (h.2 hle hys)
    · obtain ⟨u, hu, hmore, hpos, hsize⟩ := hthen hys
      exact hmore.2 (by omega) (by omega)

/-- An emission that starts in `s0`, where the command of `s` has moved without writing. -/
theorem Emission.after {zs : List Byte} {s s0 : State} {F : State → Prop} {A : Prop} (h0 : Appends [] s s0)
    (h : Emission zs s0 F A) : Emission zs s F A :=
  (Emission.nothing (F := (· = s0)) (A := A) h0 rfl).trans id fun _ _ he => he ▸ h

/-! ### A piece of a body -/

/-- The piece `x` of a body, run in `s`, writes `zs` and leaves `P`, or raises IOFailure where OUT is full. -/
def Body.Emits {α : Type} (x : Body α) (zs : List Byte) (s : State) (P : α → State → Prop) : Prop :=
  Emission zs s (fun u => ∃ a, x = .done a u ∧ P a u) (∃ u, x = .raised .ioFailure u ∧ SameCommand s u)

theorem Body.Emits.mono {α : Type} {x : Body α} {zs : List Byte} {s : State} {P Q : α → State → Prop}
    (hx : x.Emits zs s P) (hPQ : ∀ a u, Appends zs s u → P a u → Q a u) : x.Emits zs s Q :=
  Emission.mono hx (fun u hu ⟨a, ha, hP⟩ => ⟨a, ha, hPQ a u hu hP⟩) id

/-- The piece runs in `s0`, where the command of `s` has moved without writing. -/
theorem Body.Emits.after {α : Type} {x : Body α} {zs : List Byte} {s s0 : State} {P : α → State → Prop}
    (h0 : Appends [] s s0) (hx : x.Emits zs s0 P) : x.Emits zs s P :=
  Emission.after h0 (Emission.mono hx (fun _ _ h => h) fun ⟨u, hu, hc⟩ => ⟨u, hu, h0.command.trans hc⟩)

theorem Body.Emits.bind {α β : Type} {x : Body α} {f : α → State → Body β} {ys zs : List Byte} {s : State}
    {P : α → State → Prop} {Q : β → State → Prop} (hx : x.Emits ys s P)
    (hf : ∀ a u, Appends ys s u → P a u → (f a u).Emits zs u Q) : (x.bind f).Emits (ys ++ zs) s Q := by
  refine Emission.trans hx (fun ⟨u, hu, hc⟩ => ⟨u, by rw [hu, Body.bind_raised], hc⟩) fun u hu ⟨a, ha, hP⟩ => ?_
  rw [ha, Body.bind_done]
  exact Emission.mono (hf a u hu hP) (fun _ _ h => h) fun ⟨v, hv, hc⟩ => ⟨v, hv, hu.command.trans hc⟩

/-- A piece of a body that writes, and then changes the work alone. -/
theorem Body.Emits.map {α β : Type} {x : Body α} {g : α → β} {f : α → State → State} {zs : List Byte} {s : State}
    {P : α → State → Prop} {Q : β → State → Prop} (hx : x.Emits zs s P)
    (hf : ∀ a u, Appends zs s u → P a u → Appends [] u (f a u) ∧ Q (g a) (f a u)) :
    (x.bind fun a u => .done (g a) (f a u)).Emits zs s Q := by
  have h := hx.bind (zs := []) (Q := Q) (f := fun a u => .done (g a) (f a u)) fun a u hu hP => by
    obtain ⟨hfu, hQ⟩ := hf a u hu hP
    exact Emission.nothing hfu ⟨g a, rfl, hQ⟩
  rwa [List.append_nil] at h

theorem emit_emits {s : State} (hq : s.Quiet) (b : Byte) : (emit b s).Emits [b] s fun _ u => EmitFrame s u := by
  refine ⟨fun hroom => ?_, fun _ hfull => ⟨s, emit_full (Nat.le_of_lt_succ hfull), rfl⟩⟩
  obtain ⟨e, hemit, hqe⟩ := emit_quiet (b := b) hq hroom
  obtain ⟨_, frame, cursor, mem⟩ := emit_done hemit
  exact ⟨_, ⟨frame.bodyFrame.sameCommand, mem, cursor, hqe⟩, (), hemit, frame⟩

theorem emitAll_emits {s : State} (hq : s.Quiet) (bs : List Byte) : (emitAll bs s).Emits bs s fun _ u => EmitFrame s u := by
  induction bs generalizing s with
  | nil => exact Emission.nothing (.refl hq) ⟨(), rfl, rfl⟩
  | cons b bs ih =>
    refine (emit_emits hq b).bind (zs := bs) fun _ u hu frame => ?_
    exact (ih hu.quiet).mono fun _ _ _ frame' => frame.trans frame'

/-! ### A stretch of engine steps -/

/-- A run from `s` ends with IOFailure. -/
def RunsOutOfRoom (s : State) : Prop := ∃ u, Runs s u ∧ FailedInBody .ioFailure s u

/-- Engine steps from `s` write `zs` and lead to a state with `P`. -/
def Segment (zs : List Byte) (s : State) (P : State → Prop) : Prop :=
  Emission zs s (fun u => Runs s u ∧ P u) (RunsOutOfRoom s)

/-- Engine steps from `s` write `zs` and end the command with `e`. -/
def Finish (zs : List Byte) (e : ErrCode) (s : State) : Prop :=
  Emission zs s (fun u => Runs s (complete e u)) (RunsOutOfRoom s)

/-- A failure is one of the whole command. -/
theorem SameCommand.failedInBody {s t u : State} {e : ErrCode} (h : SameCommand s t) (hf : FailedInBody e t u) :
    FailedInBody e s u := by
  unfold SameCommand at h
  rw [h] at hf
  exact hf

theorem RunsOutOfRoom.of_runs {s t : State} (hc : SameCommand s t) (hr : Runs s t) (h : RunsOutOfRoom t) :
    RunsOutOfRoom s := by
  obtain ⟨u, hu, hf⟩ := h
  exact ⟨u, hr.trans hu, hc.failedInBody hf⟩

theorem RunsOutOfRoom.of_step {s u : State} (hs : Active s) (hc : SameCommand s u)
    (hstep : step s = .next (complete .ioFailure u)) : RunsOutOfRoom s :=
  ⟨_, .step hstep, hc.failed hs.busy (by decide)⟩

theorem Segment.trans {ys zs : List Byte} {s : State} {P Q : State → Prop} (h : Segment ys s P)
    (hnext : ∀ u, Appends ys s u → P u → Segment zs u Q) : Segment (ys ++ zs) s Q :=
  Emission.trans h id fun u hu ⟨hr, hP⟩ =>
    (hnext u hu hP).mono (fun _ _ ⟨hr', hQ⟩ => ⟨hr.trans hr', hQ⟩) (.of_runs hu.command hr)

theorem Segment.finish {ys zs : List Byte} {e : ErrCode} {s : State} {P : State → Prop} (h : Segment ys s P)
    (hnext : ∀ u, Appends ys s u → P u → Finish zs e u) : Finish (ys ++ zs) e s :=
  Emission.trans h id fun u hu ⟨hr, hP⟩ =>
    (hnext u hu hP).mono (fun _ _ hr' => hr.trans hr') (.of_runs hu.command hr)

theorem Segment.mono {zs : List Byte} {s : State} {P Q : State → Prop} (h : Segment zs s P)
    (hPQ : ∀ u, Appends zs s u → P u → Q u) : Segment zs s Q :=
  Emission.mono h (fun u hu ⟨hr, hP⟩ => ⟨hr, hPQ u hu hP⟩) id

/-- Nothing is to be done. -/
theorem Segment.refl {s : State} {P : State → Prop} (hs : Active s) (hP : P s) : Segment [] s P :=
  Emission.nothing (.refl hs.quiet) ⟨.refl s, hP⟩

/-- Engine steps that write nothing. -/
theorem Segment.of_runs {s t : State} {zs : List Byte} {P : State → Prop} (hr : Runs s t) (ht : Appends [] s t)
    (h : Segment zs t P) : Segment zs s P :=
  Segment.trans (Emission.nothing ht ⟨hr, rfl⟩ : Segment [] s (· = t)) fun _ _ he => he ▸ h

theorem Finish.of_runs {s t : State} {zs : List Byte} {e : ErrCode} (hr : Runs s t) (ht : Appends [] s t)
    (h : Finish zs e t) : Finish zs e s :=
  Segment.finish (Emission.nothing ht ⟨hr, rfl⟩ : Segment [] s (· = t)) fun _ _ he => he ▸ h

/-- The command ends at once. -/
theorem Finish.now {s t : State} {e : ErrCode} (ht : Appends [] s t) (hstep : step s = .next (complete e t)) :
    Finish [] e s :=
  Emission.nothing ht (.step hstep)

/-- One engine step that is a piece of a body. -/
theorem Segment.of_step {s : State} {zs : List Byte} {x : Body Unit} {P : State → Prop} (hs : Active s)
    (hstep : step s = .next (settle x)) (hx : x.Emits zs s fun _ u => P u) : Segment zs s P := by
  refine Emission.mono hx (fun u _ ⟨a, ha, hP⟩ => ⟨.step ?_, hP⟩) fun ⟨u, hu, hc⟩ => .of_step hs hc ?_
  · rw [hstep, ha, settle_done]
  · rw [hstep, hu, settle_raised]

/-- One engine step that writes and ends the command. -/
theorem Finish.of_step {s : State} {zs : List Byte} {e : ErrCode} {α : Type} {x : Body α} {P : α → State → Prop}
    (hs : Active s) (hstep : step s = .next (settle (x.bind fun _ u => .done () (complete e u))))
    (hx : x.Emits zs s P) : Finish zs e s := by
  refine Emission.mono hx (fun u _ ⟨a, ha, _⟩ => .step ?_) fun ⟨u, hu, hc⟩ => .of_step hs hc ?_
  · rw [hstep, ha, Body.bind_done, settle_done]
  · rw [hstep, hu, Body.bind_raised, settle_raised]

/-! ### What a command ends with -/

/-- A body that writes an artifact from its start (R101). -/
theorem Finish.encodes {art : List Byte} {t : State} (ht : Started t) (h : Finish art .success t) :
    Ends (EncodesTo t.status.codec art t t) t := by
  have hpos := ht.outPos
  rcases Nat.lt_or_ge t.params.outSize art.length with hlt | hroom
  · obtain ⟨u, hr, hf⟩ := h.2 (by omega) (by omega)
    exact ⟨u, hr, .of_full (List.prefix_refl _) hlt hf⟩
  · obtain ⟨u, hu, hr⟩ := h.1 (by omega)
    exact ⟨_, hr, .of_wrote (hu.wrote ht hroom)⟩

/-- A body that decodes an artifact from its start (R101, R237). -/
theorem Finish.decodes {d : Reference.Decoded} {t : State} (ht : Started t) (h : Finish d.out d.err t) :
    Ends (DecodesTo t.status.codec d t t) t := by
  have hpos := ht.outPos
  rcases Nat.lt_or_ge t.params.outSize d.out.length with hlt | hroom
  · obtain ⟨u, hr, hf⟩ := h.2 (by omega) (by omega)
    exact ⟨u, hr, .of_full (List.prefix_refl _) hlt hf⟩
  · obtain ⟨u, hu, hr⟩ := h.1 (by omega)
    refine ⟨_, hr, ?_⟩
    obtain ⟨out, err⟩ := d
    by_cases he : err = .success
    · subst he
      exact .of_wrote (hu.wrote ht hroom)
    · exact .of_error he hroom (hu.command.failed ht.busy he)

end Sys2Proof.Machine

/-! ## Huffman: single elements of an artifact -/

namespace Sys2Proof.Machine

open Sys2Proof

/-- The engine's step in each phase of the Huffman codec. -/
theorem runPhase_hufCount {s : State} (hp : s.phase = .hufCount) : runPhase exec s = .next (settle (hufCountStep s)) := by
  simp only [runPhase, hp]

theorem runPhase_hufBuild {s : State} (hp : s.phase = .hufBuild) : runPhase exec s = hufBuildStep s := by
  simp only [runPhase, hp]

theorem runPhase_hufCodes {s : State} (hp : s.phase = .hufCodes) : runPhase exec s = hufCodesStep s := by
  simp only [runPhase, hp]

theorem runPhase_hufTree {s : State} (hp : s.phase = .hufTree) : runPhase exec s = hufTreeStep s := by
  simp only [runPhase, hp]

theorem runPhase_hufBody {s : State} (hp : s.phase = .hufBody) : runPhase exec s = .next (settle (hufBodyStep s)) := by
  simp only [runPhase, hp]

theorem runPhase_hufHeader {s : State} (hp : s.phase = .hufHeader) :
    runPhase exec s = runWhileInput exec fetchHufHeader s := by
  simp only [runPhase, hp]

theorem runPhase_hufParse {s : State} (hp : s.phase = .hufParse) :
    runPhase exec s = runFetched exec (fetchHufNode s) := by
  simp only [runPhase, hp]

theorem runPhase_hufExtent {s : State} (hp : s.phase = .hufExtent) :
    runPhase exec s = runFetched exec (fetchHufTrailing s) := by
  simp only [runPhase, hp]

theorem runPhase_hufWalk {s : State} (hp : s.phase = .hufWalk) : runPhase exec s = hufWalkStep s := by
  simp only [runPhase, hp]

/-! ### The single-symbol header -/

theorem repeatSymbol_corrupt {h : Byte} {s : State} (hbad : 5 < s.srcCount ∨ h ≠ 0#8) (c : Byte) (count : Nat) :
    repeatSymbol h c count s = .raised .corruptStream s := by
  unfold repeatSymbol
  split
  · rfl
  next hlen => rw [if_pos (hbad.resolve_left hlen)]

/-- A header of the right length and with a byte's character writes its symbol `count` times and completes (R181). -/
theorem repeatSymbol_repeats {s : State} (hlen : s.srcCount ≤ 5) (c : Byte) (count : Nat) :
    repeatSymbol 0#8 c count s
      = (emitAll (List.replicate count c) s).bind fun _ s1 => .done () (complete .success s1) := by
  rw [repeatSymbol, if_neg (Nat.not_lt.mpr hlen), if_neg (not_not_intro rfl), emitRepeat_eq_emitAll]

/-- Settles O46: the copies are one emission, and a success keeps OUT. -/
theorem huffmanSingleRepeatsSymbol : Obligations.HuffmanSingleRepeatsSymbol := by
  intro c n s hq hlen hroom
  obtain ⟨u, hu, ⟨⟩, hemit, frame⟩ := (emitAll_emits hq (List.replicate n.toNat c)).1 (by simpa using hroom)
  have hout : ∀ a, (complete .success u).outByteAt a = u.outByteAt a := complete_outByteAt (.inl rfl)
  refine ⟨complete .success u, ?_, ?_, ?_, by simp, fun j hj => ?_, fun a ha => ?_, ?_⟩
  · rw [exec, execHuffmanSingle, repeatSymbol_repeats hlen, hemit]
    rfl
  · rw [complete_status, hu.command.status]
  · rw [complete_outLen, if_pos rfl, hu.cursor, List.length_replicate]
  · rw [hout, hu.outByteAt_inside (by simpa using hj)]
    simp [hj]
  · rw [hout, hu.outByteAt_outside (by simpa using ha)]
  · rw [frame]
    simp

/-! ### Elements that change the parse -/

theorem fetchHufNode_full {s : State} (h : s.huf.nodes = nodeMax) : fetchHufNode s = .raised .corruptStream s :=
  if_pos h.ge

theorem setWidth_setWidth_byte (c : Byte) : (c.setWidth 16).setWidth 8 = c := by
  apply BitVec.eq_of_toNat_eq
  simp

/-- A leaf up to 0xFF is a complete subtree (R182). -/
theorem exec_huffmanTreeLeaf {x : Half} (h : x.toNat ≤ 0xFF) (s : State) :
    exec (.huffmanTreeLeaf x) s = .next
      (afterNode
        (returnNode s.huf.frames s.huf.arena.length
          { s.huf with arena := s.huf.arena ++ [.leaf (x.setWidth 8) 0 0] }) s) := by
  simp only [exec, execHuffmanTreeLeaf, if_neg (Nat.not_lt.mpr h)]

theorem exec_huffmanTreeLeaf_corrupt {x : Half} (h : 0xFF < x.toNat) (s : State) :
    exec (.huffmanTreeLeaf x) s = .next (complete .corruptStream s) := by
  simp only [exec, execHuffmanTreeLeaf, if_pos h]

theorem exec_huffmanTrailing_corrupt {sig : Byte} {s : State}
    (h : sig.toNat < 1 ∨ 8 < sig.toNat ∨ bodyBytes s = 0) :
    exec (.huffmanTrailing sig) s = .next (complete .corruptStream s) := by
  simp only [exec, execHuffmanTrailing]
  split
  · rfl
  next hsig => rw [if_pos ((h.resolve_left fun h1 => hsig (.inl h1)).resolve_left fun h8 => hsig (.inr h8))]

/-- The state in which the walk of a body starts (R183). -/
def startWalk (sig : Byte) (s : State) : State :=
  { s with
    huf := { s.huf with bitsLeft := 8 * (bodyBytes s - 1) + sig.toNat, cur := s.huf.root }
    phase := .hufWalk }

theorem exec_huffmanTrailing {sig : Byte} {s : State} (h1 : 1 ≤ sig.toNat) (h8 : sig.toNat ≤ 8)
    (hbody : bodyBytes s ≠ 0) : exec (.huffmanTrailing sig) s = .next (startWalk sig s) := by
  have hsig : ¬ (sig.toNat < 1 ∨ 8 < sig.toNat) := by omega
  simp only [exec, execHuffmanTrailing, if_neg hsig, if_neg hbody, startWalk]

/-- The whole tree is one node or returns at the root: the reader moves to a byte boundary (R156, R180). -/
theorem afterNode_done (h : HufWork) (s : State) :
    afterNode (h, true) s =
      { s with
        huf := h
        reader :=
          { s.reader with
            rbyte := if 0 < s.reader.rbit then s.reader.rbyte + 1 else s.reader.rbyte
            rbit := 0 }
        phase := .hufExtent } := by
  rw [afterNode, if_pos rfl, alignRead]
  split
  · rfl
  next hbit =>
    have hzero : s.reader.rbit = 0 := Nat.eq_zero_of_not_pos hbit
    rw [← hzero]

theorem afterNode_more (h : HufWork) (s : State) : afterNode (h, false) s = { s with huf := h } := rfl

/-- Settles O48: each element's effect is written out by its own equation, the leaf's by what its parent waits for. -/
theorem huffmanTreeElementsParse : Obligations.HuffmanTreeElementsParse := by
  refine fun s => ⟨rfl, rfl, fun sig h1 h8 hbody => ?_, fun c => ⟨_, exec_huffmanTreeLeaf ?_ s, ?_, ?_, ?_⟩⟩
  · have hbytes : bodyBytes s - 1 = s.srcCount - s.reader.rbyte - 2 := by
      unfold bodyBytes
      omega
    rw [exec_huffmanTrailing h1 h8 (by unfold bodyBytes; omega), startWalk, hbytes]
  · have hc := c.isLt
    rw [BitVec.toNat_setWidth]
    omega
  · intro fs hfs
    rw [hfs, returnNode, afterNode_more, setWidth_setWidth_byte]
  · intro l fs hfs
    rw [hfs, returnNode, returnNode, afterNode_more, setWidth_setWidth_byte, List.append_assoc, List.length_append]
    rfl
  · intro hfs
    rw [hfs, returnNode, afterNode_done, setWidth_setWidth_byte, ← hfs]

/-! ### The causes of CorruptStream -/

theorem hufWalkStep_ended {s : State} (h0 : s.huf.bitsLeft = 0) (hcur : s.huf.cur ≠ s.huf.root) :
    hufWalkStep s = .next (complete .corruptStream s) := by
  rw [hufWalkStep, if_pos h0, if_neg hcur]

/-- A body bit taken at a leaf (R184). -/
theorem hufWalkStep_leaf {s s1 : State} {b : Bool} {c : Byte} {f q : Nat} (h0 : s.huf.bitsLeft ≠ 0)
    (hread : readBit s = .done b s1) (hleaf : s1.huf.arena[s1.huf.cur]? = some (.leaf c f q)) :
    hufWalkStep s
      = .next (complete .corruptStream { s1 with huf := { s1.huf with bitsLeft := s1.huf.bitsLeft - 1 } }) := by
  simp only [hufWalkStep, if_neg h0, hread, takeBit, hleaf]

/-- Settles O47: each cause completes a running command with CorruptStream. -/
theorem huffmanCorruptElementsFail : Obligations.HuffmanCorruptElementsFail := by
  have fails : ∀ {s : State}, s.status.busy = true → FailedInBody .corruptStream s (complete .corruptStream s) :=
    complete_failedInBody (by decide)
  refine ⟨fun s hb => ⟨fun h c n hbad => ⟨_, ?_, fails hb⟩, fun x hx => ⟨_, exec_huffmanTreeLeaf_corrupt hx s, fails hb⟩,
    fun f => ⟨_, rfl, fails hb⟩, fun sig hsig => ⟨_, exec_huffmanTrailing_corrupt ?_, fails hb⟩, fun hmax => ?_⟩,
    fun s hinv hin hp => ?_⟩
  · rw [exec, execHuffmanSingle, repeatSymbol_corrupt hbad, settle_raised]
  · unfold bodyBytes
    omega
  · refine ⟨fetchHufNode_full hmax, fun hin hp => ⟨_, ?_, fails hb⟩⟩
    rw [step_running hin hb, runPhase_hufParse hp, fetchHufNode_full hmax, runFetched]
  · have hb : s.status.busy = true := hinv.registers.busyPhase.mpr (by simp [hp])
    have hstep : step s = hufWalkStep s := (step_running hin hb).trans (runPhase_hufWalk hp)
    refine ⟨fun h0 hcur => ⟨_, hstep.trans (hufWalkStep_ended h0 hcur), fails hb⟩, fun c f q b s1 h0 hleaf hread => ?_⟩
    obtain ⟨hframe, _⟩ := readBit_done hread hinv.huf.rbit
    have hhuf : s1.huf = s.huf := (congrArg State.huf hframe :)
    have hstatus : s1.status = s.status := (congrArg State.status hframe :)
    exact ⟨_, hstep.trans (hufWalkStep_leaf h0 hread (by rwa [hhuf])), by simp [hstatus], by simp, by simp⟩

end Sys2Proof.Machine

/-! ## Huffman: the queue and one turn of the tree build -/

namespace Sys2Proof.Machine

open Sys2Proof

/-- The lexicographic order of the queue's keys (R49). -/
theorem keyLess_iff (a b : Nat × Nat) : keyLess a b = true ↔ a.1 < b.1 ∨ a.1 = b.1 ∧ a.2 < b.2 := by
  simp [keyLess]

theorem keyLess_eq_false_iff (a b : Nat × Nat) : keyLess a b = false ↔ b.1 < a.1 ∨ b.1 = a.1 ∧ b.2 ≤ a.2 := by
  rw [Bool.eq_false_iff, Ne, keyLess_iff]
  omega

theorem keyLess_irrefl (a : Nat × Nat) : keyLess a a = false :=
  (keyLess_eq_false_iff a a).mpr (.inr ⟨rfl, Nat.le_refl _⟩)

theorem keyLess_asymm {a b : Nat × Nat} (h : keyLess a b = true) : keyLess b a = false := by
  rw [keyLess_iff] at h
  rw [keyLess_eq_false_iff]
  omega

/-- What is not less than a key is not less than a key below it. -/
theorem keyLess_false_trans {a b c : Nat × Nat} (h1 : keyLess a b = false) (h2 : keyLess b c = false) :
    keyLess a c = false := by
  rw [keyLess_eq_false_iff] at h1 h2 ⊢
  omega

/-- `n` stands at index `i`, and no node of the queue has a smaller key (R49). -/
def LeastAt (arena : List Node) (queue : List Nat) (i : Nat) (n : Node) : Prop :=
  arena[i]? = some n ∧ ∀ j ∈ queue, ∀ m, arena[j]? = some m → keyLess m.key n.key = false

/-- `ExtractMin` takes an entry with the least key (R49). -/
theorem extractMin_least {arena : List Node} {queue rest : List Nat} {a : Nat}
    (h : extractMin arena queue = some (a, rest)) : ∃ n, LeastAt arena queue a n := by
  induction queue generalizing a rest with
  | nil => cases h
  | cons i q ih =>
    have hself : ∀ {n m : Node}, arena[i]? = some n → arena[i]? = some m → m = n := fun hn hm =>
      Option.some.inj (hm.symm.trans hn)
    unfold extractMin at h
    split at h
    · cases h
    next n hn =>
      split at h
      · cases h
        refine ⟨n, hn, fun j hj m hm => ?_⟩
        obtain rfl := List.mem_singleton.mp hj
        rw [hself hn hm]
        exact keyLess_irrefl _
      · split at h
        · cases h
        next j q' hmin =>
          obtain ⟨m, hm, hleast⟩ := ih hmin
          rw [hm] at h
          simp only at h
          split at h
          next hless =>
            cases h
            refine ⟨m, hm, List.forall_mem_cons.mpr ⟨fun k hk => ?_, hleast⟩⟩
            rw [hself hn hk]
            exact keyLess_asymm hless
          next hless =>
            cases h
            refine ⟨n, hn, List.forall_mem_cons.mpr ⟨fun k hk => ?_, fun j hj k hk => ?_⟩⟩
            · rw [hself hn hk]
              exact keyLess_irrefl _
            · exact keyLess_false_trans (hleast j hj k hk) (Bool.eq_false_of_not_eq_true hless)

/-- `ExtractMin` on a nonempty queue of nodes (R49). -/
theorem extractMin_spec {arena : List Node} {queue : List Nat} (hne : queue ≠ []) (hq : ∀ i ∈ queue, i < arena.length) :
    ∃ a rest n, extractMin arena queue = some (a, rest) ∧ (a :: rest).Perm queue ∧ LeastAt arena queue a n := by
  obtain ⟨a, rest, hmin⟩ := extractMin_some hne hq
  obtain ⟨n, hleast⟩ := extractMin_least hmin
  exact ⟨a, rest, n, hmin, extractMin_perm hmin, hleast⟩

/-- Two nodes or more: the two least are merged (R175). -/
theorem hufBuildStep_merges {s : State} {a b : Nat} {q q' : List Nat} {na nb : Node}
    (h1 : extractMin s.huf.arena s.huf.queue = some (a, q)) (hq : q ≠ [])
    (h2 : extractMin s.huf.arena q = some (b, q')) (ha : s.huf.arena[a]? = some na)
    (hb : s.huf.arena[b]? = some nb) : hufBuildStep s = .next { s with huf := mergeNodes a b q' na nb s.huf } := by
  obtain ⟨k, ks, rfl⟩ := List.exists_cons_of_ne_nil hq
  simp only [hufBuildStep, h1, h2, ha, hb]

/-- One node: it is the root, and `GenCodes` starts there (R175, R176). -/
theorem hufBuildStep_root {s : State} {a : Nat} (hq : s.huf.queue = [a]) (ha : a < s.huf.arena.length) :
    hufBuildStep s
      = .next { s with huf := { s.huf with root := a, codeTodo := [(a, [])] }, phase := .hufCodes } := by
  have hmin : extractMin s.huf.arena s.huf.queue = some (a, []) := by
    rw [hq]
    simp only [extractMin, List.getElem?_eq_getElem ha]
  simp only [hufBuildStep, hmin]

/-- The turn of the tree build on a queue of two nodes or more. -/
theorem hufBuildStep_least {s : State} (hq : ∀ i ∈ s.huf.queue, i < s.huf.arena.length) (h2 : 2 ≤ s.huf.queue.length) :
    ∃ a b na nb q, (a :: b :: q).Perm s.huf.queue ∧ LeastAt s.huf.arena s.huf.queue a na
      ∧ LeastAt s.huf.arena (b :: q) b nb
      ∧ hufBuildStep s = .next { s with huf := mergeNodes a b q na nb s.huf } := by
  obtain ⟨a, q, na, hmin, hperm, hleast⟩ := extractMin_spec (List.ne_nil_of_length_pos (by omega)) hq
  have hlen := hperm.length_eq
  rw [List.length_cons] at hlen
  have hne : q ≠ [] := List.ne_nil_of_length_pos (by omega)
  obtain ⟨b, q', nb, hmin', hperm', hleast'⟩ := extractMin_spec hne (extractMin_inside hmin hq).2
  refine ⟨a, b, na, nb, q', (hperm'.cons a).trans hperm, hleast, ⟨hleast'.1, fun j hj => ?_⟩,
    hufBuildStep_merges hmin hne hmin' hleast.1 hleast'.1⟩
  exact hleast'.2 j (hperm'.mem_iff.mp hj)

/-- Settles O44: `ExtractMin` is applied twice, then the merged node joins the arena and the queue. -/
theorem buildStepMergesTwoLeast : Obligations.BuildStepMergesTwoLeast := by
  have indices : ∀ {s : State}, Inv s → s.inputs = [] → s.phase = .hufBuild →
      (∀ i ∈ s.huf.queue, i < s.huf.arena.length) ∧ step s = hufBuildStep s := fun {s} hinv hin hp =>
    have hb : s.status.busy = true := hinv.registers.busyPhase.mpr (by simp [hp])
    ⟨hinv.huf.queue (.inr hp), (step_running hin hb).trans (runPhase_hufBuild hp)⟩
  refine ⟨keyLess_iff, fun _ _ _ _ _ => ⟨rfl, rfl⟩, fun arena q hne hq => ?_, fun s hinv hin hp h2 => ?_,
    fun s a hinv hin hp hqueue => ?_⟩
  · obtain ⟨a, rest, n, hmin, hperm, hnode, hleast⟩ := extractMin_spec hne hq
    exact ⟨a, rest, n, hmin, hperm, hnode, hleast⟩
  · obtain ⟨hq, hstep⟩ := indices hinv hin hp
    obtain ⟨a, b, na, nb, q, hperm, ⟨hna, hleast⟩, ⟨hnb, hleast'⟩, hturn⟩ := hufBuildStep_least hq h2
    exact ⟨a, b, na, nb, q, hna, hnb, hperm, hleast, hleast', hstep.trans hturn⟩
  · obtain ⟨hq, hstep⟩ := indices hinv hin hp
    exact hstep.trans (hufBuildStep_root hqueue (hq a (by simp [hqueue])))

end Sys2Proof.Machine

/-! ## Huffman: bits written over many steps

Between two steps the writer holds the bits of an unfinished byte. A string put after the bits `p` emits the whole bytes of
`p ++ bits` and leaves the rest held; a flush emits that rest (R151, R152). -/

namespace Sys2Proof.Machine

open Sys2Proof

theorem packBits_add (m n : Nat) (bits : List Bool) :
    packBits (m + n) bits = packBits m bits ++ packBits n (bits.drop (8 * m)) := by
  induction m generalizing bits with
  | zero => rw [Nat.zero_add, Nat.mul_zero, List.drop_zero]; rfl
  | succ m ih =>
    rw [Nat.add_right_comm, packBits_succ, packBits_succ, ih, List.drop_drop, Nat.mul_succ, Nat.add_comm 8,
      List.cons_append]

/-- Bytes packed from a string's whole bytes do not depend on what follows. -/
theorem packBits_append_of_le {n : Nat} {xs : List Bool} (h : 8 * n ≤ xs.length) (ys : List Bool) :
    packBits n (xs ++ ys) = packBits n xs := by
  induction n generalizing xs with
  | zero => rfl
  | succ n ih =>
    have hbyte : packByte (xs ++ ys) = packByte xs := by
      rw [← packByte_take, List.take_append_of_le_length (by omega), packByte_take]
    rw [packBits_succ, packBits_succ, hbyte, List.drop_append_of_le_length (by omega),
      ih (by rw [List.length_drop]; omega)]

/-- The whole bytes of a string. -/
def wholeBytes (bits : List Bool) : List Byte := packBits (bits.length / 8) bits

/-- The bits after a string's whole bytes. -/
def heldBits (bits : List Bool) : List Bool := bits.drop (8 * (bits.length / 8))

theorem heldBits_length (bits : List Bool) : (heldBits bits).length = bits.length % 8 := by
  rw [heldBits, List.length_drop]
  omega

theorem heldBits_length_lt (bits : List Bool) : (heldBits bits).length < 8 := by
  rw [heldBits_length]
  omega

theorem wholeBytes_short {bits : List Bool} (h : bits.length < 8) : wholeBytes bits = [] := by
  rw [wholeBytes, Nat.div_eq_of_lt h]
  rfl

theorem heldBits_short {bits : List Bool} (h : bits.length < 8) : heldBits bits = bits := by
  rw [heldBits, Nat.div_eq_of_lt h, Nat.mul_zero, List.drop_zero]

theorem heldBits_append (xs ys : List Bool) : heldBits (xs ++ ys) = heldBits (heldBits xs ++ ys) := by
  have hdrop : heldBits xs ++ ys = (xs ++ ys).drop (8 * (xs.length / 8)) := by
    rw [heldBits, List.drop_append_of_le_length (by omega)]
  have hlen : 8 * ((xs ++ ys).length / 8)
      = 8 * (xs.length / 8) + 8 * (((xs ++ ys).length - 8 * (xs.length / 8)) / 8) := by
    rw [List.length_append]
    omega
  rw [hdrop, heldBits, heldBits, List.drop_drop, List.length_drop, hlen]

theorem wholeBytes_append (xs ys : List Bool) :
    wholeBytes (xs ++ ys) = wholeBytes xs ++ wholeBytes (heldBits xs ++ ys) := by
  have hdrop : heldBits xs ++ ys = (xs ++ ys).drop (8 * (xs.length / 8)) := by
    rw [heldBits, List.drop_append_of_le_length (by omega)]
  have hcount : (xs ++ ys).length / 8 = xs.length / 8 + (heldBits xs ++ ys).length / 8 := by
    rw [List.length_append, List.length_append, heldBits_length]
    omega
  rw [wholeBytes, hcount, packBits_add, packBits_append_of_le (by omega), ← hdrop, ← wholeBytes, ← wholeBytes]

/-- The whole bytes and the flushed rest are the packed string (R152). -/
theorem packed_eq_whole_held (bits : List Bool) :
    Reference.packed bits = wholeBytes bits ++ Reference.packed (heldBits bits) := by
  have hcount : Reference.byteCount bits = bits.length / 8 + Reference.byteCount (heldBits bits) := by
    rw [Reference.byteCount, Reference.byteCount, heldBits_length]
    omega
  rw [Reference.packed, hcount, packBits_add, ← wholeBytes, ← heldBits, ← Reference.packed]

theorem packed_length (bits : List Bool) : (Reference.packed bits).length = (bits.length + 7) / 8 := packBits_length _ _

/-- A bit of the string that fills a byte. -/
theorem wholeBytes_filled {p : List Bool} {b : Bool} (hp : p.length = 7) (bits : List Bool) :
    wholeBytes (p ++ b :: bits) = [packByte (p ++ [b])] ++ wholeBytes bits
      ∧ heldBits (p ++ b :: bits) = heldBits bits := by
  have hlen : (p ++ [b]).length = 8 := by simp [hp]
  have hwhole : wholeBytes (p ++ [b]) = [packByte (p ++ [b])] := by
    rw [wholeBytes, hlen]
    rfl
  have hheld : heldBits (p ++ [b]) = [] := List.length_eq_zero_iff.mp (by rw [heldBits_length, hlen])
  rw [List.append_cons, wholeBytes_append, heldBits_append (p ++ [b]), hwhole, hheld, List.nil_append]
  exact ⟨rfl, rfl⟩

/-! ### The writer's operations as emissions -/

/-- Only the bit writer, OUT and the draws have changed. -/
def BitsFrame (s t : State) : Prop :=
  t = { s with writer := t.writer, outMem := t.outMem, outPos := t.outPos, env := t.env }

theorem BitsFrame.refl (s : State) : BitsFrame s s := rfl

theorem BitsFrame.withWriter (s : State) (w : BitWriter) : BitsFrame s { s with writer := w } := rfl

theorem BitsFrame.trans {s t u : State} (h1 : BitsFrame s t) (h2 : BitsFrame t u) : BitsFrame s u := by
  unfold BitsFrame at *
  rw [h2, h1]

theorem EmitFrame.bitsFrame {s t : State} (h : EmitFrame s t) : BitsFrame s t := by
  unfold EmitFrame at h
  unfold BitsFrame
  rw [h]

theorem BitsFrame.phase {s t : State} (h : BitsFrame s t) : t.phase = s.phase := (congrArg State.phase h :)
theorem BitsFrame.huf {s t : State} (h : BitsFrame s t) : t.huf = s.huf := (congrArg State.huf h :)
theorem BitsFrame.inPos {s t : State} (h : BitsFrame s t) : t.inPos = s.inPos := (congrArg State.inPos h :)

/-- After the bits `p`, the bits `bits` are put: their whole bytes are emitted and the rest is held (R151). -/
theorem putBits_emits (bits : List Bool) {p : List Bool} {s : State} (hq : s.Quiet) (hw : s.writer = .holding p)
    (hp : p.length < 8) :
    (putBits bits s).Emits (wholeBytes (p ++ bits)) s fun _ u =>
      u.writer = .holding (heldBits (p ++ bits)) ∧ BitsFrame s u := by
  induction bits generalizing p s with
  | nil =>
    rw [List.append_nil, wholeBytes_short hp, heldBits_short hp]
    exact Emission.nothing (.refl hq) ⟨(), rfl, hw, rfl⟩
  | cons b bits ih =>
    rw [putBits]
    rcases Nat.lt_or_eq_of_le (Nat.le_of_lt_succ hp) with hlt | hfull
    · have hheld := ih (p := p ++ [b]) (s := { s with writer := .holding (p ++ [b]) }) hq rfl (by simp; omega)
      rw [List.append_assoc, List.singleton_append] at hheld
      rw [putBit_held hw hlt, Body.bind_done]
      refine Body.Emits.after (s0 := { s with writer := .holding (p ++ [b]) }) (.nothing rfl rfl rfl hq) ?_
      exact hheld.mono fun _ u _ ⟨hwriter, frame⟩ => ⟨hwriter, (BitsFrame.withWriter s _).trans frame⟩
    · rw [putBit_fills hw hfull]
      obtain ⟨hwhole, hheld⟩ := wholeBytes_filled (b := b) hfull bits
      rw [hwhole, hheld]
      refine Body.Emits.after (s0 := { s with writer := .holding (p ++ [b]) }) (.nothing rfl rfl rfl hq) ?_
      refine Body.Emits.bind (P := fun _ u => u.writer = BitWriter.init ∧ BitsFrame s u) ?_ fun _ u hu ⟨hwriter, frame⟩ => ?_
      · exact (emit_emits (s := { s with writer := .holding (p ++ [b]) }) hq _).map (g := fun _ => ()) fun _ u hu frame =>
          ⟨.nothing rfl rfl rfl hu.quiet, rfl,
            ((BitsFrame.withWriter s _).trans frame.bitsFrame).trans (.withWriter u _)⟩
      · exact (ih (p := []) hu.quiet hwriter (by decide)).mono fun _ v _ ⟨hwriter', frame'⟩ =>
          ⟨hwriter', frame.trans frame'⟩

/-- The number of significant bits a flush answers (R152). -/
def lastBits (p : List Bool) : Nat := if p = [] then 8 else p.length

/-- Of a whole string it is what the last byte holds of it. -/
theorem lastBits_heldBits {bits : List Bool} (h : bits ≠ []) :
    lastBits (heldBits bits) = bits.length - 8 * ((bits.length + 7) / 8 - 1) := by
  have hpos := List.length_pos_of_ne_nil h
  have hlen := heldBits_length bits
  rw [lastBits]
  split
  next hnil =>
    rw [hnil, List.length_nil] at hlen
    omega
  next hne =>
    have := List.length_pos_of_ne_nil hne
    omega

/-- The flush emits what is held, padded to a byte (R152). -/
theorem flushBits_emits {p : List Bool} {s : State} (hq : s.Quiet) (hw : s.writer = .holding p) (hp : p.length < 8) :
    (flushBits s).Emits (Reference.packed p) s fun sig u =>
      sig = lastBits p ∧ u.writer = BitWriter.init ∧ BitsFrame s u := by
  by_cases hnil : p = []
  · subst hnil
    rw [flushBits_empty hw]
    exact Emission.nothing (.refl hq) ⟨8, rfl, rfl, hw, rfl⟩
  · have hpacked : Reference.packed p = [packByte p] := by
      rw [packed_of_ne_nil hnil, List.drop_eq_nil_of_le hp.le]
      rfl
    have hsig : lastBits p = p.length := if_neg hnil
    rw [flushBits_held hw hnil, hpacked, hsig]
    exact (emit_emits hq _).map (g := fun _ => p.length) fun _ u hu frame =>
      ⟨.nothing rfl rfl rfl hu.quiet, rfl, rfl, frame.bitsFrame.trans (.withWriter u _)⟩

end Sys2Proof.Machine

/-! ## Huffman: the compressor's tree section and body -/

namespace Sys2Proof.Machine

open Sys2Proof Sys2Proof.Reference

/-! ### The code table -/

/-- The code table after the codes of a list have been recorded in order (R176). -/
def recordCodes (codes : List (Option (List Bool))) (paths : List (Byte × List Bool)) : List (Option (List Bool)) :=
  paths.foldl (fun cs e => cs.set e.1.toNat (some e.2)) codes

theorem recordCodes_cons (codes : List (Option (List Bool))) (e : Byte × List Bool) (paths : List (Byte × List Bool)) :
    recordCodes codes (e :: paths) = recordCodes (codes.set e.1.toNat (some e.2)) paths := rfl

theorem recordCodes_append (codes : List (Option (List Bool))) (xs ys : List (Byte × List Bool)) :
    recordCodes codes (xs ++ ys) = recordCodes (recordCodes codes xs) ys := List.foldl_append

/-- A symbol that is not recorded keeps its entry. -/
theorem recordCodes_getD_other {c : Byte} {paths : List (Byte × List Bool)} (hc : c ∉ paths.map Prod.fst)
    (codes : List (Option (List Bool))) : (recordCodes codes paths).getD c.toNat none = codes.getD c.toNat none := by
  induction paths generalizing codes with
  | nil => rfl
  | cons e paths ih =>
    rw [List.map_cons, List.mem_cons, not_or] at hc
    obtain ⟨hne, hrest⟩ := hc
    have hindex : e.1.toNat ≠ c.toNat := fun h => hne (BitVec.eq_of_toNat_eq h).symm
    rw [recordCodes_cons, ih hrest, List.getD_eq_getElem?_getD, List.getElem?_set_ne hindex,
      ← List.getD_eq_getElem?_getD]

/-- Each recorded symbol has its code when the symbols are distinct (R48). -/
theorem recordCodes_getD {c : Byte} {p : List Bool} {paths : List (Byte × List Bool)}
    (hnodup : (paths.map Prod.fst).Nodup) (hmem : (c, p) ∈ paths) {codes : List (Option (List Bool))}
    (hlen : codes.length = 256) : (recordCodes codes paths).getD c.toNat none = some p := by
  induction paths generalizing codes with
  | nil => cases hmem
  | cons e paths ih =>
    rw [List.map_cons, List.nodup_cons] at hnodup
    obtain ⟨hnew, hnodup⟩ := hnodup
    rw [recordCodes_cons]
    rcases List.mem_cons.mp hmem with rfl | hmem
    · have hin : c.toNat < codes.length := hlen ▸ c.isLt
      rw [recordCodes_getD_other hnew, List.getD_eq_getElem?_getD, List.getElem?_set_self hin, Option.getD_some]
    · exact ih hnodup hmem (by rw [List.length_set, hlen])

/-! ### GenCodes -/

theorem Active.withHuf {s : State} (h : Active s) (w : HufWork) : Active { s with huf := w } :=
  ⟨h.busy, h.inputs, h.quiet⟩

/-- The nodes of a tree are visited in order, each leaf's path recorded (R176). -/
theorem genCodes_runs (tree : Tree) {s : State} {i : Nat} {p : List Bool} {todo : List (Nat × List Bool)}
    (hs : Active s) (hp : s.phase = .hufCodes) (htodo : s.huf.codeTodo = (i, p) :: todo)
    (hst : Stands s.huf.arena i tree) :
    Runs s { s with huf := { s.huf with codes := recordCodes s.huf.codes (tree.paths p), codeTodo := todo } } := by
  induction tree generalizing s i p todo with
  | leaf c =>
    obtain ⟨f, q, hnode⟩ := hst
    refine .step ((hs.step_phase.trans (runPhase_hufCodes hp)).trans ?_)
    simp only [hufCodesStep, htodo, hnode]
    rfl
  | node l r ihl ihr =>
    obtain ⟨f, a, b, q, hnode, hl, hr⟩ := hst
    have hdown : step s = .next
        { s with huf := { s.huf with codeTodo := (a, p ++ [false]) :: (b, p ++ [true]) :: todo } } := by
      rw [hs.step_phase, runPhase_hufCodes hp]
      simp only [hufCodesStep, htodo, hnode]
    have hleft := ihl
      (s := { s with huf := { s.huf with codeTodo := (a, p ++ [false]) :: (b, p ++ [true]) :: todo } })
      (hs.withHuf _) hp rfl hl
    have hright := ihr
      (s := { s with huf := { s.huf with codes := recordCodes s.huf.codes (l.paths (p ++ [false])),
                                         codeTodo := (b, p ++ [true]) :: todo } })
      (hs.withHuf _) hp rfl hr
    rw [Tree.paths, recordCodes_append]
    exact .of_step hdown (hleft.trans hright)

/-- `GenCodes` and the flag "false" after it (R170, R176). -/
theorem genCodes_segment {tree : Tree} {s : State} (hs : Active s) (hp : s.phase = .hufCodes)
    (hst : Stands s.huf.arena s.huf.root tree) (htodo : s.huf.codeTodo = [(s.huf.root, [])]) :
    Segment [0x00#8] s fun u => u.phase = .hufTree ∧ u.writer = BitWriter.init
      ∧ u.huf = { s.huf with codes := recordCodes s.huf.codes (tree.paths []), codeTodo := [], treeTodo := [s.huf.root] } := by
  refine .of_runs (genCodes_runs tree hs hp htodo hst) (.nothing rfl rfl rfl hs.quiet) ?_
  have hactive : Active { s with huf := { s.huf with codes := recordCodes s.huf.codes (tree.paths []), codeTodo := [] } } :=
    hs.withHuf _
  refine .of_step hactive (hactive.step_phase.trans (runPhase_hufCodes hp)) ?_
  refine (emitAll_emits hactive.quiet [0x00#8]).map (g := fun _ => ()) fun _ u hu frame => ?_
  refine ⟨.nothing rfl rfl rfl hu.quiet, rfl, rfl, ?_⟩
  rw [frame]

/-- Settles O49: the codes are recorded without a write, then the flag is emitted. -/
theorem genCodesRunRecordsPaths : Obligations.GenCodesRunRecordsPaths := by
  intro tree s hb hin hq hp hst htodo hlen hnodup hroom
  obtain ⟨u, hu, hrun, hphase, hwriter, hhuf⟩ := (genCodes_segment ⟨hb, hin, hq⟩ hp hst htodo).1 hroom
  refine ⟨u, hrun, hphase, hu.command.status, by rw [hhuf], by rw [hhuf], by rw [hhuf], hwriter, fun c p hmem => ?_,
    hu.cursor, hu.outByteAt_inside (j := 0) (Nat.succ_pos 0), fun a ha => hu.outByteAt_outside ?_⟩
  · rw [hhuf]
    exact recordCodes_getD hnodup hmem hlen
  · rw [List.length_singleton]
    omega

/-! ### SerializeTree -/

/-- The elements of a tree node as bits (R88). -/
theorem emitElement_internal (s : State) : emitElement .huffmanTreeInternal s = putBits [false] s := rfl

theorem emitElement_leaf (c : Byte) (s : State) :
    emitElement (.huffmanTreeLeaf (c.setWidth 16)) s = putBits (Reference.Tree.leaf c).preorder s := by
  have hc : (c.setWidth 16).toNat = c.toNat := by
    have := c.isLt
    rw [BitVec.toNat_setWidth]
    omega
  rw [emitElement, encode, emitCode, hc, Tree.preorder]

/-- One step of `SerializeTree` that puts `bits` and leaves `todo` to visit. -/
theorem serialize_step {s : State} {p bits : List Bool} {todo : List Nat} (hs : Active s) (hp : s.phase = .hufTree)
    (hw : s.writer = .holding p) (hlt : p.length < 8)
    (hstep : hufTreeStep s = .next (settle (putBits bits { s with huf := { s.huf with treeTodo := todo } }))) :
    Segment (wholeBytes (p ++ bits)) s fun u => u.phase = .hufTree ∧ u.writer = .holding (heldBits (p ++ bits))
      ∧ u.huf = { s.huf with treeTodo := todo } := by
  refine .of_step hs ((hs.step_phase.trans (runPhase_hufTree hp)).trans hstep) ?_
  refine Body.Emits.after (s0 := { s with huf := { s.huf with treeTodo := todo } }) (.nothing rfl rfl rfl hs.quiet) ?_
  exact (putBits_emits bits (s := { s with huf := { s.huf with treeTodo := todo } }) hs.quiet hw hlt).mono
    fun _ u _ ⟨hwriter, frame⟩ => ⟨frame.phase.trans hp, hwriter, frame.huf⟩

/-- The nodes of a tree are visited in order, and its preorder bits are put (R177). -/
theorem serialize_segment (tree : Tree) {s : State} {i : Nat} {p : List Bool} {todo : List Nat} (hs : Active s)
    (hp : s.phase = .hufTree) (htodo : s.huf.treeTodo = i :: todo) (hst : Stands s.huf.arena i tree)
    (hw : s.writer = .holding p) (hlt : p.length < 8) :
    Segment (wholeBytes (p ++ tree.preorder)) s fun u => u.phase = .hufTree
      ∧ u.writer = .holding (heldBits (p ++ tree.preorder)) ∧ u.huf = { s.huf with treeTodo := todo } := by
  induction tree generalizing s i p todo with
  | leaf c =>
    obtain ⟨f, q, hnode⟩ := hst
    refine serialize_step hs hp hw hlt ?_
    simp only [hufTreeStep, htodo, hnode, emitElement_leaf]
  | node l r ihl ihr =>
    obtain ⟨f, a, b, q, hnode, hl, hr⟩ := hst
    have hdown : hufTreeStep s
        = .next (settle (putBits [false] { s with huf := { s.huf with treeTodo := a :: b :: todo } })) := by
      simp only [hufTreeStep, htodo, hnode, emitElement_internal]
    have hbits : p ++ (Reference.Tree.node l r).preorder = (p ++ [false]) ++ (l.preorder ++ r.preorder) := by
      rw [Tree.preorder, List.append_assoc, List.singleton_append]
    rw [hbits, wholeBytes_append, heldBits_append (p ++ [false])]
    refine (serialize_step hs hp hw hlt hdown).trans fun u hu ⟨hp1, hw1, hh1⟩ => ?_
    rw [← List.append_assoc, wholeBytes_append, heldBits_append (heldBits (p ++ [false]) ++ l.preorder)]
    refine (ihl (todo := b :: todo) (hu.active hs) hp1 (by rw [hh1]) (by rw [hh1]; exact hl) hw1 (heldBits_length_lt _)).trans
      fun v hv ⟨hp2, hw2, hh2⟩ => ?_
    have hh : v.huf = { s.huf with treeTodo := b :: todo } := by rw [hh2, hh1]
    refine (ihr (todo := todo) (hv.active (hu.active hs)) hp2 (by rw [hh]) (by rw [hh]; exact hr) hw2 (heldBits_length_lt _)).mono
      fun w _ ⟨hp3, hw3, hh3⟩ => ⟨hp3, hw3, by rw [hh3, hh]⟩

/-- `SerializeTree` from its start, its flush, and the start of pass 2 (R170, R177). -/
theorem serializeTree_segment {tree : Tree} {s : State} (hs : Active s) (hp : s.phase = .hufTree)
    (hst : Stands s.huf.arena s.huf.root tree) (htodo : s.huf.treeTodo = [s.huf.root])
    (hw : s.writer = BitWriter.init) :
    Segment (packed tree.preorder) s fun u => u.phase = .hufBody ∧ u.inPos = 0 ∧ u.writer = BitWriter.init
      ∧ u.huf = { s.huf with treeTodo := [] } := by
  rw [packed_eq_whole_held]
  refine (serialize_segment tree (p := []) hs hp htodo hst hw (by decide)).trans fun u hu ⟨hp1, hw1, hh1⟩ => ?_
  have hflush : hufTreeStep u
      = .next (settle ((flushBits u).bind fun _ s1 => .done () { s1 with inPos := 0, phase := .hufBody })) := by
    simp only [hufTreeStep, hh1]
  refine .of_step (hu.active hs) (((hu.active hs).step_phase.trans (runPhase_hufTree hp1)).trans hflush) ?_
  refine (flushBits_emits hu.quiet hw1 (heldBits_length_lt _)).map (g := fun _ => ()) fun _ v hv ⟨_, hwriter, frame⟩ => ?_
  exact ⟨.nothing rfl rfl rfl hv.quiet, rfl, rfl, hwriter, frame.huf.trans hh1⟩

/-- Settles O50. -/
theorem serializeTreeRunWritesPreorder : Obligations.SerializeTreeRunWritesPreorder := by
  intro tree s hb hin hq hp hst htodo hw hroom
  rw [← packed_length] at hroom
  obtain ⟨u, hu, hrun, hphase, hpos, hwriter, hhuf⟩ := (serializeTree_segment ⟨hb, hin, hq⟩ hp hst htodo hw).1 hroom
  have hlen := packed_length tree.preorder
  refine ⟨u, hrun, hphase, hu.command.status, hpos, hwriter, by rw [hhuf], hlen ▸ hu.cursor, fun j hj => ?_,
    fun a ha => hu.outByteAt_outside (by rwa [hlen])⟩
  exact hu.outByteAt_inside (by rwa [hlen])

/-! ### Pass 2 -/

/-- The code of a symbol in the code table (R48). -/
def tableCodeOf (codes : List (Option (List Bool))) (c : Byte) : List Bool := (codes.getD c.toNat none).getD []

theorem codeOf_eq {c : Byte} {s : State} (h : s.huf.codes.getD c.toNat none ≠ none) :
    codeOf c s = (tableCodeOf s.huf.codes c, s) := by
  obtain ⟨code, hcode⟩ := Option.ne_none_iff_exists'.mp h
  rw [codeOf, tableCodeOf, hcode]
  rfl

/-- One byte of pass 2 puts its symbol's code (R178). -/
theorem body_step {s : State} {c : Byte} {cs : List Byte} {p : List Bool} (hs : Active s) (hz : s.hazards = [])
    (hp : s.phase = .hufBody) (hrest : s.rest = c :: cs) (hcode : s.huf.codes.getD c.toNat none ≠ none)
    (hw : s.writer = .holding p) (hlt : p.length < 8) :
    Segment (wholeBytes (p ++ tableCodeOf s.huf.codes c)) s fun u => u.phase = .hufBody
      ∧ u.writer = .holding (heldBits (p ++ tableCodeOf s.huf.codes c)) ∧ u.huf = s.huf ∧ u.rest = cs := by
  obtain ⟨hin, _, _⟩ := inputFrom_cons hrest
  obtain ⟨e, hread, hqe⟩ := inByte_inputFrom hs.quiet hz hrest
  have hturn : hufBodyStep s = (putBits (tableCodeOf s.huf.codes c) { s with env := e }).bind fun _ s2 =>
      .done () { s2 with inPos := s2.inPos + 1 } := by
    rw [hufBodyStep, if_pos hin, hread, Body.bind_done, codeOf_eq (s := { s with env := e }) hcode]
  have hstep := hs.step_phase.trans (runPhase_hufBody hp)
  rw [hturn] at hstep
  refine .of_step hs hstep (Body.Emits.after (s0 := { s with env := e }) (.nothing rfl rfl rfl hqe) ?_)
  refine (putBits_emits (tableCodeOf s.huf.codes c) (s := { s with env := e }) hqe hw hlt).map (g := fun _ => ())
    fun _ u hu ⟨hwriter, frame⟩ => ⟨.nothing rfl rfl rfl hu.quiet, frame.phase.trans hp, hwriter, frame.huf, ?_⟩
  have hcommand : SameCommand s { u with inPos := u.inPos + 1 } :=
    SameCommand.trans (s := { s with env := e }) rfl (SameCommand.trans hu.command rfl)
  have hinPos : u.inPos + 1 = s.inPos + 1 := congrArg (· + 1) frame.inPos
  rw [hcommand.rest_move hinPos, hrest]
  rfl

/-- Pass 2 over what is left of the input (R178). -/
theorem body_segment {xs : List Byte} {s : State} {p : List Bool} (hs : Active s) (hz : s.hazards = [])
    (hp : s.phase = .hufBody) (hrest : s.rest = xs) (hcodes : ∀ c ∈ xs, s.huf.codes.getD c.toNat none ≠ none)
    (hw : s.writer = .holding p) (hlt : p.length < 8) :
    Segment (wholeBytes (p ++ xs.flatMap (tableCodeOf s.huf.codes))) s fun u => u.phase = .hufBody
      ∧ u.writer = .holding (heldBits (p ++ xs.flatMap (tableCodeOf s.huf.codes))) ∧ u.rest = [] := by
  induction xs generalizing s p with
  | nil =>
    rw [List.flatMap_nil, List.append_nil, wholeBytes_short hlt, heldBits_short hlt]
    exact .refl hs ⟨hp, hw, hrest⟩
  | cons c cs ih =>
    obtain ⟨hcode, hcodes⟩ := List.forall_mem_cons.mp hcodes
    rw [List.flatMap_cons, ← List.append_assoc, wholeBytes_append, heldBits_append (p ++ _)]
    refine (body_step hs hz hp hrest hcode hw hlt).trans fun u hu ⟨hp1, hw1, hh1, hrest1⟩ => ?_
    rw [← hh1] at hcodes
    have hmore := ih (hu.active hs) (hu.command.hazards.trans hz) hp1 hrest1 hcodes hw1 (heldBits_length_lt _)
    rwa [hh1] at hmore

/-- The last byte's padding and the trailing byte complete the command (R88, R170). -/
theorem body_finish {s : State} {p : List Bool} (hs : Active s) (hp : s.phase = .hufBody) (hrest : s.rest = [])
    (hw : s.writer = .holding p) (hlt : p.length < 8) :
    Finish (packed p ++ [BitVec.ofNat 8 (lastBits p)]) .success s := by
  have hturn : hufBodyStep s
      = ((flushBits s).bind fun sig s1 => emitAll [BitVec.ofNat 8 sig] s1).bind fun _ u =>
          .done () (complete .success u) := by
    rw [hufBodyStep, if_neg (Nat.not_lt.mpr (inputFrom_nil hrest))]
    cases flushBits s <;> rfl
  have hstep := hs.step_phase.trans (runPhase_hufBody hp)
  rw [hturn] at hstep
  refine .of_step (P := fun _ _ => True) hs hstep ?_
  refine (flushBits_emits hs.quiet hw hlt).bind fun sig u hu ⟨hsig, _, _⟩ => ?_
  rw [hsig]
  exact (emitAll_emits hu.quiet _).mono fun _ _ _ _ => trivial

/-- The body section and the trailing byte of an artifact (R88). -/
def bodySection (bits : List Bool) : List Byte :=
  packed bits ++ [BitVec.ofNat 8 (bits.length - 8 * (byteCount bits - 1))]

/-- Pass 2 from its start (R170, R178). -/
theorem pass2_finish {xs : List Byte} {s : State} (hs : Active s) (hz : s.hazards = []) (hp : s.phase = .hufBody)
    (hrest : s.rest = xs) (hw : s.writer = BitWriter.init) (hcodes : ∀ c ∈ xs, s.huf.codes.getD c.toNat none ≠ none)
    (hne : xs.flatMap (tableCodeOf s.huf.codes) ≠ []) :
    Finish (bodySection (xs.flatMap (tableCodeOf s.huf.codes))) .success s := by
  rw [bodySection, packed_eq_whole_held, byteCount, ← lastBits_heldBits hne, List.append_assoc]
  exact (body_segment (p := []) hs hz hp hrest hcodes hw (by decide)).finish fun u hu ⟨hp1, hw1, hrest1⟩ =>
    body_finish (hu.active hs) hp1 hrest1 hw1 (heldBits_length_lt _)

theorem bodySection_length (bits : List Bool) : (bodySection bits).length = (bits.length + 7) / 8 + 1 := by
  rw [bodySection, List.length_append, packed_length, List.length_singleton]

/-- Settles O51. -/
theorem bodyRunWritesCodes : Obligations.BodyRunWritesCodes := by
  intro s bits hb hin hq hz hp hpos hw hcodes hbits hne hroom
  have hrest : s.rest = s.inBytes s.srcCount := by rw [State.rest, State.inputFrom, hpos, List.drop_zero]
  have hall : ∀ c ∈ s.inBytes s.srcCount, s.huf.codes.getD c.toNat none ≠ none := by
    intro c hc
    obtain ⟨k, hk, rfl⟩ := List.mem_map.mp hc
    exact hcodes k (List.mem_range.mp hk)
  have hsum : (s.inBytes s.srcCount).flatMap (tableCodeOf s.huf.codes) = bits := hbits.symm
  have hfinish := pass2_finish ⟨hb, hin, hq⟩ hz hp hrest hw hall (by rwa [hsum])
  rw [hsum] at hfinish
  have hlen := bodySection_length bits
  obtain ⟨u, hu, hrun⟩ := hfinish.1 (by rw [hlen]; exact hroom)
  have hout : ∀ a, (complete .success u).outByteAt a = u.outByteAt a := complete_outByteAt (.inl rfl)
  refine ⟨complete .success u, hrun, by rw [complete_status, hu.command.status], ?_, fun j hj => ?_, ?_, fun a ha => ?_⟩
  · rw [complete_outLen, if_pos rfl, hu.cursor, hlen, Nat.add_assoc]
  · rw [hout, hu.outByteAt_inside (by omega), bodySection, List.getD_append _ _ _ _ (by rwa [packed_length])]
    rfl
  · rw [hout, hu.outByteAt_inside (by omega), bodySection, List.getD_append_right _ _ _ _ (by rw [packed_length]),
      packed_length, Nat.sub_self]
    rfl
  · rw [hout, hu.outByteAt_outside (by omega)]

end Sys2Proof.Machine

/-! ## Huffman: the bits of the artifact that are left -/

namespace Sys2Proof.Reference

open Sys2Proof Sys2Proof.Machine

theorem bitsMsb_getElem (n v : Nat) {k : Nat} (h : k < (bitsMsb n v).length) :
    (bitsMsb n v)[k] = v.testBit (n - 1 - k) := by
  induction n generalizing k with
  | zero => cases h
  | succ n ih =>
    cases k with
    | zero => rfl
    | succ k =>
      have hk : k < (bitsMsb n v).length := by simpa [bitsMsb] using h
      have hindex : n + 1 - 1 - (k + 1) = n - 1 - k := by omega
      rw [hindex, ← ih hk]
      rfl

theorem streamBits_cons (b : Byte) (bs : List Byte) : streamBits (b :: bs) = bitsMsb 8 b.toNat ++ streamBits bs := rfl

theorem streamBits_append (xs ys : List Byte) : streamBits (xs ++ ys) = streamBits xs ++ streamBits ys :=
  List.flatMap_append

/-- Whole bytes dropped are eight bits each. -/
theorem streamBits_drop (bs : List Byte) (k : Nat) : (streamBits bs).drop (8 * k) = streamBits (bs.drop k) := by
  have hsplit : streamBits bs = streamBits (bs.take k) ++ streamBits (bs.drop k) := by
    rw [← streamBits_append, List.take_append_drop]
  rcases Nat.lt_or_ge bs.length k with hlt | hge
  · rw [List.drop_eq_nil_of_le hlt.le, List.drop_eq_nil_of_le (by rw [streamBits_length]; omega)]
    rfl
  · rw [hsplit, List.drop_left' (by rw [streamBits_length, List.length_take, Nat.min_eq_left hge])]

/-- Bit `j` of the stream is bit `7 - j % 8` of byte `j / 8` (R14). -/
theorem streamBits_getElem (bs : List Byte) {j : Nat} (h : j < (streamBits bs).length) (hb : j / 8 < bs.length) :
    (streamBits bs)[j] = bs[j / 8].getLsbD (7 - j % 8) := by
  have hj : 8 * (j / 8) + j % 8 = j := by omega
  have hbyte : (bs.drop (j / 8)) = bs[j / 8] :: bs.drop (j / 8 + 1) := List.drop_eq_getElem_cons hb
  have hdrop : (streamBits bs).drop (8 * (j / 8)) = bitsMsb 8 bs[j / 8].toNat ++ streamBits (bs.drop (j / 8 + 1)) := by
    rw [streamBits_drop, hbyte, streamBits_cons]
  have hlow : j % 8 < (bitsMsb 8 bs[j / 8].toNat).length := by
    rw [bitsMsb_length]
    omega
  calc (streamBits bs)[j]
    _ = ((streamBits bs).drop (8 * (j / 8)))[j % 8]'(by rw [List.length_drop]; omega) := by simp [hj]
    _ = (bitsMsb 8 bs[j / 8].toNat)[j % 8] := by
        simp only [hdrop]
        exact List.getElem_append_left hlow
    _ = bs[j / 8].getLsbD (7 - j % 8) := by rw [bitsMsb_getElem, BitVec.getLsbD]

end Sys2Proof.Reference

namespace Sys2Proof.Machine

open Sys2Proof Sys2Proof.Reference

/-- The bits of the artifact from bit `j` on, in stream order (R14). -/
def State.bitsFrom (s : State) (j : Nat) : List Bool := (streamBits (s.inBytes s.srcCount)).drop j

theorem bitsFrom_length (s : State) (j : Nat) : (s.bitsFrom j).length = 8 * s.srcCount - j := by
  rw [State.bitsFrom, List.length_drop, streamBits_length, inBytes_length]

theorem bitsFrom_byte (s : State) (k : Nat) : s.bitsFrom (8 * k) = streamBits (s.inputFrom k) := streamBits_drop _ _

theorem bitsFrom_drop (s : State) (j n : Nat) : (s.bitsFrom j).drop n = s.bitsFrom (j + n) := List.drop_drop

theorem SameCommand.bitsFrom {t s : State} (h : SameCommand t s) (j : Nat) : s.bitsFrom j = t.bitsFrom j :=
  (congrArg (State.bitsFrom · j) h :)

theorem bitsFrom_getElem {s : State} {j k : Nat} (h : k < (s.bitsFrom j).length) :
    (s.bitsFrom j)[k] = s.inBit (j + k) := by
  have hlen := bitsFrom_length s j
  have hbyte : (j + k) / 8 < (s.inBytes s.srcCount).length := by
    rw [inBytes_length]
    omega
  simp only [State.bitsFrom, List.getElem_drop]
  rw [streamBits_getElem _ _ hbyte, State.inBit]
  simp [State.inBytes]

/-- The bits that are left start with these. -/
theorem bitsAt_of_bitsFrom {s : State} {j : Nat} {bits more : List Bool} (hj : j ≤ 8 * s.srcCount)
    (h : s.bitsFrom j = bits ++ more) : s.BitsAt j bits := by
  have hlen := bitsFrom_length s j
  rw [h, List.length_append] at hlen
  refine ⟨fun k hk => ?_, by omega⟩
  have hbit := bitsFrom_getElem (s := s) (j := j) (k := k) (by rw [h, List.length_append]; omega)
  rw [← hbit]
  simp [h, List.getElem_append_left hk, hk]

theorem bitsFrom_of_bitsAt {s : State} {j : Nat} {bits : List Bool} (h : s.BitsAt j bits) :
    s.bitsFrom j = bits ++ s.bitsFrom (j + bits.length) := by
  obtain ⟨hbits, hroom⟩ := h
  have hlen := bitsFrom_length s j
  have htake : (s.bitsFrom j).take bits.length = bits := by
    refine List.ext_getElem (by rw [List.length_take]; omega) fun k h1 h2 => ?_
    rw [List.getElem_take, bitsFrom_getElem, hbits k h2]
    simp [h2]
  conv_lhs => rw [← List.take_append_drop bits.length (s.bitsFrom j), htake, bitsFrom_drop]

/-! ### Reads of bits at the end of the artifact -/

theorem readBit_stays_quiet {s t : State} {b : Bool} (h : readBit s = .done b t) (hq : s.Quiet) : t.Quiet := by
  obtain ⟨_, s1, h1, h2⟩ := Body.bind_eq_done.mp h
  have hq1 : s1.Quiet := by
    unfold latchByte at h1
    split at h1
    · obtain ⟨b', s2, h3, h4⟩ := Body.bind_eq_done.mp h1
      have hq2 := inByte_stays_quiet h3 hq
      cases h4
      exact hq2
    · cases h1
      exact hq
  cases h2
  exact hq1

theorem readBits_stays_quiet {n : Nat} {s t : State} {bits : List Bool} (h : readBits n s = .done bits t)
    (hq : s.Quiet) : t.Quiet := by
  induction n generalizing s bits with
  | zero =>
    cases h
    exact hq
  | succ n ih =>
    obtain ⟨b, s1, h1, h2⟩ := Body.bind_eq_done.mp h
    obtain ⟨bs, s2, h3, h4⟩ := Body.bind_eq_done.mp h2
    cases h4
    exact ih h3 (readBit_stays_quiet h1 hq)

theorem fetchHufNode_stays_quiet {s t : State} {c : Code} (h : fetchHufNode s = .done c t) (hq : s.Quiet) : t.Quiet := by
  unfold fetchHufNode at h
  split at h
  · cases h
  · obtain ⟨tag, s1, h1, h2⟩ := Body.bind_eq_done.mp h
    obtain ⟨rest, s2, h3, h4⟩ := Body.bind_eq_done.mp h2
    cases h4
    have hq1 : s1.Quiet := readBit_stays_quiet h1 hq
    exact readBits_stays_quiet (s := countNode s1) h3 hq1

/-- The bit reader stands inside the artifact or at its end, with these bits left. -/
structure BitsLeft (bits : List Bool) (s : State) : Prop where
  reads : ReadsStream s
  within : s.bitCursor ≤ 8 * s.srcCount
  left : s.bitsFrom s.bitCursor = bits

theorem ReadFrame.sameCommand {s t : State} (h : ReadFrame s t) : SameCommand s t := by
  unfold ReadFrame at h
  unfold SameCommand
  rw [h]

/-- A bit is left: it is read (R154). -/
theorem BitsLeft.readBit_next {s : State} {b : Bool} {bits : List Bool} (h : BitsLeft (b :: bits) s) :
    ∃ t, readBit s = .done b t ∧ ReadFrame s t ∧ BitsLeft bits t := by
  obtain ⟨t, hread, past⟩ := readBit_quiet h.reads (bitsAt_of_bitsFrom (bits := b :: bits) (more := []) h.within
    (by rw [h.left, List.append_nil]))
  have hc := past.frame.sameCommand
  have hlen := bitsFrom_length s s.bitCursor
  rw [h.left, List.length_cons] at hlen
  refine ⟨t, hread, past.frame, past.reads, ?_, ?_⟩
  · rw [past.cursor, hc.srcCount]
    omega
  · rw [past.cursor, hc.bitsFrom, ← bitsFrom_drop, h.left]
    rfl

/-- No bit is left: the next byte is past the artifact (R62, R232). -/
theorem BitsLeft.readBit_ended {s : State} (h : BitsLeft [] s) : readBit s = .raised .ioFailure s := by
  have hlen := bitsFrom_length s s.bitCursor
  have hwithin := h.within
  rw [h.left, List.length_nil] at hlen
  have hbit := h.reads.ready.1
  unfold State.bitCursor at hlen hwithin
  have hzero : s.reader.rbit = 0 := by omega
  rw [readBit, latchByte, if_pos hzero, inByte_truncated (by omega), Body.bind_raised, Body.bind_raised]

/-- Too few bits are left (R232). -/
theorem BitsLeft.readBits_tooFew {n : Nat} {bits : List Bool} {s : State} (h : BitsLeft bits s) (hn : bits.length < n) :
    ∃ u, readBits n s = .raised .ioFailure u ∧ ReadFrame s u ∧ u.Quiet := by
  induction n generalizing bits s with
  | zero => cases hn
  | succ n ih =>
    cases bits with
    | nil => exact ⟨s, by rw [readBits, h.readBit_ended, Body.bind_raised], rfl, h.reads.quiet⟩
    | cons b bits =>
      obtain ⟨t, hread, frame, hleft⟩ := h.readBit_next
      obtain ⟨u, hu, frame', hq⟩ := ih hleft (by simpa using hn)
      refine ⟨u, by rw [readBits, hread, Body.bind_done, hu, Body.bind_raised], ?_, hq⟩
      unfold ReadFrame at *
      rw [frame', frame]

end Sys2Proof.Machine

/-! ## Huffman: the parse of the tree section -/

namespace Sys2Proof.Reference

open Sys2Proof Sys2Proof.Machine

/-- A tree stands also in a longer arena. -/
theorem Stands.mono {arena arena' : List Node} (h : arena <+: arena') {i : Nat} {t : Reference.Tree}
    (hst : Stands arena i t) : Stands arena' i t := by
  have hnode : ∀ {j : Nat} {n : Node}, arena[j]? = some n → arena'[j]? = some n := fun hj => by
    obtain ⟨more, rfl⟩ := h
    rw [List.getElem?_append_left (List.getElem?_eq_some_iff.mp hj).1, hj]
  induction t generalizing i with
  | leaf c =>
    obtain ⟨f, q, hleaf⟩ := hst
    exact ⟨f, q, hnode hleaf⟩
  | node l r ihl ihr =>
    obtain ⟨f, a, b, q, hinternal, hl, hr⟩ := hst
    exact ⟨f, a, b, q, hnode hinternal, ihl hl, ihr hr⟩

/-- One tree stands at an index. -/
theorem Stands.unique {arena : List Node} {i : Nat} {t t' : Reference.Tree} (h : Stands arena i t)
    (h' : Stands arena i t') : t = t' := by
  induction t generalizing i t' with
  | leaf c =>
    obtain ⟨f, q, hleaf⟩ := h
    cases t' with
    | leaf c' =>
      obtain ⟨f', q', hleaf'⟩ := h'
      cases hleaf.symm.trans hleaf'
      rfl
    | node l' r' =>
      obtain ⟨f', a', b', q', hnode', _⟩ := h'
      cases hleaf.symm.trans hnode'
  | node l r ihl ihr =>
    obtain ⟨f, a, b, q, hnode, hl, hr⟩ := h
    cases t' with
    | leaf c' =>
      obtain ⟨f', q', hleaf'⟩ := h'
      cases hnode.symm.trans hleaf'
    | node l' r' =>
      obtain ⟨f', a', b', q', hnode', hl', hr'⟩ := h'
      cases hnode.symm.trans hnode'
      rw [ihl hl hl', ihr hr hr']

/-- What `ParseNode` has found when it answers a tree (R182): a leaf, or an internal node and its two subtrees. -/
theorem parseTree_ok {fuel nodes k : Nat} {bits left : List Bool} {t : Reference.Tree}
    (h : parseTree (fuel + 1) nodes bits = .ok (t, k, left)) :
    nodes < nodeMax
      ∧ ((∃ rest, bits = true :: rest ∧ 16 ≤ rest.length ∧ bitsValue (rest.take 16) ≤ 0xFF
            ∧ t = .leaf (BitVec.ofNat 8 (bitsValue (rest.take 16))) ∧ k = nodes + 1 ∧ left = rest.drop 16)
        ∨ ∃ rest l m more r, bits = false :: rest ∧ parseTree fuel (nodes + 1) rest = .ok (l, m, more)
            ∧ parseTree fuel m more = .ok (r, k, left) ∧ t = .node l r) := by
  unfold parseTree at h
  split at h
  · cases h
  next hn =>
    refine ⟨Nat.not_le.mp hn, ?_⟩
    split at h
    · cases h
    next tag rest =>
      split at h
      next htag =>
        subst htag
        split at h
        · cases h
        · split at h
          · cases h
          · cases h
            exact .inl ⟨rest, rfl, by omega, by omega, rfl, rfl, rfl⟩
      next htag =>
        rw [Bool.not_eq_true] at htag
        subst htag
        split at h
        · cases h
        next l m more hl =>
          split at h
          · cases h
          next r k' left' hr =>
            cases h
            exact .inr ⟨rest, l, m, more, r, rfl, hl, hr, rfl⟩

/-- Why `ParseNode` fails (R182, R237): the node bound, the end of the artifact, a character, or a subtree. -/
theorem parseTree_error {fuel nodes : Nat} {bits : List Bool} {e : ErrCode}
    (h : parseTree (fuel + 1) nodes bits = .error e) :
    nodeMax ≤ nodes ∧ e = .corruptStream
      ∨ nodes < nodeMax
        ∧ (bits = [] ∧ e = .ioFailure
          ∨ (∃ rest, bits = true :: rest ∧ rest.length < 16 ∧ e = .ioFailure)
          ∨ (∃ rest, bits = true :: rest ∧ 16 ≤ rest.length ∧ 0xFF < bitsValue (rest.take 16) ∧ e = .corruptStream)
          ∨ (∃ rest, bits = false :: rest ∧ parseTree fuel (nodes + 1) rest = .error e)
          ∨ ∃ rest l m more, bits = false :: rest ∧ parseTree fuel (nodes + 1) rest = .ok (l, m, more)
              ∧ parseTree fuel m more = .error e) := by
  unfold parseTree at h
  split at h
  next hn =>
    cases h
    exact .inl ⟨hn, rfl⟩
  next hn =>
    refine .inr ⟨Nat.not_le.mp hn, ?_⟩
    split at h
    · cases h
      exact .inl ⟨rfl, rfl⟩
    next tag rest =>
      split at h
      next htag =>
        subst htag
        split at h
        next hshort =>
          cases h
          exact .inr (.inl ⟨rest, rfl, hshort, rfl⟩)
        next hlen =>
          split at h
          next hbig =>
            cases h
            exact .inr (.inr (.inl ⟨rest, rfl, Nat.not_lt.mp hlen, hbig, rfl⟩))
          · cases h
      next htag =>
        rw [Bool.not_eq_true] at htag
        subst htag
        split at h
        next hl =>
          cases h
          exact .inr (.inr (.inr (.inl ⟨rest, rfl, hl⟩)))
        next l m more hl =>
          split at h
          next hr =>
            cases h
            exact .inr (.inr (.inr (.inr ⟨rest, l, m, more, rfl, hl, hr⟩)))
          · cases h

/-- Each node parsed is counted. -/
theorem lt_of_parseTree_ok {fuel nodes k : Nat} {bits left : List Bool} {t : Reference.Tree}
    (h : parseTree fuel nodes bits = .ok (t, k, left)) : nodes < k := by
  induction fuel generalizing nodes k bits left t with
  | zero => cases h
  | succ fuel ih =>
    obtain ⟨_, ⟨_, _, _, _, _, rfl, _⟩ | ⟨_, _, _, _, _, _, hl, hr, _⟩⟩ := parseTree_ok h
    · exact Nat.lt_succ_self _
    · exact (Nat.lt_succ_self _).trans ((ih hl).trans (ih hr))

theorem Tree.size_pos (t : Reference.Tree) : 0 < t.size := by
  cases t <;> exact Nat.succ_pos _

/-- Parsing the preorder bits of a tree answers the tree (R177, R182). -/
theorem parseTree_preorder (t : Reference.Tree) {fuel nodes : Nat} (rest : List Bool) (hn : nodes + t.size ≤ nodeMax)
    (hf : nodeMax < fuel + nodes) :
    parseTree fuel nodes (t.preorder ++ rest) = .ok (t, nodes + t.size, rest) := by
  have hpos := Tree.size_pos t
  induction t generalizing fuel nodes rest with
  | leaf c =>
    obtain ⟨fuel, rfl⟩ : ∃ k, fuel = k + 1 := Nat.exists_eq_succ_of_ne_zero (by omega)
    have hlen : (bitsMsb 16 c.toNat).length = 16 := bitsMsb_length _ _
    have hvalue : bitsValue (bitsMsb 16 c.toNat) = c.toNat := by
      have := c.isLt
      rw [bitsValue_bitsMsb, Nat.mod_eq_of_lt (by omega)]
    have htake : (bitsMsb 16 c.toNat ++ rest).take 16 = bitsMsb 16 c.toNat := List.take_left' hlen
    have hdrop : (bitsMsb 16 c.toNat ++ rest).drop 16 = rest := List.drop_left' hlen
    have hc := c.isLt
    have hmax : ¬ nodeMax ≤ nodes := by omega
    simp only [Tree.preorder, List.cons_append, parseTree, if_neg hmax, htake, hdrop, hvalue, List.length_append, hlen]
    rw [if_true, if_neg (by omega), if_neg (by omega), BitVec.ofNat_toNat, BitVec.setWidth_eq]
    rfl
  | node l r ihl ihr =>
    have hl := Tree.size_pos l
    have hr := Tree.size_pos r
    simp only [Tree.size] at hn hpos
    obtain ⟨fuel, rfl⟩ : ∃ k, fuel = k + 1 := Nat.exists_eq_succ_of_ne_zero (by omega)
    have hleft := ihl (fuel := fuel) (nodes := nodes + 1) (r.preorder ++ rest) (by omega) (by omega) hl
    have hright := ihr (fuel := fuel) (nodes := nodes + 1 + l.size) rest (by omega) (by omega) hr
    have hmax : ¬ nodeMax ≤ nodes := by omega
    have hcount : nodes + 1 + l.size + r.size = nodes + (l.size + r.size + 1) := by omega
    simp only [Tree.preorder, List.cons_append, List.append_assoc, parseTree, if_neg hmax, hleft, hright, hcount, Tree.size]
    rfl

end Sys2Proof.Reference

namespace Sys2Proof.Machine

open Sys2Proof Sys2Proof.Reference

/-! ### One node -/

/-- A change of the Huffman codec's work alone. -/
theorem Appends.withHuf {s : State} (hq : s.Quiet) (w : HufWork) : Appends [] s { s with huf := w } :=
  .nothing rfl rfl rfl hq

theorem BitsLeft.withHuf {bits : List Bool} {s : State} (h : BitsLeft bits s) (w : HufWork) :
    BitsLeft bits { s with huf := w } :=
  ⟨⟨h.reads.quiet, h.reads.untouched, h.reads.ready⟩, h.within, h.left⟩

/-- The parse stands before a node: `nodes` nodes parsed, `fs` waiting, `bits` left (R182). -/
structure AtNode (fs : List Frame) (nodes : Nat) (bits : List Bool) (s : State) : Prop where
  active : Active s
  phase : s.phase = .hufParse
  frames : s.huf.frames = fs
  count : s.huf.nodes = nodes
  left : BitsLeft bits s

theorem AtNode.step_eq {fs : List Frame} {nodes : Nat} {bits : List Bool} {s : State} (h : AtNode fs nodes bits s) :
    step s = runFetched exec (fetchHufNode s) :=
  h.active.step_phase.trans (runPhase_hufParse h.phase)

/-- The parse has read a node of the bits `form`, and nothing else has changed. -/
structure NodeFetched (fs : List Frame) (nodes : Nat) (more : List Bool) (s t : State) : Prop where
  next : AtNode fs (nodes + 1) more t
  appends : Appends [] s t
  arena : t.huf.arena = s.huf.arena

/-- A node within the bound whose bits are all there is fetched. -/
theorem AtNode.fetch {fs : List Frame} {nodes : Nat} {tag : Bool} {rest more : List Bool} {s : State}
    (h : AtNode fs nodes (tag :: rest ++ more) s) (hn : nodes < nodeMax) (hl : rest.length = hufNodeRest tag) :
    ∃ t, fetchHufNode s = .done (.hufNode (tag :: rest)) t ∧ NodeFetched fs nodes more s t := by
  have hbits := bitsAt_of_bitsFrom h.left.within h.left.left
  obtain ⟨t, hfetch, frame, hready, hcursor⟩ := fetchHufNode_quiet hl (h.count.symm ▸ hn) h.left.reads hbits
  have hq := fetchHufNode_stays_quiet hfetch h.active.quiet
  have hcommand : SameCommand s t := SameCommand.trans (s := countNode s) rfl frame.sameCommand
  have hhuf : t.huf = (countNode s).huf := (congrArg State.huf frame :)
  have hlen := bitsFrom_length s s.bitCursor
  rw [h.left.left, List.length_append] at hlen
  have hleft : BitsLeft more t := by
    refine ⟨⟨hq, hcommand.hazards.trans h.left.reads.untouched, hready⟩, ?_, ?_⟩
    · rw [hcursor, hcommand.srcCount]
      have := h.left.within
      omega
    · rw [hcursor, hcommand.bitsFrom, ← bitsFrom_drop, h.left.left, List.drop_left]
  refine ⟨t, hfetch, ⟨h.active.of_sameCommand hcommand hq, (congrArg State.phase frame :).trans h.phase, ?_, ?_, hleft⟩,
    .nothing hcommand (congrArg State.outMem frame :) (congrArg State.outPos frame :) hq, by rw [hhuf]; rfl⟩
  · rw [hhuf]
    exact h.frames
  · rw [hhuf]
    exact congrArg (· + 1) h.count

/-- The parse ends the command with an error of the fetch. -/
theorem AtNode.fails {fs : List Frame} {nodes : Nat} {bits : List Bool} {s u : State} {e : ErrCode}
    (h : AtNode fs nodes bits s) (hfetch : fetchHufNode s = .raised e u) (hu : Appends [] s u) : Finish [] e s :=
  .now hu (by rw [h.step_eq, hfetch, runFetched])

/-- The 512th node (R182, R237). -/
theorem AtNode.full {fs : List Frame} {nodes : Nat} {bits : List Bool} {s : State} (h : AtNode fs nodes bits s)
    (hn : nodeMax ≤ nodes) : Finish [] .corruptStream s :=
  h.fails (if_pos (h.count.symm ▸ hn)) (.refl h.active.quiet)

theorem AtNode.ended {fs : List Frame} {nodes : Nat} {s : State} (h : AtNode fs nodes [] s) (hn : nodes < nodeMax) :
    Finish [] .ioFailure s := by
  refine h.fails (u := s) ?_ (.refl h.active.quiet)
  rw [fetchHufNode, if_neg (Nat.not_le.mpr (h.count.symm ▸ hn)), h.left.readBit_ended, Body.bind_raised]

/-- A leaf whose character is not all there (R232). -/
theorem AtNode.truncated {fs : List Frame} {nodes : Nat} {rest : List Bool} {s : State}
    (h : AtNode fs nodes (true :: rest) s) (hn : nodes < nodeMax) (hlen : rest.length < 16) : Finish [] .ioFailure s := by
  obtain ⟨s1, hread, frame, hleft⟩ := h.left.readBit_next
  have hcounted : BitsLeft rest (countNode s1) := hleft.withHuf _
  obtain ⟨u, hu, frame', hq⟩ := hcounted.readBits_tooFew hlen
  have hcommand : SameCommand s u :=
    frame.sameCommand.trans (SameCommand.trans (s := countNode s1) rfl frame'.sameCommand)
  have hmem : u.outMem = s.outMem := (congrArg State.outMem frame' :).trans (congrArg State.outMem frame :)
  have hpos : u.outPos = s.outPos := (congrArg State.outPos frame' :).trans (congrArg State.outPos frame :)
  refine h.fails (u := u) ?_ (.nothing hcommand hmem hpos hq)
  rw [fetchHufNode, if_neg (Nat.not_le.mpr (h.count.symm ▸ hn)), hread, Body.bind_done]
  exact congrArg (Body.bind · _) hu

/-- An internal node: its left child is parsed next (R182). -/
theorem AtNode.internal {fs : List Frame} {nodes : Nat} {rest : List Bool} {s : State}
    (h : AtNode fs nodes (false :: rest) s) (hn : nodes < nodeMax) :
    ∃ t, step s = .next t ∧ AtNode (.wantLeft :: fs) (nodes + 1) rest t ∧ Appends [] s t ∧ t.huf.arena = s.huf.arena := by
  obtain ⟨t, hfetch, ⟨hactive, hphase, hframes, hcount, hleft⟩, happends, harena⟩ :=
    AtNode.fetch (rest := []) (more := rest) h hn rfl
  refine ⟨{ t with huf := { t.huf with frames := .wantLeft :: t.huf.frames } }, ?_,
    ⟨hactive.withHuf _, hphase, by rw [hframes], hcount, hleft.withHuf _⟩, happends.trans (.withHuf happends.quiet _),
    harena⟩
  rw [h.step_eq, hfetch]
  rfl

/-- A leaf is read: its character decides (R182). -/
theorem AtNode.leaf {fs : List Frame} {nodes : Nat} {rest : List Bool} {s : State}
    (h : AtNode fs nodes (true :: rest) s) (hn : nodes < nodeMax) (hlen : 16 ≤ rest.length) :
    ∃ t, step s = exec (.huffmanTreeLeaf (BitVec.ofNat 16 (bitsValue (rest.take 16)))) t
      ∧ NodeFetched fs nodes (rest.drop 16) s t := by
  have htake : (rest.take 16).length = 16 := by rw [List.length_take, Nat.min_eq_left hlen]
  have hbits : true :: rest.take 16 ++ rest.drop 16 = true :: rest := by
    rw [List.cons_append, List.take_append_drop]
  rw [← hbits] at h
  obtain ⟨t, hfetch, hfetched⟩ := h.fetch hn htake
  refine ⟨t, ?_, hfetched⟩
  rw [h.step_eq, hfetch]
  simp only [runFetched, decode, decodeHufNode_leaf htake]

/-! ### A whole subtree -/

/-- The parse has read the subtree `t`, which stands at index `i` of the arena, and has not yet returned to its parent. -/
structure SubtreeRead (t : Reference.Tree) (nodes : Nat) (bits : List Bool) (s : State) (i : Nat) (u : State) : Prop where
  appends : Appends [] s u
  active : Active u
  phase : u.phase = .hufParse
  count : u.huf.nodes = nodes
  left : BitsLeft bits u
  arena : s.huf.arena <+: u.huf.arena
  stands : Stands u.huf.arena i t

/-- The left child is kept, and the right child is parsed next (R182). -/
theorem SubtreeRead.atRight {t : Reference.Tree} {nodes : Nat} {bits : List Bool} {s u : State} {i : Nat}
    (h : SubtreeRead t nodes bits s i u) (fs : List Frame) :
    AtNode (.wantRight i :: fs) nodes bits { u with huf := { u.huf with frames := .wantRight i :: fs } } :=
  ⟨h.active.withHuf _, h.phase, rfl, h.count, h.left.withHuf _⟩

/-- A node joins the arena at its end. -/
def appendNode (n : Node) (u : State) : State := { u with huf := { u.huf with arena := u.huf.arena ++ [n] } }

/-- `ParseNode` over the bits of a subtree (R182). -/
theorem parse_subtree {fuel : Nat} {t : Reference.Tree} {fs : List Frame} {nodes k : Nat} {bits left : List Bool}
    {s : State} (h : AtNode fs nodes bits s) (hok : parseTree fuel nodes bits = .ok (t, k, left)) :
    ∃ i u, Runs s (afterNode (returnNode fs i u.huf) u) ∧ SubtreeRead t k left s i u := by
  induction fuel generalizing t fs nodes k bits left s with
  | zero => cases hok
  | succ fuel ih =>
    obtain ⟨hn, ⟨rest, rfl, hlen, hvalue, rfl, rfl, rfl⟩ | ⟨rest, l, m, more, r, rfl, hl, hr, rfl⟩⟩ := parseTree_ok hok
    · obtain ⟨u, hstep, ⟨hactive, hphase, hframes, hcount, hleft⟩, happends, harena⟩ := h.leaf hn hlen
      have hchar : (BitVec.ofNat 16 (bitsValue (rest.take 16))).toNat = bitsValue (rest.take 16) := by
        rw [BitVec.toNat_ofNat, Nat.mod_eq_of_lt (by omega)]
      have hsym : (BitVec.ofNat 16 (bitsValue (rest.take 16))).setWidth 8 = BitVec.ofNat 8 (bitsValue (rest.take 16)) := by
        apply BitVec.eq_of_toNat_eq
        rw [BitVec.toNat_setWidth, hchar, BitVec.toNat_ofNat]
      rw [exec_huffmanTreeLeaf (by rw [hchar]; exact hvalue), hframes, hsym] at hstep
      refine ⟨u.huf.arena.length, appendNode (.leaf (BitVec.ofNat 8 (bitsValue (rest.take 16))) 0 0) u, .step hstep,
        happends.trans (.withHuf happends.quiet _), hactive.withHuf _, hphase, hcount, hleft.withHuf _, ?_,
        ⟨0, 0, List.getElem?_concat_length⟩⟩
      rw [← harena]
      exact List.prefix_append _ _
    · obtain ⟨s1, hstep, h1, happ1, harena1⟩ := h.internal hn
      obtain ⟨i, u, hrun, hu⟩ := ih h1 hl
      obtain ⟨j, v, hrun', hv⟩ := ih (hu.atRight fs) hr
      have happ2 : Appends [] s v :=
        (happ1.trans hu.appends).trans ((Appends.withHuf hu.active.quiet _).trans hv.appends)
      have hgrow : s.huf.arena <+: v.huf.arena := harena1 ▸ hu.arena.trans hv.arena
      have hlonger : v.huf.arena <+: v.huf.arena ++ [.internal 0 i j 0] := List.prefix_append _ _
      refine ⟨v.huf.arena.length, appendNode (.internal 0 i j 0) v, .of_step hstep (hrun.trans hrun'),
        happ2.trans (.withHuf happ2.quiet _), hv.active.withHuf _, hv.phase, hv.count, hv.left.withHuf _,
        hgrow.trans hlonger, 0, i, j, 0, List.getElem?_concat_length, ?_, hv.stands.mono hlonger⟩
      exact (hu.stands.mono hv.arena).mono hlonger

/-- `ParseNode` ends the command with the first error in the bits of a subtree (R182, R237). The depth cannot run out: the node
bound is met first. -/
theorem parse_error {fuel : Nat} {fs : List Frame} {nodes : Nat} {bits : List Bool} {s : State} {e : ErrCode}
    (h : AtNode fs nodes bits s) (hfuel : nodeMax < fuel + nodes) (herr : parseTree fuel nodes bits = .error e) :
    Finish [] e s := by
  induction fuel generalizing fs nodes bits s with
  | zero =>
    cases herr
    exact h.full (by omega)
  | succ fuel ih =>
    rcases parseTree_error herr with ⟨hn, rfl⟩ | ⟨hn, hcase⟩
    · exact h.full hn
    rcases hcase with ⟨rfl, rfl⟩ | ⟨rest, rfl, hshort, rfl⟩ | ⟨rest, rfl, hlen, hbig, rfl⟩ | ⟨rest, rfl, hl⟩ |
      ⟨rest, l, m, more, rfl, hl, hr⟩
    · exact h.ended hn
    · exact h.truncated hn hshort
    · obtain ⟨u, hstep, hfetched⟩ := h.leaf hn hlen
      have hlt := bitsValue_lt (rest.take 16)
      rw [List.length_take, Nat.min_eq_left hlen] at hlt
      have hchar : 0xFF < (BitVec.ofNat 16 (bitsValue (rest.take 16))).toNat := by
        rwa [BitVec.toNat_ofNat, Nat.mod_eq_of_lt hlt]
      exact .now hfetched.appends (hstep.trans (exec_huffmanTreeLeaf_corrupt hchar u))
    · obtain ⟨s1, hstep, h1, happ1, _⟩ := h.internal hn
      exact .of_runs (.step hstep) happ1 (ih h1 (by omega) hl)
    · obtain ⟨s1, hstep, h1, happ1, _⟩ := h.internal hn
      obtain ⟨i, u, hrun, hu⟩ := parse_subtree h1 hl
      have hm := lt_of_parseTree_ok hl
      refine .of_runs (.of_step hstep hrun) ((happ1.trans hu.appends).trans (.withHuf hu.active.quiet _)) ?_
      exact ih (hu.atRight fs) (by omega) hr

/-! ### The whole tree -/

/-- The tree is parsed: it stands at the root, and the reader stands at the next byte boundary (R156, R180). -/
structure TreeParsed (t : Reference.Tree) (nodes cursor : Nat) (s : State) : Prop where
  active : Active s
  phase : s.phase = .hufExtent
  stands : Stands s.huf.arena s.huf.root t
  count : s.huf.nodes = nodes
  untouched : s.hazards = []
  rbit : s.reader.rbit = 0
  rbyte : s.reader.rbyte = (cursor + 7) / 8

/-- `ParseTree` and `AlignRead` (R180, R182). -/
theorem parse_tree {fuel : Nat} {t : Reference.Tree} {nodes k : Nat} {bits left : List Bool} {s : State}
    (h : AtNode [] nodes bits s) (hok : parseTree fuel nodes bits = .ok (t, k, left)) :
    ∃ u, Runs s u ∧ Appends [] s u ∧ TreeParsed t k (8 * s.srcCount - left.length) u := by
  obtain ⟨i, v, hrun, happends, hactive, hphase, hcount, hleft, _, hstands⟩ := parse_subtree h hok
  rw [returnNode, afterNode_done] at hrun
  have hlen := bitsFrom_length v v.bitCursor
  have hwithin := hleft.within
  rw [hleft.left] at hlen
  refine ⟨_, hrun, happends.trans (.nothing rfl rfl rfl happends.quiet), ⟨hactive.busy, hactive.inputs, hactive.quiet⟩,
    rfl, hstands, hcount, hleft.reads.untouched, rfl, ?_⟩
  have hbit := hleft.reads.ready.1
  have hcursor : 8 * s.srcCount - left.length = v.bitCursor := by
    rw [← happends.command.srcCount]
    omega
  rw [hcursor, State.bitCursor]
  show (if 0 < v.reader.rbit then v.reader.rbyte + 1 else v.reader.rbyte) = _
  split <;> omega

/-- Settles O52: the reference parses the preorder bits to the tree, and the parse follows the reference. -/
theorem parseRebuildsTree : Obligations.ParseRebuildsTree := by
  intro tree s hb hin hq hz hp hframes hnodes hready hbits
  have hwithin : s.bitCursor + tree.preorder.length ≤ 8 * s.srcCount := hbits.2
  have hsplit := bitsFrom_of_bitsAt hbits
  have hnode : AtNode [] s.huf.nodes (s.bitsFrom s.bitCursor) s :=
    ⟨⟨hb, hin, hq⟩, hp, hframes, rfl, ⟨hq, hz, hready⟩, by omega, rfl⟩
  have hok : parseTree (nodeMax + 1) s.huf.nodes (s.bitsFrom s.bitCursor)
      = .ok (tree, s.huf.nodes + tree.size, s.bitsFrom (s.bitCursor + tree.preorder.length)) := by
    rw [hsplit]
    exact parseTree_preorder tree _ hnodes (by omega)
  obtain ⟨u, hrun, happends, hparsed⟩ := parse_tree hnode hok
  have hcursor : 8 * s.srcCount - (s.bitsFrom (s.bitCursor + tree.preorder.length)).length
      = s.bitCursor + tree.preorder.length := by
    rw [bitsFrom_length]
    omega
  refine ⟨u, hrun, hparsed.phase, happends.command.status, hparsed.stands, hparsed.rbit, ?_, hparsed.count,
    happends.mem, happends.cursor, (congrArg State.inMem happends.command :)⟩
  rw [hparsed.rbyte, hcursor]

end Sys2Proof.Machine

/-! ## Huffman: the walk of the body -/

namespace Sys2Proof.Reference

open Sys2Proof Sys2Proof.Machine

/-- Down to a leaf and back at the root: one symbol (R184). -/
theorem walkBody_of_walk {root l r : Reference.Tree} {bits more : List Bool} {c : Byte}
    (h : (Reference.Tree.node l r).walk bits = some (c, more)) :
    walkBody root (.node l r) bits = (walkBody root root more).after [c] := by
  induction bits generalizing l r with
  | nil => cases h
  | cons b bits ih =>
    have hchild : (if b then r else l).walk bits = some (c, more) := by
      cases b <;> exact h
    rw [walkBody]
    generalize (if b then r else l) = child at hchild
    cases child with
    | leaf d =>
      cases hchild
      rfl
    | node l' r' => exact ih hchild

theorem decodeBody_leaf (b : Bool) (d : Byte) (n : Nat) (bits : List Bool) :
    (Reference.Tree.leaf d).decodeBody n (b :: bits) = none := by
  induction n with
  | zero => rfl
  | succ n ih => simp only [Tree.decodeBody, Tree.walk, ih]

/-- A body of whole codes (R184). -/
theorem walkBody_of_decodeBody {t : Reference.Tree} {n : Nat} {bits : List Bool} {xs : List Byte}
    (h : t.decodeBody n bits = some xs) : walkBody t t bits = { out := xs, err := .success } := by
  induction n generalizing bits xs with
  | zero =>
    cases bits with
    | nil =>
      cases h
      rw [walkBody, if_pos rfl]
    | cons b bits => cases h
  | succ n ih =>
    cases bits with
    | nil =>
      cases h
      rw [walkBody, if_pos rfl]
    | cons b bits =>
      cases t with
      | leaf d => rw [decodeBody_leaf b] at h; cases h
      | node l r =>
        unfold Tree.decodeBody at h
        split at h
        · cases h
        next c more hwalk =>
          split at h
          · cases h
          next cs hcs =>
            cases h
            rw [walkBody_of_walk hwalk, ih hcs]
            rfl

end Sys2Proof.Reference

namespace Sys2Proof.Machine

open Sys2Proof Sys2Proof.Reference

/-- The walk stands at the subtree `cur` of `root` with `bits` to come (R184). -/
structure AtCur (root cur : Reference.Tree) (bits : List Bool) (s : State) : Prop where
  active : Active s
  phase : s.phase = .hufWalk
  reads : ReadsStream s
  ahead : s.BitsAt s.bitCursor bits
  count : s.huf.bitsLeft = bits.length
  rootStands : Stands s.huf.arena s.huf.root root
  curStands : Stands s.huf.arena s.huf.cur cur
  place : (s.huf.cur = s.huf.root ∧ cur = root) ∨ cur.size < root.size

theorem AtCur.step_eq {root cur : Reference.Tree} {bits : List Bool} {s : State} (h : AtCur root cur bits s) :
    step s = hufWalkStep s :=
  h.active.step_phase.trans (runPhase_hufWalk h.phase)

/-- The walk is at the root's index exactly when it is at the root's tree. -/
theorem AtCur.at_root_iff {root cur : Reference.Tree} {bits : List Bool} {s : State} (h : AtCur root cur bits s) :
    s.huf.cur = s.huf.root ↔ cur = root := by
  rcases h.place with ⟨hi, ht⟩ | hlt
  · exact iff_of_true hi ht
  · refine iff_of_false (fun hi => ?_) fun ht => absurd hlt (ht ▸ Nat.lt_irrefl _)
    have hsame : cur = root := Stands.unique (hi ▸ h.curStands) h.rootStands
    exact absurd hlt (hsame ▸ Nat.lt_irrefl _)

/-- Below the walk's place every subtree is smaller than the root. -/
theorem AtCur.size_le {root cur : Reference.Tree} {bits : List Bool} {s : State} (h : AtCur root cur bits s) :
    cur.size ≤ root.size := by
  rcases h.place with ⟨_, ht⟩ | hlt
  · exact (congrArg Tree.size ht).le
  · exact hlt.le

/-- The body ends (R184). -/
theorem AtCur.ended {root cur : Reference.Tree} {s : State} (h : AtCur root cur [] s) :
    Finish [] (if cur = root then .success else .corruptStream) s := by
  have hcount : s.huf.bitsLeft = 0 := h.count
  refine .now (.refl h.active.quiet) ?_
  rw [h.step_eq, hufWalkStep, if_pos hcount]
  simp only [h.at_root_iff]

/-- The walk has read a bit, and has not yet moved. -/
theorem AtCur.read {root cur : Reference.Tree} {b : Bool} {bits : List Bool} {s : State}
    (h : AtCur root cur (b :: bits) s) :
    ∃ t, step s = takeBit b t ∧ Appends [] s t ∧ AtCur root cur bits t := by
  obtain ⟨s1, hread, past⟩ := readBit_quiet h.reads h.ahead
  have hhuf : s1.huf = s.huf := (congrArg State.huf past.frame :)
  have hcommand := past.frame.sameCommand
  have hcount : s.huf.bitsLeft ≠ 0 := by rw [h.count]; exact Nat.succ_ne_zero _
  have hbits : s1.BitsAt s1.bitCursor bits := by
    rw [past.cursor]
    exact past.frame.bitsAt (bitsAt_tail h.ahead)
  refine ⟨{ s1 with huf := { s1.huf with bitsLeft := s1.huf.bitsLeft - 1 } }, ?_, ?_, ?_⟩
  · rw [h.step_eq, hufWalkStep, if_neg hcount, hread]
  · exact .nothing (hcommand.trans rfl) (congrArg State.outMem past.frame :) (congrArg State.outPos past.frame :)
      past.reads.quiet
  · refine ⟨(h.active.of_sameCommand hcommand past.reads.quiet).withHuf _,
      (congrArg State.phase past.frame :).trans h.phase, ⟨past.reads.quiet, past.reads.untouched, past.reads.ready⟩,
      hbits, ?_, ?_, ?_, ?_⟩
    · show s1.huf.bitsLeft - 1 = bits.length
      rw [hhuf, h.count]
      rfl
    · show Stands s1.huf.arena s1.huf.root root
      rw [hhuf]
      exact h.rootStands
    · show Stands s1.huf.arena s1.huf.cur cur
      rw [hhuf]
      exact h.curStands
    · show (s1.huf.cur = s1.huf.root ∧ cur = root) ∨ cur.size < root.size
      rw [hhuf]
      exact h.place

/-- A bit at a tree that is one leaf (R184). -/
theorem AtCur.leaf {root : Reference.Tree} {c : Byte} {b : Bool} {bits : List Bool} {s : State}
    (h : AtCur root (.leaf c) (b :: bits) s) : Finish [] .corruptStream s := by
  obtain ⟨t, hstep, happends, ht⟩ := h.read
  obtain ⟨f, q, hnode⟩ := ht.curStands
  refine .now happends (hstep.trans ?_)
  simp only [takeBit, hnode]

/-- A bit leads to a leaf: its symbol is emitted and the walk is back at the root (R184). -/
theorem AtCur.emits {root l r : Reference.Tree} {b : Bool} {bits : List Bool} {s : State} {c : Byte}
    (h : AtCur root (.node l r) (b :: bits) s) (hchild : (if b then r else l) = .leaf c) :
    Segment [c] s (AtCur root root bits) := by
  obtain ⟨t, hstep, happends, ht⟩ := h.read
  obtain ⟨f, i, j, q, hnode, hl, hr⟩ := ht.curStands
  have hleaf : Stands t.huf.arena (if b then j else i) (.leaf c) := by
    rw [← hchild]
    cases b
    · exact hl
    · exact hr
  obtain ⟨f', q', hleaf⟩ := hleaf
  have hturn : takeBit b t
      = .next (settle ((emit c t).bind fun _ s1 => .done () { s1 with huf := { s1.huf with cur := s1.huf.root } })) := by
    simp only [takeBit, hnode, arriveAt, hleaf]
  refine .of_step h.active (hstep.trans hturn) (Body.Emits.after happends ?_)
  refine (emit_emits ht.active.quiet c).map (g := fun _ => ()) fun _ u hu frame => ⟨.withHuf hu.quiet _, ?_⟩
  have hhuf : u.huf = t.huf := (congrArg State.huf frame :)
  have hready : ReaderReady u := by
    unfold EmitFrame at frame
    rw [frame]
    exact ht.reads.ready
  have hbits : u.BitsAt u.bitCursor bits := by
    unfold EmitFrame at frame
    rw [frame]
    exact ht.ahead
  have hroot : Stands u.huf.arena u.huf.root root := by
    rw [hhuf]
    exact ht.rootStands
  exact ⟨(hu.active ht.active).withHuf _, (congrArg State.phase frame :).trans ht.phase,
    ⟨hu.quiet, hu.command.hazards.trans ht.reads.untouched, hready⟩, hbits,
    (congrArg HufWork.bitsLeft hhuf).trans ht.count, hroot, hroot, .inl ⟨rfl, rfl⟩⟩

/-- A bit leads to an internal node: the walk stands there (R184, R185). -/
theorem AtCur.descends {root l r l' r' : Reference.Tree} {b : Bool} {bits : List Bool} {s : State}
    (h : AtCur root (.node l r) (b :: bits) s) (hchild : (if b then r else l) = .node l' r') :
    ∃ t, step s = .next t ∧ Appends [] s t ∧ AtCur root (.node l' r') bits t := by
  obtain ⟨t, hstep, happends, ht⟩ := h.read
  obtain ⟨f, i, j, q, hnode, hl, hr⟩ := ht.curStands
  have hbelow : Stands t.huf.arena (if b then j else i) (.node l' r') := by
    rw [← hchild]
    cases b
    · exact hl
    · exact hr
  have hsmaller : (Reference.Tree.node l' r').size < root.size := by
    have hle := ht.size_le
    rw [← hchild]
    rw [Tree.size] at hle
    cases b <;> simp only [Bool.false_eq_true, if_true, if_false] <;> omega
  obtain ⟨f', i', j', q', hinternal, _, _⟩ := id hbelow
  refine ⟨{ t with huf := { t.huf with cur := if b then j else i } }, hstep.trans ?_,
    happends.trans (.withHuf happends.quiet _), ht.active.withHuf _, ht.phase,
    ⟨ht.reads.quiet, ht.reads.untouched, ht.reads.ready⟩, ht.ahead, ht.count, ht.rootStands, hbelow, .inr hsmaller⟩
  simp only [takeBit, hnode, arriveAt, hinternal]

/-- The walk from any place of the tree: the symbols it emits and how it ends (R184, R185). -/
theorem walk_finish {root cur : Reference.Tree} {bits : List Bool} {s : State} (h : AtCur root cur bits s) :
    Finish (walkBody root cur bits).out (walkBody root cur bits).err s := by
  induction bits generalizing cur s with
  | nil =>
    rw [walkBody]
    exact h.ended
  | cons b bits ih =>
    cases cur with
    | leaf c =>
      rw [walkBody]
      exact h.leaf
    | node l r =>
      rw [walkBody]
      cases hchild : (if b then r else l) with
      | leaf c => exact (h.emits hchild).finish fun u _ hu => ih hu
      | node l' r' =>
        obtain ⟨t, hstep, happends, ht⟩ := h.descends hchild
        exact .of_runs (.step hstep) happends (ih ht)

/-- Settles O53: the reference walk decodes whole codes, and the engine's walk follows it. -/
theorem walkDecodesBody : Obligations.WalkDecodesBody := by
  intro tree bits xs s hb hin hq hz hp hcur hst hready hbits hcount hdecode hroom
  have hfinish := walk_finish
    ⟨⟨hb, hin, hq⟩, hp, ⟨hq, hz, hready⟩, hbits, hcount, hst, hcur ▸ hst, .inl ⟨hcur, rfl⟩⟩
  rw [walkBody_of_decodeBody hdecode] at hfinish
  obtain ⟨u, hu, hrun⟩ := hfinish.1 hroom
  have hout : ∀ a, (complete .success u).outByteAt a = u.outByteAt a := complete_outByteAt (.inl rfl)
  refine ⟨complete .success u, hrun, by rw [complete_status, hu.command.status], ?_, fun j hj => ?_, fun a ha => ?_,
    ?_, ?_⟩
  · rw [complete_outLen, if_pos rfl, hu.cursor]
  · rw [hout, hu.outByteAt_inside hj]
  · rw [hout, hu.outByteAt_outside ha]
  · exact (complete_inMem _ u).trans (congrArg State.inMem hu.command :)
  · exact (complete_usedCfg _ u).trans (congrArg State.usedCfg hu.command :)

end Sys2Proof.Machine

/-! ## Huffman: a run of the decompressor -/

namespace Sys2Proof.Reference

open Sys2Proof Sys2Proof.Machine

/-- The parse leaves what it has not read. -/
theorem length_le_of_parseTree_ok {fuel nodes k : Nat} {bits left : List Bool} {t : Reference.Tree}
    (h : parseTree fuel nodes bits = .ok (t, k, left)) : left.length ≤ bits.length := by
  induction fuel generalizing nodes k bits left t with
  | zero => cases h
  | succ fuel ih =>
    obtain ⟨_, ⟨rest, rfl, _, _, _, _, rfl⟩ | ⟨rest, _, _, _, _, rfl, hl, hr, _⟩⟩ := parseTree_ok h
    · rw [List.length_drop, List.length_cons]
      omega
    · have h1 := ih hl
      have h2 := ih hr
      rw [List.length_cons]
      omega

end Sys2Proof.Reference

namespace Sys2Proof.Machine

open Sys2Proof Sys2Proof.Reference

/-- The body's extent and its walk, on the bytes after the tree section (R183, R184). -/
theorem extent_finish {t : Reference.Tree} {nodes cursor : Nat} {s : State} (h : TreeParsed t nodes cursor s) :
    Finish (bodyDecode t (s.inputFrom s.reader.rbyte)).out (bodyDecode t (s.inputFrom s.reader.rbyte)).err s := by
  have hlen := inputFrom_length s s.reader.rbyte
  have hq := h.active.quiet
  have hstep : step s = runFetched exec (fetchHufTrailing s) := h.active.step_phase.trans (runPhase_hufExtent h.phase)
  rcases Nat.lt_or_ge s.reader.rbyte s.srcCount with hlt | hge
  · obtain ⟨e, hread, hqe⟩ := inByte_quiet (k := s.srcCount - 1) hq (by omega) (by simp [h.untouched])
    have hfetch : fetchHufTrailing s = .done (.hufTrailing [s.inByteAt (s.srcCount - 1)]) { s with env := e } := by
      rw [fetchHufTrailing, if_neg (Nat.not_le.mpr hlt), hread, Body.bind_done]
    have hlast : (s.inputFrom s.reader.rbyte).getLast? = some (s.inByteAt (s.srcCount - 1)) := by
      have hindex : s.reader.rbyte + ((s.inputFrom s.reader.rbyte).length - 1) = s.srcCount - 1 := by omega
      rw [List.getLast?_eq_getElem?, List.getElem?_eq_getElem (by omega), inputFrom_getElem, hindex]
    have hexec : step s = exec (.huffmanTrailing (s.inByteAt (s.srcCount - 1))) { s with env := e } := by
      rw [hstep, hfetch]
      rfl
    have happends : Appends [] s { s with env := e } := .nothing rfl rfl rfl hqe
    have hbody : bodyBytes { s with env := e } = (s.inputFrom s.reader.rbyte).length - 1 := by
      rw [hlen]
      rfl
    rw [bodyDecode, hlast]
    simp only
    generalize s.inByteAt (s.srcCount - 1) = sig at hexec
    split
    next hsig => exact .now happends (hexec.trans (exec_huffmanTrailing_corrupt (by omega)))
    next hsig =>
      split
      next hshort => exact .now happends (hexec.trans (exec_huffmanTrailing_corrupt (by omega)))
      next hlong =>
        rw [exec_huffmanTrailing (by omega) (by omega) (by omega)] at hexec
        have happends' : Appends [] s (startWalk sig { s with env := e }) := .nothing rfl rfl rfl hqe
        refine .of_runs (.step hexec) happends' (walk_finish ?_)
        have hcursor : s.bitCursor = 8 * s.reader.rbyte := by rw [State.bitCursor, h.rbit, Nat.add_zero]
        have hbits : s.bitsFrom s.bitCursor = streamBits (s.inputFrom s.reader.rbyte) := by
          rw [hcursor, bitsFrom_byte]
        have hcount : (streamBits (s.inputFrom s.reader.rbyte)).length = 8 * (s.inputFrom s.reader.rbyte).length :=
          streamBits_length _
        refine ⟨happends'.active h.active, rfl, ⟨hqe, h.untouched, by rw [startWalk]; exact h.rbit ▸ Nat.succ_pos 7, .inl h.rbit⟩,
          bitsAt_of_bitsFrom (more := (streamBits (s.inputFrom s.reader.rbyte)).drop
            (8 * ((s.inputFrom s.reader.rbyte).length - 2) + sig.toNat)) ?_ ?_, ?_, h.stands, h.stands, .inl ⟨rfl, rfl⟩⟩
        · show s.bitCursor ≤ 8 * s.srcCount
          omega
        · rw [List.take_append_drop]
          exact hbits
        · show 8 * (bodyBytes { s with env := e } - 1) + sig.toNat = _
          rw [List.length_take, hbody]
          omega
  · have hnil : s.inputFrom s.reader.rbyte = [] := List.length_eq_zero_iff.mp (by omega)
    have hfetch : fetchHufTrailing s = .raised .ioFailure s := if_pos hge
    rw [hnil]
    refine .now (.refl hq) ?_
    rw [hstep, hfetch]
    rfl

/-- The parse of the tree section, the byte boundary and the body, on the bytes after the flag (R180, R182 to R184). -/
theorem tree_finish {bs : List Byte} {s : State} (h : AtNode [] 0 (streamBits bs) s) (hcursor : s.bitCursor = 8)
    (hrest : s.inputFrom 1 = bs) : Finish (treeDecode bs).out (treeDecode bs).err s := by
  rw [treeDecode]
  cases hparse : parseTree (nodeMax + 1) 0 (streamBits bs) with
  | error e => exact parse_error h (by omega) hparse
  | ok result =>
    obtain ⟨t, k, left⟩ := result
    obtain ⟨u, hrun, happends, hparsed⟩ := parse_tree h hparse
    have hlen := inputFrom_length s 1
    have hleft := length_le_of_parseTree_ok hparse
    rw [streamBits_length, ← hrest, hlen] at hleft
    have hwithin := h.left.within
    have hindex : 1 + (s.srcCount - 1 - left.length / 8) = (8 * s.srcCount - left.length + 7) / 8 := by omega
    have htail : bs.drop (bs.length - left.length / 8) = u.inputFrom u.reader.rbyte := by
      rw [happends.command.inputFrom, hparsed.rbyte, ← hrest, inputFrom_drop, hlen, hindex]
    simp only [htail]
    exact .of_runs hrun happends (extent_finish hparsed)

/-- A header that stands next is fetched and run (R86, R180). -/
theorem hufHeader_step {t s : State} {ys bs more : List Byte} {i : Instr} (ht : Started t)
    (h : Stage .hufHeader t ys (bs ++ more) s) (hd : decodeHufHeader bs = .ok i) :
    ∃ e, Appends [] s { s with env := e, inPos := s.inPos + bs.length }
      ∧ step s = exec i { s with env := e, inPos := s.inPos + bs.length } := by
  obtain ⟨e, hfetch⟩ := fetchHufHeader_quiet hd h.wrote.quiet (h.untouched ht) h.holdsNext
  have hq : ({ s with env := e, inPos := s.inPos + bs.length } : State).Quiet := by
    obtain ⟨flag, s1, h1, h2⟩ := Body.bind_eq_done.mp hfetch
    obtain ⟨rest, s2, h3, h4⟩ := Body.bind_eq_done.mp h2
    cases h4
    exact nextBytes_stays_quiet h3 (nextByte_stays_quiet h1 h.wrote.quiet)
  have hlt : s.inPos < s.srcCount := by
    cases bs with
    | nil => cases hd
    | cons flag rest => exact Stage.inPos_lt (bs := rest ++ more) h
  refine ⟨e, .nothing rfl rfl rfl hq, ?_⟩
  rw [h.step_phase ht, runPhase_hufHeader h.phase, runWhileInput, if_pos hlt, hfetch]
  simp only [runFetched, decode, hd]

end Sys2Proof.Machine

/-! ### From the header to the end -/

namespace Sys2Proof.Machine

open Sys2Proof Sys2Proof.Reference

/-- A single-symbol header whose bytes are not all there (R232). -/
theorem single_truncated {t : State} {rest : List Byte} (ht : Started t) (h : Stage .hufHeader t [] (1#8 :: rest) t)
    (hshort : rest.length < 4) : Ends (DecodesTo t.status.codec { out := [], err := .ioFailure } t t) t := by
  obtain ⟨e, hflag, hqe⟩ := nextByte_quiet ht.quiet ht.hazards (Stage.holdsNext (bs := [1#8]) h)
  have hrest : ({ t with env := e, inPos := t.inPos + 1 } : State).rest = rest := (inputFrom_cons h.rest).2.2
  obtain ⟨u, hu, frame⟩ := nextBytes_short (n := 4) (s := { t with env := e, inPos := t.inPos + 1 }) hqe ht.hazards
    (hrest.symm ▸ hshort)
  have hmore : hufHeaderRest 1#8 = 4 := rfl
  have hend : step t = .next (complete .ioFailure u) := by
    rw [h.step_phase ht, runPhase_hufHeader h.phase, runWhileInput, if_pos h.inPos_lt, fetchHufHeader, hflag,
      Body.bind_done, hmore, hu, Body.bind_raised, runFetched]
  have hcommand : SameCommand t u :=
    SameCommand.trans (s := { t with env := e, inPos := t.inPos + 1 }) rfl frame.sameCommand
  exact .now hend (.of_error (by decide) (Nat.zero_le _) (hcommand.failed ht.busy (by decide)))

/-- A single-symbol header that is all there (R181). -/
theorem single_finish {t : State} {high c n1 n0 : Byte} {more : List Byte} (ht : Started t)
    (h : Stage .hufHeader t [] ([1#8, high, c, n1, n0] ++ more) t) :
    Finish (singleDecode (high :: c :: n1 :: n0 :: more)).out (singleDecode (high :: c :: n1 :: n0 :: more)).err t := by
  obtain ⟨e, happends, hstep⟩ := hufHeader_step ht h (decodeHufHeader_single high c n1 n0)
  have hcount : t.srcCount = 5 + more.length := by
    have hlen := inputFrom_length t t.inPos
    rw [show t.inputFrom t.inPos = _ from h.rest, ht.inPos, List.length_append] at hlen
    exact hlen.symm
  rw [singleDecode]
  split
  next hbad =>
    have hcorrupt : 5 < t.srcCount ∨ high ≠ 0#8 := hbad.imp_left fun hmore => by
      have := List.length_pos_of_ne_nil hmore
      omega
    refine .now happends (hstep.trans ?_)
    rw [exec, execHuffmanSingle, repeatSymbol_corrupt (s := { t with env := e, inPos := _ }) hcorrupt, settle_raised]
  next hgood =>
    rw [not_or, not_not, not_not] at hgood
    obtain ⟨rfl, rfl⟩ := hgood
    have hlen : t.srcCount ≤ 5 := by rw [hcount]; exact Nat.le_refl 5
    rw [exec, execHuffmanSingle, repeatSymbol_repeats (s := { t with env := e, inPos := _ }) hlen] at hstep
    exact .of_step ht.active hstep (Body.Emits.after happends (emitAll_emits happends.quiet _))

/-- The decompressor's run from its start: the decoding of the artifact (R180 to R184, R237). -/
theorem hufDecode_ends {t : State} {xs : List Byte} (ht : Started t) (hp : t.phase = .hufHeader) (hrest : t.rest = xs) :
    Ends (DecodesTo t.status.codec (hufDecode xs) t t) t := by
  have hstage : Stage .hufHeader t [] xs t := hrest ▸ ht.stage hp
  cases xs with
  | nil =>
    refine Finish.decodes (d := hufDecode []) ht (.now (.refl ht.quiet) ?_)
    rw [ht.active.step_phase, runPhase_hufHeader hp, runWhileInput, if_neg hstage.ended]
    rfl
  | cons flag rest =>
    rcases flag_cases flag with rfl | rfl | hreserved
    · obtain ⟨e, happends, hstep⟩ := hufHeader_step ht (bs := [0#8]) hstage decodeHufHeader_treeFlag
      obtain ⟨hpos, _, hmore⟩ := inputFrom_cons hrest
      rw [ht.inPos] at hpos hmore
      refine Finish.decodes (d := hufDecode (0#8 :: rest)) ht (.of_runs (.step hstep)
        (happends.trans (.nothing rfl rfl rfl happends.quiet)) ?_)
      have hbits : t.bitsFrom 8 = streamBits rest := by rw [← hmore]; exact bitsFrom_byte t 1
      refine tree_finish (s := { t with
          env := e
          inPos := t.inPos + [0#8].length
          reader := { t.reader with rbyte := 1, rbit := 0 }
          huf := { t.huf with nodes := 0, arena := [], frames := [] }
          phase := .hufParse })
        ⟨⟨ht.busy, ht.inputs, happends.quiet⟩, rfl, rfl, rfl,
          ⟨happends.quiet, ht.hazards, Nat.succ_pos 7, .inl rfl⟩, ?_, hbits⟩ rfl hmore
      show 8 ≤ 8 * t.srcCount
      omega
    · match rest, hstage with
      | high :: c :: n1 :: n0 :: more, hstage =>
        exact (single_finish ht hstage).decodes (d := hufDecode (1#8 :: high :: c :: n1 :: n0 :: more)) ht
      | [], hstage | [_], hstage | [_, _], hstage | [_, _, _], hstage =>
        exact single_truncated ht hstage (by simp)
    · obtain ⟨h0, h1⟩ := reservedFlag_ne hreserved
      obtain ⟨e, happends, hstep⟩ := hufHeader_step ht (bs := [flag]) hstage (decodeHufHeader_reserved hreserved)
      have hdecode : hufDecode (flag :: rest) = { out := [], err := .corruptStream } := by
        rw [hufDecode, if_neg h1, if_neg h0]
      rw [hdecode]
      exact Finish.decodes (d := { out := [], err := .corruptStream }) ht (.now happends hstep)

/-- A decompressor of Huffman artifacts, whichever command launched it (R105, R107, R180). -/
theorem Launches.hufDecodes {i : Instr} {op : BitVec 4} {s : State} (h : Launches i op .huffman noPair .hufHeader s)
    (hb : s.status.busy = false) (hq : s.Quiet) (hin : s.inputs = []) (hn : s.srcLen.toNat ≤ s.params.inSize) :
    ∃ t u, exec i s = .next t ∧ IssuedBody op .huffman noPair .hufHeader s t ∧ Runs t u
      ∧ DecodesTo .huffman (hufDecode (s.inBytes s.srcLen.toNat)) s t u := by
  refine h.decodes hb hq hin hn fun t ht hissued => ?_
  obtain ⟨_, _, _, _, hp, _⟩ := id hissued
  exact hufDecode_ends ht hp hissued.rest

/-- Settles O43: the two commands launch the same body. -/
theorem hufDecompressRunDecodesArtifact : Obligations.HufDecompressRunDecodesArtifact := by
  intro s hb hq hin hn
  refine ⟨(launches_direct rfl).hufDecodes hb hq hin hn, fun htag => ?_⟩
  have hlaunch : Launches .selDecompress 2#4 .huffman noPair .hufHeader s := launches_selDecompress (by rw [htag]; rfl)
  exact hlaunch.hufDecodes hb hq hin hn

end Sys2Proof.Machine

/-! ## Huffman: the distinct symbols, the leaves and the tree of the reference -/

namespace Sys2Proof.Reference

open Sys2Proof Sys2Proof.Machine

theorem mem_symbols {c : Byte} {xs : List Byte} : c ∈ symbols xs ↔ c ∈ xs := by
  have hall : c ∈ (List.range alphabet).map fun k => BitVec.ofNat 8 k :=
    List.mem_map.mpr ⟨c.toNat, List.mem_range.mpr c.isLt, by rw [BitVec.ofNat_toNat, BitVec.setWidth_eq]⟩
  rw [symbols, List.mem_filter, decide_eq_true_eq]
  exact and_iff_right hall

theorem nodup_symbols (xs : List Byte) : (symbols xs).Nodup := by
  refine List.Nodup.filter _ (List.Nodup.map_on (fun a ha b hb hab => ?_) List.nodup_range)
  have ha' : a < 2 ^ 8 := List.mem_range.mp ha
  have hb' : b < 2 ^ 8 := List.mem_range.mp hb
  have htoNat := congrArg BitVec.toNat hab
  rwa [BitVec.toNat_ofNat, BitVec.toNat_ofNat, Nat.mod_eq_of_lt ha', Nat.mod_eq_of_lt hb'] at htoNat

theorem length_symbols_le (xs : List Byte) : (symbols xs).length ≤ alphabet := by
  have h := (List.filter_sublist (l := (List.range alphabet).map fun k => BitVec.ofNat 8 k)
    (p := fun c => decide (c ∈ xs))).length_le
  rwa [List.length_map, List.length_range] at h

theorem symbols_eq_nil_iff {xs : List Byte} : symbols xs = [] ↔ xs = [] := by
  simp only [List.eq_nil_iff_forall_not_mem, mem_symbols]

/-- One distinct symbol: every byte is it. -/
theorem symbols_eq_singleton_iff {c : Byte} {xs : List Byte} :
    symbols xs = [c] ↔ xs ≠ [] ∧ ∀ d ∈ xs, d = c := by
  constructor
  · intro h
    refine ⟨fun hnil => ?_, fun d hd => ?_⟩
    · rw [symbols_eq_nil_iff.mpr hnil] at h
      cases h
    · rw [← mem_symbols, h] at hd
      exact List.mem_singleton.mp hd
  · rintro ⟨hne, hall⟩
    obtain ⟨d, hd⟩ := List.exists_mem_of_ne_nil xs hne
    refine List.perm_singleton.mp ((List.perm_ext_iff_of_nodup (nodup_symbols xs) (List.nodup_singleton c)).mpr fun a => ?_)
    rw [mem_symbols, List.mem_singleton]
    exact ⟨hall a, fun ha => ha ▸ hall d hd ▸ hd⟩

/-! ### The least of a queue, and the tree build -/

theorem least_snd_length (a : Weighted) (q : List Weighted) : (least a q).2.length = q.length := by
  have h := (least_perm a q).length_eq
  rwa [List.length_cons, List.length_cons, Nat.add_right_cancel_iff] at h

/-- No element of the queue is before the least. -/
theorem not_before_least (a : Weighted) (q : List Weighted) : ∀ w ∈ a :: q, w.before (least a q).1 = false := by
  induction q generalizing a with
  | nil =>
    intro w hw
    rw [List.mem_singleton.mp hw]
    exact keyLess_irrefl _
  | cons b q ih =>
    intro w hw
    unfold least
    split
    next hba =>
      rcases List.mem_cons.mp hw with rfl | hw
      · exact keyLess_false_trans (keyLess_asymm hba) (ih b b List.mem_cons_self)
      · exact ih b w hw
    next hba =>
      have hab := ih a a List.mem_cons_self
      rcases List.mem_cons.mp hw with rfl | hw
      · exact hab
      · rcases List.mem_cons.mp hw with rfl | hw
        · exact keyLess_false_trans (Bool.eq_false_of_not_eq_true hba) hab
        · exact ih a w (List.mem_cons_of_mem _ hw)

/-- The queue after one merge (R175): the parent of the two least and the others. -/
def mergeLeast (seq : Nat) (first second : Weighted × List Weighted) : List Weighted :=
  { freq := first.1.freq + second.1.freq, seq := seq, tree := .node first.1.tree second.1.tree } :: second.2

/-- One turn of the build: the least, the least of the others, and the merge (R175). -/
theorem buildTree_merge (fuel seq : Nat) (a b : Weighted) (rest : List Weighted) :
    ∃ c cs, (least a (b :: rest)).2 = c :: cs
      ∧ buildTree (fuel + 1) seq (a :: b :: rest)
        = buildTree fuel (seq + 1) (mergeLeast seq (least a (b :: rest)) (least c cs)) := by
  have hlen := least_snd_length a (b :: rest)
  obtain ⟨c, cs, hcs⟩ := List.exists_cons_of_length_pos (l := (least a (b :: rest)).2) (by rw [hlen]; exact Nat.succ_pos _)
  refine ⟨c, cs, hcs, ?_⟩
  rw [buildTree]
  split
  next hnil =>
    rw [hcs] at hnil
    cases hnil
  next c' cs' hcons =>
    rw [hcs] at hcons
    cases hcons
    rfl

/-- With a merge for each element but one, the build answers a tree. -/
theorem buildTree_some {fuel seq : Nat} {ws : List Weighted} (hne : ws ≠ []) (hf : ws.length ≤ fuel + 1) :
    ∃ t, buildTree fuel seq ws = some t := by
  induction fuel generalizing seq ws with
  | zero =>
    obtain ⟨a, rfl⟩ := List.length_eq_one_iff.mp (Nat.le_antisymm hf (List.length_pos_of_ne_nil hne))
    exact ⟨a.tree, rfl⟩
  | succ fuel ih =>
    match ws, hne, hf with
    | [a], _, _ => exact ⟨a.tree, rfl⟩
    | a :: b :: rest, _, hf =>
      obtain ⟨c, cs, hcs, hturn⟩ := buildTree_merge fuel seq a b rest
      have hlen := least_snd_length a (b :: rest)
      have hlen' := least_snd_length c cs
      rw [hcs, List.length_cons, List.length_cons] at hlen
      simp only [List.length_cons] at hf
      rw [hturn]
      refine ih (List.cons_ne_nil _ _) ?_
      rw [mergeLeast, List.length_cons]
      omega

/-! ### The leaves of a tree -/

/-- The symbols at the leaves of a tree, from left to right. -/
def Tree.leafSymbols : Reference.Tree → List Byte
  | .leaf c => [c]
  | .node l r => l.leafSymbols ++ r.leafSymbols

theorem paths_map_fst (t : Reference.Tree) (p : List Bool) : (t.paths p).map Prod.fst = t.leafSymbols := by
  induction t generalizing p with
  | leaf c => rfl
  | node l r ihl ihr => rw [Tree.paths, List.map_append, ihl, ihr, Tree.leafSymbols]

/-- The tree's leaves are those of the queue. -/
theorem buildTree_leafSymbols {fuel seq : Nat} {ws : List Weighted} {t : Reference.Tree}
    (h : buildTree fuel seq ws = some t) : t.leafSymbols.Perm (ws.flatMap fun w => w.tree.leafSymbols) := by
  induction fuel generalizing seq ws t with
  | zero =>
    match ws, h with
    | [a], h =>
      cases h
      rw [List.flatMap_singleton]
  | succ fuel ih =>
    match ws, h with
    | [a], h =>
      cases h
      rw [List.flatMap_singleton]
    | a :: b :: rest, h =>
      obtain ⟨c, cs, hcs, hturn⟩ := buildTree_merge fuel seq a b rest
      rw [hturn] at h
      have hfirst := least_perm a (b :: rest)
      have hsecond := least_perm c cs
      rw [← hcs] at hsecond
      have hqueue : ((least a (b :: rest)).1 :: (least c cs).1 :: (least c cs).2).Perm (a :: b :: rest) :=
        (hsecond.cons _).trans hfirst
      refine (ih h).trans (List.Perm.trans (List.Perm.of_eq ?_) (hqueue.flatMap_right _))
      simp only [mergeLeast, List.flatMap_cons, Tree.leafSymbols, List.append_assoc]

theorem leaves_length (xs : List Byte) : (leaves xs).length = (symbols xs).length := by
  rw [leaves, List.length_map, List.length_zipIdx]

/-- The leaves of the queue at the start are the distinct symbols. -/
theorem leaves_leafSymbols (xs : List Byte) : ((leaves xs).flatMap fun w => w.tree.leafSymbols) = symbols xs := by
  have hsymbols : ∀ (cs : List Byte) (n : Nat),
      (cs.zipIdx n).flatMap (fun e => Tree.leafSymbols (.leaf e.1)) = cs := by
    intro cs
    induction cs with
    | nil => intro n; rfl
    | cons c cs ih => intro n; rw [List.zipIdx_cons, List.flatMap_cons, ih]; rfl
  rw [leaves, List.flatMap_map]
  exact hsymbols (symbols xs) 0

/-- The tree of an input with a symbol: its leaves are the distinct symbols (R174, R175). -/
theorem hufTree_leafSymbols {xs : List Byte} {t : Reference.Tree} (h : hufTree xs = some t) :
    t.leafSymbols.Perm (symbols xs) :=
  leaves_leafSymbols xs ▸ buildTree_leafSymbols h

theorem hufTree_some {xs : List Byte} (h : symbols xs ≠ []) : ∃ t, hufTree xs = some t := by
  have hlen := leaves_length xs
  have hle := length_symbols_le xs
  exact buildTree_some (List.ne_nil_of_length_pos (by rw [hlen]; exact List.length_pos_of_ne_nil h)) (by omega)

/-! ### The codes of a tree -/

theorem lookup_of_mem {c : Byte} {p : List Bool} {l : List (Byte × List Bool)} (hnodup : (l.map Prod.fst).Nodup)
    (hmem : (c, p) ∈ l) : l.lookup c = some p := by
  induction l with
  | nil => cases hmem
  | cons e l ih =>
    obtain ⟨d, q⟩ := e
    rw [List.map_cons, List.nodup_cons] at hnodup
    obtain ⟨hnew, hnodup⟩ := hnodup
    rcases List.mem_cons.mp hmem with heq | hmem
    · cases heq
      exact List.lookup_cons_self
    · have hne : c ≠ d := fun h => hnew (List.mem_map.mpr ⟨(c, p), hmem, h⟩)
      rw [List.lookup_cons, beq_false_of_ne hne]
      exact ih hnodup hmem

/-- The code of a leaf's symbol is its path (R176). -/
theorem code_of_mem {t : Reference.Tree} (hnodup : t.leafSymbols.Nodup) {c : Byte} {p : List Bool}
    (hmem : (c, p) ∈ t.paths []) : t.code c = p := by
  rw [Tree.code, lookup_of_mem (by rwa [paths_map_fst]) hmem, Option.getD_some]

theorem exists_path {t : Reference.Tree} {c : Byte} (h : c ∈ t.leafSymbols) : ∃ p, (c, p) ∈ t.paths [] := by
  rw [← paths_map_fst t []] at h
  obtain ⟨⟨d, p⟩, hmem, rfl⟩ := List.mem_map.mp h
  exact ⟨p, hmem⟩

/-- The walk down a leaf's path answers its symbol (R184, R185). -/
theorem walk_path {t : Reference.Tree} {c : Byte} {p q : List Bool} (h : (c, q) ∈ t.paths p) (bits : List Bool) :
    ∃ path, q = p ++ path ∧ t.walk (path ++ bits) = some (c, bits) := by
  induction t generalizing p with
  | leaf d =>
    cases List.mem_singleton.mp h
    exact ⟨[], (List.append_nil _).symm, rfl⟩
  | node l r ihl ihr =>
    rcases List.mem_append.mp h with hl | hr
    · obtain ⟨path, hq, hwalk⟩ := ihl hl
      exact ⟨false :: path, by rw [hq, List.append_assoc]; rfl, hwalk⟩
    · obtain ⟨path, hq, hwalk⟩ := ihr hr
      exact ⟨true :: path, by rw [hq, List.append_assoc]; rfl, hwalk⟩

/-- A tree with two distinct leaves or more branches at its root. -/
theorem exists_node_of_leafSymbols {t : Reference.Tree} (h : 2 ≤ t.leafSymbols.length) : ∃ l r, t = .node l r := by
  cases t with
  | leaf c => exact absurd h (by simp [Tree.leafSymbols])
  | node l r => exact ⟨l, r, rfl⟩

/-- The walk of a symbol's code from the root (R185). -/
theorem walk_code {t : Reference.Tree} (hnodup : t.leafSymbols.Nodup) {c : Byte} (hc : c ∈ t.leafSymbols)
    (bits : List Bool) : t.walk (t.code c ++ bits) = some (c, bits) := by
  obtain ⟨q, hmem⟩ := exists_path hc
  obtain ⟨path, rfl, hwalk⟩ := walk_path hmem bits
  rw [code_of_mem hnodup hmem]
  exact hwalk

/-- No code of a tree that branches is empty. -/
theorem code_ne_nil {l r : Reference.Tree} (hnodup : (Reference.Tree.node l r).leafSymbols.Nodup) {c : Byte}
    (hc : c ∈ (Reference.Tree.node l r).leafSymbols) : (Reference.Tree.node l r).code c ≠ [] := fun hnil => by
  have hwalk := walk_code hnodup hc []
  rw [hnil] at hwalk
  cases hwalk

end Sys2Proof.Reference

/-! ## Huffman: the machine's tree build follows the reference's

The machine's queue holds arena indices, the reference's holds the trees themselves. Both are taken as multisets (`Holds`): the keys are
distinct, so both take the same least element whatever the order of the lists. -/

namespace Sys2Proof.Machine

open Sys2Proof Sys2Proof.Reference

/-- The node at an index has a queued tree's key, and the tree stands there (R47, R49). -/
def Weighs (arena : List Node) (i : Nat) (w : Weighted) : Prop :=
  (∃ n, arena[i]? = some n ∧ n.key = (w.freq, w.seq)) ∧ Stands arena i w.tree

theorem Weighs.mono {arena arena' : List Node} (h : arena <+: arena') {i : Nat} {w : Weighted}
    (hw : Weighs arena i w) : Weighs arena' i w := by
  obtain ⟨⟨n, hn, hkey⟩, hst⟩ := hw
  refine ⟨⟨n, ?_, hkey⟩, hst.mono h⟩
  obtain ⟨more, rfl⟩ := h
  rw [List.getElem?_append_left (List.getElem?_eq_some_iff.mp hn).1, hn]

theorem Weighs.key {arena : List Node} {i : Nat} {w : Weighted} (h : Weighs arena i w) {n : Node}
    (hn : arena[i]? = some n) : n.key = (w.freq, w.seq) := by
  obtain ⟨⟨m, hm, hkey⟩, _⟩ := h
  cases hm.symm.trans hn
  exact hkey

theorem Weighs.inside {arena : List Node} {i : Nat} {w : Weighted} (h : Weighs arena i w) : i < arena.length := by
  obtain ⟨⟨n, hn, _⟩, _⟩ := h
  exact (List.getElem?_eq_some_iff.mp hn).1

/-- The machine's queue and the reference's hold the same trees. -/
def Holds (arena : List Node) (queue : List Nat) (ws : List Weighted) : Prop :=
  Multiset.Rel (Weighs arena) (queue : Multiset Nat) (ws : Multiset Weighted)

theorem Holds.perm {arena : List Node} {queue queue' : List Nat} {ws ws' : List Weighted} (h : Holds arena queue ws)
    (hq : queue'.Perm queue) (hw : ws'.Perm ws) : Holds arena queue' ws' := by
  rw [Holds, Multiset.coe_eq_coe.mpr hq, Multiset.coe_eq_coe.mpr hw]
  exact h

theorem Holds.mono {arena arena' : List Node} (h : arena <+: arena') {queue : List Nat} {ws : List Weighted}
    (hq : Holds arena queue ws) : Holds arena' queue ws :=
  Multiset.Rel.mono hq fun _ _ _ _ hw => hw.mono h

theorem Holds.length_eq {arena : List Node} {queue : List Nat} {ws : List Weighted} (h : Holds arena queue ws) :
    queue.length = ws.length := by
  simpa using Multiset.card_eq_card_of_rel h

theorem Holds.inside {arena : List Node} {queue : List Nat} {ws : List Weighted} (h : Holds arena queue ws) :
    ∀ i ∈ queue, i < arena.length := fun i hi => by
  obtain ⟨w, _, hw⟩ := Multiset.exists_mem_of_rel_of_mem h (Multiset.mem_coe.mpr hi)
  exact hw.inside

theorem Holds.exists_index {arena : List Node} {queue : List Nat} {ws : List Weighted} (h : Holds arena queue ws)
    {w : Weighted} (hw : w ∈ ws) : ∃ i ∈ queue, Weighs arena i w := by
  obtain ⟨i, hi, hiw⟩ := Multiset.exists_mem_of_rel_of_mem (Multiset.rel_flip.mpr h) (Multiset.mem_coe.mpr hw)
  exact ⟨i, Multiset.mem_coe.mp hi, hiw⟩

/-- The keys of the queue are distinct: its sequence numbers are. -/
def DistinctSeqs (ws : List Weighted) : Prop := (ws.map Weighted.seq).Nodup

theorem DistinctSeqs.eq {ws : List Weighted} (h : DistinctSeqs ws) {v w : Weighted} (hv : v ∈ ws) (hw : w ∈ ws)
    (hseq : v.seq = w.seq) : v = w :=
  List.inj_on_of_nodup_map h hv hw hseq

theorem DistinctSeqs.perm {ws ws' : List Weighted} (h : DistinctSeqs ws) (hp : ws'.Perm ws) : DistinctSeqs ws' :=
  (hp.map _).nodup_iff.mpr h

/-- Of two keys neither of which is less, the sequence numbers are the same. -/
theorem seq_eq_of_not_before {v w : Weighted} (h1 : v.before w = false) (h2 : w.before v = false) : v.seq = w.seq := by
  rw [Weighted.before, keyLess_eq_false_iff] at h1 h2
  simp only at h1 h2
  omega

/-- The machine's least entry is the reference's, and the others are its others. -/
theorem Holds.take_least {arena : List Node} {queue q : List Nat} {i : Nat} {n : Node} {ws rest : List Weighted}
    {w : Weighted} (h : Holds arena queue ws) (hd : DistinctSeqs ws) (hq : (i :: q).Perm queue)
    (hi : LeastAt arena queue i n) (hws : (w :: rest).Perm ws) (hw : ∀ v ∈ ws, v.before w = false) :
    Weighs arena i w ∧ Holds arena q rest := by
  have htaken := h.perm hq hws
  rw [Holds, ← Multiset.cons_coe, Multiset.rel_cons_left] at htaken
  obtain ⟨v, others, hv, hothers, heq⟩ := htaken
  rw [← Multiset.cons_coe] at heq
  have hvmem : v ∈ ws := hws.mem_iff.mp (Multiset.mem_coe.mp (by rw [← Multiset.cons_coe, heq]; exact Multiset.mem_cons_self v _))
  have hwmem : w ∈ ws := hws.mem_iff.mp List.mem_cons_self
  have hleast : w.before v = false := by
    obtain ⟨j, hj, hjw⟩ := h.exists_index hwmem
    obtain ⟨⟨m, hm, hkey⟩, _⟩ := id hjw
    have hnot := hi.2 j hj m hm
    rwa [hkey, hv.key hi.1] at hnot
  have hsame : v = w := hd.eq hvmem hwmem (seq_eq_of_not_before (hw v hvmem) hleast)
  subst hsame
  rw [← (Multiset.cons_inj_right v).mp heq] at hothers
  exact ⟨hv, hothers⟩

/-- `GenCodes` is about to start over the tree (R176), and nothing has been written since `s`. -/
structure TreeBuilt (tree : Reference.Tree) (s u : State) : Prop where
  appends : Appends [] s u
  phase : u.phase = .hufCodes
  stands : Stands u.huf.arena u.huf.root tree
  todo : u.huf.codeTodo = [(u.huf.root, [])]
  codes : u.huf.codes = s.huf.codes

/-- The tree build from a queue that holds the reference's (R175). -/
theorem build_runs {fuel : Nat} {ws : List Weighted} {tree : Reference.Tree} {s : State} (hs : Active s)
    (hp : s.phase = .hufBuild) (hq : Holds s.huf.arena s.huf.queue ws) (hd : DistinctSeqs ws)
    (hseq : ∀ w ∈ ws, w.seq < s.huf.nextSeq) (hb : buildTree fuel s.huf.nextSeq ws = some tree) :
    ∃ u, Runs s u ∧ TreeBuilt tree s u := by
  have hstep : ∀ {s : State}, Active s → s.phase = .hufBuild → step s = hufBuildStep s := fun hs hp =>
    hs.step_phase.trans (runPhase_hufBuild hp)
  have hone : ∀ {s : State} {a : Weighted}, Active s → s.phase = .hufBuild → Holds s.huf.arena s.huf.queue [a] →
      ∃ u, Runs s u ∧ TreeBuilt a.tree s u := fun {s a} hs hp hq => by
    obtain ⟨i, hqueue⟩ := List.length_eq_one_iff.mp hq.length_eq
    obtain ⟨j, hj, hw⟩ := hq.exists_index List.mem_cons_self
    rw [hqueue, List.mem_singleton] at hj
    subst hj
    exact ⟨_, .step ((hstep hs hp).trans (hufBuildStep_root hqueue hw.inside)), .nothing rfl rfl rfl hs.quiet, rfl,
      hw.2, rfl, rfl⟩
  induction fuel generalizing ws s with
  | zero =>
    match ws, hb with
    | [a], hb =>
      cases hb
      exact hone hs hp hq
  | succ fuel ih =>
    match ws, hb with
    | [a], hb =>
      cases hb
      exact hone hs hp hq
    | a :: b :: rest, hb =>
      obtain ⟨c, cs, hcs, hturn⟩ := buildTree_merge fuel s.huf.nextSeq a b rest
      rw [hturn] at hb
      have hlen := hq.length_eq
      simp only [List.length_cons] at hlen
      obtain ⟨i, j, ni, nj, q, hperm, hi, hj, hbuild⟩ := hufBuildStep_least hq.inside (by omega)
      have hfirst := least_perm a (b :: rest)
      obtain ⟨hwi, hq1⟩ := hq.take_least hd hperm hi hfirst (not_before_least a (b :: rest))
      have hd1 : DistinctSeqs (c :: cs) := hcs ▸ (List.nodup_cons.mp (hd.perm hfirst)).2
      rw [hcs] at hq1
      have hsecond := least_perm c cs
      obtain ⟨hwj, hq2⟩ := hq1.take_least hd1 (.refl _) hj hsecond (not_before_least c cs)
      have hd2 : DistinctSeqs (least c cs).2 := (List.nodup_cons.mp (hd1.perm hsecond)).2
      have hold : ∀ w ∈ (least c cs).2, w.seq < s.huf.nextSeq := fun w hw =>
        hseq w (hfirst.mem_iff.mp (List.mem_cons_of_mem _ (hcs ▸ hsecond.mem_iff.mp (List.mem_cons_of_mem _ hw))))
      have hgrow : s.huf.arena <+: (mergeNodes i j q ni nj s.huf).arena := List.prefix_append _ _
      have hparent : Weighs (mergeNodes i j q ni nj s.huf).arena s.huf.arena.length
          { freq := (least a (b :: rest)).1.freq + (least c cs).1.freq, seq := s.huf.nextSeq
            tree := .node (least a (b :: rest)).1.tree (least c cs).1.tree } := by
        refine ⟨⟨_, List.getElem?_concat_length, ?_⟩, _, i, j, _, List.getElem?_concat_length, hwi.2.mono hgrow,
          hwj.2.mono hgrow⟩
        rw [Node.key, hwi.key hi.1, hwj.key hj.1]
      have hq3 : Holds (mergeNodes i j q ni nj s.huf).arena (mergeNodes i j q ni nj s.huf).queue
          (mergeLeast s.huf.nextSeq (least a (b :: rest)) (least c cs)) := by
        have hcons : Holds (mergeNodes i j q ni nj s.huf).arena (s.huf.arena.length :: q)
            (mergeLeast s.huf.nextSeq (least a (b :: rest)) (least c cs)) := Multiset.Rel.cons hparent (hq2.mono hgrow)
        exact hcons.perm (List.perm_append_singleton _ _) (.refl _)
      have hd3 : DistinctSeqs (mergeLeast s.huf.nextSeq (least a (b :: rest)) (least c cs)) := by
        refine List.nodup_cons.mpr ⟨fun hmem => ?_, hd2⟩
        obtain ⟨w, hw, hwseq⟩ := List.mem_map.mp hmem
        exact absurd hwseq (hold w hw).ne
      obtain ⟨u, hrun, happends, hphase, hstands, htodo, hcodes⟩ := ih
        (s := { s with huf := mergeNodes i j q ni nj s.huf }) (hs.withHuf _) hp hq3 hd3
        (List.forall_mem_cons.mpr ⟨Nat.lt_succ_self _, fun w hw => (hold w hw).trans (Nat.lt_succ_self _)⟩) hb
      exact ⟨u, .of_step ((hstep hs hp).trans hbuild) hrun, (Appends.withHuf hs.quiet _).trans happends, hphase, hstands,
        htodo, hcodes⟩

end Sys2Proof.Machine

/-! ## Huffman: a run of the compressor -/

namespace Sys2Proof.Machine

open Sys2Proof Sys2Proof.Reference

/-! ### Pass 1 -/

theorem countSymbol_getD {freq : List Nat} (hlen : freq.length = 256) (c d : Byte) :
    (countSymbol freq c).getD d.toNat 0 = freq.getD d.toNat 0 + if c = d then 1 else 0 := by
  have hin : c.toNat < freq.length := hlen ▸ c.isLt
  rw [countSymbol, List.getD_eq_getElem?_getD]
  split
  next h =>
    subst h
    rw [List.getElem?_set_self hin, Option.getD_some]
  next h =>
    have hne : c.toNat ≠ d.toNat := fun heq => h (BitVec.eq_of_toNat_eq heq)
    rw [List.getElem?_set_ne hne, ← List.getD_eq_getElem?_getD, Nat.add_zero]

/-- Counting the bytes of a list adds their counts (R171). -/
theorem foldl_countSymbol_getD (xs : List Byte) {freq : List Nat} (hlen : freq.length = 256) (d : Byte) :
    (xs.foldl countSymbol freq).getD d.toNat 0 = freq.getD d.toNat 0 + xs.count d := by
  induction xs generalizing freq with
  | nil => rfl
  | cons c cs ih =>
    rw [List.foldl_cons, ih (by rw [countSymbol_length, hlen]), countSymbol_getD hlen, List.count_cons, Nat.add_assoc,
      Nat.add_comm (List.count d cs)]
    simp only [beq_iff_eq]

/-- The frequency table after pass 1 (R171). -/
def countedTable (xs : List Byte) : List Nat := xs.foldl countSymbol HufWork.init.freq

theorem countedTable_getD (xs : List Byte) (c : Byte) : (countedTable xs).getD c.toNat 0 = xs.count c := by
  have hzero : HufWork.init.freq.getD c.toNat 0 = 0 := by
    simp only [HufWork.init, List.getD_eq_getElem?_getD, List.getElem?_replicate]
    split <;> rfl
  rw [countedTable, foldl_countSymbol_getD xs HufWork.init_freq_length, hzero, Nat.zero_add]

/-- The counted symbols in ascending order are the input's (R174). -/
theorem presentSymbols_countedTable (xs : List Byte) : presentSymbols (countedTable xs) = symbols xs := by
  rw [presentSymbols, symbols, List.filter_map]
  congr 1
  refine List.filter_congr fun k hk => ?_
  have hk' : k < 2 ^ 8 := List.mem_range.mp hk
  have hcount := countedTable_getD xs (BitVec.ofNat 8 k)
  rw [BitVec.toNat_ofNat, Nat.mod_eq_of_lt hk'] at hcount
  simp only [Function.comp, hcount, List.count_pos_iff]

/-- The state after pass 1: the input is read, and its symbols are counted (R171). -/
structure Counted (t : State) (xs : List Byte) (s : State) : Prop where
  stage : Stage .hufCount t [] [] s
  huf : s.huf = { HufWork.init with freq := countedTable xs }
  writer : s.writer = t.writer

/-- Pass 1 from any point of the input (R171). -/
theorem count_runs {t s : State} {xs : List Byte} (ht : Started t) (h : Stage .hufCount t [] xs s) :
    ∃ u, Runs s u ∧ Stage .hufCount t [] [] u ∧ u.huf = { s.huf with freq := xs.foldl countSymbol s.huf.freq }
      ∧ u.writer = s.writer := by
  induction xs generalizing s with
  | nil => exact ⟨s, .refl s, h, rfl, rfl⟩
  | cons c cs ih =>
    obtain ⟨e, hread, hqe⟩ := inByte_inputFrom h.wrote.quiet (h.untouched ht) h.rest
    have hstep : step s = .next
        { s with env := e, huf := { s.huf with freq := countSymbol s.huf.freq c }, inPos := s.inPos + 1 } := by
      rw [h.step_phase ht, runPhase_hufCount h.phase, hufCountStep, if_pos h.inPos_lt, hread]
      rfl
    have hmoved : Stage .hufCount t [] cs
        { s with env := e, huf := { s.huf with freq := countSymbol s.huf.freq c }, inPos := s.inPos + 1 } :=
      h.move (n := 1) h.phase (h.wrote.goes rfl ⟨rfl, rfl⟩ hqe) rfl rfl (by simp)
    obtain ⟨u, hrun, hu, hhuf, hwriter⟩ := ih hmoved
    exact ⟨u, .of_step hstep hrun, hu, hhuf, hwriter⟩

/-- Pass 1 from the start of the body. -/
theorem counts_input {t : State} {xs : List Byte} (ht : Started t) (hp : t.phase = .hufCount) (hrest : t.rest = xs)
    (hhuf : t.huf = HufWork.init) : ∃ s, Runs t s ∧ Counted t xs s := by
  obtain ⟨u, hrun, hu, hcounted, hwriter⟩ := count_runs ht (hrest ▸ ht.stage hp)
  exact ⟨u, hrun, hu, by rw [hcounted, hhuf]; rfl, hwriter⟩

theorem Counted.step_eq {t s : State} {xs : List Byte} (h : Counted t xs s) (ht : Started t) :
    step s = .next (settle (hufCountStep s)) :=
  (h.stage.step_phase ht).trans (runPhase_hufCount h.stage.phase)

theorem Counted.appends {t s : State} {xs : List Byte} (h : Counted t xs s) (ht : Started t) : Appends [] t s :=
  h.stage.wrote.appends ht

theorem Counted.symbols_eq {t s : State} {xs : List Byte} (h : Counted t xs s) :
    presentSymbols s.huf.freq = symbols xs := by
  rw [h.huf]
  exact presentSymbols_countedTable xs

/-! ### No symbol, and one -/

/-- An empty input succeeds empty (R172). -/
theorem Counted.finish_empty {t s : State} {xs : List Byte} (h : Counted t xs s) (ht : Started t)
    (hsym : symbols xs = []) : Finish [] .success s := by
  refine .now (.refl h.stage.wrote.quiet) ?_
  rw [h.step_eq ht, hufCountStep, if_neg h.stage.ended, h.symbols_eq, hsym]
  rfl

theorem Counted.single_step {t s : State} {xs : List Byte} {c : Byte} (h : Counted t xs s) (ht : Started t)
    (hsym : symbols xs = [c]) :
    step s = .next (settle ((singleSymbol c xs.length s).bind fun _ s1 => .done () (complete .success s1))) := by
  have hcount : s.huf.freq.getD c.toNat 0 = xs.length := by
    obtain ⟨_, hall⟩ := symbols_eq_singleton_iff.mp hsym
    rw [h.huf]
    exact (countedTable_getD xs c).trans (List.count_eq_length.mpr fun d hd => (hall d hd).symm)
  rw [h.step_eq ht, hufCountStep, if_neg h.stage.ended, h.symbols_eq, hsym]
  simp only [hcount]

/-- One symbol, at most 65535 times: the header (R173). -/
theorem Counted.finish_single {t s : State} {xs : List Byte} {c : Byte} (h : Counted t xs s) (ht : Started t)
    (hsym : symbols xs = [c]) (hlen : xs.length ≤ countMax) : Finish (singleHeader c xs.length) .success s := by
  have hheader : singleSymbol c xs.length s = emitAll (singleHeader c xs.length) s := by
    have hfits : xs.length < 2 ^ 16 := Nat.lt_succ_of_le hlen
    have hbytes : (BitVec.ofNat 16 xs.length).toNat = xs.length := by
      rw [BitVec.toNat_ofNat, Nat.mod_eq_of_lt hfits]
    rw [singleSymbol, if_neg (Nat.not_lt.mpr hlen), emitElement, encode, emitCode, hiByte, loByte, hbytes, singleHeader]
  have hstep := h.single_step ht hsym
  rw [hheader] at hstep
  exact .of_step ((h.appends ht).active ht.active) hstep (emitAll_emits h.stage.wrote.quiet _)

/-- One symbol more often than the header can count (R173, R234). -/
theorem Counted.single_unsupported {t s : State} {xs : List Byte} {c : Byte} (h : Counted t xs s) (ht : Started t)
    (hsym : symbols xs = [c]) (hlen : countMax < xs.length) :
    ∃ u, Runs s u ∧ FailedInBody .unsupported t u := by
  refine ⟨_, .step ((h.single_step ht hsym).trans ?_), h.stage.wrote.command.failed ht.busy (e := .unsupported) (by decide)⟩
  rw [singleSymbol, if_pos hlen]
  rfl

/-! ### Two symbols or more -/

/-- The leaves are inserted in order and numbered (R174). -/
theorem insertLeaves_eq (cs : List Byte) (h : HufWork) :
    insertLeaves cs h =
      { h with
        arena := h.arena ++ (cs.zipIdx h.nextSeq).map fun (c, k) => .leaf c (h.freq.getD c.toNat 0) k
        queue := h.queue ++ List.range' h.arena.length cs.length
        nextSeq := h.nextSeq + cs.length } := by
  induction cs generalizing h with
  | nil => simp [insertLeaves]
  | cons c cs ih =>
    rw [insertLeaves, ih]
    simp only [List.zipIdx_cons, List.map_cons, List.append_assoc, List.singleton_append, List.length_append,
      List.length_cons, List.length_nil, Nat.zero_add, List.range'_succ, Nat.add_assoc, Nat.add_comm 1]

/-- The tree build is about to start, over the leaves of the input (R174). -/
structure LeavesInserted (t : State) (xs : List Byte) (b : State) : Prop where
  appends : Appends [] t b
  phase : b.phase = .hufBuild
  freq : b.huf.freq = countedTable xs
  arena : b.huf.arena = (symbols xs).zipIdx.map fun (c, k) => .leaf c (xs.count c) k
  queue : b.huf.queue = List.range (symbols xs).length
  nextSeq : b.huf.nextSeq = (symbols xs).length
  codes : b.huf.codes = HufWork.init.codes
  writer : b.writer = t.writer

theorem Counted.inserts_leaves {t s : State} {xs : List Byte} (h : Counted t xs s) (ht : Started t)
    (hsym : 2 ≤ (symbols xs).length) : ∃ b, Runs s b ∧ LeavesInserted t xs b := by
  have hstep : step s = .next { s with huf := insertLeaves (symbols xs) s.huf, phase := .hufBuild } := by
    rw [h.step_eq ht, hufCountStep, if_neg h.stage.ended, h.symbols_eq]
    match symbols xs, hsym with
    | c :: d :: cs, _ => rfl
  refine ⟨_, .step hstep, (h.appends ht).trans (.nothing rfl rfl rfl h.stage.wrote.quiet), rfl, ?_, ?_, ?_, ?_, ?_, h.writer⟩
  all_goals
    show _ = _
    simp only [insertLeaves_eq, h.huf]
  · simp only [countedTable_getD, HufWork.init, List.nil_append]
  · simp only [HufWork.init, List.nil_append, List.length_nil, List.range_eq_range']
  · simp only [HufWork.init, Nat.zero_add]

/-- The queue at the start of the tree build is the reference's (R174). -/
theorem LeavesInserted.holds {t b : State} {xs : List Byte} (h : LeavesInserted t xs b) :
    Holds b.huf.arena b.huf.queue (leaves xs) := by
  have hqueue : b.huf.queue = (symbols xs).zipIdx.map Prod.snd := by
    rw [h.queue, List.zipIdx_map_snd, List.range_eq_range']
  rw [Holds, hqueue, leaves, ← Multiset.map_coe, ← Multiset.map_coe, Multiset.rel_map]
  refine Multiset.rel_refl_of_refl_on fun e he => ?_
  obtain ⟨c, k⟩ := e
  have hk : (symbols xs).zipIdx[k]? = some (c, k) := by
    rw [List.getElem?_zipIdx, List.mem_zipIdx_iff_getElem?.mp (Multiset.mem_coe.mp he)]
    simp
  have hnode : b.huf.arena[k]? = some (.leaf c (xs.count c) k) := by
    rw [h.arena, List.getElem?_map, hk]
    rfl
  exact ⟨⟨_, hnode, rfl⟩, _, _, hnode⟩

theorem leaves_seqs (xs : List Byte) : (leaves xs).map Weighted.seq = List.range (symbols xs).length := by
  rw [leaves, List.map_map, List.range_eq_range', ← List.zipIdx_map_snd]
  rfl

/-- The reference's tree is built (R175). -/
theorem LeavesInserted.builds {t b : State} {xs : List Byte} (h : LeavesInserted t xs b) (ht : Started t)
    {tree : Reference.Tree} (htree : hufTree xs = some tree) : ∃ u, Runs b u ∧ TreeBuilt tree b u := by
  have hseqs := leaves_seqs xs
  refine build_runs (h.appends.active ht.active) h.phase h.holds (by rw [DistinctSeqs, hseqs]; exact List.nodup_range)
    (fun w hw => ?_) (by rw [h.nextSeq, ← leaves_length]; exact htree)
  have hmem : w.seq ∈ (leaves xs).map Weighted.seq := List.mem_map_of_mem hw
  rw [hseqs] at hmem
  rw [h.nextSeq]
  exact List.mem_range.mp hmem

/-! ### From the tree to the artifact -/

theorem treeArtifact_eq (tree : Reference.Tree) (xs : List Byte) :
    treeArtifact tree xs = [0x00#8] ++ (packed tree.preorder ++ bodySection (xs.flatMap tree.code)) := by
  simp only [treeArtifact, bodySection, List.cons_append, List.nil_append, List.append_assoc]

/-- The recorded code of a leaf's symbol is the reference's (R176, R48). -/
theorem tableCodeOf_recordCodes {tree : Reference.Tree} (hnodup : tree.leafSymbols.Nodup) {c : Byte}
    (hc : c ∈ tree.leafSymbols) {codes : List (Option (List Bool))} (hlen : codes.length = 256) :
    (recordCodes codes (tree.paths [])).getD c.toNat none = some (tree.code c) := by
  obtain ⟨p, hmem⟩ := exists_path hc
  rw [recordCodes_getD (by rwa [paths_map_fst]) hmem hlen, code_of_mem hnodup hmem]

/-- The codes of a nonempty input are not empty when two symbols occur in it. -/
theorem flatMap_code_ne_nil {tree : Reference.Tree} {xs : List Byte} (hsym : 2 ≤ (symbols xs).length)
    (hleaves : tree.leafSymbols.Perm (symbols xs)) : xs.flatMap tree.code ≠ [] := by
  obtain ⟨l, r, rfl⟩ := exists_node_of_leafSymbols (hleaves.length_eq ▸ hsym)
  have hnodup := hleaves.nodup_iff.mpr (nodup_symbols xs)
  obtain ⟨c, hc⟩ := List.exists_mem_of_length_pos (l := symbols xs) (by omega)
  have hcode := code_ne_nil hnodup (hleaves.mem_iff.mpr hc)
  intro hnil
  exact hcode (List.flatMap_eq_nil_iff.mp hnil c (mem_symbols.mp hc))

/-- Code generation, the tree section and pass 2 write the artifact (R88, R170, R176 to R178). -/
theorem TreeBuilt.finish {tree : Reference.Tree} {xs : List Byte} {b s : State} (h : TreeBuilt tree b s) (hs : Active b)
    (hz : b.hazards = []) (hin : b.inputFrom 0 = xs) (hcodes : b.huf.codes.length = 256)
    (hsym : 2 ≤ (symbols xs).length) (hleaves : tree.leafSymbols.Perm (symbols xs)) :
    Finish (treeArtifact tree xs) .success s := by
  have hactive := h.appends.active hs
  have hnodup := hleaves.nodup_iff.mpr (nodup_symbols xs)
  rw [treeArtifact_eq]
  refine (genCodes_segment hactive h.phase h.stands h.todo).finish fun u hu ⟨hp1, hw1, hh1⟩ => ?_
  have hstands : Stands u.huf.arena u.huf.root tree := by
    rw [hh1]
    exact h.stands
  refine (serializeTree_segment (hu.active hactive) hp1 hstands (by rw [hh1]) hw1).finish
    fun v hv ⟨hp2, hpos2, hw2, hh2⟩ => ?_
  have htable : ∀ c ∈ xs, v.huf.codes.getD c.toNat none = some (tree.code c) := fun c hc => by
    rw [hh2, hh1]
    refine tableCodeOf_recordCodes hnodup (hleaves.mem_iff.mpr (mem_symbols.mpr hc)) ?_
    rw [h.codes, hcodes]
  have hbits : xs.flatMap (tableCodeOf v.huf.codes) = xs.flatMap tree.code :=
    List.flatMap_congr fun c hc => by rw [tableCodeOf, htable c hc, Option.getD_some]
  have hcommand : SameCommand b v := (h.appends.command.trans hu.command).trans hv.command
  have hrest : v.rest = xs := by rw [State.rest, hcommand.inputFrom, hpos2, hin]
  have hfinish := pass2_finish (hv.active (hu.active hactive)) (hcommand.hazards.trans hz) hp2 hrest hw2
    (fun c hc => by rw [htable c hc]; exact Option.some_ne_none _)
    (by rw [hbits]; exact flatMap_code_ne_nil hsym hleaves)
  rwa [hbits] at hfinish

end Sys2Proof.Machine

/-! ## Huffman: every artifact of the compressor -/

namespace Sys2Proof.Reference

open Sys2Proof Sys2Proof.Machine

theorem hufEncode_empty {xs : List Byte} (hsym : symbols xs = []) : hufEncode xs = [] := by
  rw [hufEncode, hsym]

theorem hufEncode_single {xs : List Byte} {c : Byte} (hsym : symbols xs = [c]) :
    hufEncode xs = singleHeader c xs.length := by
  rw [hufEncode, hsym]

theorem hufEncode_tree {xs : List Byte} {tree : Reference.Tree} (hsym : 2 ≤ (symbols xs).length)
    (htree : hufTree xs = some tree) : hufEncode xs = treeArtifact tree xs := by
  rw [hufEncode, htree]
  match symbols xs, hsym with
  | c :: d :: cs, _ => rfl

end Sys2Proof.Reference

namespace Sys2Proof.Machine

open Sys2Proof Sys2Proof.Reference

/-- HUF_COMPRESS of the input `xs` is about to start (R170). -/
structure AboutToCount (xs : List Byte) (t : State) : Prop where
  started : Started t
  phase : t.phase = .hufCount
  rest : t.rest = xs
  huf : t.huf = HufWork.init

theorem IssuedBody.aboutToCount {op : BitVec 4} {c : CodecId} {w : LzPair} {s t : State}
    (h : IssuedBody op c w .hufCount s t) (hq : s.Quiet) (hin : s.inputs = []) :
    AboutToCount (s.inBytes s.srcLen.toNat) t := by
  obtain ⟨_, _, _, _, hphase, _, hhuf, _⟩ := id h
  exact ⟨h.started hq hin, hphase, h.rest, hhuf⟩

theorem AboutToCount.inputFrom {xs : List Byte} {t : State} (h : AboutToCount xs t) : t.inputFrom 0 = xs := by
  rw [← h.rest, State.rest, h.started.inPos]

/-- Pass 1, then what it leads to. -/
theorem AboutToCount.counted {xs : List Byte} {t : State} (h : AboutToCount xs t) : ∃ s, Runs t s ∧ Counted t xs s :=
  counts_input h.started h.phase h.rest h.huf

/-- Two symbols or more: the leaves of the tree build are inserted (R174). -/
theorem AboutToCount.inserts_leaves {xs : List Byte} {t : State} (h : AboutToCount xs t)
    (hsym : 2 ≤ (symbols xs).length) : ∃ b, Runs t b ∧ LeavesInserted t xs b := by
  obtain ⟨s, hrun, hs⟩ := h.counted
  obtain ⟨b, hrun', hb⟩ := hs.inserts_leaves h.started hsym
  exact ⟨b, hrun.trans hrun', hb⟩

/-- Two symbols or more: the tree's artifact is written (R88, R170). -/
theorem AboutToCount.finish_tree {xs : List Byte} {t : State} {tree : Reference.Tree} (h : AboutToCount xs t)
    (hsym : 2 ≤ (symbols xs).length) (htree : hufTree xs = some tree) : Finish (treeArtifact tree xs) .success t := by
  have ht := h.started
  obtain ⟨b, hrun, hb⟩ := h.inserts_leaves hsym
  obtain ⟨u, hrun', hu⟩ := hb.builds ht htree
  refine .of_runs hrun hb.appends (.of_runs hrun' hu.appends ?_)
  refine hu.finish (hb.appends.active ht.active) (hb.appends.command.hazards.trans ht.hazards) ?_ ?_ hsym
    (hufTree_leafSymbols htree)
  · rw [hb.appends.command.inputFrom]
    exact h.inputFrom
  · rw [hb.codes]
    exact HufWork.init_codes_length

/-- The artifact of an input that has one is written, whatever the number of its symbols (R170, R172, R173). -/
theorem AboutToCount.finish {xs : List Byte} {t : State} (h : AboutToCount xs t)
    (hone : (symbols xs).length = 1 → xs.length ≤ countMax) : Finish (hufEncode xs) .success t := by
  have ht := h.started
  obtain ⟨s, hrun, hs⟩ := h.counted
  match hsym : symbols xs with
  | [] =>
    rw [hufEncode_empty hsym]
    exact .of_runs hrun (hs.appends ht) (hs.finish_empty ht hsym)
  | [c] =>
    rw [hufEncode_single hsym]
    exact .of_runs hrun (hs.appends ht) (hs.finish_single ht hsym (hone (by rw [hsym]; rfl)))
  | c :: d :: cs =>
    have htwo : 2 ≤ (symbols xs).length := by simp [hsym]
    obtain ⟨tree, htree⟩ := hufTree_some (xs := xs) (by simp [hsym])
    rw [hufEncode_tree htwo htree]
    exact h.finish_tree htwo htree

/-- What issue leaves unchanged, the end of a compressor's run says of the state before issue. -/
theorem EncodesTo.of_issued {op : BitVec 4} {c : CodecId} {w : LzPair} {ph : Phase} {s t u : State} {art : List Byte}
    (hi : IssuedBody op c w ph s t) (h : EncodesTo t.status.codec art t t u) : EncodesTo c art s t u := by
  obtain ⟨hfits, hfull⟩ := h
  have hcodec : t.status.codec = c := by rw [hi.1]
  rw [hcodec, hi.params] at hfits
  rw [hi.params] at hfull
  exact ⟨fun hroom => (hfits hroom).of_issued hi, hfull⟩

/-- A run of the compressor from issue ends with its artifact (R170). -/
theorem IssuedBody.hufEncodes {op : BitVec 4} {c : CodecId} {w : LzPair} {s t : State}
    (h : IssuedBody op c w .hufCount s t) (hq : s.Quiet) (hin : s.inputs = [])
    (hone : (symbols (s.inBytes s.srcLen.toNat)).length = 1 → s.srcLen.toNat ≤ countMax) :
    ∃ u, Runs t u ∧ EncodesTo c (hufEncode (s.inBytes s.srcLen.toNat)) s t u := by
  have hstart := h.aboutToCount hq hin
  have hfinish := hstart.finish (fun hlen => by rw [inBytes_length]; exact hone hlen)
  obtain ⟨u, hrun, hencodes⟩ := hfinish.encodes hstart.started
  exact ⟨u, hrun, hencodes.of_issued h⟩

/-- An input that is one symbol throughout has that one symbol (R173). -/
theorem symbols_inBytes_single {s : State} {n : Nat} {c : Byte} (hn : 1 ≤ n) (hall : ∀ k, k < n → s.inByteAt k = c) :
    symbols (s.inBytes n) = [c] := by
  refine symbols_eq_singleton_iff.mpr ⟨List.ne_nil_of_length_pos (by rw [inBytes_length]; exact hn), fun d hd => ?_⟩
  obtain ⟨k, hk, rfl⟩ := List.mem_map.mp hd
  exact hall k (List.mem_range.mp hk)

/-- Settles O45: pass 1 counts, and the number of distinct symbols says what is written. -/
theorem hufCompressRunWritesArtifact : Obligations.HufCompressRunWritesArtifact := by
  rintro s _ hb hq hin hn rfl
  have hlen := inBytes_length s s.srcLen.toNat
  obtain ⟨t, hexec, hissued⟩ := (launches_direct rfl : Launches .hufCompress 7#4 .huffman noPair .hufCount s).issued hb hn
  have hstart := hissued.aboutToCount hq hin
  refine ⟨t, hexec, hissued, fun hzero => ?_, fun c hpos hall => ?_, fun hsym => ⟨?_, ?_⟩⟩
  · have hsym : symbols (s.inBytes s.srcLen.toNat) = [] :=
      symbols_eq_nil_iff.mpr (List.length_eq_zero_iff.mp (hlen.trans hzero))
    obtain ⟨u, hrun, hencodes⟩ := hissued.hufEncodes hq hin (fun _ => hzero ▸ Nat.zero_le _)
    rw [hufEncode_empty hsym] at hencodes
    exact ⟨u, hrun, hencodes.1 (Nat.zero_le _)⟩
  · have hsym := symbols_inBytes_single hpos hall
    rcases Nat.lt_or_ge countMax s.srcLen.toNat with hlarge | hcount
    · obtain ⟨v, hrun, hv⟩ := hstart.counted
      obtain ⟨u, hrun', hfailed⟩ := hv.single_unsupported hstart.started hsym (hlen.symm ▸ hlarge)
      exact ⟨u, hrun.trans hrun', fun hle => absurd hle (Nat.not_le.mpr hlarge), fun _ => hfailed⟩
    · obtain ⟨u, hrun, hencodes⟩ := hissued.hufEncodes hq hin (fun _ => hcount)
      rw [hufEncode_single hsym, hlen] at hencodes
      exact ⟨u, hrun, fun _ => hencodes, fun hlarge => absurd hlarge (Nat.not_lt.mpr hcount)⟩
  · obtain ⟨b, hrun, h⟩ := hstart.inserts_leaves hsym
    refine ⟨b, hrun, h.phase, h.appends.command.status, fun c => ?_, h.arena, h.queue, h.nextSeq⟩
    rw [h.freq, countedTable_getD]
  · obtain ⟨tree, htree⟩ := hufTree_some (List.ne_nil_of_length_pos (Nat.zero_lt_of_lt hsym))
    obtain ⟨u, hrun, hencodes⟩ := (hstart.finish_tree hsym htree).encodes hstart.started
    exact ⟨u, tree, hrun, htree, hencodes.of_issued hissued⟩

end Sys2Proof.Machine

/-! ## Huffman: the round trip -/

namespace Sys2Proof.Reference

open Sys2Proof Sys2Proof.Machine

/-! ### The bits of a packed string -/

theorem bitsMsb_packByte (bits : List Bool) :
    bitsMsb 8 (packByte bits).toNat = (bits ++ List.replicate 8 false).take 8 := by
  have hlen : ((bits ++ List.replicate 8 false).take 8).length = 8 := by
    rw [List.length_take, List.length_append, List.length_replicate, Nat.min_eq_left (Nat.le_add_left 8 _)]
  have hlt := bitsValue_lt ((bits ++ List.replicate 8 false).take 8)
  have hbits := bitsMsb_bitsValue ((bits ++ List.replicate 8 false).take 8)
  rw [hlen] at hlt hbits
  rw [packByte, BitVec.toNat_ofNat, Nat.mod_eq_of_lt hlt, hbits]

/-- The stream of a packed string is the string and its padding (R152). -/
theorem streamBits_packed (bits : List Bool) : ∃ pad, streamBits (packed bits) = bits ++ pad ∧ pad.length < 8 := by
  have hpad : ∃ pad, streamBits (packed bits) = bits ++ pad := by
    induction hn : bits.length using Nat.strongRecOn generalizing bits with
    | ind n ih =>
      by_cases hnil : bits = []
      · subst hnil
        exact ⟨[], rfl⟩
      have hpos := List.length_pos_of_ne_nil hnil
      rw [packed_of_ne_nil hnil, streamBits_cons, bitsMsb_packByte]
      rcases Nat.lt_or_ge bits.length 8 with hlt | hge
      · rw [List.drop_eq_nil_of_le hlt.le, List.take_append, List.take_of_length_le hlt.le]
        exact ⟨_, List.append_nil _⟩
      · obtain ⟨pad, hrest⟩ := ih (bits.drop 8).length (by rw [List.length_drop]; omega) (bits.drop 8) rfl
        rw [hrest, List.take_append_of_le_length hge, ← List.append_assoc, List.take_append_drop]
        exact ⟨pad, rfl⟩
  obtain ⟨pad, hbits⟩ := hpad
  have hlen := congrArg List.length hbits
  rw [streamBits_length, packed_length, List.length_append] at hlen
  exact ⟨pad, hbits, by omega⟩

/-! ### The tree artifact decoded -/

/-- A tree has one inner node less than leaves. -/
theorem size_add_one (t : Reference.Tree) : t.size + 1 = 2 * t.leafSymbols.length := by
  induction t with
  | leaf c => rfl
  | node l r ihl ihr =>
    rw [Tree.size, Tree.leafSymbols, List.length_append]
    omega

/-- The walk of the codes of a list gives the list (R184, R185). -/
theorem walkBody_codes {l r : Reference.Tree} (hnodup : (Reference.Tree.node l r).leafSymbols.Nodup) {xs : List Byte}
    (hmem : ∀ c ∈ xs, c ∈ (Reference.Tree.node l r).leafSymbols) :
    walkBody (.node l r) (.node l r) (xs.flatMap (Reference.Tree.node l r).code) = { out := xs, err := .success } := by
  induction xs with
  | nil => rw [List.flatMap_nil, walkBody, if_pos rfl]
  | cons c cs ih =>
    obtain ⟨hc, hcs⟩ := List.forall_mem_cons.mp hmem
    rw [List.flatMap_cons, walkBody_of_walk (walk_code hnodup hc _), ih hcs]
    rfl

/-- The trailing byte tells the body's bits from the padding (R178, R183). -/
theorem bodyDecode_bodySection (t : Reference.Tree) {bits : List Bool} (hne : bits ≠ []) :
    bodyDecode t (bodySection bits) = walkBody t t bits := by
  have hpos := List.length_pos_of_ne_nil hne
  have hcount : byteCount bits = (bits.length + 7) / 8 := rfl
  have hlast : (bodySection bits).getLast? = some (BitVec.ofNat 8 (bits.length - 8 * (byteCount bits - 1))) :=
    List.getLast?_concat
  have hsig : (BitVec.ofNat 8 (bits.length - 8 * (byteCount bits - 1))).toNat
      = bits.length - 8 * (byteCount bits - 1) := by
    rw [BitVec.toNat_ofNat, Nat.mod_eq_of_lt (by omega)]
  obtain ⟨pad, hstream, _⟩ := streamBits_packed bits
  rw [bodyDecode, hlast]
  simp only [hsig, bodySection_length]
  rw [if_neg (by omega), if_neg (by omega), bodySection, streamBits_append, hstream, List.append_assoc,
    List.take_left' (by omega)]

/-- The tree is parsed from its section, and what follows the byte boundary is the body's (R156, R182). -/
theorem treeDecode_sections {t : Reference.Tree} (hsize : t.size ≤ nodeMax) (bits : List Bool) :
    treeDecode (packed t.preorder ++ bodySection bits) = bodyDecode t (bodySection bits) := by
  obtain ⟨pad, hstream, hpad⟩ := streamBits_packed t.preorder
  have hparse := parseTree_preorder t (fuel := nodeMax + 1) (nodes := 0) (pad ++ streamBits (bodySection bits))
    (by omega) (by omega)
  have hleft : (pad ++ streamBits (bodySection bits)).length / 8 = (bodySection bits).length := by
    rw [List.length_append, streamBits_length]
    omega
  rw [treeDecode, streamBits_append, hstream, List.append_assoc, hparse]
  simp only [hleft]
  rw [List.length_append, Nat.add_sub_cancel, List.drop_left]

theorem hufDecode_treeArtifact {xs : List Byte} {t : Reference.Tree} (hsym : 2 ≤ (symbols xs).length)
    (htree : hufTree xs = some t) : hufDecode (treeArtifact t xs) = { out := xs, err := .success } := by
  have hleaves := hufTree_leafSymbols htree
  have hbody := flatMap_code_ne_nil hsym hleaves
  have hnodup := hleaves.nodup_iff.mpr (nodup_symbols xs)
  have hsize : t.size ≤ nodeMax := by
    have hcount := size_add_one t
    have hle : t.leafSymbols.length ≤ 256 := hleaves.length_eq ▸ length_symbols_le xs
    have hmax : nodeMax = 511 := rfl
    omega
  obtain ⟨l, r, rfl⟩ := exists_node_of_leafSymbols (hleaves.length_eq ▸ hsym)
  calc hufDecode (treeArtifact (.node l r) xs)
    _ = treeDecode (packed (Reference.Tree.node l r).preorder
          ++ bodySection (xs.flatMap (Reference.Tree.node l r).code)) := by
        rw [treeArtifact_eq]
        rfl
    _ = walkBody (.node l r) (.node l r) (xs.flatMap (Reference.Tree.node l r).code) := by
        rw [treeDecode_sections hsize, bodyDecode_bodySection _ hbody]
    _ = _ := walkBody_codes hnodup fun c hc => hleaves.mem_iff.mpr (mem_symbols.mpr hc)

/-! ### Every artifact decoded -/

/-- The header's two count bytes hold the count (R173, R181). -/
theorem hufDecode_singleHeader (c : Byte) {n : Nat} (hn : n ≤ countMax) :
    hufDecode (singleHeader c n) = { out := List.replicate n c, err := .success } := by
  have hmax : countMax = 65535 := rfl
  have hcount : (halfOf (BitVec.ofNat 8 (n / 256)) (BitVec.ofNat 8 (n % 256))).toNat = n := by
    rw [halfOf_toNat, BitVec.toNat_ofNat, BitVec.toNat_ofNat]
    omega
  have hsingle : hufDecode (singleHeader c n) = singleDecode [0x00#8, c, BitVec.ofNat 8 (n / 256), BitVec.ofNat 8 (n % 256)] :=
    rfl
  rw [hsingle, singleDecode, hcount]
  rfl

/-- Decompressing the artifact gives the input (R186). -/
theorem hufDecode_hufEncode {xs : List Byte} (hone : (symbols xs).length = 1 → xs.length ≤ countMax) :
    hufDecode (hufEncode xs) = { out := xs, err := .success } := by
  match hsym : symbols xs with
  | [] =>
    rw [hufEncode_empty hsym, symbols_eq_nil_iff.mp hsym]
    rfl
  | [c] =>
    obtain ⟨_, hall⟩ := symbols_eq_singleton_iff.mp hsym
    rw [hufEncode_single hsym, hufDecode_singleHeader c (hone (by rw [hsym]; rfl)),
      ← List.eq_replicate_iff.mpr ⟨rfl, hall⟩]
  | c :: d :: cs =>
    have htwo : 2 ≤ (symbols xs).length := by simp [hsym]
    obtain ⟨tree, htree⟩ := hufTree_some (xs := xs) (by simp [hsym])
    rw [hufEncode_tree htwo htree, hufDecode_treeArtifact htwo htree]

end Sys2Proof.Reference

namespace Sys2Proof.Machine

open Sys2Proof Sys2Proof.Reference

/-- Settles O54: the reference's round trip, carried to the machine by the runs of the two commands. -/
theorem huffmanRoundTrip : Obligations.HuffmanRoundTrip := by
  refine ⟨fun xs hone => hufDecode_hufEncode hone, ?_⟩
  rintro s _ hwf hb hq hin hn rfl hone hfits
  have hlen := inBytes_length s s.srcLen.toNat
  obtain ⟨t, hexec, hissued⟩ := (launches_direct rfl : Launches .hufCompress 7#4 .huffman noPair .hufCount s).issued hb hn
  obtain ⟨u, hrun, hencodes⟩ := hissued.hufEncodes hq hin (by rw [hlen] at hone; exact hone)
  have hsucceeded := hencodes.1 hfits
  obtain ⟨_, _, _, hout, _⟩ := hwf
  obtain ⟨_, hart⟩ := hsucceeded.output (hfits.trans_lt hout)
  refine ⟨t, u, hexec, hrun, hsucceeded, ?_⟩
  rintro v ⟨hbv, hqv, hinv, hsrc, hnv, hbytes⟩ hroom
  obtain ⟨t', w, hexec', _, hrun', hdecodes⟩ :=
    (launches_direct rfl : Launches .hufDecompress 8#4 .huffman noPair .hufHeader v).hufDecodes hbv hqv hinv hnv
  rw [hsrc, hbytes, hart, hufDecode_hufEncode hone] at hdecodes
  exact ⟨t', w, hexec', hrun', hdecodes.1 (hlen.symm ▸ hroom) rfl⟩

end Sys2Proof.Machine

/-! ## RLE: one pair, the runs of the two commands, and the round trip -/

namespace Sys2Proof.Machine

open Sys2Proof Sys2Proof.Reference

/-- OUT_LEN counts the artifact, so the machine that carries it has exactly the artifact as its input (R101, R212). -/
theorem CarriesArtifact.inBytes_eq {c : CodecId} {art : List Byte} {s u v : State} (h : CarriesArtifact u v)
    (hsucceeded : Succeeded c art s u) (hlen : art.length < 2 ^ 32) : v.inBytes v.srcLen.toNat = art := by
  obtain ⟨_, _, _, hsrc, _, hbytes⟩ := h
  rw [hsrc, hbytes, (hsucceeded.output hlen).2]

/-- The decompressor's run on an artifact of the compressor (R212, R213). -/
theorem rleDecompress_rleEncode {v : State} {xs : List Byte} (hb : v.status.busy = false) (hq : v.Quiet)
    (hin : v.inputs = []) (hn : v.srcLen.toNat ≤ v.params.inSize) (hart : v.inBytes v.srcLen.toNat = rleEncode xs)
    (hroom : xs.length ≤ v.params.outSize) :
    ∃ t w, exec .rleDecompress v = .next t ∧ Runs t w ∧ Succeeded .rle xs v w := by
  have direct : Launches .rleDecompress 4#4 .rle noPair .rleDecode v := launches_direct rfl
  obtain ⟨t, w, hexec, _, hrun, hdecodes⟩ := direct.rleDecodes hb hq hin hn
  rw [hart, rleDecode_rleEncode] at hdecodes
  exact ⟨t, w, hexec, hrun, hdecodes.1 hroom rfl⟩

/-- Settles O28: the reference's round trip, carried to the machine by the runs of the two commands. -/
theorem rleRoundTrip : Obligations.RleRoundTrip := by
  refine ⟨rleDecode_rleEncode, fun s hwf hb hq hin hn hfits => ?_⟩
  have direct : Launches .rleCompress 3#4 .rle noPair .rleEncode s := launches_direct rfl
  obtain ⟨t, u, hexec, _, hrun, hencodes⟩ := direct.rleEncodes hb hq hin hn
  have hsucceeded := hencodes.1 hfits
  refine ⟨t, u, hexec, hrun, hsucceeded, fun v hcarries hroom => ?_⟩
  obtain ⟨_, _, _, hout, _⟩ := hwf
  have hart := hcarries.inBytes_eq hsucceeded (hfits.trans_lt hout)
  obtain ⟨hbv, hqv, hinv, _, hnv, _⟩ := hcarries
  exact rleDecompress_rleEncode hbv hqv hinv hnv hart (by rwa [inBytes_length])

/-- Settles O29: both commands launch the same compressor. -/
theorem rleCompressRunWritesRunPairs : Obligations.RleCompressRunWritesRunPairs := by
  intro s hb hq hin hn
  have direct : Launches .rleCompress 3#4 .rle noPair .rleEncode s := launches_direct rfl
  exact ⟨direct.rleEncodes hb hq hin hn, fun hr => (launches_selCompress_rle hr).rleEncodes hb hq hin hn⟩

/-- Settles O30: both commands launch the same decompressor. -/
theorem rleDecompressRunExpandsPairs : Obligations.RleDecompressRunExpandsPairs := by
  intro s hb hq hin hn
  have direct : Launches .rleDecompress 4#4 .rle noPair .rleDecode s := launches_direct rfl
  refine ⟨direct.rleDecodes hb hq hin hn, fun htag => ?_⟩
  have tagged : Launches .selDecompress 2#4 .rle noPair .rleDecode s := launches_selDecompress (by rw [htag]; rfl)
  exact tagged.rleDecodes hb hq hin hn

/-- Settles O27: the copies of the symbol are one emission at the cursor, of no byte when the count is 0. -/
theorem rlePairRepeatsSymbol : Obligations.RlePairRepeatsSymbol := by
  intro n c s hq hroom
  have hlen : (List.replicate n.toNat c).length = n.toNat := List.length_replicate
  obtain ⟨t, ht, ⟨⟩, hemit, frame⟩ := (emitAll_emits hq (List.replicate n.toNat c)).1 (hlen.symm ▸ hroom)
  refine ⟨t, ?_, frame, by rw [ht.cursor, hlen], fun j hj => ?_, fun a ha => ht.outByteAt_outside (hlen.symm ▸ ha)⟩
  · rw [exec, execRlePair, emitRepeat_eq_emitAll, hemit, settle_done]
  · rw [ht.outByteAt_inside (hlen.symm ▸ hj)]
    simp [hj]

end Sys2Proof.Machine

/-! ## The errors each body can end with

One relation, `EndsWith`, holds of the state after each piece of a body: either the command still runs, or it has ended with
success, IOFailure, or an error that its codec adds. It needs no invariant. -/

namespace Sys2Proof.Machine

open Sys2Proof

/-- The errors a body in this phase adds to those of every body: `Unsupported` after pass 1 of the Huffman compressor (R234), and
`CorruptStream` in the two decompressors that test their artifact (R233). -/
def Phase.ownErrors : Phase → List ErrCode
  | .hufCount => [.unsupported]
  | .lzDecode | .hufHeader | .hufParse | .hufExtent | .hufWalk => [.corruptStream]
  | .idle | .rleEncode | .rleDecode | .lzChunk | .lzEncode | .hufBuild | .hufCodes | .hufTree | .hufBody => []

/-- The outcomes of a body whose own errors are `own`: any body may succeed, or fail in an access (R62, R63). -/
def OutcomeIn (own : List ErrCode) (e : ErrCode) : Prop := e = .success ∨ e = .ioFailure ∨ e ∈ own

theorem outcomeIn_success (own : List ErrCode) : OutcomeIn own .success := .inl rfl

theorem outcomeIn_ioFailure (own : List ErrCode) : OutcomeIn own .ioFailure := .inr (.inl rfl)

theorem outcomeIn_corrupt : OutcomeIn [.corruptStream] .corruptStream := .inr (.inr List.mem_cons_self)

theorem outcomeIn_unsupported : OutcomeIn [.unsupported] .unsupported := .inr (.inr List.mem_cons_self)

/-- Where no command runs, the outcome in STATUS is one of a body whose own errors are `own`. -/
def EndsWith (own : List ErrCode) (t : State) : Prop := t.status.busy = false → OutcomeIn own t.status.err

theorem endsWith_of_busy {s : State} (hb : s.status.busy = true) (own : List ErrCode) : EndsWith own s := by
  intro hidle
  rw [hb] at hidle
  cases hidle

theorem EndsWith.of_status {own : List ErrCode} {s t : State} (h : EndsWith own s) (ht : t.status = s.status) :
    EndsWith own t := by
  unfold EndsWith
  rw [ht]
  exact h

theorem endsWith_complete {own : List ErrCode} {e : ErrCode} (he : OutcomeIn own e) (s : State) :
    EndsWith own (complete e s) := by
  intro _
  simpa using he

theorem endsWith_success (own : List ErrCode) (s : State) : EndsWith own (complete .success s) :=
  endsWith_complete (outcomeIn_success own) s

/-- The piece of a body goes on, completes the command or raises an error, with the outcomes of `own`. -/
def Body.EndsWith {α : Type} (own : List ErrCode) : Body α → Prop
  | .done _ t => Machine.EndsWith own t
  | .raised e _ => OutcomeIn own e

theorem Body.EndsWith.bind {α β : Type} {own : List ErrCode} {x : Body α} {f : α → State → Body β} (hx : x.EndsWith own)
    (hf : ∀ a t, Machine.EndsWith own t → (f a t).EndsWith own) : (x.bind f).EndsWith own := by
  cases x with
  | done a t => exact hf a t hx
  | raised e t => exact hx

section Pieces

variable {own : List ErrCode} {s : State}

/-! ### Reads of IN -/

theorem inByte_endsWith (h : EndsWith own s) (k : Nat) : (inByte k s).EndsWith own := by
  cases hx : inByte k s with
  | done b t =>
    obtain ⟨_, hf, _⟩ := inByte_done hx
    exact h.of_status (congrArg State.status hf :)
  | raised e t =>
    obtain ⟨rfl, _⟩ := inByte_raised hx
    exact outcomeIn_ioFailure own

theorem nextByte_endsWith (h : EndsWith own s) : (nextByte s).EndsWith own :=
  (inByte_endsWith h _).bind fun _ _ h1 => h1

theorem nextBytes_endsWith (h : EndsWith own s) (n : Nat) : (nextBytes n s).EndsWith own := by
  induction n generalizing s with
  | zero => exact h
  | succ n ih => exact (nextByte_endsWith h).bind fun _ _ h1 => (ih h1).bind fun _ _ h2 => h2

theorem countRun_endsWith (h : EndsWith own s) (c : Byte) (k more run : Nat) :
    (countRun c k more run s).EndsWith own := by
  induction more generalizing run s with
  | zero => exact h
  | succ more ih =>
    unfold countRun
    split
    · refine (inByte_endsWith h _).bind fun b t h1 => ?_
      split
      · exact ih h1 _
      · exact h1
    · exact h

theorem readChunk_endsWith (h : EndsWith own s) (k n : Nat) : (readChunk k n s).EndsWith own := by
  induction n generalizing k s with
  | zero => exact h
  | succ n ih => exact (inByte_endsWith h k).bind fun _ _ h1 => (ih h1 _).bind fun _ _ h2 => h2

theorem readBit_endsWith (h : EndsWith own s) : (readBit s).EndsWith own := by
  have latched : (latchByte s).EndsWith own := by
    unfold latchByte
    split
    · exact (inByte_endsWith h _).bind fun _ _ h1 => h1
    · exact h
  exact latched.bind fun _ _ h1 => h1

theorem readBits_endsWith (h : EndsWith own s) (n : Nat) : (readBits n s).EndsWith own := by
  induction n generalizing s with
  | zero => exact h
  | succ n ih => exact (readBit_endsWith h).bind fun _ _ h1 => (ih h1).bind fun _ _ h2 => h2

/-! ### Writes of OUT -/

theorem emit_endsWith (h : EndsWith own s) (b : Byte) : (emit b s).EndsWith own := by
  cases hx : emit b s with
  | done u t =>
    obtain ⟨_, hf, _⟩ := emit_done hx
    exact h.of_status (congrArg State.status hf :)
  | raised e t =>
    obtain ⟨rfl, _⟩ := emit_raised hx
    exact outcomeIn_ioFailure own

theorem emitAll_endsWith (h : EndsWith own s) (bs : List Byte) : (emitAll bs s).EndsWith own := by
  induction bs generalizing s with
  | nil => exact h
  | cons b bs ih => exact (emit_endsWith h b).bind fun _ _ h1 => ih h1

theorem emitRepeat_endsWith (h : EndsWith own s) (c : Byte) (n : Nat) : (emitRepeat c n s).EndsWith own := by
  rw [emitRepeat_eq_emitAll]
  exact emitAll_endsWith h _

theorem copyOut_endsWith (h : EndsWith own s) (j n : Nat) : (copyOut j n s).EndsWith own := by
  induction n generalizing j s with
  | zero => exact h
  | succ n ih => exact (emit_endsWith h _).bind fun _ _ h1 => ih h1 _

theorem putBit_endsWith (h : EndsWith own s) (b : Bool) : (putBit b s).EndsWith own := by
  have written : ∀ w, EndsWith own { s with writer := w } := fun _ => h
  simp only [putBit]
  split
  · exact (emit_endsWith (written _) _).bind fun _ _ h1 => h1
  · exact written _

theorem putBits_endsWith (h : EndsWith own s) (bs : List Bool) : (putBits bs s).EndsWith own := by
  induction bs generalizing s with
  | nil => exact h
  | cons b bs ih => exact (putBit_endsWith h b).bind fun _ _ h1 => ih h1

theorem flushBits_endsWith (h : EndsWith own s) : (flushBits s).EndsWith own := by
  unfold flushBits
  split
  · exact (emit_endsWith h _).bind fun _ _ h1 => h1
  · exact h

theorem emitElement_endsWith (h : EndsWith own s) (i : Instr) : (emitElement i s).EndsWith own := by
  unfold emitElement emitCode
  split
  · exact h
  · exact emitAll_endsWith h _
  · exact emitAll_endsWith h _
  · exact emitAll_endsWith h _
  · exact putBits_endsWith h _
  · exact emitAll_endsWith h _

/-! ### The fetches -/

theorem fetchRle_endsWith (h : EndsWith own s) : (fetchRle s).EndsWith own :=
  (nextBytes_endsWith h 2).bind fun _ _ h1 => h1

theorem fetchLz77_endsWith (h : EndsWith own s) : (fetchLz77 s).EndsWith own :=
  (nextByte_endsWith h).bind fun _ _ h1 => (nextBytes_endsWith h1 _).bind fun _ _ h2 => h2

theorem fetchHufHeader_endsWith (h : EndsWith own s) : (fetchHufHeader s).EndsWith own :=
  (nextByte_endsWith h).bind fun _ _ h1 => (nextBytes_endsWith h1 _).bind fun _ _ h2 => h2

/-- A tree with too many nodes is corrupt (R182). -/
theorem fetchHufNode_endsWith (h : EndsWith [.corruptStream] s) : (fetchHufNode s).EndsWith [.corruptStream] := by
  unfold fetchHufNode
  split
  · exact outcomeIn_corrupt
  · refine (readBit_endsWith h).bind fun _ t h1 => ?_
    have counted : EndsWith [.corruptStream] (countNode t) := h1
    exact (readBits_endsWith counted _).bind fun _ _ h2 => h2

theorem fetchHufTrailing_endsWith (h : EndsWith own s) : (fetchHufTrailing s).EndsWith own := by
  unfold fetchHufTrailing
  split
  · exact outcomeIn_ioFailure own
  · exact (inByte_endsWith h _).bind fun _ _ h1 => h1

/-! ### The turns of the compressors -/

theorem rleEncodeStep_endsWith (h : EndsWith own s) : (rleEncodeStep s).EndsWith own := by
  unfold rleEncodeStep
  split
  · refine (inByte_endsWith h _).bind fun c _ h1 => (countRun_endsWith h1 c _ _ _).bind fun run _ h2 => ?_
    exact (emitElement_endsWith h2 _).bind fun _ _ h3 => h3
  · exact endsWith_success own s

theorem lzChunkStep_endsWith (h : EndsWith own s) : (lzChunkStep s).EndsWith own := by
  unfold lzChunkStep
  split
  · exact (readChunk_endsWith h _ _).bind fun _ _ h1 => h1
  · exact endsWith_success own s

theorem lzEncodeStep_endsWith (h : EndsWith own s) : (lzEncodeStep s).EndsWith own := by
  unfold lzEncodeStep
  split
  · exact h
  · exact (emitElement_endsWith h _).bind fun _ _ h1 => h1

/-- A single symbol is unsupported where its count does not fit the header (R173, R234). -/
theorem singleSymbol_endsWith (h : EndsWith [.unsupported] s) (c : Byte) (n : Nat) :
    (singleSymbol c n s).EndsWith [.unsupported] := by
  unfold singleSymbol
  split
  · exact outcomeIn_unsupported
  · exact emitElement_endsWith h _

theorem hufCountStep_endsWith (h : EndsWith [.unsupported] s) : (hufCountStep s).EndsWith [.unsupported] := by
  unfold hufCountStep
  split
  · exact (inByte_endsWith h _).bind fun _ _ h1 => h1
  · split
    · exact endsWith_success _ s
    · exact (singleSymbol_endsWith h _ _).bind fun _ t _ => endsWith_success _ t
    · exact h

theorem codeOf_endsWith (h : EndsWith own s) (c : Byte) : EndsWith own (codeOf c s).2 := by
  unfold codeOf
  split
  · exact h
  · exact h

theorem hufBodyStep_endsWith (h : EndsWith own s) : (hufBodyStep s).EndsWith own := by
  unfold hufBodyStep
  split
  · refine (inByte_endsWith h _).bind fun c _ h1 => ?_
    exact (putBits_endsWith (codeOf_endsWith h1 c) _).bind fun _ _ h2 => h2
  · refine (flushBits_endsWith h).bind fun sig _ h1 => ?_
    exact (emitElement_endsWith h1 _).bind fun _ t _ => endsWith_success own t

/-! ### The effects of the decompressors -/

/-- A match is corrupt where it starts before OUT does, or has offset 0 (R124). -/
theorem copyMatch_endsWith (h : EndsWith [.corruptStream] s) (offset length : Nat) :
    (copyMatch offset length s).EndsWith [.corruptStream] := by
  unfold copyMatch
  split
  · exact outcomeIn_corrupt
  · split
    · exact outcomeIn_corrupt
    · exact copyOut_endsWith h _ _

/-- A single-symbol artifact is corrupt where bytes follow its header, or its character is above 0xFF (R181). -/
theorem repeatSymbol_endsWith (h : EndsWith [.corruptStream] s) (high c : Byte) (n : Nat) :
    (repeatSymbol high c n s).EndsWith [.corruptStream] := by
  unfold repeatSymbol
  split
  · exact outcomeIn_corrupt
  · split
    · exact outcomeIn_corrupt
    · exact (emitRepeat_endsWith h _ _).bind fun _ t _ => endsWith_success _ t

theorem afterNode_endsWith (h : EndsWith own s) (r : HufWork × Bool) : EndsWith own (afterNode r s) := by
  unfold afterNode alignRead
  split
  · split
    · exact h
    · exact h
  · exact h

/-! ### One engine step -/

/-- What a step answers is the state of a command that still runs, or has ended with an outcome of `own`. -/
def StepEndsWith (own : List ErrCode) (o : Host.Outcome State Fault Refusal) : Prop := ∀ t, o = .next t → EndsWith own t

theorem stepEndsWith_next (h : EndsWith own s) : StepEndsWith own (.next s) := by
  intro t ht
  cases ht
  exact h

theorem stepEndsWith_fault (own : List ErrCode) (f : Fault) : StepEndsWith own (.fault f) := by
  intro t ht
  cases ht

theorem stepEndsWith_complete {e : ErrCode} (he : OutcomeIn own e) (s : State) : StepEndsWith own (.next (complete e s)) :=
  stepEndsWith_next (endsWith_complete he s)

theorem stepEndsWith_settle {x : Body Unit} (h : x.EndsWith own) : StepEndsWith own (.next (settle x)) := by
  cases x with
  | done u t => exact stepEndsWith_next h
  | raised e t => exact stepEndsWith_complete h t

/-- An artifact element runs no command word, and its tests find a corrupt artifact. -/
theorem exec_element_endsWith {i : Instr} (hi : Element i) (h : EndsWith [.corruptStream] s) :
    StepEndsWith [.corruptStream] (exec i s) := by
  cases i with
  | lz77Literal c => exact stepEndsWith_settle (emit_endsWith h c)
  | lz77Match o l => exact stepEndsWith_settle (copyMatch_endsWith h _ _)
  | lz77ReservedFlag f => exact stepEndsWith_complete outcomeIn_corrupt s
  | rlePair n c => exact stepEndsWith_settle (emitRepeat_endsWith h _ _)
  | huffmanSingle high c n => exact stepEndsWith_settle (repeatSymbol_endsWith h _ _ _)
  | huffmanTreeFlag => exact stepEndsWith_next h
  | huffmanReservedFlag f => exact stepEndsWith_complete outcomeIn_corrupt s
  | huffmanTreeLeaf x =>
    simp only [exec, execHuffmanTreeLeaf]
    split
    · exact stepEndsWith_complete outcomeIn_corrupt s
    · exact stepEndsWith_next (afterNode_endsWith h _)
  | huffmanTreeInternal => exact stepEndsWith_next h
  | huffmanTrailing sig =>
    simp only [exec, execHuffmanTrailing]
    split
    · exact stepEndsWith_complete outcomeIn_corrupt s
    · split
      · exact stepEndsWith_complete outcomeIn_corrupt s
      · exact stepEndsWith_next h
  | selCompress | selDecompress | rleCompress | rleDecompress => exact absurd rfl (hi _)
  | lz77Compress | lz77Decompress | hufCompress | hufDecompress => exact absurd rfl (hi _)
  | reservedOp0 | reservedOp9 | reservedOpA | reservedOpB => exact absurd rfl (hi _)
  | reservedOpC | reservedOpD | reservedOpE | reservedOpF => exact absurd rfl (hi _)
  | reservedHigh w => exact absurd rfl (hi _)

/-- An error of the fetch completes the command; otherwise the outcome is that of the element. -/
theorem runFetched_endsWith {x : Body Code} (hx : x.EndsWith own)
    (hexec : ∀ c t i, x = .done c t → decode c = .ok i → EndsWith own t → StepEndsWith own (exec i t)) :
    StepEndsWith own (runFetched exec x) := by
  cases x with
  | raised e t => exact stepEndsWith_complete hx t
  | done c t =>
    simp only [runFetched]
    split
    next i hi => exact hexec c t i rfl hi hx
    · intro u hu
      cases hu

theorem runFetched_element_endsWith {x : Body Code} (hx : x.EndsWith [.corruptStream]) (he : FetchesElement x) :
    StepEndsWith [.corruptStream] (runFetched exec x) := by
  refine runFetched_endsWith hx fun c t i hdone hi ht => ?_
  obtain ⟨j, hj, helem⟩ := he c t hdone
  obtain rfl : j = i := by simpa [hj] using hi
  exact exec_element_endsWith helem ht

/-- RLE decompression raises no `CorruptStream` (R233): what it fetches is a pair, and every pair has a meaning (R213). -/
theorem runFetched_rle_endsWith (h : EndsWith own s) : StepEndsWith own (runFetched exec (fetchRle s)) := by
  refine runFetched_endsWith (fetchRle_endsWith h) fun c t i hdone hi ht => ?_
  obtain ⟨bs, s1, _, hcode⟩ := Body.bind_eq_done.mp hdone
  cases hcode
  obtain ⟨n, b, rfl⟩ := decodeRle_ok hi
  exact stepEndsWith_settle (emitRepeat_endsWith ht b _)

theorem runWhileInput_endsWith {fetch : State → Body Code} (h : StepEndsWith own (runFetched exec (fetch s))) :
    StepEndsWith own (runWhileInput exec fetch s) := by
  unfold runWhileInput
  split
  · exact h
  · exact stepEndsWith_complete (outcomeIn_success own) s

theorem hufBuildStep_endsWith (h : EndsWith own s) : StepEndsWith own (hufBuildStep s) := by
  unfold hufBuildStep
  split
  · exact stepEndsWith_fault own _
  · exact stepEndsWith_next h
  · split
    · exact stepEndsWith_fault own _
    · split
      · exact stepEndsWith_next h
      · exact stepEndsWith_fault own _

theorem hufCodesStep_endsWith (h : EndsWith own s) : StepEndsWith own (hufCodesStep s) := by
  unfold hufCodesStep
  split
  · exact stepEndsWith_settle ((emitElement_endsWith h _).bind fun _ _ h1 => h1)
  · split
    · exact stepEndsWith_fault own _
    · exact stepEndsWith_next h
    · exact stepEndsWith_next h

theorem hufTreeStep_endsWith (h : EndsWith own s) : StepEndsWith own (hufTreeStep s) := by
  have visited : ∀ work, EndsWith own { s with huf := work } := fun _ => h
  unfold hufTreeStep
  split
  · exact stepEndsWith_settle ((flushBits_endsWith h).bind fun _ _ h1 => h1)
  · split
    · exact stepEndsWith_fault own _
    · exact stepEndsWith_settle (emitElement_endsWith (visited _) _)
    · exact stepEndsWith_settle (emitElement_endsWith (visited _) _)

theorem arriveAt_endsWith (h : EndsWith own s) (i : Nat) : StepEndsWith own (arriveAt i s) := by
  unfold arriveAt
  split
  · exact stepEndsWith_fault own _
  · exact stepEndsWith_settle ((emit_endsWith h _).bind fun _ _ h1 => h1)
  · exact stepEndsWith_next h

/-- A body bit at a leaf has no child to go to (R184, R185). -/
theorem takeBit_endsWith (h : EndsWith [.corruptStream] s) (b : Bool) : StepEndsWith [.corruptStream] (takeBit b s) := by
  unfold takeBit
  split
  · exact stepEndsWith_fault _ _
  · exact stepEndsWith_complete outcomeIn_corrupt s
  · exact arriveAt_endsWith h _

/-- The end of the body is corrupt inside a code (R184). -/
theorem hufWalkStep_endsWith (h : EndsWith [.corruptStream] s) : StepEndsWith [.corruptStream] (hufWalkStep s) := by
  have hread := readBit_endsWith h
  unfold hufWalkStep
  split
  · refine stepEndsWith_complete ?_ s
    split
    · exact outcomeIn_success _
    · exact outcomeIn_corrupt
  · split
    next e s1 hx =>
      rw [hx] at hread
      exact stepEndsWith_complete hread s1
    next b s1 hx =>
      rw [hx] at hread
      have counted : EndsWith [.corruptStream] { s1 with huf := { s1.huf with bitsLeft := s1.huf.bitsLeft - 1 } } := hread
      exact takeBit_endsWith counted b

theorem runPhase_endsWith (hb : s.status.busy = true) : StepEndsWith s.phase.ownErrors (runPhase exec s) := by
  have runs : ∀ own, EndsWith own s := endsWith_of_busy hb
  unfold runPhase
  split
  next => exact stepEndsWith_fault _ _
  next => exact stepEndsWith_settle (rleEncodeStep_endsWith (runs _))
  next => exact runWhileInput_endsWith (runFetched_rle_endsWith (runs _))
  next => exact stepEndsWith_settle (lzChunkStep_endsWith (runs _))
  next => exact stepEndsWith_settle (lzEncodeStep_endsWith (runs _))
  next hp =>
    rw [hp]
    exact runWhileInput_endsWith (runFetched_element_endsWith (fetchLz77_endsWith (runs _)) (fetchLz77_element s))
  next hp =>
    rw [hp]
    exact stepEndsWith_settle (hufCountStep_endsWith (runs _))
  next => exact hufBuildStep_endsWith (runs _)
  next => exact hufCodesStep_endsWith (runs _)
  next => exact hufTreeStep_endsWith (runs _)
  next => exact stepEndsWith_settle (hufBodyStep_endsWith (runs _))
  next hp =>
    rw [hp]
    exact runWhileInput_endsWith (runFetched_element_endsWith (fetchHufHeader_endsWith (runs _)) (fetchHufHeader_element s))
  next hp =>
    rw [hp]
    exact runFetched_element_endsWith (fetchHufNode_endsWith (runs _)) (fetchHufNode_element s)
  next hp =>
    rw [hp]
    exact runFetched_element_endsWith (fetchHufTrailing_endsWith (runs _)) (fetchHufTrailing_element s)
  next hp =>
    rw [hp]
    exact hufWalkStep_endsWith (runs _)

end Pieces

/-- Settles O60: the step is its phase's (R267), and `Phase.ownErrors` is read off for each body. -/
theorem errorsOfEachBody : Obligations.ErrorsOfEachBody := by
  intro s t hin hb hstep hidle
  have houtcome : OutcomeIn s.phase.ownErrors t.status.err :=
    runPhase_endsWith hb t (step_running hin hb ▸ hstep) hidle
  refine ⟨?_, ?_, ?_, ?_⟩
  · rintro (hp | hp | hp | hp) <;> simpa [OutcomeIn, hp, Phase.ownErrors] using houtcome
  · intro hp
    simpa [OutcomeIn, hp, Phase.ownErrors] using houtcome
  · rintro (hp | hp | hp | hp) <;> simpa [OutcomeIn, hp, Phase.ownErrors] using houtcome
  · rintro (hp | hp | hp | hp | hp) <;> simpa [OutcomeIn, hp, Phase.ownErrors] using houtcome

end Sys2Proof.Machine

/-! ## Reset -/

namespace Sys2Proof.Machine

open Sys2Proof

/-- A platform reset is the next input (R260). -/
theorem step_reset {s : State} {rest : List Event} (h : s.inputs = .reset :: rest) :
    step s = .next (warmReset { s with inputs := rest }) := by
  simp only [step, stepWith, h]

/-- An idle engine waits (R246, R260). -/
theorem engineStep_idle {s : State} (hb : s.status.busy = false) : engineStep exec s = .next s := by
  simp [engineStep, hb]

theorem readReg_reset (r : Reg) : readReg r State.reset = 0#32 := by
  cases r <;> rfl

/-- A platform reset leaves the registers as the power-on reset does (R260). -/
theorem readReg_warmReset (r : Reg) (s : State) : readReg r (warmReset s) = 0#32 := by
  have same : readReg r (warmReset s) = readReg r State.reset := by cases r <;> rfl
  exact same.trans (readReg_reset r)

/-- Settles O1: no input is listed at reset, so the step is the idle engine's. -/
theorem resetRegistersReadZero : Obligations.ResetRegistersReadZero :=
  ⟨readReg_reset, rfl, rfl, rfl, (step_engine rfl).trans (engineStep_idle rfl)⟩

/-- Settles O3: both clauses are about `warmReset`, which does not look at BUSY. -/
theorem resetAbandonsRunningCommand : Obligations.ResetAbandonsRunningCommand := by
  have waits : ∀ s, engineStep exec (warmReset s) = .next (warmReset s) := fun _ => engineStep_idle rfl
  refine ⟨fun s rest _ h => ?_, fun s rest h => ?_⟩
  · exact ⟨_, step_reset h, (readReg_warmReset · _), rfl, rfl, rfl, rfl, rfl, rfl, waits _⟩
  · exact ⟨_, step_reset h, (readReg_warmReset · _), rfl, rfl, rfl, rfl, rfl, waits _⟩

end Sys2Proof.Machine

/-! ## The step of a decompressor -/

namespace Sys2Proof.Machine

open Sys2Proof

/-- A fetched form that decodes is run as the instruction it decodes to. -/
theorem runFetched_ok {x : Body Code} {c : Code} {t : State} {i : Instr} (hx : x = .done c t)
    (hd : decode c = .ok i) : runFetched exec x = exec i t := by
  simp only [runFetched, hx, hd]

/-- Settles O16: in each of the five phases the step is `runFetched` of the phase's fetch, in three of them while input is
left. -/
theorem stepRunsFetchedElement : Obligations.StepRunsFetchedElement := by
  intro s s1 c i hin hb hplace hd
  rw [step_running hin hb]
  rcases hplace with ⟨hp, hlt, hx⟩ | ⟨hp, hlt, hx⟩ | ⟨hp, hlt, hx⟩ | ⟨hp, hx⟩ | ⟨hp, hx⟩
  · rw [runPhase_rleDecode hp, runWhileInput, if_pos hlt, runFetched_ok hx hd]
  · rw [runPhase_lzDecode hp, runWhileInput, if_pos hlt, runFetched_ok hx hd]
  · rw [runPhase_hufHeader hp, runWhileInput, if_pos hlt, runFetched_ok hx hd]
  · rw [runPhase_hufParse hp, runFetched_ok hx hd]
  · rw [runPhase_hufExtent hp, runFetched_ok hx hd]

end Sys2Proof.Machine

/-! ## What one engine step can do

A running command's step works on the engine's own units, the cursors, OUT and the draws (`WorkFrame`), or it completes the
command: `engineStep_turns`. It needs no invariant. -/

namespace Sys2Proof.Machine

open Sys2Proof

/-- The body of a command works on no more than the cursors, OUT, the draws, the free values, its place and the codecs' units: not
on STATUS, IN, or the offsets the host has written (R53, R61, R74, R263). -/
def WorkFrame (s t : State) : Prop :=
  t = { s with
        inPos := t.inPos, outMem := t.outMem, outPos := t.outPos, env := t.env, freeCount := t.freeCount
        writer := t.writer, reader := t.reader, phase := t.phase, lz := t.lz, huf := t.huf }

theorem WorkFrame.refl (s : State) : WorkFrame s s := rfl

theorem WorkFrame.trans {s t u : State} (h1 : WorkFrame s t) (h2 : WorkFrame t u) : WorkFrame s u := by
  unfold WorkFrame at *
  rw [h2, h1]

theorem BodyFrame.workFrame {s t : State} (h : BodyFrame s t) : WorkFrame s t := by
  unfold BodyFrame at h
  unfold WorkFrame
  rw [h]

theorem WorkFrame.hazards {s t : State} (h : WorkFrame s t) : t.hazards = s.hazards := (congrArg State.hazards h :)

/-- The command of `s` has worked on, or is complete. -/
def Turned (s t : State) : Prop := WorkFrame s t ∨ ∃ e u, t = complete e u

theorem turned_complete (s : State) (e : ErrCode) (u : State) : Turned s (complete e u) := .inr ⟨e, u, rfl⟩

/-- Where the piece of a body goes on, `P` holds. -/
def Body.GoesOnIn {α : Type} (P : State → Prop) : Body α → Prop
  | .done _ t => P t
  | .raised _ _ => True

theorem Body.GoesOnIn.intro {α : Type} {P : State → Prop} {x : Body α} (h : ∀ a t, x = .done a t → P t) :
    x.GoesOnIn P := by
  cases x with
  | done a t => exact h a t rfl
  | raised e t => trivial

theorem Body.GoesOnIn.bind {α β : Type} {P Q : State → Prop} {x : Body α} {f : α → State → Body β} (hx : x.GoesOnIn P)
    (hf : ∀ a t, P t → (f a t).GoesOnIn Q) : (x.bind f).GoesOnIn Q := by
  cases x with
  | done a t => exact hf a t hx
  | raised e t => trivial

/-- Every piece goes on somewhere, or not at all. -/
theorem Body.GoesOnIn.any {α : Type} {x : Body α} : x.GoesOnIn fun _ => True := .intro fun _ _ _ => trivial

section Pieces

variable {s0 s : State}

/-! ### Reads of IN -/

theorem inByte_works (h : WorkFrame s0 s) (k : Nat) : (inByte k s).GoesOnIn (WorkFrame s0) := by
  refine .intro fun b t hx => h.trans ?_
  obtain ⟨_, hf, _⟩ := inByte_done hx
  unfold WorkFrame
  rw [hf]

theorem nextByte_works (h : WorkFrame s0 s) : (nextByte s).GoesOnIn (WorkFrame s0) :=
  (inByte_works h _).bind fun _ _ h1 => h1.trans rfl

theorem nextBytes_works (h : WorkFrame s0 s) (n : Nat) : (nextBytes n s).GoesOnIn (WorkFrame s0) := by
  refine .intro fun bs t hx => h.trans ?_
  obtain ⟨_, hf, _⟩ := nextBytes_done hx
  unfold WorkFrame
  rw [hf]

theorem countRun_works (h : WorkFrame s0 s) (c : Byte) (k more run : Nat) :
    (countRun c k more run s).GoesOnIn (WorkFrame s0) := by
  induction more generalizing run s with
  | zero => exact h
  | succ more ih =>
    unfold countRun
    split
    · refine (inByte_works h _).bind fun b t h1 => ?_
      split
      · exact ih h1 _
      · exact h1
    · exact h

theorem readChunk_works (h : WorkFrame s0 s) (k n : Nat) : (readChunk k n s).GoesOnIn (WorkFrame s0) := by
  induction n generalizing k s with
  | zero => exact h
  | succ n ih => exact (inByte_works h k).bind fun _ _ h1 => (ih h1 _).bind fun _ _ h2 => h2

theorem readBit_works (h : WorkFrame s0 s) : (readBit s).GoesOnIn (WorkFrame s0) := by
  have latched : (latchByte s).GoesOnIn (WorkFrame s0) := by
    unfold latchByte
    split
    · exact (inByte_works h _).bind fun _ _ h1 => h1.trans rfl
    · exact h
  exact latched.bind fun _ _ h1 => h1.trans rfl

theorem readBits_works (h : WorkFrame s0 s) (n : Nat) : (readBits n s).GoesOnIn (WorkFrame s0) := by
  induction n generalizing s with
  | zero => exact h
  | succ n ih => exact (readBit_works h).bind fun _ _ h1 => (ih h1).bind fun _ _ h2 => h2

/-! ### Writes of OUT -/

theorem emit_works (h : WorkFrame s0 s) (b : Byte) : (emit b s).GoesOnIn (WorkFrame s0) :=
  .intro fun _ _ hx => h.trans (emit_done hx).2.1.bodyFrame.workFrame

theorem emitAll_works (h : WorkFrame s0 s) (bs : List Byte) : (emitAll bs s).GoesOnIn (WorkFrame s0) :=
  .intro fun _ _ hx => h.trans (emitAll_done hx).1.bodyFrame.workFrame

theorem emitRepeat_works (h : WorkFrame s0 s) (c : Byte) (n : Nat) : (emitRepeat c n s).GoesOnIn (WorkFrame s0) := by
  rw [emitRepeat_eq_emitAll]
  exact emitAll_works h _

theorem copyMatch_works (h : WorkFrame s0 s) (offset length : Nat) :
    (copyMatch offset length s).GoesOnIn (WorkFrame s0) := by
  unfold copyMatch
  split
  · trivial
  · split
    · trivial
    · exact .intro fun _ _ hx => h.trans (copyOut_done hx).1.bodyFrame.workFrame

theorem putBit_works (h : WorkFrame s0 s) (b : Bool) : (putBit b s).GoesOnIn (WorkFrame s0) := by
  have written : ∀ w, WorkFrame s0 { s with writer := w } := fun _ => h.trans rfl
  simp only [putBit]
  split
  · exact (emit_works (written _) _).bind fun _ _ h1 => h1.trans rfl
  · exact written _

theorem putBits_works (h : WorkFrame s0 s) (bs : List Bool) : (putBits bs s).GoesOnIn (WorkFrame s0) := by
  induction bs generalizing s with
  | nil => exact h
  | cons b bs ih => exact (putBit_works h b).bind fun _ _ h1 => ih h1

theorem flushBits_works (h : WorkFrame s0 s) : (flushBits s).GoesOnIn (WorkFrame s0) := by
  unfold flushBits
  split
  · exact (emit_works h _).bind fun _ _ h1 => h1.trans rfl
  · exact h.trans rfl

theorem emitElement_works (h : WorkFrame s0 s) (i : Instr) : (emitElement i s).GoesOnIn (WorkFrame s0) := by
  unfold emitElement
  cases encode i with
  | command w => exact h
  | lz77 bs | rle bs | hufHeader bs | hufTrailing bs => exact emitAll_works h bs
  | hufNode bits => exact putBits_works h bits

/-! ### The fetches -/

theorem fetchRle_works (h : WorkFrame s0 s) : (fetchRle s).GoesOnIn (WorkFrame s0) :=
  (nextBytes_works h 2).bind fun _ _ h1 => h1

theorem fetchLz77_works (h : WorkFrame s0 s) : (fetchLz77 s).GoesOnIn (WorkFrame s0) :=
  (nextByte_works h).bind fun _ _ h1 => (nextBytes_works h1 _).bind fun _ _ h2 => h2

theorem fetchHufHeader_works (h : WorkFrame s0 s) : (fetchHufHeader s).GoesOnIn (WorkFrame s0) :=
  (nextByte_works h).bind fun _ _ h1 => (nextBytes_works h1 _).bind fun _ _ h2 => h2

theorem fetchHufNode_works (h : WorkFrame s0 s) : (fetchHufNode s).GoesOnIn (WorkFrame s0) := by
  unfold fetchHufNode
  split
  · trivial
  · refine (readBit_works h).bind fun _ t h1 => ?_
    have counted : WorkFrame s0 (countNode t) := h1.trans rfl
    exact (readBits_works counted _).bind fun _ _ h2 => h2

theorem fetchHufTrailing_works (h : WorkFrame s0 s) : (fetchHufTrailing s).GoesOnIn (WorkFrame s0) := by
  unfold fetchHufTrailing
  split
  · trivial
  · exact (inByte_works h _).bind fun _ _ h1 => h1

/-! ### The turns of the compressors -/

theorem rleEncodeStep_turns (h : WorkFrame s0 s) : (rleEncodeStep s).GoesOnIn (Turned s0) := by
  unfold rleEncodeStep
  split
  · refine (inByte_works h _).bind fun c _ h1 => (countRun_works h1 c _ _ _).bind fun run _ h2 => ?_
    exact (emitElement_works h2 _).bind fun _ _ h3 => .inl (h3.trans rfl)
  · exact turned_complete s0 _ s

theorem lzChunkStep_turns (h : WorkFrame s0 s) : (lzChunkStep s).GoesOnIn (Turned s0) := by
  unfold lzChunkStep
  split
  · exact (readChunk_works h _ _).bind fun _ _ h1 => .inl (h1.trans rfl)
  · exact turned_complete s0 _ s

theorem lzEncodeStep_works (h : WorkFrame s0 s) : (lzEncodeStep s).GoesOnIn (WorkFrame s0) := by
  unfold lzEncodeStep
  split
  · exact h.trans rfl
  · exact (emitElement_works h _).bind fun _ _ h1 => h1.trans rfl

theorem hufCountStep_turns (h : WorkFrame s0 s) : (hufCountStep s).GoesOnIn (Turned s0) := by
  unfold hufCountStep
  split
  · exact (inByte_works h _).bind fun _ _ h1 => .inl (h1.trans rfl)
  · split
    · exact turned_complete s0 _ s
    · exact Body.GoesOnIn.any.bind fun _ t _ => turned_complete s0 _ t
    · exact .inl (h.trans rfl)

theorem hufBodyStep_turns (h : WorkFrame s0 s) : (hufBodyStep s).GoesOnIn (Turned s0) := by
  unfold hufBodyStep
  split
  · refine (inByte_works h _).bind fun c t h1 => ?_
    have coded : WorkFrame s0 (codeOf c t).2 := by
      unfold codeOf
      split
      · exact h1
      · exact h1.trans rfl
    exact (putBits_works coded _).bind fun _ _ h2 => .inl (h2.trans rfl)
  · refine (flushBits_works h).bind fun sig _ h1 => ?_
    exact (emitElement_works h1 _).bind fun _ t _ => turned_complete s0 _ t

/-! ### One engine step -/

/-- What a step answers is a turn of the command that `s` runs. -/
def StepTurns (s : State) (o : Host.Outcome State Fault Refusal) : Prop := ∀ t, o = .next t → Turned s t

theorem stepTurns_next {t : State} (h : Turned s0 t) : StepTurns s0 (.next t) := by
  intro u hu
  cases hu
  exact h

theorem stepTurns_fault (f : Fault) : StepTurns s0 (.fault f) := by
  intro t ht
  cases ht

theorem stepTurns_complete (e : ErrCode) (u : State) : StepTurns s0 (.next (complete e u)) :=
  stepTurns_next (turned_complete s0 e u)

theorem stepTurns_settle {x : Body Unit} (h : x.GoesOnIn (Turned s0)) : StepTurns s0 (.next (settle x)) := by
  cases x with
  | done u t => exact stepTurns_next h
  | raised e t => exact stepTurns_complete e t

/-- A piece that works on is a turn. -/
theorem stepTurns_works {x : Body Unit} (h : x.GoesOnIn (WorkFrame s0)) : StepTurns s0 (.next (settle x)) := by
  cases x with
  | done u t => exact stepTurns_next (.inl h)
  | raised e t => exact stepTurns_complete e t

theorem repeatSymbol_turns (s0 s : State) (high c : Byte) (n : Nat) : (repeatSymbol high c n s).GoesOnIn (Turned s0) := by
  unfold repeatSymbol
  split
  · trivial
  · split
    · trivial
    · exact Body.GoesOnIn.any.bind fun _ t _ => turned_complete s0 _ t

theorem afterNode_works (h : WorkFrame s0 s) (r : HufWork × Bool) : WorkFrame s0 (afterNode r s) := by
  unfold afterNode alignRead
  split
  · split
    · exact h.trans rfl
    · exact h.trans rfl
  · exact h.trans rfl

/-- A decompressor's effect of each artifact element. -/
theorem exec_element_turns {i : Instr} (hi : Element i) (h : WorkFrame s0 s) : StepTurns s0 (exec i s) := by
  cases i with
  | lz77Literal c => exact stepTurns_works (emit_works h c)
  | lz77Match o l => exact stepTurns_works (copyMatch_works h _ _)
  | lz77ReservedFlag f => exact stepTurns_complete _ s
  | rlePair n c => exact stepTurns_works (emitRepeat_works h _ _)
  | huffmanSingle high c n => exact stepTurns_settle (repeatSymbol_turns s0 s _ _ _)
  | huffmanTreeFlag => exact stepTurns_next (.inl (h.trans rfl))
  | huffmanReservedFlag f => exact stepTurns_complete _ s
  | huffmanTreeLeaf x =>
    simp only [exec, execHuffmanTreeLeaf]
    split
    · exact stepTurns_complete _ s
    · exact stepTurns_next (.inl (afterNode_works h _))
  | huffmanTreeInternal => exact stepTurns_next (.inl (h.trans rfl))
  | huffmanTrailing sig =>
    simp only [exec, execHuffmanTrailing]
    split
    · exact stepTurns_complete _ s
    · split
      · exact stepTurns_complete _ s
      · exact stepTurns_next (.inl (h.trans rfl))
  | selCompress | selDecompress | rleCompress | rleDecompress => exact absurd rfl (hi _)
  | lz77Compress | lz77Decompress | hufCompress | hufDecompress => exact absurd rfl (hi _)
  | reservedOp0 | reservedOp9 | reservedOpA | reservedOpB => exact absurd rfl (hi _)
  | reservedOpC | reservedOpD | reservedOpE | reservedOpF => exact absurd rfl (hi _)
  | reservedHigh w => exact absurd rfl (hi _)

theorem runFetched_turns {x : Body Code} (hx : x.GoesOnIn (WorkFrame s0)) (he : FetchesElement x) :
    StepTurns s0 (runFetched exec x) := by
  rcases runFetched_eq he with ⟨e, t, rfl, hrun⟩ | ⟨c, t, i, rfl, helem, hrun⟩
  · rw [hrun]
    exact stepTurns_complete e t
  · rw [hrun]
    exact exec_element_turns helem hx

theorem runWhileInput_turns {fetch : State → Body Code} (hx : (fetch s).GoesOnIn (WorkFrame s0))
    (he : FetchesElement (fetch s)) : StepTurns s0 (runWhileInput exec fetch s) := by
  unfold runWhileInput
  split
  · exact runFetched_turns hx he
  · exact stepTurns_complete _ s

theorem hufBuildStep_turns (h : WorkFrame s0 s) : StepTurns s0 (hufBuildStep s) := by
  unfold hufBuildStep
  split
  · exact stepTurns_fault _
  · exact stepTurns_next (.inl (h.trans rfl))
  · split
    · exact stepTurns_fault _
    · split
      · exact stepTurns_next (.inl (h.trans rfl))
      · exact stepTurns_fault _

theorem hufCodesStep_turns (h : WorkFrame s0 s) : StepTurns s0 (hufCodesStep s) := by
  unfold hufCodesStep
  split
  · exact stepTurns_works ((emitElement_works h _).bind fun _ _ h1 => h1.trans rfl)
  · split
    · exact stepTurns_fault _
    · exact stepTurns_next (.inl (h.trans rfl))
    · exact stepTurns_next (.inl (h.trans rfl))

theorem hufTreeStep_turns (h : WorkFrame s0 s) : StepTurns s0 (hufTreeStep s) := by
  have visited : ∀ work, WorkFrame s0 { s with huf := work } := fun _ => h.trans rfl
  unfold hufTreeStep
  split
  · exact stepTurns_works ((flushBits_works h).bind fun _ _ h1 => h1.trans rfl)
  · split
    · exact stepTurns_fault _
    · exact stepTurns_works (emitElement_works (visited _) _)
    · exact stepTurns_works (emitElement_works (visited _) _)

theorem takeBit_turns (h : WorkFrame s0 s) (b : Bool) : StepTurns s0 (takeBit b s) := by
  have arrives : ∀ i, StepTurns s0 (arriveAt i s) := by
    intro i
    unfold arriveAt
    split
    · exact stepTurns_fault _
    · exact stepTurns_works ((emit_works h _).bind fun _ _ h1 => h1.trans rfl)
    · exact stepTurns_next (.inl (h.trans rfl))
  unfold takeBit
  split
  · exact stepTurns_fault _
  · exact stepTurns_complete _ s
  · exact arrives _

theorem hufWalkStep_turns (h : WorkFrame s0 s) : StepTurns s0 (hufWalkStep s) := by
  have hread := readBit_works h
  unfold hufWalkStep
  split
  · exact stepTurns_complete _ s
  · split
    next e s1 _ => exact stepTurns_complete e s1
    next b s1 hx =>
      rw [hx] at hread
      have counted : WorkFrame s0 { s1 with huf := { s1.huf with bitsLeft := s1.huf.bitsLeft - 1 } } := hread.trans rfl
      exact takeBit_turns counted b

theorem runPhase_turns (s : State) : StepTurns s (runPhase exec s) := by
  have here := WorkFrame.refl s
  unfold runPhase
  split
  next => exact stepTurns_fault _
  next => exact stepTurns_settle (rleEncodeStep_turns here)
  next => exact runWhileInput_turns (fetchRle_works here) (fetchRle_element s)
  next => exact stepTurns_settle (lzChunkStep_turns here)
  next => exact stepTurns_works (lzEncodeStep_works here)
  next => exact runWhileInput_turns (fetchLz77_works here) (fetchLz77_element s)
  next => exact stepTurns_settle (hufCountStep_turns here)
  next => exact hufBuildStep_turns here
  next => exact hufCodesStep_turns here
  next => exact hufTreeStep_turns here
  next => exact stepTurns_settle (hufBodyStep_turns here)
  next => exact runWhileInput_turns (fetchHufHeader_works here) (fetchHufHeader_element s)
  next => exact runFetched_turns (fetchHufNode_works here) (fetchHufNode_element s)
  next => exact runFetched_turns (fetchHufTrailing_works here) (fetchHufTrailing_element s)
  next => exact hufWalkStep_turns here

theorem engineStep_turns (s : State) : StepTurns s (engineStep exec s) := by
  unfold engineStep
  split
  · exact runPhase_turns s
  · exact stepTurns_next (.inl rfl)

end Pieces

end Sys2Proof.Machine

/-! ## The host's accesses to IN and OUT during a command -/

namespace Sys2Proof.Machine

open Sys2Proof

/-- An engine read of an offset the host has written takes the next free byte (R263). -/
theorem fetchIn_hazard {k : Nat} {s : State} (hk : k ∈ s.hazards) : fetchIn k s = takeAnyByte s :=
  if_pos (List.contains_iff_mem.mpr hk)

theorem inByte_hazard {k : Nat} {s u : State} {c : Byte} (hk : k ∈ s.hazards) (h : inByte k s = .done c u) :
    c = Config.anyByte s.freeCount ∧ u.freeCount = s.freeCount + 1 := by
  obtain ⟨hlt, _⟩ := inByte_done h
  have hdrawn : k ∈ (drawRead k s).2.hazards := by
    rw [drawRead_frame]
    exact hk
  have hcount : (drawRead k s).2.freeCount = s.freeCount := by rw [drawRead_frame]
  rw [inByte_of_lt hlt, fetchIn_hazard hdrawn, takeAnyByte, hcount] at h
  split at h
  · cases h
  · cases h
    exact ⟨rfl, rfl⟩

/-- A write of IN during a command, below `N`, is noted (R263). -/
theorem hostWriteIn_busy {s : State} {k : Nat} (hb : s.status.busy = true) (hk : k < s.params.inSize)
    (hn : k < s.srcCount) (b : Byte) :
    hostWriteIn k b s = .next { s with inMem := Memory.write s.inMem k b, hazards := k :: s.hazards } := by
  have hnoted : s.status.busy = true ∧ k < s.srcCount := ⟨hb, hn⟩
  exact (if_pos hk).trans (congrArg _ (if_pos hnoted))

/-- A read of OUT during a command takes the next free byte (R263). -/
theorem hostReadOut_busy {s : State} {k : Nat} (hb : s.status.busy = true) (hk : k < s.params.outSize) :
    hostReadOut k s = .next
      { s with freeCount := s.freeCount + 1, readLog := (Config.anyByte s.freeCount).setWidth 32 :: s.readLog } := by
  simp [hostReadOut, hostFetchOut, takeAnyByte, logRead, hk, hb]

/-! ### The written offsets are kept while the command runs -/

/-- After the step, a command that still runs has all of the written offsets `hz`. -/
def KeepsHazards (hz : List Nat) (o : Host.Outcome State Fault Refusal) : Prop :=
  ∀ t, o = .next t → t.status.busy = true → hz ⊆ t.hazards

theorem keepsHazards_next {hz : List Nat} {t : State} (h : hz ⊆ t.hazards) : KeepsHazards hz (.next t) := by
  intro u hu _
  cases hu
  exact h

theorem keepsHazards_refused (hz : List Nat) (r : Refusal) : KeepsHazards hz (.refused r) := by
  intro t ht
  cases ht

/-- A turn of the engine leaves the written offsets as they are, or completes the command. -/
theorem engineStep_keepsHazards (s : State) : KeepsHazards s.hazards (engineStep exec s) := by
  intro t ht hbusy
  rcases engineStep_turns s t ht with hwork | ⟨e, u, rfl⟩
  · rw [hwork.hazards]
    exact List.Subset.refl _
  · simp at hbusy

theorem noteHazard_keepsHazards (k : Nat) (s : State) : s.hazards ⊆ (noteHazard k s).hazards := by
  unfold noteHazard
  split
  · exact List.subset_cons_self k _
  · exact List.Subset.refl _

theorem hostFetchOut_keepsHazards (k : Nat) (s : State) : s.hazards ⊆ (hostFetchOut k s).2.hazards := by
  unfold hostFetchOut
  split
  · exact List.Subset.refl _
  · exact List.Subset.refl _

theorem hostAccess_keepsHazards {s : State} (hb : s.status.busy = true) (op : HostOp) :
    KeepsHazards s.hazards (hostAccess exec op s) := by
  have same := List.Subset.refl s.hazards
  cases op with
  | regWrite width offset v =>
    simp only [hostAccess]
    split
    · exact keepsHazards_refused _ _
    · rw [writeCmd_busy hb]
      exact keepsHazards_next same
    · rw [writeReg_busy hb]
      exact keepsHazards_next same
  | regRead width offset =>
    simp only [hostAccess]
    split
    · exact keepsHazards_refused _ _
    · exact keepsHazards_next same
  | inWrite k b =>
    simp only [hostAccess, hostWriteIn]
    split
    · exact keepsHazards_next (noteHazard_keepsHazards k { s with inMem := Memory.write s.inMem k b })
    · exact keepsHazards_refused _ _
  | outRead k =>
    simp only [hostAccess, hostReadOut]
    split
    · exact keepsHazards_next (hostFetchOut_keepsHazards k s)
    · exact keepsHazards_refused _ _

theorem hostWait_keepsHazards (rest : List Event) (s : State) : KeepsHazards s.hazards (hostWait exec rest s) := by
  unfold hostWait
  split
  · exact keepsHazards_next (List.Subset.refl _)
  · exact engineStep_keepsHazards (logRead s.status.word s)

/-- A reset is the one input that drops them, and it abandons the command (R261). -/
theorem step_keepsHazards {s : State} (hb : s.status.busy = true) : KeepsHazards s.hazards (step s) := by
  unfold step stepWith
  split
  next => exact engineStep_keepsHazards s
  next rest _ => exact engineStep_keepsHazards { s with inputs := rest }
  next op rest _ => exact hostAccess_keepsHazards (s := { s with inputs := rest }) hb op
  next rest _ => exact hostWait_keepsHazards rest s
  next => exact keepsHazards_next (List.Subset.refl _)
  next =>
    intro t ht hbusy
    cases ht
    cases hbusy

/-- Settles O10: a write during a command is noted, `inByte_hazard` says what a noted offset reads as, and
`step_keepsHazards` that it stays noted. -/
theorem busyHostAccessesReadAnyValue : Obligations.BusyHostAccessesReadAnyValue := by
  refine ⟨fun s rest k b hb => ⟨fun h hk hn => ?_, fun h hk => ?_⟩, fun s u k c hk h => inByte_hazard hk h,
    fun s t hb hstep hbusy k hk => step_keepsHazards hb t hstep hbusy hk⟩
  · have hstep : step s = .next
        { s with inputs := rest, inMem := Memory.write s.inMem k b, hazards := k :: s.hazards } := by
      rw [step_host h]
      exact hostWriteIn_busy (s := { s with inputs := rest }) hb hk hn b
    refine ⟨_, hstep, rfl, rfl, ?_, List.mem_cons_self, fun a ha => ?_, fun c u h => ?_⟩
    · simp [State.inByteAt, Memory.read_write_same]
    · simp [State.inByteAt, Memory.read_write_other _ _ _ _ ha]
    · exact (inByte_hazard List.mem_cons_self h).1
  · rw [step_host h]
    exact hostReadOut_busy (s := { s with inputs := rest }) hb hk

end Sys2Proof.Machine
